-- ==== Sys2Proof/Word.lean ====
section
/-! DEFINITION. The words of the engine: bytes and 32-bit registers (rules R11, R31). -/

namespace Sys2Proof

/-- One byte of either stream, or of an 8-bit array (rule R83). -/
abbrev Byte := BitVec 8

/-- A 32-bit host register, command word or CRC (rules R31, R100, R49). -/
abbrev Word := BitVec 32

end Sys2Proof
end

