-- ==== Sys2Proof/Syntax.lean ====
section
/-! DEFINITION. The commands of the engine: one constructor per row of spec/opcode_table.json (rule R104), with the fields of the
command word that the command uses, each at its width (rules R100, R101). The ARG register is read when the command runs. -/

namespace Sys2Proof

inductive Instr where
  | nop
  | brReadBits (n : BitVec 5)
  | brReadBool
  | brReadUnary (limit : BitVec 16)
  | brReadInt32
  | bwWriteBits (n : BitVec 5)
  | bwWriteBool
  | bwWriteUnary
  | bwFlush
  | bwWriteInt32
  | rle1Put
  | rle1Flush
  | rle1Get
  | rle1GetBlk
  | bwtForward
  | bwtInvSetup
  | bwtInvNext
  | bwtGet
  | bwtSetStart
  | mtfInit (decoding : BitVec 1)
  | mtfEncByte
  | mtfEncEnd
  | mtfDecSym
  | mtfReadMap
  | mtfWriteMap
  | mtfGet
  | hufAlloc (t : BitVec 3) (count : BitVec 9)
  | hufSetFreq (t : BitVec 3) (sym : BitVec 9)
  | hufSetGroups
  | hufSeed
  | hufSelectPass
  | hufOptimize
  | hufAssignCodes (t : BitVec 3)
  | hufWriteTables
  | hufEncodeData
  | hufReadTables
  | hufBuildDecode (t : BitVec 3)
  | hufDecodeSym
  | hufEncodeSym (t : BitVec 3)
  | hufSetLen (t : BitVec 3) (sym : BitVec 9)
  | hufGetLen (t : BitVec 3) (sym : BitVec 9)
  | hufGetCode (t : BitVec 3) (sym : BitVec 9)
  | hufGetSel
  | crcInit
  | crcUpdate
  | crcFinal
  | crcCombine
  | crcStreamInit
  | crcReadStream
  | crcReadStored (which : BitVec 1)
  | blkEncOpen (k : BitVec 4)
  | blkEncWrite
  | blkEncClose
  | blkDecStart (k : BitVec 4)
  | blkDecRead
  | blkCheckCrc
  | strEncOpen (k : BitVec 4)
  | strEncWrite
  | strEncFinish
  | strDecOpen (headerless : BitVec 1)
  | strDecRead
  | strClose
  | coreReset
  deriving DecidableEq, Repr

end Sys2Proof
end

