-- ==== Sys2Proof/Decode.lean ====
section
/-! DEFINITION. The decoder of command words, total on every 32-bit word, and the encoder (rules R100 to R106). -/

namespace Sys2Proof

/-- OPC, bits 7:0 of a command word (rule R100). -/
def fieldOpc (w : Word) : BitVec 8 := w.extractLsb' 0 8

/-- N, bits 12:8 of a command word (rule R100). -/
def fieldN (w : Word) : BitVec 5 := w.extractLsb' 8 5

/-- T, bits 15:13 of a command word (rule R100). -/
def fieldT (w : Word) : BitVec 3 := w.extractLsb' 13 3

/-- IMM, bits 31:16 of a command word (rule R100). -/
def fieldImm (w : Word) : BitVec 16 := w.extractLsb' 16 16

/-- Why a word is no command of the opcode map (rule R105). -/
inductive DecodeError where
  /-- The opcode value is reserved and unassigned (rule R105). -/
  | reservedOpcode (opc : BitVec 8)
  deriving DecidableEq, Repr

/-- The command a word stands for: a function of OPC alone, the unused bits ignored (rules R103, R104, R106). -/
def decode (w : Word) : Except DecodeError Instr :=
  match (fieldOpc w).toNat with
  | 0x00 => .ok .nop
  | 0x01 => .ok (.brReadBits (fieldN w))
  | 0x02 => .ok .brReadBool
  | 0x03 => .ok (.brReadUnary (fieldImm w))
  | 0x04 => .ok .brReadInt32
  | 0x08 => .ok (.bwWriteBits (fieldN w))
  | 0x09 => .ok .bwWriteBool
  | 0x0A => .ok .bwWriteUnary
  | 0x0B => .ok .bwFlush
  | 0x0C => .ok .bwWriteInt32
  | 0x10 => .ok .rle1Put
  | 0x11 => .ok .rle1Flush
  | 0x12 => .ok .rle1Get
  | 0x13 => .ok .rle1GetBlk
  | 0x20 => .ok .bwtForward
  | 0x21 => .ok .bwtInvSetup
  | 0x22 => .ok .bwtInvNext
  | 0x23 => .ok .bwtGet
  | 0x24 => .ok .bwtSetStart
  | 0x30 => .ok (.mtfInit ((fieldImm w).setWidth 1))
  | 0x31 => .ok .mtfEncByte
  | 0x32 => .ok .mtfEncEnd
  | 0x33 => .ok .mtfDecSym
  | 0x34 => .ok .mtfReadMap
  | 0x35 => .ok .mtfWriteMap
  | 0x36 => .ok .mtfGet
  | 0x40 => .ok (.hufAlloc (fieldT w) ((fieldImm w).setWidth 9))
  | 0x41 => .ok (.hufSetFreq (fieldT w) ((fieldImm w).setWidth 9))
  | 0x50 => .ok .hufSetGroups
  | 0x51 => .ok .hufSeed
  | 0x52 => .ok .hufSelectPass
  | 0x53 => .ok .hufOptimize
  | 0x54 => .ok (.hufAssignCodes (fieldT w))
  | 0x55 => .ok .hufWriteTables
  | 0x56 => .ok .hufEncodeData
  | 0x57 => .ok .hufReadTables
  | 0x58 => .ok (.hufBuildDecode (fieldT w))
  | 0x59 => .ok .hufDecodeSym
  | 0x5A => .ok (.hufEncodeSym (fieldT w))
  | 0x5B => .ok (.hufSetLen (fieldT w) ((fieldImm w).setWidth 9))
  | 0x5C => .ok (.hufGetLen (fieldT w) ((fieldImm w).setWidth 9))
  | 0x5D => .ok (.hufGetCode (fieldT w) ((fieldImm w).setWidth 9))
  | 0x5E => .ok .hufGetSel
  | 0x60 => .ok .crcInit
  | 0x61 => .ok .crcUpdate
  | 0x62 => .ok .crcFinal
  | 0x63 => .ok .crcCombine
  | 0x64 => .ok .crcStreamInit
  | 0x65 => .ok .crcReadStream
  | 0x66 => .ok (.crcReadStored ((fieldImm w).setWidth 1))
  | 0x70 => .ok (.blkEncOpen ((fieldImm w).setWidth 4))
  | 0x71 => .ok .blkEncWrite
  | 0x72 => .ok .blkEncClose
  | 0x73 => .ok (.blkDecStart ((fieldImm w).setWidth 4))
  | 0x74 => .ok .blkDecRead
  | 0x75 => .ok .blkCheckCrc
  | 0x80 => .ok (.strEncOpen ((fieldImm w).setWidth 4))
  | 0x81 => .ok .strEncWrite
  | 0x82 => .ok .strEncFinish
  | 0x88 => .ok (.strDecOpen ((fieldImm w).setWidth 1))
  | 0x89 => .ok .strDecRead
  | 0x8F => .ok .strClose
  | 0xFF => .ok .coreReset
  | _ => .error (.reservedOpcode (fieldOpc w))

/-- `CMD = (IMM << 16) | (T << 13) | (N << 8) | OPC` (rule R100). -/
def commandWord (imm : BitVec 16) (t : BitVec 3) (n : BitVec 5) (opc : BitVec 8) : Word := imm ++ t ++ n ++ opc

/-- The command word with every unused bit 0, as the assembler writes it (rules R104, R107). -/
def encode : Instr → Word
  | .nop => commandWord 0 0 0 0x00
  | .brReadBits n => commandWord 0 0 n 0x01
  | .brReadBool => commandWord 0 0 0 0x02
  | .brReadUnary limit => commandWord limit 0 0 0x03
  | .brReadInt32 => commandWord 0 0 0 0x04
  | .bwWriteBits n => commandWord 0 0 n 0x08
  | .bwWriteBool => commandWord 0 0 0 0x09
  | .bwWriteUnary => commandWord 0 0 0 0x0A
  | .bwFlush => commandWord 0 0 0 0x0B
  | .bwWriteInt32 => commandWord 0 0 0 0x0C
  | .rle1Put => commandWord 0 0 0 0x10
  | .rle1Flush => commandWord 0 0 0 0x11
  | .rle1Get => commandWord 0 0 0 0x12
  | .rle1GetBlk => commandWord 0 0 0 0x13
  | .bwtForward => commandWord 0 0 0 0x20
  | .bwtInvSetup => commandWord 0 0 0 0x21
  | .bwtInvNext => commandWord 0 0 0 0x22
  | .bwtGet => commandWord 0 0 0 0x23
  | .bwtSetStart => commandWord 0 0 0 0x24
  | .mtfInit decoding => commandWord (decoding.setWidth 16) 0 0 0x30
  | .mtfEncByte => commandWord 0 0 0 0x31
  | .mtfEncEnd => commandWord 0 0 0 0x32
  | .mtfDecSym => commandWord 0 0 0 0x33
  | .mtfReadMap => commandWord 0 0 0 0x34
  | .mtfWriteMap => commandWord 0 0 0 0x35
  | .mtfGet => commandWord 0 0 0 0x36
  | .hufAlloc t count => commandWord (count.setWidth 16) t 0 0x40
  | .hufSetFreq t sym => commandWord (sym.setWidth 16) t 0 0x41
  | .hufSetGroups => commandWord 0 0 0 0x50
  | .hufSeed => commandWord 0 0 0 0x51
  | .hufSelectPass => commandWord 0 0 0 0x52
  | .hufOptimize => commandWord 0 0 0 0x53
  | .hufAssignCodes t => commandWord 0 t 0 0x54
  | .hufWriteTables => commandWord 0 0 0 0x55
  | .hufEncodeData => commandWord 0 0 0 0x56
  | .hufReadTables => commandWord 0 0 0 0x57
  | .hufBuildDecode t => commandWord 0 t 0 0x58
  | .hufDecodeSym => commandWord 0 0 0 0x59
  | .hufEncodeSym t => commandWord 0 t 0 0x5A
  | .hufSetLen t sym => commandWord (sym.setWidth 16) t 0 0x5B
  | .hufGetLen t sym => commandWord (sym.setWidth 16) t 0 0x5C
  | .hufGetCode t sym => commandWord (sym.setWidth 16) t 0 0x5D
  | .hufGetSel => commandWord 0 0 0 0x5E
  | .crcInit => commandWord 0 0 0 0x60
  | .crcUpdate => commandWord 0 0 0 0x61
  | .crcFinal => commandWord 0 0 0 0x62
  | .crcCombine => commandWord 0 0 0 0x63
  | .crcStreamInit => commandWord 0 0 0 0x64
  | .crcReadStream => commandWord 0 0 0 0x65
  | .crcReadStored which => commandWord (which.setWidth 16) 0 0 0x66
  | .blkEncOpen k => commandWord (k.setWidth 16) 0 0 0x70
  | .blkEncWrite => commandWord 0 0 0 0x71
  | .blkEncClose => commandWord 0 0 0 0x72
  | .blkDecStart k => commandWord (k.setWidth 16) 0 0 0x73
  | .blkDecRead => commandWord 0 0 0 0x74
  | .blkCheckCrc => commandWord 0 0 0 0x75
  | .strEncOpen k => commandWord (k.setWidth 16) 0 0 0x80
  | .strEncWrite => commandWord 0 0 0 0x81
  | .strEncFinish => commandWord 0 0 0 0x82
  | .strDecOpen headerless => commandWord (headerless.setWidth 16) 0 0 0x88
  | .strDecRead => commandWord 0 0 0 0x89
  | .strClose => commandWord 0 0 0 0x8F
  | .coreReset => commandWord 0 0 0 0xFF

/-- The bits of the command word that a command uses (rules R103, R104). -/
def Instr.usedBits : Instr → Word
  | .nop => 0x000000FF
  | .brReadBits _ => 0x00001FFF
  | .brReadBool => 0x000000FF
  | .brReadUnary _ => 0xFFFF00FF
  | .brReadInt32 => 0x000000FF
  | .bwWriteBits _ => 0x00001FFF
  | .bwWriteBool => 0x000000FF
  | .bwWriteUnary => 0x000000FF
  | .bwFlush => 0x000000FF
  | .bwWriteInt32 => 0x000000FF
  | .rle1Put => 0x000000FF
  | .rle1Flush => 0x000000FF
  | .rle1Get => 0x000000FF
  | .rle1GetBlk => 0x000000FF
  | .bwtForward => 0x000000FF
  | .bwtInvSetup => 0x000000FF
  | .bwtInvNext => 0x000000FF
  | .bwtGet => 0x000000FF
  | .bwtSetStart => 0x000000FF
  | .mtfInit _ => 0x000100FF
  | .mtfEncByte => 0x000000FF
  | .mtfEncEnd => 0x000000FF
  | .mtfDecSym => 0x000000FF
  | .mtfReadMap => 0x000000FF
  | .mtfWriteMap => 0x000000FF
  | .mtfGet => 0x000000FF
  | .hufAlloc _ _ => 0x01FFE0FF
  | .hufSetFreq _ _ => 0x01FFE0FF
  | .hufSetGroups => 0x000000FF
  | .hufSeed => 0x000000FF
  | .hufSelectPass => 0x000000FF
  | .hufOptimize => 0x000000FF
  | .hufAssignCodes _ => 0x0000E0FF
  | .hufWriteTables => 0x000000FF
  | .hufEncodeData => 0x000000FF
  | .hufReadTables => 0x000000FF
  | .hufBuildDecode _ => 0x0000E0FF
  | .hufDecodeSym => 0x000000FF
  | .hufEncodeSym _ => 0x0000E0FF
  | .hufSetLen _ _ => 0x01FFE0FF
  | .hufGetLen _ _ => 0x01FFE0FF
  | .hufGetCode _ _ => 0x01FFE0FF
  | .hufGetSel => 0x000000FF
  | .crcInit => 0x000000FF
  | .crcUpdate => 0x000000FF
  | .crcFinal => 0x000000FF
  | .crcCombine => 0x000000FF
  | .crcStreamInit => 0x000000FF
  | .crcReadStream => 0x000000FF
  | .crcReadStored _ => 0x000100FF
  | .blkEncOpen _ => 0x000F00FF
  | .blkEncWrite => 0x000000FF
  | .blkEncClose => 0x000000FF
  | .blkDecStart _ => 0x000F00FF
  | .blkDecRead => 0x000000FF
  | .blkCheckCrc => 0x000000FF
  | .strEncOpen _ => 0x000F00FF
  | .strEncWrite => 0x000000FF
  | .strEncFinish => 0x000000FF
  | .strDecOpen _ => 0x000100FF
  | .strDecRead => 0x000000FF
  | .strClose => 0x000000FF
  | .coreReset => 0x000000FF

/-- The command read from an instruction whose bits are `w`, bit 0 the least significant bit of the command word, when the table
gives the row `nbits` bits; every bit above `nbits` is 0. A command is one 32-bit word, so it has no byte order (rule R100). -/
def decodeTableWord (nbits w : Nat) : Option Instr :=
  match decode (BitVec.ofNat 32 (w % 2 ^ nbits)) with
  | .ok i => some i
  | .error _ => none

end Sys2Proof
end

