-- ==== Sys2Proof/Config.lean ====
section
/-! DEFINITION. The parameters of rule R9, the named constants of rule R17, and the free values. -/

namespace Sys2Proof

/-- The free values (log entry 3): draw number `k` of a run. No body can be evaluated: every statement that involves
one holds whatever it is. Used where the spec says "the position" and the state holds no single such position. -/
opaque Config.freeValue : Nat → Nat

/-- The base address of the register block, parameter REG_BASE (rule R80, decision D8): OPEN (log entry 13). -/
opaque Config.regBase : Nat

/-- IN_DEPTH of the engine that `State.reset` describes. DESIGN CHOICE (log entry 1): the spec leaves it OPEN, at least 1
(rule R9); every statement is about every depth, because the depth in force is a field of State. -/
def Config.inDepth : Nat := 1048576

/-- OUT_DEPTH of the engine that `State.reset` describes. DESIGN CHOICE (log entry 1), as `Config.inDepth`. -/
def Config.outDepth : Nat := 1048576

/-- ID reads the ASCII string "BZ2C" (rule R39). -/
def Config.idWord : Word := 0x425A3243

/-- The block marker (rule R17). -/
def Config.blockMagic : Nat := 0x314159265359

/-- The end marker (rule R17). -/
def Config.endMagic : Nat := 0x177245385090

/-- Longest code the encoder assigns, MAX_ENC_LEN (rule R9). -/
def Config.maxEncLen : Nat := 20

/-- Longest code the decoder accepts, MAX_DEC_LEN (rule R9). -/
def Config.maxDecLen : Nat := 23

/-- Symbols per selector, GROUP_SIZE (rule R9). -/
def Config.groupSize : Nat := 50

/-- Largest selector count (rule R9). -/
def Config.maxSelectors : Nat := 18001

/-- Optimisation passes, N_ITERS (rule R9, decision D20). -/
def Config.nIters : Nat := 4

/-- Largest bit count of one read or write (rule R9). -/
def Config.maxBits : Nat := 24

end Sys2Proof
end

