-- ==== Sys2Proof/Machine/State.lean ====
section
/-! DEFINITION. The state of the engine and of its host: every piece of state of spec/10_state.md (rules R30 to R51), the command in
progress, the host's pending actions, and State.reset (rule R340). -/

namespace Sys2Proof.Machine

/-- The framing state STATE (rule R34). Values 9 to 15 are never written, so they have no name here. -/
inductive Phase where
  | idle
  | encActive
  | encDone
  | decUninit
  | decBlockActive
  | decBlockBoundary
  | decComplete
  | error
  | closed
  deriving DecidableEq, Repr

/-- The eight error kinds (rule R310), in the order of their codes 1 to 8. -/
inductive ErrorKind where
  | insufficientData
  | invalidHeader
  | invalidHuffmanTables
  | blockSizeExceeded
  | invalidStartPointer
  | blockCrcMismatch
  | streamCrcMismatch
  | unsupportedOperation
  deriving DecidableEq, Repr

/-- The internal arrays (rules R42 to R48), as a model fault names them. -/
inductive ArrayName where
  | blk
  | presence
  | bwtArr
  | merged
  | charBase
  | seqToUnseq
  | unseqToSeq
  | mtfList
  | mtfStream
  | mtfFreq
  | selectors
  | len
  | code
  | rfreq
  | minMaxLen
  | base
  | limit
  | perm
  deriving DecidableEq, Repr

/-- What a command in progress waits for (rule R15). -/
inductive Wait where
  /-- `InByte()` on an empty input FIFO with EOI 0: STATUS.IN_WAIT. -/
  | input
  /-- `OutByte()` on a full output FIFO: STATUS.OUT_WAIT. -/
  | output
  deriving DecidableEq, Repr

/-- Why the machine stops. The engine's own errors are no faults: they are latched in STATUS (rule R311). -/
inductive Fault where
  /-- An element of one of the five arrays of unspecified reset contents is read before any rule wrote it: "a fault of the model,
  never a value" (rule R51, item U7; log entry 12). Raised by the array reads of Machine/Ops.lean. Safe: the model stops. -/
  | unwritten (array : ArrayName) (index : Nat)
  /-- An element beyond the range that rules R42 to R48 give an array is read or written: no such element exists.
  Raised by the array accesses of Machine/Ops.lean (log entry 12). Safe: the model stops. -/
  | outOfArray (array : ArrayName) (index : Nat)
  /-- The pass bound of the loop of rule R295 runs out. Raised by `strDecLoop` only, and never reached: rule R295 says the loop
  ends, and no pass sequence is longer than the bound (log entry 15). Safe: the model stops. -/
  | loopBound
  deriving DecidableEq, Repr

/-- Why the model gives an action no meaning. -/
inductive Refusal where
  /-- The instruction has no meaning in the model yet. Safe: the model stops. -/
  | notModelled (mnemonic : String)
  /-- A host register access that is not 32 bits wide or not aligned: "A model refuses such an access and gives it no meaning" (rule
  R81); and one beyond the 64-byte decode window, of which the spec says nothing: DESIGN CHOICE, refused too (log entry 16). Raised by
  the host accesses of Machine/Bus.lean. Safe: the model stops. -/
  | badAccess (width offset : Nat)
  deriving DecidableEq, Repr

/-- An array of unspecified reset contents (rule R51) as a partial map: the written elements in order of their indexes, which rise
strictly. An unlisted index holds no value, so no entry can equal what an unlisted index reads as. -/
abbrev Store (α : Type) := List (Nat × α)

/-- The canonical form of a partial map: the indexes rise strictly. -/
abbrev Store.wf {α : Type} (m : Store α) : Prop := (m.map Prod.fst).Pairwise (· < ·)

/-- A table indexed `[t][s]`, t in 0..5 (rule R48). -/
abbrev Table6 (α : Type) (n : Nat) := Vector (Vector α n) 6

/-- The host register block and the two FIFOs (rules R31 to R38). STATUS is assembled from its fields by `State.statusWord`. -/
structure HostBlock where
  cmd : Word
  arg : Word
  result : Word
  /-- STATUS.ERR -/
  err : Bool
  /-- STATUS.NODATA -/
  nodata : Bool
  /-- STATUS.FULL -/
  full : Bool
  /-- STATUS.DROP -/
  drop : Bool
  /-- The input FIFO, head first (rule R37). -/
  inFifo : List Byte
  /-- IN_CTRL.EOI -/
  eoi : Bool
  /-- The output FIFO, head first (rule R38). -/
  outFifo : List Byte
  deriving DecidableEq, Repr

/-- The bit engine (rules R40, R41). -/
structure BitEngine where
  rdAcc : BitVec 32
  rdCnt : BitVec 6
  wrAcc : BitVec 32
  wrCnt : BitVec 6
  deriving DecidableEq, Repr

/-- The block buffer, the RLE1 state and the de-randomiser (rules R42 to R45). -/
structure BlockUnit where
  blk : Store Byte
  len : BitVec 20
  k : BitVec 4
  presence : Vector Bool 256
  nonempty : Bool
  runCh : Byte
  runLen : BitVec 8
  rlLast : Byte
  rlCnt : BitVec 3
  rlRep : BitVec 8
  randFlag : Bool
  randNtogo : BitVec 10
  randTpos : BitVec 9
  deriving DecidableEq, Repr

/-- The BWT state (rule R46). -/
structure BwtUnit where
  arr : Store Byte
  len : BitVec 20
  startPtr : BitVec 24
  merged : Store Word
  charBase : Vector (BitVec 20) 256
  curEntry : Word
  hopsLeft : BitVec 20
  deriving DecidableEq, Repr

/-- The MTF/RLE2 state (rule R47). -/
structure MtfUnit where
  nInUse : BitVec 9
  seqToUnseq : Vector Byte 256
  unseqToSeq : Vector Byte 256
  list : Vector Byte 256
  zpend : BitVec 20
  runAcc : BitVec 20
  runW : BitVec 20
  stream : Store (BitVec 9)
  len : BitVec 20
  freq : Vector (BitVec 20) 258
  deriving DecidableEq, Repr

/-- The Huffman state (rule R48). LIMIT holds 32-bit signed numbers, BASE unsigned ones. -/
structure HufUnit where
  nGroups : BitVec 3
  nSelectors : BitVec 15
  selectors : Store (BitVec 3)
  len : Table6 (BitVec 5) 258
  code : Table6 Word 258
  rfreq : Table6 (BitVec 20) 258
  minLen : Vector (BitVec 5) 6
  maxLen : Vector (BitVec 5) 6
  base : Table6 Word 24
  limit : Table6 Word 24
  perm : Table6 (BitVec 9) 258
  symCount : BitVec 20
  decEob : Bool
  deriving DecidableEq, Repr

/-- The CRC registers (rule R49): BLOCK_CRC, STREAM_CRC, STORED_BCRC, STORED_SCRC. -/
structure CrcUnit where
  block : Word
  stream : Word
  storedBlock : Word
  storedStream : Word
  deriving DecidableEq, Repr

/-- The framing state (rule R50); `errcode = none` is code 0, no error latched. -/
structure FrameUnit where
  phase : Phase
  headerless : Bool
  errcode : Option ErrorKind
  deriving DecidableEq, Repr

/-- The engine: the eight groups of state of rule R30, and three fields of the model's own: the two FIFO depths (OPEN parameters of
rule R9, log entry 1) and the counter of free values drawn (log entry 3). -/
structure Engine where
  host : HostBlock
  bits : BitEngine
  block : BlockUnit
  bwt : BwtUnit
  mtf : MtfUnit
  huf : HufUnit
  crc : CrcUnit
  frame : FrameUnit
  inDepth : Nat
  outDepth : Nat
  freeCount : Nat
  deriving DecidableEq, Repr

/-- A command that holds (rule R15): STATUS.BUSY is 1. It is resumed by running it again from the engine as it stood when the command
started, with the bytes pushed since (log entry 2, rule R94). -/
structure Hold where
  instr : Instr
  wait : Wait
  /-- The engine when the command started; bytes pushed, EOI and DROP set by the host since are entered here too. -/
  start : Engine
  /-- How many bytes the host has popped from the output FIFO since the command started. -/
  popped : Nat
  deriving DecidableEq, Repr

/-- One action of the host (rules R95, R107). `offset` counts bytes from the base address of the register block (rule R31). -/
inductive HostAction where
  /-- A register write, `width` bits wide (rule R81 accepts 32 only). -/
  | write (width offset : Nat) (value : Word)
  /-- A register read, `width` bits wide; the value read is appended to `State.seen`. -/
  | read (width offset : Nat)
  /-- Wait for STATUS.BUSY = 0, as every command line of rule R107 does. -/
  | awaitDone
  /-- Power-on reset (rule R342). -/
  | powerOnReset
  deriving DecidableEq, Repr

/-- The machine: the engine, the command in progress, and the host's side (log entry 4). -/
structure State extends Engine where
  /-- The command that holds; `none` when STATUS.BUSY is 0. -/
  hold : Option Hold
  /-- The host's pending actions, the next one first. -/
  script : List HostAction
  /-- The values the host's register reads returned, oldest first (rule R98). -/
  seen : List Word
  deriving DecidableEq, Repr

/-- The engine after reset (rules R340, R341): the reset values of rules R31 to R50, nothing listed in the arrays of unspecified
contents (rule R51). -/
def Engine.initial (inDepth outDepth freeCount : Nat) : Engine where
  host :=
    { cmd := 0, arg := 0, result := 0, err := false, nodata := false, full := false, drop := false,
      inFifo := [], eoi := false, outFifo := [] }
  bits := { rdAcc := 0, rdCnt := 0, wrAcc := 0, wrCnt := 0 }
  block :=
    { blk := [], len := 0, k := 9, presence := Vector.replicate 256 false, nonempty := false, runCh := 0, runLen := 0,
      rlLast := 0, rlCnt := 0, rlRep := 0, randFlag := false, randNtogo := 0, randTpos := 0 }
  bwt :=
    { arr := [], len := 0, startPtr := 0, merged := [], charBase := Vector.replicate 256 0, curEntry := 0, hopsLeft := 0 }
  mtf :=
    { nInUse := 0, seqToUnseq := Vector.replicate 256 0, unseqToSeq := Vector.replicate 256 0,
      list := Vector.replicate 256 0, zpend := 0, runAcc := 0, runW := 1, stream := [], len := 0,
      freq := Vector.replicate 258 0 }
  huf :=
    { nGroups := 0, nSelectors := 0, selectors := [],
      len := Vector.replicate 6 (Vector.replicate 258 0), code := Vector.replicate 6 (Vector.replicate 258 0),
      rfreq := Vector.replicate 6 (Vector.replicate 258 0), minLen := Vector.replicate 6 0, maxLen := Vector.replicate 6 0,
      base := Vector.replicate 6 (Vector.replicate 24 0), limit := Vector.replicate 6 (Vector.replicate 24 0),
      perm := Vector.replicate 6 (Vector.replicate 258 0), symCount := 0, decEob := false }
  crc := { block := 0, stream := 0, storedBlock := 0, storedStream := 0 }
  frame := { phase := .idle, headerless := false, errcode := none }
  inDepth := inDepth
  outDepth := outDepth
  freeCount := freeCount

/-- The machine right after reset (rule R340): idle, with no command in progress and a host that has nothing pending. -/
def State.reset : State where
  toEngine := Engine.initial Config.inDepth Config.outDepth 0
  hold := none
  script := []
  seen := []

end Sys2Proof.Machine
end

