-- ==== Sys2Proof/Machine/Ops.lean ====
section
/-! DEFINITION. The named operations: the partial maps, the primitives of rules R14 to R16 (array access, InByte, OutByte, raise),
taking an error (rule R311), the reset that is the only return from one (rules R318, R340), and running a command with its checks
and holds (rules R313, R314). -/

namespace Sys2Proof.Machine

/-! ### Partial maps (rule R51) -/

/-- The element at index `i`, if one was written. -/
def Store.read {α : Type} : Store α → Nat → Option α
  | [], _ => none
  | (j, x) :: m, i => if i < j then none else if i = j then some x else Store.read m i

/-- Write element `i`; the form of `Store.wf` is kept. -/
def Store.write {α : Type} : Store α → Nat → α → Store α
  | [], i, v => [(i, v)]
  | (j, x) :: m, i, v =>
    if i < j then (i, v) :: (j, x) :: m else if i = j then (i, v) :: m else (j, x) :: Store.write m i v

/-! ### Taking an error, and reset -/

/-- The error code of rule R310. -/
def ErrorKind.code : ErrorKind → BitVec 4
  | .insufficientData => 1
  | .invalidHeader => 2
  | .invalidHuffmanTables => 3
  | .blockSizeExceeded => 4
  | .invalidStartPointer => 5
  | .blockCrcMismatch => 6
  | .streamCrcMismatch => 7
  | .unsupportedOperation => 8

/-- `raise E` (rule R311): the engine's only trap (rule R317). ERRCODE keeps an earlier error, ERR is set, STATE becomes ERROR, and
everything else stays as the command left it. -/
def Engine.raiseError (k : ErrorKind) (e : Engine) : Engine :=
  { e with
    host.err := true
    frame.errcode := e.frame.errcode.or (some k)
    frame.phase := .error }

/-- The reset sequence (rule R340), the only way out of ERROR and CLOSED (rule R318). The depths of the FIFOs are the
implementation's and stay; the counter of free values goes on, so that a reset does not repeat them. -/
def Engine.resetEngine (e : Engine) : Engine := Engine.initial e.inDepth e.outDepth e.freeCount

/-- NODATA and FULL cleared, as every command does at its start that is not refused and whose checks pass (rules R33, R53, R315; log entry
5). -/
def Engine.clearFlags (e : Engine) : Engine := { e with host.nodata := false, host.full := false }

/-! ### Commands as computations on the engine -/

/-- Why a computation ends before its last line. -/
inductive Stop where
  /-- `raise E` (rule R16) -/
  | raised (k : ErrorKind)
  /-- a hold (rule R15) -/
  | hold (w : Wait)
  /-- a fault of the model (rule R51) -/
  | fault (f : Fault)
  deriving DecidableEq, Repr

/-- A piece of a command's pseudocode: it changes the engine step by step and yields a value, or stops; the engine as it stood at the
stop is kept (rules R15, R311). -/
abbrev Cmd (α : Type) := EStateM Stop Engine α

/-- `raise E` (rule R16). -/
def Cmd.raise {α : Type} (k : ErrorKind) : Cmd α := throw (.raised k)

/-- A fault of the model. -/
def Cmd.fail {α : Type} (f : Fault) : Cmd α := throw (.fault f)

/-- A check that raises UnsupportedOperation when it fails (rule R314 checks 4 and 5). -/
def requireOk (ok : Bool) : Cmd Unit := if ok then pure () else Cmd.raise .unsupportedOperation

/-- No check (rule R314): the command's rule gives it none. -/
def noChecks : Cmd Unit := pure ()

/-- "if ...: raise E". -/
def raiseWhen (c : Bool) (k : ErrorKind) : Cmd Unit := if c then Cmd.raise k else pure ()

/-- "if ...: ...", with nothing done otherwise. -/
def doWhen (c : Bool) (x : Cmd Unit) : Cmd Unit := if c then x else pure ()

/-- Run `c` `n` times ("repeat n times"). -/
def repeatCmd : Nat → Cmd Unit → Cmd Unit
  | 0, _ => pure ()
  | n + 1, c => do
    c
    repeatCmd n c

/-- Run `c` for each element in order ("for x in xs"). -/
def forEach {α : Type} : List α → (α → Cmd Unit) → Cmd Unit
  | [], _ => pure ()
  | x :: xs, c => do
    c x
    forEach xs c

/-- Run `c` for each element in order and collect the values. -/
def collect {α β : Type} : List α → (α → Cmd β) → Cmd (List β)
  | [], _ => pure []
  | x :: xs, c => do
    let y ← c x
    let ys ← collect xs c
    pure (y :: ys)

/-- Change the host register block. -/
def modHost (f : HostBlock → HostBlock) : Cmd Unit := modify fun e => { e with host := f e.host }

/-- Change the bit engine. -/
def modBits (f : BitEngine → BitEngine) : Cmd Unit := modify fun e => { e with bits := f e.bits }

/-- Change the block unit. -/
def modBlock (f : BlockUnit → BlockUnit) : Cmd Unit := modify fun e => { e with block := f e.block }

/-- Change the BWT unit. -/
def modBwt (f : BwtUnit → BwtUnit) : Cmd Unit := modify fun e => { e with bwt := f e.bwt }

/-- Change the MTF unit. -/
def modMtf (f : MtfUnit → MtfUnit) : Cmd Unit := modify fun e => { e with mtf := f e.mtf }

/-- Change the Huffman unit. -/
def modHuf (f : HufUnit → HufUnit) : Cmd Unit := modify fun e => { e with huf := f e.huf }

/-- Change the CRC unit. -/
def modCrc (f : CrcUnit → CrcUnit) : Cmd Unit := modify fun e => { e with crc := f e.crc }

/-- Change the framing unit. -/
def modFrame (f : FrameUnit → FrameUnit) : Cmd Unit := modify fun e => { e with frame := f e.frame }

/-- `STATE <- s` (rule R16). -/
def setPhase (p : Phase) : Cmd Unit := modFrame fun f => { f with phase := p }

/-- `RESULT <- v` for an exact number, reduced to the width of the register as every write into one (rules R12, R36; log entry 14). -/
def setResult (v : Nat) : Cmd Unit := modHost fun h => { h with result := BitVec.ofNat 32 v }

/-- ARG, which commands read and never write (rule R36). -/
def readArg : Cmd Word := do
  let e ← get
  pure e.host.arg

/-- A free value below `bound` (log entry 3): the next draw. -/
def drawFree (bound : Nat) : Cmd Nat := do
  let e ← get
  modify fun e => { e with freeCount := e.freeCount + 1 }
  pure (Config.freeValue e.freeCount % bound)

/-! ### Array access (rules R14, R84) -/

/-- Element `i` of a small table. -/
def tableGet {α : Type} {n : Nat} (a : ArrayName) (v : Vector α n) (i : Nat) : Cmd α :=
  if h : i < n then pure v[i] else Cmd.fail (.outOfArray a i)

/-- A small table with element `i` replaced. -/
def tableSet {α : Type} {n : Nat} (a : ArrayName) (v : Vector α n) (i : Nat) (x : α) : Cmd (Vector α n) :=
  if h : i < n then pure (v.set i x) else Cmd.fail (.outOfArray a i)

/-- Element `[t][s]` of a table. -/
def tableGet2 {α : Type} {n : Nat} (a : ArrayName) (v : Table6 α n) (t s : Nat) : Cmd α := do
  let row ← tableGet a v t
  tableGet a row s

/-- A table with element `[t][s]` replaced. -/
def tableSet2 {α : Type} {n : Nat} (a : ArrayName) (v : Table6 α n) (t s : Nat) (x : α) : Cmd (Table6 α n) := do
  let row ← tableGet a v t
  let row ← tableSet a row s x
  tableSet a v t row

/-- The table whose element `i` is `f i`. -/
def tabulate {α : Type} (n : Nat) (f : Nat → α) : Vector α n := ⟨((List.range n).map f).toArray, by simp⟩

/-- Consecutive elements of a row replaced from index `i` on ("A[i ..] <- xs"); what would lie beyond the row is not written. -/
def rowWrite {α : Type} {n : Nat} : Vector α n → Nat → List α → Vector α n
  | row, _, [] => row
  | row, i, x :: xs => rowWrite (row.setIfInBounds i x) (i + 1) xs

/-- Move the element at position `j` of a list to its front (rules R193, R229, R233). -/
def listToFront {α : Type} (l : List α) (j : Nat) : List α :=
  match l[j]? with
  | some x => x :: l.eraseIdx j
  | none => l

theorem listToFront_length {α : Type} (l : List α) (j : Nat) : (listToFront l j).length = l.length := by
  unfold listToFront
  split
  · rename_i x h
    obtain ⟨hj, -⟩ := List.getElem?_eq_some_iff.mp h
    simp only [List.length_cons, List.length_eraseIdx, hj, if_true]
    omega
  · rfl

/-- `listToFront` on a table. -/
def vecToFront {α : Type} {n : Nat} (v : Vector α n) (j : Nat) : Vector α n :=
  ⟨(listToFront v.toList j).toArray, by simp [listToFront_length]⟩

/-- Element of a 256-entry table indexed by a byte. -/
def byteGet {α : Type} (v : Vector α 256) (b : Byte) : α := v[b.toNat]'b.isLt

/-- A 256-entry table with the element indexed by a byte replaced. -/
def byteSet {α : Type} (v : Vector α 256) (b : Byte) (x : α) : Vector α 256 := v.set b.toNat x b.isLt

/-- Element `i` of an array of unspecified reset contents: a fault where no rule wrote it (rule R51, item U7). -/
def storeGet {α : Type} (a : ArrayName) (m : Store α) (i : Nat) : Cmd α :=
  match Store.read m i with
  | some x => pure x
  | none => Cmd.fail (.unwritten a i)

/-- Such an array with element `i` written; `size` is the number of its elements (rules R42, R46 to R48). -/
def storeSet {α : Type} (a : ArrayName) (size : Nat) (m : Store α) (i : Nat) (x : α) : Cmd (Store α) :=
  if i < size then pure (Store.write m i x) else Cmd.fail (.outOfArray a i)

/-! ### The byte streams (rule R15) -/

/-- `InByte()`: the oldest byte of the input FIFO; on an empty FIFO it holds, or at end of input raises InsufficientData. -/
def inByte : Cmd Byte := do
  let e ← get
  match e.host.inFifo with
  | b :: rest =>
    modHost fun h => { h with inFifo := rest }
    pure b
  | [] => if e.host.eoi then Cmd.raise .insufficientData else throw (.hold .input)

/-- `OutByte(v)`: append to the output FIFO; on a full FIFO it holds. -/
def outByte (v : Byte) : Cmd Unit := do
  let e ← get
  if e.host.outFifo.length < e.outDepth then
    modHost fun h => { h with outFifo := h.outFifo ++ [v] }
  else
    throw (.hold .output)

/-! ### Running a command -/

/-- How a command ends in the machine: done, with an error taken (rule R311), holding (rule R15), or a fault of the model. -/
def finish (i : Instr) (s : State) : EStateM.Result Stop Engine Unit → Host.Outcome State Fault Refusal
  | .ok _ e => .next { s with toEngine := e, hold := none }
  | .error (.raised k) e => .next { s with toEngine := e.raiseError k, hold := none }
  | .error (.hold w) e => .next { s with toEngine := e, hold := some { instr := i, wait := w, start := s.toEngine, popped := 0 } }
  | .error (.fault f) _ => .fault f

/-- Checks 4 and 5 of rule R314, and then the command. A failed check leaves the engine as it was, NODATA and FULL included (rules R102,
R315); a command whose checks pass starts with the two cleared (rule R33; log entry 5). -/
def checkThenRun (i : Instr) (checks body : Cmd Unit) (s : State) : Host.Outcome State Fault Refusal :=
  match checks s.toEngine with
  | .ok _ _ => finish i s (body s.toEngine.clearFlags)
  | .error r _ => finish i s (.error r s.toEngine)

/-- A command other than NOP and CORE_RESET: refused in ERROR with no change at all, UnsupportedOperation in CLOSED, and else checked
and run (rules R313, R314). -/
def runCommand (i : Instr) (checks body : Cmd Unit) (s : State) : Host.Outcome State Fault Refusal :=
  match s.frame.phase with
  | .error => .next s
  | .closed => finish i s (.error (.raised .unsupportedOperation) s.toEngine)
  | .idle => checkThenRun i checks body s
  | .encActive => checkThenRun i checks body s
  | .encDone => checkThenRun i checks body s
  | .decUninit => checkThenRun i checks body s
  | .decBlockActive => checkThenRun i checks body s
  | .decBlockBoundary => checkThenRun i checks body s
  | .decComplete => checkThenRun i checks body s

end Sys2Proof.Machine
end

