-- ==== Sys2Proof/Machine/Flags.lean ====
section
/-! DEFINITION. Every flag the spec gives: the STATUS word and its bits (rules R33, R34, R310), and NODATA and FULL as commands set
them. There are no condition codes (rule R53). -/

namespace Sys2Proof.Machine

/-- STATE as STATUS[15:12] shows it (rule R34). -/
def Phase.code : Phase → BitVec 4
  | .idle => 0
  | .encActive => 1
  | .encDone => 2
  | .decUninit => 3
  | .decBlockActive => 4
  | .decBlockBoundary => 5
  | .decComplete => 6
  | .error => 7
  | .closed => 8

/-- ERRCODE as STATUS[11:8] shows it (rule R310). -/
def errorCode : Option ErrorKind → BitVec 4
  | none => 0
  | some k => k.code

/-- STATUS.BUSY (rule R33): between the steps of the model a command is in progress only while it holds. -/
def State.busy (s : State) : Bool := s.hold.isSome

/-- STATUS.IN_WAIT (rule R33). -/
def State.inWait (s : State) : Bool :=
  match s.hold with
  | some h => h.wait = .input
  | none => false

/-- STATUS.OUT_WAIT (rule R33). -/
def State.outWait (s : State) : Bool :=
  match s.hold with
  | some h => h.wait = .output
  | none => false

/-- STATUS (rule R33). -/
def State.statusWord (s : State) : Word :=
  s.frame.phase.code.zeroExtend 32 <<< 12 ||| (errorCode s.frame.errcode).zeroExtend 32 <<< 8
    ||| (BitVec.ofBool s.host.drop).zeroExtend 32 <<< 6 ||| (BitVec.ofBool s.outWait).zeroExtend 32 <<< 5
    ||| (BitVec.ofBool s.inWait).zeroExtend 32 <<< 4 ||| (BitVec.ofBool s.host.full).zeroExtend 32 <<< 3
    ||| (BitVec.ofBool s.host.nodata).zeroExtend 32 <<< 2 ||| (BitVec.ofBool s.host.err).zeroExtend 32 <<< 1
    ||| (BitVec.ofBool s.busy).zeroExtend 32

/-- `STATUS.NODATA <- 1`. -/
def setNodata : Cmd Unit := modHost fun h => { h with nodata := true }

/-- `STATUS.FULL <- 1`. -/
def setFull : Cmd Unit := modHost fun h => { h with full := true }

/-- A read-type command that produced no byte: NODATA, and RESULT <- 0 (rules R33, R36). -/
def endWithNodata : Cmd Unit := do
  setNodata
  setResult 0

/-- A read-type command's end: the byte in RESULT, or NODATA. -/
def resultOrNodata : Option Byte → Cmd Unit
  | some b => setResult b.toNat
  | none => endWithNodata

end Sys2Proof.Machine
end

