-- ==== Sys2Proof/Machine/Operands.lean ====
section
/-! DEFINITION. The operand forms (rules R101, R102): the slices of ARG, the operand checks, and the capacities of rule R9. -/

namespace Sys2Proof.Machine

/-- `ARG[n-1:0]` as an exact number (rule R101). -/
def argLow (n : Nat) : Cmd Nat := do
  let a ← readArg
  pure (a.toNat % 2 ^ n)

/-- `ARG[7:0]`, the byte operand. -/
def argByte : Cmd Byte := do
  let a ← readArg
  pure (a.setWidth 8)

/-- `N > 24: raise UnsupportedOperation` (rules R143, R148). -/
def requireCount (n : BitVec 5) : Cmd Unit := requireOk (n.toNat ≤ Config.maxBits)

/-- `T > 5: raise UnsupportedOperation` (rule R102). -/
def requireTable (t : BitVec 3) : Cmd Unit := requireOk (t.toNat ≤ 5)

/-- `IMM[8:0] > 257: raise UnsupportedOperation` (rules R214, R240 to R242). -/
def requireSymbol (s : BitVec 9) : Cmd Unit := requireOk (s.toNat ≤ 257)

/-- The checks of a table and a symbol (rules R214, R240 to R242). -/
def requireCell (t : BitVec 3) (sym : BitVec 9) : Cmd Unit := do
  requireTable t
  requireSymbol sym

/-- `k < 1 or k > 9: raise UnsupportedOperation` (rules R261, R291). -/
def requireMultiplier (k : BitVec 4) : Cmd Unit := requireOk (1 ≤ k.toNat ∧ k.toNat ≤ 9)

/-- `CAP(K) = K × 100000` (rule R9). -/
def capacity (k : BitVec 4) : Nat := k.toNat * 100000

/-- `FULL_THRESHOLD(K) = CAP(K) − 6` (rule R9). -/
def fullThreshold (k : BitVec 4) : Nat := capacity k - 6

/-- `ALPHA = N_IN_USE + 2` (rule R17). -/
def alphaOf (m : MtfUnit) : Nat := m.nInUse.toNat + 2

/-- `EOB = N_IN_USE + 1` (rule R17). -/
def eobOf (m : MtfUnit) : Nat := m.nInUse.toNat + 1

/-- Quiet: the states that accept an open (rules R290, R301). -/
def Phase.quiet : Phase → Bool
  | .idle => true
  | .encDone => true
  | .decComplete => true
  | .encActive => false
  | .decUninit => false
  | .decBlockActive => false
  | .decBlockBoundary => false
  | .error => false
  | .closed => false

/-- The states that accept STR_DEC_READ (rules R295, R301). -/
def Phase.decoding : Phase → Bool
  | .decUninit => true
  | .decBlockBoundary => true
  | .decBlockActive => true
  | .decComplete => true
  | .idle => false
  | .encActive => false
  | .encDone => false
  | .error => false
  | .closed => false

/-- Live: every state but ERROR and CLOSED (rules R301, R313). -/
def Phase.live : Phase → Bool
  | .error => false
  | .closed => false
  | .idle => true
  | .encActive => true
  | .encDone => true
  | .decUninit => true
  | .decBlockActive => true
  | .decBlockBoundary => true
  | .decComplete => true

end Sys2Proof.Machine
end

