-- ==== Sys2Proof/Machine/Crc.lean ====
section
/-! DEFINITION. The CRC-32 engine and stream CRC combiner (spec/46_crc.md, rules R250 to R259). -/

namespace Sys2Proof.Machine

/-- The polynomial (rule R250). -/
def crcPoly : Word := 0x04C11DB7

/-- One pass of the bit loop of `CrcUpdate` (rule R251). -/
def crcShift (c : Word) : Word := if c.getLsbD 31 then (c <<< 1) ^^^ crcPoly else c <<< 1

/-- The bit loop, `n` times (rule R251). -/
def crcShifts : Nat → Word → Word
  | 0, c => c
  | n + 1, c => crcShifts n (crcShift c)

/-- `CrcUpdate(c, b)` (rule R251). -/
def crcUpdate (c : Word) (b : Byte) : Word := crcShifts 8 (c ^^^ (b.setWidth 32 <<< 24))

/-- The CRC value of an un-inverted register (rule R251). -/
def crcValue (c : Word) : Word := c ^^^ 0xFFFFFFFF

/-- `rotl1(x)` (rules R12, R256). -/
def rotl1 (x : Word) : Word := (x <<< 1) ||| (x >>> 31)

/-- `BLOCK_CRC <- CrcUpdate(BLOCK_CRC, b)`. -/
def feedBlockCrc (b : Byte) : Cmd Unit := modCrc fun c => { c with block := crcUpdate c.block b }

/-- `STREAM_CRC <- rotl1(STREAM_CRC) ^ v` (rule R256). -/
def combineCrc (v : Word) : Cmd Unit := modCrc fun c => { c with stream := rotl1 c.stream ^^^ v }

/-- The body of CRC_INIT (rule R252). -/
def cmdCrcInit : Cmd Unit := modCrc fun c => { c with block := 0xFFFFFFFF }

/-- The body of CRC_UPDATE (rule R254). -/
def cmdCrcUpdate : Cmd Unit := do
  let b ← argByte
  feedBlockCrc b

/-- The body of CRC_FINAL (rule R255). -/
def cmdCrcFinal : Cmd Unit := do
  let e ← get
  setResult (crcValue e.crc.block).toNat

/-- The body of CRC_COMBINE (rule R256). -/
def cmdCrcCombine : Cmd Unit := do
  let a ← readArg
  combineCrc a
  let e ← get
  setResult e.crc.stream.toNat

/-- The body of CRC_STREAM_INIT (rule R257). -/
def cmdCrcStreamInit : Cmd Unit := modCrc fun c => { c with stream := 0 }

/-- The body of CRC_READ_STREAM (rule R258). -/
def cmdCrcReadStream : Cmd Unit := do
  let e ← get
  setResult e.crc.stream.toNat

/-- The body of CRC_READ_STORED (rule R259). -/
def cmdCrcReadStored (which : BitVec 1) : Cmd Unit := do
  let e ← get
  setResult (if which = 0 then e.crc.storedBlock else e.crc.storedStream).toNat

/-- CRC_INIT (rule R252). -/
def execCrcInit (s : State) : Host.Outcome State Fault Refusal := runCommand .crcInit noChecks cmdCrcInit s

/-- CRC_UPDATE (rule R254). -/
def execCrcUpdate (s : State) : Host.Outcome State Fault Refusal := runCommand .crcUpdate noChecks cmdCrcUpdate s

/-- CRC_FINAL (rule R255). -/
def execCrcFinal (s : State) : Host.Outcome State Fault Refusal := runCommand .crcFinal noChecks cmdCrcFinal s

/-- CRC_COMBINE (rule R256). -/
def execCrcCombine (s : State) : Host.Outcome State Fault Refusal := runCommand .crcCombine noChecks cmdCrcCombine s

/-- CRC_STREAM_INIT (rule R257). -/
def execCrcStreamInit (s : State) : Host.Outcome State Fault Refusal := runCommand .crcStreamInit noChecks cmdCrcStreamInit s

/-- CRC_READ_STREAM (rule R258). -/
def execCrcReadStream (s : State) : Host.Outcome State Fault Refusal := runCommand .crcReadStream noChecks cmdCrcReadStream s

/-- CRC_READ_STORED (rule R259). -/
def execCrcReadStored (which : BitVec 1) (s : State) : Host.Outcome State Fault Refusal :=
  runCommand (.crcReadStored which) noChecks (cmdCrcReadStored which) s

end Sys2Proof.Machine
end

