-- ==== Sys2Proof/Machine/BitIo.lean ====
section
/-! DEFINITION. The BitReader/BitWriter engine (spec/40_bitio.md, rules R140 to R155). -/

namespace Sys2Proof.Machine

/-! ### The reader -/

/-- `FillByte()` (rule R141). -/
def fillByte : Cmd Unit := do
  let b ← inByte
  modBits fun r =>
    { r with rdAcc := BitVec.ofNat 32 (r.rdAcc.toNat <<< 8 ||| b.toNat), rdCnt := BitVec.ofNat 6 (r.rdCnt.toNat + 8) }

/-- `while RD_CNT < n: FillByte()` (rule R140), for at most `fuel` fills; `n` fills are always enough (log entry
15). -/
def fillTo (n : Nat) : Nat → Cmd Unit
  | 0 => pure ()
  | fuel + 1 => do
    let e ← get
    if e.bits.rdCnt.toNat < n then do
      fillByte
      fillTo n fuel
    else
      pure ()

/-- The last three lines of `ReadBits(n)` (rule R140): take `n` bits from the accumulator. -/
def takeBits (n : Nat) : Cmd Nat := do
  let e ← get
  let cnt := e.bits.rdCnt.toNat - n
  let acc := e.bits.rdAcc.toNat
  modBits fun r => { r with rdCnt := BitVec.ofNat 6 cnt, rdAcc := BitVec.ofNat 32 (acc % 2 ^ cnt) }
  pure (acc >>> cnt % 2 ^ n)

/-- `ReadBits(n)` (rule R140), for `n ≤ 24`. -/
def readBits (n : Nat) : Cmd Nat :=
  if n = 0 then pure 0
  else do
    fillTo n n
    takeBits n

/-- `ReadUnary(M)` (rule R145) with `left = M − c` one-bits still allowed. -/
def readUnaryFrom : Nat → Nat → Cmd Nat
  | 0, _ => Cmd.raise .invalidHuffmanTables
  | left + 1, c => do
    let b ← readBits 1
    if b = 0 then pure c else readUnaryFrom left (c + 1)

/-- `ReadUnary(M)` (rule R145): the count of one-bits before a zero; the M-th one-bit raises InvalidHuffmanTables. -/
def readUnary (m : Nat) : Cmd Nat := readUnaryFrom m 0

/-- `Read32()` (rule R146). -/
def read32 : Cmd Nat := do
  let hi ← readBits 16
  let lo ← readBits 16
  pure (hi <<< 16 ||| lo)

/-- `Read48()` (rule R146). -/
def read48 : Cmd Nat := do
  let hi ← readBits 24
  let lo ← readBits 24
  pure (hi <<< 24 ||| lo)

/-! ### The writer -/

/-- `while WR_CNT >= 8` of rule R147: emit the oldest 8 bits; the fuel is `WR_CNT div 8`. -/
def emitBytes : Nat → Cmd Unit
  | 0 => pure ()
  | fuel + 1 => do
    let e ← get
    let cnt := e.bits.wrCnt.toNat - 8
    let acc := e.bits.wrAcc.toNat
    outByte (BitVec.ofNat 8 (acc >>> cnt))
    modBits fun r => { r with wrCnt := BitVec.ofNat 6 cnt, wrAcc := BitVec.ofNat 32 (acc % 2 ^ cnt) }
    emitBytes fuel

/-- The first lines of `WriteBits(n, v)` (rule R147): append the low `n` bits of `v` to the accumulator. -/
def pushBits (n v : Nat) : Cmd Unit :=
  modBits fun r =>
    { r with
      wrAcc := BitVec.ofNat 32 (r.wrAcc.toNat <<< n ||| v % 2 ^ n)
      wrCnt := BitVec.ofNat 6 (r.wrCnt.toNat + n) }

/-- `WriteBits(n, v)` (rule R147), for `n ≤ 24`. -/
def writeBits (n v : Nat) : Cmd Unit :=
  if n = 0 then pure ()
  else do
    pushBits n v
    let e ← get
    emitBytes (e.bits.wrCnt.toNat / 8)

/-- `WriteUnary(c)` (rule R150). -/
def writeUnary (c : Nat) : Cmd Unit := do
  repeatCmd c (writeBits 1 1)
  writeBits 1 0

/-- `Flush()` (rule R151). -/
def flushWriter : Cmd Unit := do
  let e ← get
  let cnt := e.bits.wrCnt.toNat
  doWhen (0 < cnt) (outByte (BitVec.ofNat 8 (e.bits.wrAcc.toNat <<< (8 - cnt))))
  modBits fun r => { r with wrAcc := 0, wrCnt := 0 }

/-- `Write32(v)` (rule R152). -/
def write32 (v : Nat) : Cmd Unit := do
  writeBits 16 (v >>> 16)
  writeBits 16 v

/-- `Write48(v)` (rule R152). -/
def write48 (v : Nat) : Cmd Unit := do
  writeBits 24 (v >>> 24)
  writeBits 24 v

/-! ### Commands -/

/-- The body of BR_READ_BITS (rule R143). -/
def cmdBrReadBits (n : BitVec 5) : Cmd Unit := do
  let v ← readBits n.toNat
  setResult v

/-- The body of BR_READ_BOOL (rule R144). -/
def cmdBrReadBool : Cmd Unit := do
  let v ← readBits 1
  setResult v

/-- The body of BR_READ_UNARY (rule R145): IMM = 0 means the limit 65536. -/
def cmdBrReadUnary (limit : BitVec 16) : Cmd Unit := do
  let v ← readUnary (if limit.toNat = 0 then 65536 else limit.toNat)
  setResult v

/-- The body of BR_READ_INT32 (rule R146). -/
def cmdBrReadInt32 : Cmd Unit := do
  let v ← read32
  setResult v

/-- The body of BW_WRITE_BITS (rule R148). -/
def cmdBwWriteBits (n : BitVec 5) : Cmd Unit := do
  let a ← readArg
  writeBits n.toNat a.toNat

/-- The body of BW_WRITE_BOOL (rule R149). -/
def cmdBwWriteBool : Cmd Unit := do
  let b ← argLow 1
  writeBits 1 b

/-- The body of BW_WRITE_UNARY (rule R150). -/
def cmdBwWriteUnary : Cmd Unit := do
  let c ← argLow 16
  writeUnary c

/-- The body of BW_WRITE_INT32 (rule R152). -/
def cmdBwWriteInt32 : Cmd Unit := do
  let a ← readArg
  write32 a.toNat

/-- BR_READ_BITS (rule R143). -/
def execBrReadBits (n : BitVec 5) (s : State) : Host.Outcome State Fault Refusal :=
  runCommand (.brReadBits n) (requireCount n) (cmdBrReadBits n) s

/-- BR_READ_BOOL (rule R144). -/
def execBrReadBool (s : State) : Host.Outcome State Fault Refusal := runCommand .brReadBool noChecks cmdBrReadBool s

/-- BR_READ_UNARY (rule R145). -/
def execBrReadUnary (limit : BitVec 16) (s : State) : Host.Outcome State Fault Refusal :=
  runCommand (.brReadUnary limit) noChecks (cmdBrReadUnary limit) s

/-- BR_READ_INT32 (rule R146). -/
def execBrReadInt32 (s : State) : Host.Outcome State Fault Refusal := runCommand .brReadInt32 noChecks cmdBrReadInt32 s

/-- BW_WRITE_BITS (rule R148). -/
def execBwWriteBits (n : BitVec 5) (s : State) : Host.Outcome State Fault Refusal :=
  runCommand (.bwWriteBits n) (requireCount n) (cmdBwWriteBits n) s

/-- BW_WRITE_BOOL (rule R149). -/
def execBwWriteBool (s : State) : Host.Outcome State Fault Refusal := runCommand .bwWriteBool noChecks cmdBwWriteBool s

/-- BW_WRITE_UNARY (rule R150). -/
def execBwWriteUnary (s : State) : Host.Outcome State Fault Refusal := runCommand .bwWriteUnary noChecks cmdBwWriteUnary s

/-- BW_FLUSH (rule R151). -/
def execBwFlush (s : State) : Host.Outcome State Fault Refusal := runCommand .bwFlush noChecks flushWriter s

/-- BW_WRITE_INT32 (rule R152). -/
def execBwWriteInt32 (s : State) : Host.Outcome State Fault Refusal := runCommand .bwWriteInt32 noChecks cmdBwWriteInt32 s

end Sys2Proof.Machine
end

