-- ==== Sys2Proof/Machine/Bwt.lean ====
section
/-! DEFINITION. The BWT suffix sorter and inverse-permutation engine (spec/42_bwt.md, rules R175 to R185). -/

namespace Sys2Proof.Machine

/-- Elements of BLK, BWT_ARR and MERGED (rules R42, R46). -/
def blkSize : Nat := 900001
def bwtSize : Nat := 900000

/-- `BLK[i]`. -/
def blkGet (i : Nat) : Cmd Byte := do
  let e ← get
  storeGet .blk e.block.blk i

/-- `BLK[i] <- v`. -/
def blkSet (i : Nat) (v : Byte) : Cmd Unit := do
  let e ← get
  let m ← storeSet .blk blkSize e.block.blk i v
  modBlock fun b => { b with blk := m }

/-- `BWT_ARR[i]`. -/
def bwtArrGet (i : Nat) : Cmd Byte := do
  let e ← get
  storeGet .bwtArr e.bwt.arr i

/-- `BWT_ARR[i] <- v`. -/
def bwtArrSet (i : Nat) (v : Byte) : Cmd Unit := do
  let e ← get
  let m ← storeSet .bwtArr bwtSize e.bwt.arr i v
  modBwt fun b => { b with arr := m }

/-- `MERGED[i]`. -/
def mergedGet (i : Nat) : Cmd Word := do
  let e ← get
  storeGet .merged e.bwt.merged i

/-- `MERGED[i] <- v`. -/
def mergedSet (i : Nat) (v : Word) : Cmd Unit := do
  let e ← get
  let m ← storeSet .merged bwtSize e.bwt.merged i v
  modBwt fun b => { b with merged := m }

/-! ### The forward transform -/

/-- Rotation `i` comes before or at rotation `j`: ascending lexicographic order of the byte sequences, equal sequences by ascending
start index (rule R175, decision D18). -/
def rotationLe (b : List Byte) (i j : Nat) : Bool :=
  b.rotate i < b.rotate j ∨ (b.rotate i = b.rotate j ∧ i ≤ j)

/-- `order`: the start indices of the rotations in sorted order (rule R175). -/
def bwtOrder (b : List Byte) : List Nat :=
  (List.range b.length).insertionSort (fun i j => rotationLe b i j = true)

/-- `BWT_ARR`: the last byte of each sorted rotation (rule R175). -/
def bwtLast (b : List Byte) : List Byte :=
  (bwtOrder b).map fun i => b.getD ((i + b.length - 1) % b.length) 0

/-- `START_PTR`: the place of rotation 0 in the order; 0 for an empty block (rules R175, R176). -/
def bwtStart (b : List Byte) : Nat := (bwtOrder b).findIdx (fun i => i = 0)

/-- `if L > 0: BLK[L] <- BLK[0]` (rule R177). -/
def writeWrap (len : Nat) : List Byte → Cmd Unit
  | [] => pure ()
  | b0 :: _ => blkSet len b0

/-- The body of BWT_FORWARD (rule R177), less its write of RESULT: yields START_PTR. -/
def bwtForward : Cmd Nat := do
  let e ← get
  let len := e.block.len.toNat
  let b ← collect (List.range len) blkGet
  writeWrap len b
  forEach (bwtLast b).zipIdx fun p => bwtArrSet p.2 p.1
  modBwt fun u => { u with len := BitVec.ofNat 20 len, startPtr := BitVec.ofNat 24 (bwtStart b) }
  let e ← get
  pure e.bwt.startPtr.toNat

/-! ### The inverse transform -/

/-- The initial `CHAR_BASE[v]`: how many bytes are below `v` (rule R178). -/
def charBaseOf (b : List Byte) (v : Nat) : Nat := b.countP (fun x => x.toNat < v)

/-- One pass of the last loop of `BuildInverse()` (rule R178). -/
def placeMerged (i : Nat) (v : Byte) : Cmd Unit := do
  let e ← get
  let base := (byteGet e.bwt.charBase v).toNat
  mergedSet base (BitVec.ofNat 32 (i <<< 8 ||| v.toNat))
  modBwt fun u => { u with charBase := byteSet u.charBase v (BitVec.ofNat 20 (base + 1)) }

/-- `BuildInverse()` (rule R178). -/
def buildInverse : Cmd Unit := do
  let e ← get
  let b ← collect (List.range e.bwt.len.toNat) bwtArrGet
  modBwt fun u => { u with charBase := tabulate 256 fun v => BitVec.ofNat 20 (charBaseOf b v) }
  forEach b.zipIdx fun p => placeMerged p.2 p.1

/-- The body of BWT_INV_SETUP (rule R179), less its write of RESULT: yields BWT_LEN. -/
def bwtInvSetup : Cmd Nat := do
  let e ← get
  raiseWhen (e.bwt.startPtr.toNat ≥ e.bwt.len.toNat) .invalidStartPointer
  buildInverse
  let c ← mergedGet e.bwt.startPtr.toNat
  modBwt fun u => { u with curEntry := c, hopsLeft := u.len }
  pure e.bwt.len.toNat

/-- `BwtHop()` (rule R180), for `HOPS_LEFT > 0`. -/
def bwtHop : Cmd Byte := do
  let e ← get
  let next ← mergedGet (e.bwt.curEntry.toNat >>> 8)
  modBwt fun u => { u with curEntry := next, hopsLeft := BitVec.ofNat 20 (u.hopsLeft.toNat - 1) }
  pure (e.bwt.curEntry.setWidth 8)

/-! ### Commands -/

/-- The body of BWT_FORWARD (rule R177). -/
def cmdBwtForward : Cmd Unit := do
  let p ← bwtForward
  setResult p

/-- The body of BWT_INV_SETUP (rule R179). -/
def cmdBwtInvSetup : Cmd Unit := do
  let n ← bwtInvSetup
  setResult n

/-- The body of BWT_INV_NEXT (rule R181). -/
def cmdBwtInvNext : Cmd Unit := do
  let e ← get
  if e.bwt.hopsLeft.toNat = 0 then endWithNodata
  else do
    let b ← bwtHop
    setResult b.toNat

/-- The check of BWT_GET (rule R182): the index is in range. -/
def checkBwtGet : Cmd Unit := do
  let e ← get
  requireOk (e.host.arg.toNat < e.bwt.len.toNat)

/-- The body of BWT_GET (rule R182). -/
def cmdBwtGet : Cmd Unit := do
  let i ← readArg
  let v ← bwtArrGet i.toNat
  setResult v.toNat

/-- The body of BWT_SET_START (rule R183). -/
def cmdBwtSetStart : Cmd Unit := do
  let p ← argLow 24
  modBwt fun u => { u with startPtr := BitVec.ofNat 24 p }

/-- BWT_FORWARD (rule R177). -/
def execBwtForward (s : State) : Host.Outcome State Fault Refusal := runCommand .bwtForward noChecks cmdBwtForward s

/-- BWT_INV_SETUP (rule R179). -/
def execBwtInvSetup (s : State) : Host.Outcome State Fault Refusal := runCommand .bwtInvSetup noChecks cmdBwtInvSetup s

/-- BWT_INV_NEXT (rule R181). -/
def execBwtInvNext (s : State) : Host.Outcome State Fault Refusal := runCommand .bwtInvNext noChecks cmdBwtInvNext s

/-- BWT_GET (rule R182). -/
def execBwtGet (s : State) : Host.Outcome State Fault Refusal := runCommand .bwtGet checkBwtGet cmdBwtGet s

/-- BWT_SET_START (rule R183). -/
def execBwtSetStart (s : State) : Host.Outcome State Fault Refusal := runCommand .bwtSetStart noChecks cmdBwtSetStart s

end Sys2Proof.Machine
end

