-- ==== Sys2Proof/Machine/Rle1.lean ====
section
/-! DEFINITION. First-stage run-length coding (spec/41_rle1.md, rules R160 to R170). -/

namespace Sys2Proof.Machine

/-! ### The encoder -/

/-- `BlkAppend(v)` (rule R161). -/
def blkAppend (v : Byte) : Cmd Unit := do
  let e ← get
  blkSet e.block.len.toNat v
  modBlock fun b => { b with len := BitVec.ofNat 20 (b.len.toNat + 1), presence := byteSet b.presence v true }

/-- The bytes of a run of `n ≥ 1` bytes `v` (rule R161): up to 3 literals, or 4 literals and the count byte. -/
def appendRun (v : Byte) (n : Nat) : Cmd Unit :=
  if n ≤ 3 then repeatCmd n (blkAppend v)
  else do
    repeatCmd 4 (blkAppend v)
    blkAppend (BitVec.ofNat 8 (n - 4))

/-- `FlushRun()` (rule R161). -/
def flushRun : Cmd Unit := do
  let e ← get
  let n := e.block.runLen.toNat
  if n = 0 then pure ()
  else do
    appendRun e.block.runCh n
    modBlock fun b => { b with runLen := 0 }

/-- The middle of `Rle1Put(b)` (rule R162): an accepted byte extends the pending run or starts a new one. -/
def rle1Accept (b : Byte) : Cmd Unit := do
  let e ← get
  if 0 < e.block.runLen.toNat ∧ b = e.block.runCh ∧ e.block.runLen.toNat < 255 then
    modBlock fun u => { u with runLen := BitVec.ofNat 8 (u.runLen.toNat + 1) }
  else do
    flushRun
    modBlock fun u => { u with runCh := b, runLen := 1 }

/-- `Rle1Put(b)` (rule R162): `true` if the byte was accepted. -/
def rle1Put (b : Byte) : Cmd Bool := do
  let e ← get
  if e.block.len.toNat ≥ fullThreshold e.block.k then pure false
  else do
    rle1Accept b
    modBlock fun u => { u with nonempty := true }
    pure true

/-! ### The decoder -/

/-- The end of `Rle1Next()` for a byte that is data (rule R165): count it and return it. -/
def rle1Data (b : Byte) : Cmd (Option Byte) := do
  modBlock fun u =>
    { u with
      rlCnt := if 0 < u.rlCnt.toNat ∧ b = u.rlLast then BitVec.ofNat 3 (u.rlCnt.toNat + 1) else 1
      rlLast := b }
  pure (some b)

/-- The first lines of a pass of `Rle1Next()` (rule R165): emit a pending repeat, or report the block exhausted, or go on with a
fetched byte. -/
def rle1Pass (go : Byte → Cmd (Option Byte)) : Cmd (Option Byte) := do
  let e ← get
  if 0 < e.block.rlRep.toNat then do
    modBlock fun u => { u with rlRep := BitVec.ofNat 8 (u.rlRep.toNat - 1) }
    pure (some e.block.rlLast)
  else if e.bwt.hopsLeft.toNat = 0 then pure none
  else do
    let b ← fetchByte
    go b

/-- `Rle1Next()` (rule R165), `none` for NONE. A pass goes round again only after a count byte, which sets RL_CNT to 0, so the
second pass is the last. -/
def rle1Next : Cmd (Option Byte) :=
  rle1Pass fun b => do
    let e ← get
    if e.block.rlCnt.toNat = 4 then do
      modBlock fun u => { u with rlRep := b, rlCnt := 0 }
      rle1Pass rle1Data
    else
      rle1Data b

/-- `BlockExhausted()` (rule R165). -/
def blockExhausted (e : Engine) : Bool := e.block.rlRep.toNat = 0 ∧ e.bwt.hopsLeft.toNat = 0

/-! ### Commands -/

/-- The body of RLE1_PUT (rule R163). -/
def cmdRle1Put : Cmd Unit := do
  let b ← argByte
  let ok ← rle1Put b
  setResult ok.toNat
  if ok then pure () else setFull

/-- The body of RLE1_FLUSH (rule R164). -/
def cmdRle1Flush : Cmd Unit := do
  flushRun
  let e ← get
  setResult e.block.len.toNat

/-- The body of RLE1_GET (rule R166). -/
def cmdRle1Get : Cmd Unit := do
  let b ← rle1Next
  resultOrNodata b

/-- The check of RLE1_GET_BLK (rule R167): the index is in range. -/
def checkRle1GetBlk : Cmd Unit := do
  let e ← get
  requireOk (e.host.arg.toNat < e.block.len.toNat)

/-- The body of RLE1_GET_BLK (rule R167). -/
def cmdRle1GetBlk : Cmd Unit := do
  let i ← readArg
  let v ← blkGet i.toNat
  setResult v.toNat

/-- RLE1_PUT (rule R163). -/
def execRle1Put (s : State) : Host.Outcome State Fault Refusal := runCommand .rle1Put noChecks cmdRle1Put s

/-- RLE1_FLUSH (rule R164). -/
def execRle1Flush (s : State) : Host.Outcome State Fault Refusal := runCommand .rle1Flush noChecks cmdRle1Flush s

/-- RLE1_GET (rule R166). -/
def execRle1Get (s : State) : Host.Outcome State Fault Refusal := runCommand .rle1Get noChecks cmdRle1Get s

/-- RLE1_GET_BLK (rule R167). -/
def execRle1GetBlk (s : State) : Host.Outcome State Fault Refusal := runCommand .rle1GetBlk checkRle1GetBlk cmdRle1GetBlk s

end Sys2Proof.Machine
end

