-- ==== Sys2Proof/Machine/Mtf.lean ====
section
/-! DEFINITION. The move-to-front transform with the RLE2 zero-counter, and the symbol map (spec/43_mtf_rle2.md, rules R190 to R205). -/

namespace Sys2Proof.Machine

/-- Elements of MTF_STREAM (rule R47). -/
def mtfStreamSize : Nat := 900001

/-- `MTF_STREAM[i]`. -/
def mtfStreamGet (i : Nat) : Cmd (BitVec 9) := do
  let e ← get
  storeGet .mtfStream e.mtf.stream i

/-! ### The dense map and the initialisation -/

/-- The byte values present, in ascending order (rule R190). -/
def presentValues (p : Vector Bool 256) : List Nat := (List.range 256).filter fun v => p.toList.getD v false

/-- `BuildMap()` (rule R190): dense ranks in ascending order of the byte values. -/
def buildMap (p : Vector Bool 256) (m : MtfUnit) : MtfUnit :=
  let vs := presentValues p
  { m with
    seqToUnseq := rowWrite m.seqToUnseq 0 (vs.map fun v => BitVec.ofNat 8 v)
    unseqToSeq := vs.zipIdx.foldl (fun t q => t.setIfInBounds q.1 (BitVec.ofNat 8 q.2)) m.unseqToSeq
    nInUse := BitVec.ofNat 9 vs.length }

/-- `MtfInit(d)` (rule R191). -/
def mtfInit (decoding : Bool) : Cmd Unit := do
  let e ← get
  modMtf fun m =>
    let m := buildMap e.block.presence m
    { m with
      list := rowWrite m.list 0 ((List.range m.nInUse.toNat).map fun j => BitVec.ofNat 8 j)
      zpend := 0
      len := 0
      freq := Vector.replicate 258 0
      runAcc := 0
      runW := 1 }
  if decoding then do
    modBwt fun u => { u with len := 0 }
    modHuf fun h => { h with decEob := false }
  else pure ()

/-! ### The encoder -/

/-- `EmitSym(s)` (rule R194). -/
def emitSym (s : Nat) : Cmd Unit := do
  let e ← get
  let m ← storeSet .mtfStream mtfStreamSize e.mtf.stream e.mtf.len.toNat (BitVec.ofNat 9 s)
  let c ← tableGet .mtfFreq e.mtf.freq s
  let f ← tableSet .mtfFreq e.mtf.freq s (BitVec.ofNat 20 (c.toNat + 1))
  modMtf fun u => { u with stream := m, len := BitVec.ofNat 20 (u.len.toNat + 1), freq := f }

/-- The digits of `EmitRun` (rule R195) after its first line, least significant first: 0 is RUNA and 1 is RUNB. -/
def runDigits : Nat → Nat → List Nat
  | 0, _ => []
  | fuel + 1, z => z % 2 :: (if z < 2 then [] else runDigits fuel ((z - 2) / 2))

/-- `EmitRun(z)` (rule R195), for `z ≥ 1`; a run has fewer digits than zeros, so `z` bounds the loop. -/
def emitRun (z : Nat) : Cmd Unit := forEach (runDigits z (z - 1)) emitSym

/-- `if ZPEND > 0: EmitRun(ZPEND); ZPEND <- 0` (rules R196, R197). -/
def flushZeros : Cmd Unit := do
  let e ← get
  if 0 < e.mtf.zpend.toNat then do
    emitRun e.mtf.zpend.toNat
    modMtf fun m => { m with zpend := 0 }
  else pure ()

/-- "The position with MTF_LIST[j] = r" (rule R196): in the list of the `n` ranks in use, or else the single such position of the
whole array; `none` where the state holds no single such position. -/
def mtfPosition (n : Nat) (l : List Byte) (r : Byte) : Option Nat :=
  match (l.take n).findIdx? (fun x => x = r) with
  | some j => some j
  | none =>
    match (List.range l.length).filter (fun j => l[j]? = some r) with
    | [j] => some j
    | _ => none

/-- The position of rank `r`, a free value 0..255 where there is no single one (log entry 3). -/
def findRank (r : Byte) : Cmd Nat := do
  let e ← get
  match mtfPosition e.mtf.nInUse.toNat e.mtf.list.toList r with
  | some j => pure j
  | none => drawFree 256

/-- `MoveToFront(j)` (rule R193). -/
def moveToFront (j : Nat) : Cmd Byte := do
  let e ← get
  let r ← tableGet .mtfList e.mtf.list j
  modMtf fun m => { m with list := vecToFront m.list j }
  pure r

/-- The check of MTF_ENC_BYTE (rule R196): the value is in the map. -/
def requirePresent (v : Byte) : Cmd Unit := do
  let e ← get
  requireOk (byteGet e.block.presence v)

/-- The lines of MTF_ENC_BYTE after its check (rule R196), less its write of RESULT. -/
def encodeRank (v : Byte) : Cmd Unit := do
  let e ← get
  let j ← findRank (byteGet e.mtf.unseqToSeq v)
  if j = 0 then
    modMtf fun m => { m with zpend := BitVec.ofNat 20 (m.zpend.toNat + 1) }
  else do
    flushZeros
    let _ ← moveToFront j
    emitSym (j + 1)

/-- MTF_ENC_BYTE as `BlkEncClose()` calls it (rules R196, R264), its check included. -/
def mtfEncByte (v : Byte) : Cmd Unit := do
  requirePresent v
  encodeRank v

/-- The body of MTF_ENC_END (rule R197), less its write of RESULT. -/
def mtfEncEnd : Cmd Unit := do
  flushZeros
  let e ← get
  emitSym (eobOf e.mtf)

/-! ### The decoder -/

/-- `BWT_ARR[BWT_LEN] <- v; BWT_LEN <- BWT_LEN + 1` (rule R198). -/
def bwtAppend (v : Byte) : Cmd Unit := do
  let e ← get
  bwtArrSet e.bwt.len.toNat v
  modBwt fun u => { u with len := BitVec.ofNat 20 (u.len.toNat + 1) }

/-- The run-digit lines of `MtfDecSym(s)` (rule R198), for `s ≤ 1`. -/
def mtfRunDigit (s : Nat) : Cmd Unit := do
  let e ← get
  let new := e.mtf.runAcc.toNat + e.mtf.runW.toNat * (s + 1)
  if e.bwt.len.toNat + new > capacity e.block.k then Cmd.raise .blockSizeExceeded
  else modMtf fun m => { m with runAcc := BitVec.ofNat 20 new, runW := BitVec.ofNat 20 (m.runW.toNat * 2) }

/-- "Flush the pending run" of `MtfDecSym(s)` (rule R198). -/
def mtfFlushRun : Cmd Unit := do
  let e ← get
  if 0 < e.mtf.runAcc.toNat then do
    let r ← tableGet .mtfList e.mtf.list 0
    repeatCmd e.mtf.runAcc.toNat (bwtAppend (byteGet e.mtf.seqToUnseq r))
    modMtf fun m => { m with runAcc := 0, runW := 1 }
  else pure ()

/-- The literal lines of `MtfDecSym(s)` (rule R198), for `2 ≤ s ≤ N_IN_USE`. -/
def mtfLiteral (s : Nat) : Cmd Unit := do
  let e ← get
  if e.bwt.len.toNat ≥ capacity e.block.k then Cmd.raise .blockSizeExceeded
  else do
    let r ← moveToFront (s - 1)
    bwtAppend (byteGet e.mtf.seqToUnseq r)

/-- `MtfDecSym(s)` (rule R198): `true` at END_OF_BLOCK. -/
def mtfDecSym (s : Nat) : Cmd Bool := do
  if s ≤ 1 then do
    mtfRunDigit s
    pure false
  else do
    mtfFlushRun
    let e ← get
    if s = eobOf e.mtf then do
      modHuf fun h => { h with decEob := true }
      pure true
    else do
      mtfLiteral s
      pure false

/-! ### The symbol map -/

/-- `PRESENCE[16i .. 16i+15]` (rule R123). -/
def rangeOf (p : Vector Bool 256) (i : Nat) : List Bool := (p.toList.drop (16 * i)).take 16

/-- `WriteBits(1, b)` for each bit in order. -/
def writeFlags (bs : List Bool) : Cmd Unit := forEach bs fun b => writeBits 1 b.toNat

/-- The body of MTF_WRITE_MAP (rule R202), less its write of RESULT. -/
def mtfWriteMap : Cmd Unit := do
  let e ← get
  let ranges := (List.range 16).map (rangeOf e.block.presence)
  writeFlags (ranges.map fun r => r.any id)
  forEach ranges fun r => if r.any id then writeFlags r else pure ()

/-- `PRESENCE[v] <- ReadBits(1)` (rule R203). -/
def readPresence (v : Nat) : Cmd Unit := do
  let b ← readBits 1
  modBlock fun u => { u with presence := u.presence.setIfInBounds v (b = 1) }

/-- The body of MTF_READ_MAP (rule R203), less its write of RESULT. -/
def mtfReadMap : Cmd Unit := do
  let ranges ← collect (List.range 16) fun _ => readBits 1
  modBlock fun u => { u with presence := Vector.replicate 256 false }
  forEach ranges.zipIdx fun q =>
    if q.1 = 1 then forEach (List.range 16) fun j => readPresence (16 * q.2 + j) else pure ()

/-- "Number of v with PRESENCE[v] = 1" (rules R202, R203). -/
def presentCount (p : Vector Bool 256) : Nat := (presentValues p).length

/-! ### Commands -/

/-- The body of MTF_INIT (rule R192). -/
def cmdMtfInit (decoding : BitVec 1) : Cmd Unit := do
  mtfInit (decoding = 1)
  let e ← get
  setResult e.mtf.nInUse.toNat

/-- The check of MTF_ENC_BYTE on its operand (rule R196). -/
def checkMtfEncByte : Cmd Unit := do
  let v ← argByte
  requirePresent v

/-- The body of MTF_ENC_BYTE (rule R196). -/
def cmdMtfEncByte : Cmd Unit := do
  let v ← argByte
  encodeRank v
  let e ← get
  setResult e.mtf.len.toNat

/-- The body of MTF_ENC_END (rule R197). -/
def cmdMtfEncEnd : Cmd Unit := do
  mtfEncEnd
  let e ← get
  setResult e.mtf.len.toNat

/-- The checks of MTF_DEC_SYM (rule R199). -/
def checkMtfDecSym : Cmd Unit := do
  let s ← argLow 9
  let e ← get
  requireOk (e.mtf.nInUse.toNat ≠ 0 ∧ s < e.mtf.nInUse.toNat + 2 ∧ e.huf.decEob = false)

/-- The body of MTF_DEC_SYM (rule R199). -/
def cmdMtfDecSym : Cmd Unit := do
  let s ← argLow 9
  let eob ← mtfDecSym s
  setResult eob.toNat

/-- The body of MTF_READ_MAP (rule R203). -/
def cmdMtfReadMap : Cmd Unit := do
  mtfReadMap
  let e ← get
  setResult (presentCount e.block.presence)

/-- The body of MTF_WRITE_MAP (rule R202). -/
def cmdMtfWriteMap : Cmd Unit := do
  mtfWriteMap
  let e ← get
  setResult (presentCount e.block.presence)

/-- The check of MTF_GET (rule R204): the index is in range. -/
def checkMtfGet : Cmd Unit := do
  let e ← get
  requireOk (e.host.arg.toNat < e.mtf.len.toNat)

/-- The body of MTF_GET (rule R204). -/
def cmdMtfGet : Cmd Unit := do
  let i ← readArg
  let v ← mtfStreamGet i.toNat
  setResult v.toNat

/-- MTF_INIT (rule R192). -/
def execMtfInit (decoding : BitVec 1) (s : State) : Host.Outcome State Fault Refusal :=
  runCommand (.mtfInit decoding) noChecks (cmdMtfInit decoding) s

/-- MTF_ENC_BYTE (rule R196). -/
def execMtfEncByte (s : State) : Host.Outcome State Fault Refusal := runCommand .mtfEncByte checkMtfEncByte cmdMtfEncByte s

/-- MTF_ENC_END (rule R197). -/
def execMtfEncEnd (s : State) : Host.Outcome State Fault Refusal := runCommand .mtfEncEnd noChecks cmdMtfEncEnd s

/-- MTF_DEC_SYM (rule R199). -/
def execMtfDecSym (s : State) : Host.Outcome State Fault Refusal := runCommand .mtfDecSym checkMtfDecSym cmdMtfDecSym s

/-- MTF_READ_MAP (rule R203). -/
def execMtfReadMap (s : State) : Host.Outcome State Fault Refusal := runCommand .mtfReadMap noChecks cmdMtfReadMap s

/-- MTF_WRITE_MAP (rule R202). -/
def execMtfWriteMap (s : State) : Host.Outcome State Fault Refusal := runCommand .mtfWriteMap noChecks cmdMtfWriteMap s

/-- MTF_GET (rule R204). -/
def execMtfGet (s : State) : Host.Outcome State Fault Refusal := runCommand .mtfGet checkMtfGet cmdMtfGet s

end Sys2Proof.Machine
end

