-- ==== Sys2Proof/Machine/HufAlloc.lean ====
section
/-! DEFINITION. The Huffman code-length allocator (spec/44_huffman_alloc.md, rules R210 to R216): package-merge with limit 20. -/

namespace Sys2Proof.Machine

/-! ### Rows of the tables -/

/-- `LEN[t][0 .. n−1]` as exact numbers. -/
def lenRow (t n : Nat) : Cmd (List Nat) := do
  let e ← get
  let row ← tableGet .len e.huf.len t
  if n ≤ 258 then pure ((row.toList.take n).map BitVec.toNat) else Cmd.fail (.outOfArray .len n)

/-- `RFREQ[t][0 .. n−1]` as exact numbers. -/
def rfreqRow (t n : Nat) : Cmd (List Nat) := do
  let e ← get
  let row ← tableGet .rfreq e.huf.rfreq t
  if n ≤ 258 then pure ((row.toList.take n).map BitVec.toNat) else Cmd.fail (.outOfArray .rfreq n)

/-- `LEN[t][0 ..] <- xs`. -/
def setLenRow (t : Nat) (xs : List Nat) : Cmd Unit := do
  let e ← get
  let row ← tableGet .len e.huf.len t
  let m ← tableSet .len e.huf.len t (rowWrite row 0 (xs.map fun x => BitVec.ofNat 5 x))
  modHuf fun h => { h with len := m }

/-- `RFREQ[t][0 ..] <- xs`. -/
def setRfreqRow (t : Nat) (xs : List Nat) : Cmd Unit := do
  let e ← get
  let row ← tableGet .rfreq e.huf.rfreq t
  let m ← tableSet .rfreq e.huf.rfreq t (rowWrite row 0 (xs.map fun x => BitVec.ofNat 20 x))
  modHuf fun h => { h with rfreq := m }

/-! ### The allocator -/

/-- A leaf or package (rule R212): its weight, and the symbols of the leaves inside it, each as often as it occurs. -/
structure Item where
  weight : Nat
  leaves : List Nat
  deriving DecidableEq, Repr

/-- The order of the leaves: ascending `(w[s], s)` (rule R211). -/
def leafLe (a b : Item) : Bool := a.weight < b.weight ∨ (a.weight = b.weight ∧ a.leaves.headD 0 ≤ b.leaves.headD 0)

/-- The leaves of `f`, a weight of `max(f[s], 1)` each, in order (rules R211, R212). -/
def sortedLeaves (f : List Nat) : List Item :=
  (f.zipIdx.map fun q => { weight := max q.1 1, leaves := [q.2] : Item }).insertionSort (fun a b => leafLe a b = true)

/-- Pairs of consecutive items; an odd last item is dropped (rule R212). -/
def packages : List Item → List Item
  | a :: b :: rest => { weight := a.weight + b.weight, leaves := a.leaves ++ b.leaves } :: packages rest
  | [_] => []
  | [] => []

/-- Merge by ascending weight, stable within each list, leaves before packages on equal weight (rule R212). -/
def mergeItems : List Item → List Item → List Item
  | [], ps => ps
  | l :: ls, ps =>
    ps.takeWhile (fun p => p.weight < l.weight) ++ l :: mergeItems ls (ps.dropWhile (fun p => p.weight < l.weight))

/-- The repeated line of rule R212, `n` times. -/
def mergeRounds (leaves : List Item) : Nat → List Item → List Item
  | 0, cur => cur
  | n + 1, cur => mergeRounds leaves n (mergeItems leaves (packages cur))

/-- `Allocate(f, n)` with `n = len(f)` (rule R212). -/
def allocate (f : List Nat) : List Nat :=
  let leaves := sortedLeaves f
  let cur := mergeRounds leaves (Config.maxEncLen - 1) leaves
  let taken := (cur.take (2 * f.length - 2)).flatMap Item.leaves
  (List.range f.length).map fun s => taken.count s

/-- The largest of a list of numbers, 0 for none. -/
def maxOf (xs : List Nat) : Nat := xs.foldl max 0

/-- The smallest of a list of numbers, 0 for none. -/
def minOf : List Nat → Nat
  | [] => 0
  | x :: xs => xs.foldl min x

/-! ### Commands -/

/-- The symbol count of HUF_ALLOC (rule R213): IMM, or ALPHA for 0. -/
def allocCount (count : BitVec 9) : Cmd Nat := do
  let e ← get
  pure (if count.toNat = 0 then alphaOf e.mtf else count.toNat)

/-- The checks of HUF_ALLOC (rule R213). -/
def checkHufAlloc (t : BitVec 3) (count : BitVec 9) : Cmd Unit := do
  requireTable t
  let n ← allocCount count
  requireOk (2 ≤ n ∧ n ≤ 258)

/-- The body of HUF_ALLOC (rule R213). -/
def cmdHufAlloc (t : BitVec 3) (count : BitVec 9) : Cmd Unit := do
  let n ← allocCount count
  let f ← rfreqRow t.toNat n
  let lens := allocate f
  setLenRow t.toNat lens
  setResult (maxOf lens)

/-- The checks of HUF_SET_FREQ (rule R214). -/
def checkHufSetFreq (t : BitVec 3) (sym : BitVec 9) : Cmd Unit := do
  requireCell t sym
  let a ← readArg
  requireOk (a.toNat < 2 ^ 20)

/-- The body of HUF_SET_FREQ (rule R214). -/
def cmdHufSetFreq (t : BitVec 3) (sym : BitVec 9) : Cmd Unit := do
  let a ← readArg
  let e ← get
  let m ← tableSet2 .rfreq e.huf.rfreq t.toNat sym.toNat (BitVec.ofNat 20 a.toNat)
  modHuf fun h => { h with rfreq := m }

/-- HUF_ALLOC (rule R213). -/
def execHufAlloc (t : BitVec 3) (count : BitVec 9) (s : State) : Host.Outcome State Fault Refusal :=
  runCommand (.hufAlloc t count) (checkHufAlloc t count) (cmdHufAlloc t count) s

/-- HUF_SET_FREQ (rule R214). -/
def execHufSetFreq (t : BitVec 3) (sym : BitVec 9) (s : State) : Host.Outcome State Fault Refusal :=
  runCommand (.hufSetFreq t sym) (checkHufSetFreq t sym) (cmdHufSetFreq t sym) s

end Sys2Proof.Machine
end

