-- ==== Sys2Proof/Machine/Huffman.lean ====
section
/-! DEFINITION. The Huffman encoder tables and decoder lookup (spec/45_huffman_codec.md, rules R220 to R245). -/

namespace Sys2Proof.Machine

/-- Elements of SELECTORS (rule R48). -/
def selectorsSize : Nat := 18001

/-- `SELECTORS[g]`. -/
def selectorGet (g : Nat) : Cmd (BitVec 3) := do
  let e ← get
  storeGet .selectors e.huf.selectors g

/-- `SELECTORS[g] <- t`. -/
def selectorSet (g t : Nat) : Cmd Unit := do
  let e ← get
  let m ← storeSet .selectors selectorsSize e.huf.selectors g (BitVec.ofNat 3 t)
  modHuf fun h => { h with selectors := m }

/-! ### Table count, groups and seed -/

/-- `TableCount(m)` (rule R220). -/
def tableCount (m : Nat) : Nat :=
  if 2400 ≤ m then 6 else if 1200 ≤ m then 5 else if 600 ≤ m then 4 else if 200 ≤ m then 3 else 2

/-- The check of HUF_SET_GROUPS (rule R221): there are symbols. -/
def requireStream : Cmd Unit := do
  let e ← get
  requireOk (e.mtf.len.toNat ≠ 0)

/-- The lines of HUF_SET_GROUPS after its check (rule R221), less its write of RESULT. -/
def setGroups : Cmd Unit := do
  let e ← get
  let m := e.mtf.len.toNat
  modHuf fun h => { h with nGroups := BitVec.ofNat 3 (tableCount m), nSelectors := BitVec.ofNat 15 ((m + 49) / 50) }

/-- HUF_SET_GROUPS as `BlkEncClose()` calls it (rules R221, R264), its check included. -/
def hufSetGroups : Cmd Unit := do
  requireStream
  setGroups

/-- The inner loop of `Seed()` (rule R222) over the frequencies not yet in a band: how many the band takes, and their sum. -/
def takeBand (target : Nat) : List Nat → Nat → Nat → Nat × Nat
  | [], count, acc => (count, acc)
  | f :: fs, count, acc => if acc < target then takeBand target fs (count + 1) (acc + f) else (count, acc)

/-- The lengths of a seeded table (rule R222): 0 in the band of `count` symbols from `gs` on, 15 elsewhere. -/
def seedLens (alpha gs count : Nat) : List Nat :=
  (List.range alpha).map fun v => if gs ≤ v ∧ v < gs + count then 0 else 15

/-- The outer loop of `Seed()` (rule R222) for the tables `t` of the list; `rem` and `gs` as there. -/
def seedTables (freqs : List Nat) (nGroups : Nat) : List Nat → Nat → Nat → Cmd Unit
  | [], _, _ => pure ()
  | t :: ts, rem, gs => do
    let band := takeBand (rem / (nGroups - t)) (freqs.drop gs) 0 0
    setLenRow t (seedLens freqs.length gs band.1)
    seedTables freqs nGroups ts (rem - band.2) (gs + band.1)

/-- `MTF_FREQ[0 .. ALPHA−1]` as exact numbers. -/
def mtfFreqs : Cmd (List Nat) := do
  let e ← get
  let alpha := alphaOf e.mtf
  if alpha ≤ 258 then pure ((e.mtf.freq.toList.take alpha).map BitVec.toNat) else Cmd.fail (.outOfArray .mtfFreq alpha)

/-- `Seed()` (rule R222). -/
def seed : Cmd Unit := do
  let freqs ← mtfFreqs
  let e ← get
  let n := e.huf.nGroups.toNat
  seedTables freqs n (List.range n) e.mtf.len.toNat 0

/-! ### Selection passes -/

/-- The symbols of group `g` (rule R223). -/
def groupSyms (g : Nat) : Cmd (List Nat) := do
  let e ← get
  let first := 50 * g
  let xs ← collect ((List.range (min 50 (e.mtf.len.toNat - first))).map (first + ·)) mtfStreamGet
  pure (xs.map BitVec.toNat)

/-- `Σ over s in grp of LEN[t][s]` (rule R224). -/
def groupCost (grp : List Nat) (t : Nat) : Cmd Nat := do
  let e ← get
  let ls ← collect grp fun s => tableGet2 .len e.huf.len t s
  pure (ls.map BitVec.toNat).sum

/-- The least index at which a list takes its least value (rule R224, decision D21). -/
def leastIndex (xs : List Nat) : Nat := xs.findIdx (fun x => x = minOf xs)

/-- `RFREQ[t][s] <- RFREQ[t][s] + 1` (rule R224). -/
def rfreqBump (t s : Nat) : Cmd Unit := do
  let e ← get
  let c ← tableGet2 .rfreq e.huf.rfreq t s
  let m ← tableSet2 .rfreq e.huf.rfreq t s (BitVec.ofNat 20 (c.toNat + 1))
  modHuf fun h => { h with rfreq := m }

/-- The loop of `SelectPass()` over the groups of the list (rule R224); yields the total cost. -/
def selectGroups (nGroups : Nat) : List Nat → Nat → Cmd Nat
  | [], total => pure total
  | g :: gs, total => do
    let grp ← groupSyms g
    let costs ← collect (List.range nGroups) (groupCost grp)
    let bt := leastIndex costs
    selectorSet g bt
    forEach grp (rfreqBump bt)
    selectGroups nGroups gs (total + costs.getD bt 0)

/-- `LEN[t][0 .. ALPHA−1] <- Allocate(RFREQ[t][0 .. ALPHA−1], ALPHA)` (rule R224). -/
def reallocate (alpha t : Nat) : Cmd Unit := do
  let f ← rfreqRow t alpha
  setLenRow t (allocate f)

/-- `SelectPass()` (rule R224): yields the cost of the pass. -/
def selectPass : Cmd Nat := do
  let e ← get
  let n := e.huf.nGroups.toNat
  let alpha := alphaOf e.mtf
  forEach (List.range n) fun t => setRfreqRow t (List.replicate alpha 0)
  let total ← selectGroups n (List.range e.huf.nSelectors.toNat) 0
  forEach (List.range n) (reallocate alpha)
  pure total

/-- The checks of rule R225. -/
def selectChecks : Cmd Unit := do
  let e ← get
  let n := e.huf.nGroups.toNat
  requireOk (2 ≤ n ∧ n ≤ 6 ∧ e.mtf.len.toNat ≤ e.huf.nSelectors.toNat * 50 ∧ e.mtf.len.toNat ≠ 0)

/-- "repeat n times: c <- SelectPass()" (rule R226); yields the last cost. -/
def selectPasses : Nat → Nat → Cmd Nat
  | 0, c => pure c
  | n + 1, _ => do
    let c ← selectPass
    selectPasses n c

/-- The lines of HUF_OPTIMIZE after its checks (rule R226), less its write of RESULT: yields the cost of the last pass. -/
def seedAndSelect : Cmd Nat := do
  seed
  selectPasses Config.nIters 0

/-- HUF_OPTIMIZE as `BlkEncClose()` calls it (rules R226, R264), its checks included. -/
def hufOptimize : Cmd Nat := do
  selectChecks
  seedAndSelect

/-! ### Canonical codes and serialization -/

/-- The symbols of length `n`, in ascending order. -/
def symsOfLen (lens : List Nat) (n : Nat) : List Nat := (List.range lens.length).filter fun s => lens[s]? = some n

/-- The loop of `AssignCodes` (rule R227) over the lengths of the list: the packed code of each symbol, from the code `vec` on. -/
def canonicalCodes (lens : List Nat) : List Nat → Nat → List (Nat × Nat)
  | [], _ => []
  | n :: ns, vec =>
    let syms := symsOfLen lens n
    (syms.zipIdx.map fun q => (q.1, n <<< 24 ||| (vec + q.2))) ++ canonicalCodes lens ns ((vec + syms.length) <<< 1)

/-- The lengths `mn .. mx` of a table. -/
def lengthRange (lens : List Nat) : List Nat :=
  (List.range (maxOf lens + 1 - minOf lens)).map (minOf lens + ·)

/-- `AssignCodes(t)` (rule R227). -/
def assignCodes (t : Nat) : Cmd Unit := do
  let e ← get
  let lens ← lenRow t (alphaOf e.mtf)
  let row ← tableGet .code e.huf.code t
  let row := (canonicalCodes lens (lengthRange lens) 0).foldl (fun r q => r.setIfInBounds q.1 (BitVec.ofNat 32 q.2)) row
  let m ← tableSet .code e.huf.code t row
  modHuf fun h => { h with code := m }

/-- The position of a selector in the list of rule R229, a free value below the list's length where it is not there
(log entry 3). -/
def selectorPosition (list : List Nat) (sel : Nat) : Cmd Nat :=
  match list.findIdx? (fun x => x = sel) with
  | some j => pure j
  | none => drawFree list.length

/-- The selector loop of `WriteTables()` (rule R229). -/
def writeSelectors : List Nat → List Nat → Cmd Unit
  | [], _ => pure ()
  | g :: gs, list => do
    let sel ← selectorGet g
    let j ← selectorPosition list sel.toNat
    writeUnary j
    writeSelectors gs (listToFront list j)

/-- The length loop of `WriteTables()` for one table (rule R229), from the current length `cur`. -/
def writeDeltas : List Nat → Nat → Cmd Unit
  | [], _ => pure ()
  | len :: lens, cur => do
    repeatCmd (len - cur) (writeBits 2 2)
    repeatCmd (cur - len) (writeBits 2 3)
    writeBits 1 0
    writeDeltas lens len

/-- `WriteTables()` (rule R229). -/
def writeTables : Cmd Unit := do
  let e ← get
  let n := e.huf.nGroups.toNat
  writeBits 3 n
  writeBits 15 e.huf.nSelectors.toNat
  writeSelectors (List.range e.huf.nSelectors.toNat) (List.range n)
  forEach (List.range n) fun t => do
    let lens ← lenRow t (alphaOf e.mtf)
    writeBits 5 (lens.headD 0)
    writeDeltas lens (lens.headD 0)

/-- `CODE[SELECTORS[i div 50]][MTF_STREAM[i]]` (rule R231). -/
def codeOfSymbol (i : Nat) : Cmd Word := do
  let sel ← selectorGet (i / 50)
  let sym ← mtfStreamGet i
  let e ← get
  tableGet2 .code e.huf.code sel.toNat sym.toNat

/-- `c[31:24]`, the length of a packed code (rule R48). -/
def codeLen (c : Word) : Nat := c.toNat >>> 24

/-- `WriteBits(c[31:24], c[23:0])` (rules R231, R232). -/
def writeCode (c : Word) : Cmd Unit := writeBits (codeLen c) (c.toNat % 2 ^ 24)

/-- "if CODE[...][31:24] = 0: raise UnsupportedOperation" for symbol `i` of the stream (rule R231). -/
def requireCode (i : Nat) : Cmd Unit := do
  let c ← codeOfSymbol i
  requireOk (codeLen c ≠ 0)

/-- The checks of HUF_ENCODE_DATA (rule R231): every group has a selector, and every symbol a code. -/
def encodeChecks : Cmd Unit := do
  let e ← get
  requireOk (e.mtf.len.toNat ≤ e.huf.nSelectors.toNat * 50)
  forEach (List.range e.mtf.len.toNat) requireCode

/-- The write of symbol `i` of the stream (rule R231). -/
def writeSymbol (i : Nat) : Cmd Unit := do
  let c ← codeOfSymbol i
  writeCode c

/-- The lines of HUF_ENCODE_DATA after its checks (rule R231), less its write of RESULT. -/
def encodeCodes : Cmd Unit := do
  let e ← get
  forEach (List.range e.mtf.len.toNat) writeSymbol

/-- HUF_ENCODE_DATA as `BlkEncClose()` calls it (rules R231, R264), its checks included. -/
def hufEncodeData : Cmd Unit := do
  encodeChecks
  encodeCodes

/-! ### The decode tables -/

/-- How many symbols have length `n`. -/
def countOfLen (lens : List Nat) (n : Nat) : Nat := lens.count n

/-- The last loop of `BuildDecode` (rule R235) over the lengths of the list: `(L, BASE, LIMIT)` for each. -/
def decodeBounds (lens : List Nat) : List Nat → Nat → Nat → List (Nat × Nat × Nat)
  | [], _, _ => []
  | n :: ns, code, off =>
    let cnt := countOfLen lens n
    (n, code - off, code + cnt - 1) :: decodeBounds lens ns ((code + cnt) <<< 1) (off + cnt)

/-- `BuildDecode(t)` (rule R235). LIMIT is −1 and BASE 0 outside the lengths of the table. -/
def buildDecode (t : Nat) : Cmd Unit := do
  let e ← get
  let lens ← lenRow t (alphaOf e.mtf)
  let bounds := decodeBounds lens (lengthRange lens) 0 0
  let row ← tableGet .perm e.huf.perm t
  let perm := rowWrite row 0 (((lengthRange lens).flatMap (symsOfLen lens)).map fun s => BitVec.ofNat 9 s)
  let base := bounds.foldl (fun r q => r.setIfInBounds q.1 (BitVec.ofNat 32 q.2.1)) (Vector.replicate 24 (0 : Word))
  let limit := bounds.foldl (fun r q => r.setIfInBounds q.1 (BitVec.ofNat 32 q.2.2)) (Vector.replicate 24 (-1 : Word))
  let minLen ← tableSet .minMaxLen e.huf.minLen t (BitVec.ofNat 5 (minOf lens))
  let maxLen ← tableSet .minMaxLen e.huf.maxLen t (BitVec.ofNat 5 (maxOf lens))
  let perms ← tableSet .perm e.huf.perm t perm
  let bases ← tableSet .base e.huf.base t base
  let limits ← tableSet .limit e.huf.limit t limit
  modHuf fun h => { h with minLen := minLen, maxLen := maxLen, perm := perms, base := bases, limit := limits }

/-! ### Reading tables -/

/-- The bits the reader can still deliver without waiting. -/
def bitsAvailable (e : Engine) : Nat := e.bits.rdCnt.toNat + 8 * e.host.inFifo.length

/-- The delta loop of one symbol (rule R233) from the length `cur`: yields the length. Every pass reads at least one bit, so `fuel`
is the number of bits at hand; without it the next bit is not there, and reading it holds or raises as `InByte()` does (log entry 15). -/
def readDelta : Nat → Nat → Cmd Nat
  | 0, cur => do
    raiseWhen (cur < 1 ∨ cur > Config.maxDecLen) .invalidHuffmanTables
    let _ ← readBits 1
    pure cur
  | fuel + 1, cur => do
    raiseWhen (cur < 1 ∨ cur > Config.maxDecLen) .invalidHuffmanTables
    let more ← readBits 1
    if more = 0 then pure cur
    else do
      let down ← readBits 1
      readDelta fuel (if down = 0 then cur + 1 else cur - 1)

/-- `LEN[t][s] <- cur` for the symbols of the list in order (rule R233). -/
def readLens (t : Nat) : List Nat → Nat → Cmd Unit
  | [], _ => pure ()
  | s :: ss, cur => do
    let e ← get
    let cur ← readDelta (bitsAvailable e) cur
    let e ← get
    let m ← tableSet2 .len e.huf.len t s (BitVec.ofNat 5 cur)
    modHuf fun h => { h with len := m }
    readLens t ss cur

/-- The selector loop of `ReadTables()` (rule R233); `list[j]` exists, since `ReadUnary(nG)` yields `j < nG`. -/
def readSelectors (nG : Nat) : List Nat → List Nat → Cmd Unit
  | [], _ => pure ()
  | g :: gs, list => do
    let j ← readUnary nG
    selectorSet g (list.getD j 0)
    readSelectors nG gs (listToFront list j)

/-- `ReadTables()` (rule R233). -/
def readTables : Cmd Unit := do
  let e ← get
  let alpha := alphaOf e.mtf
  raiseWhen (e.mtf.nInUse.toNat = 0) .invalidHuffmanTables
  let nG ← readBits 3
  raiseWhen (nG < 2 ∨ nG > 6) .invalidHuffmanTables
  let nS ← readBits 15
  raiseWhen (nS < 1 ∨ nS > Config.maxSelectors) .invalidHuffmanTables
  modHuf fun h => { h with nGroups := BitVec.ofNat 3 nG, nSelectors := BitVec.ofNat 15 nS }
  readSelectors nG (List.range nS) (List.range nG)
  forEach (List.range nG) fun t => do
    let cur ← readBits 5
    readLens t (List.range alpha) cur
  forEach (List.range nG) buildDecode
  modHuf fun h => { h with symCount := 0, decEob := false }

/-! ### Decoding a symbol -/

/-- The loop of `DecodeSym(t)` (rule R237) at length `len` with `left = 23 − len` bits still allowed. -/
def resolveCode (t : Nat) : Nat → Nat → Nat → Cmd Nat
  | left, len, code => do
    let e ← get
    let limit ← tableGet2 .limit e.huf.limit t len
    if (code : Int) > limit.toInt then
      match left with
      | 0 => Cmd.raise .invalidHuffmanTables
      | left + 1 => do
        let b ← readBits 1
        resolveCode t left (len + 1) (code <<< 1 ||| b)
    else do
      let base ← tableGet2 .base e.huf.base t len
      if code < base.toNat then Cmd.fail (.outOfArray .perm code)
      else do
        let s ← tableGet2 .perm e.huf.perm t (code - base.toNat)
        pure s.toNat

/-- `DecodeSym(t)` (rule R237). -/
def decodeSym (t : Nat) : Cmd Nat := do
  let e ← get
  let mn ← tableGet .minMaxLen e.huf.minLen t
  let code ← readBits mn.toNat
  resolveCode t (Config.maxDecLen - mn.toNat) mn.toNat code

/-- The body of HUF_DECODE_SYM (rule R238), less its write of RESULT: yields the symbol. -/
def hufDecodeSym : Cmd Nat := do
  let e ← get
  let g := e.huf.symCount.toNat / Config.groupSize
  raiseWhen (g ≥ e.huf.nSelectors.toNat) .invalidHuffmanTables
  let t ← selectorGet g
  let s ← decodeSym t.toNat
  modHuf fun h => { h with symCount := BitVec.ofNat 20 (h.symCount.toNat + 1) }
  pure s

/-! ### Commands -/

/-- The body of HUF_SET_GROUPS (rule R221). -/
def cmdHufSetGroups : Cmd Unit := do
  setGroups
  let e ← get
  setResult e.huf.nGroups.toNat

/-- The checks of HUF_SEED (rule R222). -/
def checkHufSeed : Cmd Unit := do
  let e ← get
  requireOk (2 ≤ e.huf.nGroups.toNat ∧ e.huf.nGroups.toNat ≤ 6 ∧ e.mtf.len.toNat ≠ 0)

/-- The body of HUF_SEED (rule R222). -/
def cmdHufSeed : Cmd Unit := seed

/-- The body of HUF_SELECT_PASS (rule R225). -/
def cmdHufSelectPass : Cmd Unit := do
  let c ← selectPass
  setResult c

/-- The body of HUF_OPTIMIZE (rule R226). -/
def cmdHufOptimize : Cmd Unit := do
  let c ← seedAndSelect
  setResult c

/-- `Σ of 2^(20 − len)` (rule R228). -/
def kraftSum (lens : List Nat) : Nat := (lens.map fun n => 2 ^ (Config.maxEncLen - n)).sum

/-- "every LEN[t][s] for s < ALPHA in 1..limit", as the rules R228, R230 and R236 check it; yields the lengths. -/
def requireLens (limit t : Nat) : Cmd (List Nat) := do
  let e ← get
  let lens ← lenRow t (alphaOf e.mtf)
  requireOk (lens.all fun n => 1 ≤ n ∧ n ≤ limit)
  pure lens

/-- The checks of HUF_ASSIGN_CODES (rule R228). -/
def checkHufAssignCodes (t : BitVec 3) : Cmd Unit := do
  requireTable t
  let lens ← requireLens Config.maxEncLen t.toNat
  requireOk (kraftSum lens ≤ 2 ^ Config.maxEncLen)

/-- The body of HUF_ASSIGN_CODES (rule R228). -/
def cmdHufAssignCodes (t : BitVec 3) : Cmd Unit := assignCodes t.toNat

/-- The checks of HUF_WRITE_TABLES (rule R230). -/
def checkHufWriteTables : Cmd Unit := do
  let e ← get
  let n := e.huf.nGroups.toNat
  let sels := e.huf.nSelectors.toNat
  requireOk (2 ≤ n ∧ n ≤ 6 ∧ 1 ≤ sels ∧ sels ≤ Config.maxSelectors)
  forEach (List.range n) fun t => do
    let _ ← requireLens Config.maxEncLen t

/-- The body of HUF_WRITE_TABLES (rule R230). -/
def cmdHufWriteTables : Cmd Unit := do
  writeTables
  let e ← get
  setResult e.huf.nSelectors.toNat

/-- The body of HUF_ENCODE_DATA (rule R231). -/
def cmdHufEncodeData : Cmd Unit := do
  encodeCodes
  let e ← get
  setResult e.mtf.len.toNat

/-- The body of HUF_READ_TABLES (rule R234). -/
def cmdHufReadTables : Cmd Unit := do
  readTables
  let e ← get
  setResult e.huf.nGroups.toNat

/-- The checks of HUF_BUILD_DECODE (rule R236). -/
def checkHufBuildDecode (t : BitVec 3) : Cmd Unit := do
  requireTable t
  let _ ← requireLens Config.maxDecLen t.toNat

/-- The body of HUF_BUILD_DECODE (rule R236). -/
def cmdHufBuildDecode (t : BitVec 3) : Cmd Unit := buildDecode t.toNat

/-- The body of HUF_DECODE_SYM (rule R238). -/
def cmdHufDecodeSym : Cmd Unit := do
  let s ← hufDecodeSym
  setResult s

/-- The checks of HUF_ENCODE_SYM (rule R232). -/
def checkHufEncodeSym (t : BitVec 3) : Cmd Unit := do
  requireTable t
  let s ← argLow 9
  let e ← get
  requireOk (s < alphaOf e.mtf)
  let c ← tableGet2 .code e.huf.code t.toNat s
  requireOk (codeLen c ≠ 0)

/-- The body of HUF_ENCODE_SYM (rule R232). -/
def cmdHufEncodeSym (t : BitVec 3) : Cmd Unit := do
  let s ← argLow 9
  let e ← get
  let c ← tableGet2 .code e.huf.code t.toNat s
  writeCode c

/-- The checks of HUF_SET_LEN (rule R240): the whole of ARG is the length (log entry 6). -/
def checkHufSetLen (t : BitVec 3) (sym : BitVec 9) : Cmd Unit := do
  requireCell t sym
  let a ← readArg
  requireOk (1 ≤ a.toNat ∧ a.toNat ≤ Config.maxDecLen)

/-- The body of HUF_SET_LEN (rule R240). -/
def cmdHufSetLen (t : BitVec 3) (sym : BitVec 9) : Cmd Unit := do
  let a ← readArg
  let e ← get
  let m ← tableSet2 .len e.huf.len t.toNat sym.toNat (BitVec.ofNat 5 a.toNat)
  modHuf fun h => { h with len := m }

/-- The body of HUF_GET_LEN (rule R241). -/
def cmdHufGetLen (t : BitVec 3) (sym : BitVec 9) : Cmd Unit := do
  let e ← get
  let v ← tableGet2 .len e.huf.len t.toNat sym.toNat
  setResult v.toNat

/-- The body of HUF_GET_CODE (rule R242). -/
def cmdHufGetCode (t : BitVec 3) (sym : BitVec 9) : Cmd Unit := do
  let e ← get
  let v ← tableGet2 .code e.huf.code t.toNat sym.toNat
  setResult v.toNat

/-- The check of HUF_GET_SEL (rule R243): the index is in range. -/
def checkHufGetSel : Cmd Unit := do
  let e ← get
  requireOk (e.host.arg.toNat < e.huf.nSelectors.toNat)

/-- The body of HUF_GET_SEL (rule R243). -/
def cmdHufGetSel : Cmd Unit := do
  let i ← readArg
  let v ← selectorGet i.toNat
  setResult v.toNat

/-- HUF_SET_GROUPS (rule R221). -/
def execHufSetGroups (s : State) : Host.Outcome State Fault Refusal := runCommand .hufSetGroups requireStream cmdHufSetGroups s

/-- HUF_SEED (rule R222). -/
def execHufSeed (s : State) : Host.Outcome State Fault Refusal := runCommand .hufSeed checkHufSeed cmdHufSeed s

/-- HUF_SELECT_PASS (rule R225). -/
def execHufSelectPass (s : State) : Host.Outcome State Fault Refusal := runCommand .hufSelectPass selectChecks cmdHufSelectPass s

/-- HUF_OPTIMIZE (rule R226). -/
def execHufOptimize (s : State) : Host.Outcome State Fault Refusal := runCommand .hufOptimize selectChecks cmdHufOptimize s

/-- HUF_ASSIGN_CODES (rule R228). -/
def execHufAssignCodes (t : BitVec 3) (s : State) : Host.Outcome State Fault Refusal :=
  runCommand (.hufAssignCodes t) (checkHufAssignCodes t) (cmdHufAssignCodes t) s

/-- HUF_WRITE_TABLES (rule R230). -/
def execHufWriteTables (s : State) : Host.Outcome State Fault Refusal := runCommand .hufWriteTables checkHufWriteTables cmdHufWriteTables s

/-- HUF_ENCODE_DATA (rule R231). -/
def execHufEncodeData (s : State) : Host.Outcome State Fault Refusal := runCommand .hufEncodeData encodeChecks cmdHufEncodeData s

/-- HUF_READ_TABLES (rule R234). -/
def execHufReadTables (s : State) : Host.Outcome State Fault Refusal := runCommand .hufReadTables noChecks cmdHufReadTables s

/-- HUF_BUILD_DECODE (rule R236). -/
def execHufBuildDecode (t : BitVec 3) (s : State) : Host.Outcome State Fault Refusal :=
  runCommand (.hufBuildDecode t) (checkHufBuildDecode t) (cmdHufBuildDecode t) s

/-- HUF_DECODE_SYM (rule R238). -/
def execHufDecodeSym (s : State) : Host.Outcome State Fault Refusal := runCommand .hufDecodeSym noChecks cmdHufDecodeSym s

/-- HUF_ENCODE_SYM (rule R232). -/
def execHufEncodeSym (t : BitVec 3) (s : State) : Host.Outcome State Fault Refusal :=
  runCommand (.hufEncodeSym t) (checkHufEncodeSym t) (cmdHufEncodeSym t) s

/-- HUF_SET_LEN (rule R240). -/
def execHufSetLen (t : BitVec 3) (sym : BitVec 9) (s : State) : Host.Outcome State Fault Refusal :=
  runCommand (.hufSetLen t sym) (checkHufSetLen t sym) (cmdHufSetLen t sym) s

/-- HUF_GET_LEN (rule R241). -/
def execHufGetLen (t : BitVec 3) (sym : BitVec 9) (s : State) : Host.Outcome State Fault Refusal :=
  runCommand (.hufGetLen t sym) (requireCell t sym) (cmdHufGetLen t sym) s

/-- HUF_GET_CODE (rule R242). -/
def execHufGetCode (t : BitVec 3) (sym : BitVec 9) (s : State) : Host.Outcome State Fault Refusal :=
  runCommand (.hufGetCode t sym) (requireCell t sym) (cmdHufGetCode t sym) s

/-- HUF_GET_SEL (rule R243). -/
def execHufGetSel (s : State) : Host.Outcome State Fault Refusal := runCommand .hufGetSel checkHufGetSel cmdHufGetSel s

end Sys2Proof.Machine
end

