-- ==== Sys2Proof/Machine/Block.lean ====
section
/-! DEFINITION. Block encode and decode framing (spec/47_block_framing.md, rules R260 to R277). The bodies of other commands that a
block command calls are called without their write of RESULT (rule R264, log entry 10). -/

namespace Sys2Proof.Machine

/-! ### The encoder -/

/-- `BlkEncOpen(k)` (rule R261). -/
def blkEncOpen (k : BitVec 4) : Cmd Unit := do
  modBlock fun b =>
    { b with k := k, len := 0, presence := Vector.replicate 256 false, runLen := 0, nonempty := false }
  modCrc fun c => { c with block := 0xFFFFFFFF }

/-- The block header fields of `BlkEncClose()` (rules R264, R272): marker, CRC, randomized flag 0, start pointer. -/
def writeBlockHeader (crc start : Nat) : Cmd Unit := do
  write48 Config.blockMagic
  write32 crc
  writeBits 1 0
  writeBits 24 start

/-- The MTF steps of `BlkEncClose()` (rule R264): symbol map and symbol stream. -/
def encodeSymbols : Cmd Unit := do
  mtfInit false
  mtfWriteMap
  let e ← get
  forEach (List.range e.bwt.len.toNat) fun i => do
    let v ← bwtArrGet i
    mtfEncByte v
  mtfEncEnd

/-- The Huffman steps of `BlkEncClose()` (rule R264): tables and coded data. -/
def encodeHuffman : Cmd Unit := do
  hufSetGroups
  let _ ← hufOptimize
  let e ← get
  forEach (List.range e.huf.nGroups.toNat) assignCodes
  writeTables
  hufEncodeData

/-- `BlkEncClose()` (rule R264): yields the block's CRC value. -/
def blkEncClose : Cmd Word := do
  flushRun
  let e ← get
  let crc := crcValue e.crc.block
  let start ← bwtForward
  writeBlockHeader crc.toNat start
  encodeSymbols
  encodeHuffman
  modBlock fun b => { b with nonempty := false }
  pure crc

/-! ### The decoder -/

/-- The symbol loop of `BlkDecStart()` (rules R270, R271). `left` is how many symbols the selectors still cover; the symbol after
them raises InvalidHuffmanTables (rule R238), so the loop needs no other bound (log entry 15). -/
def decodeSymbols : Nat → Cmd Unit
  | 0 => Cmd.raise .invalidHuffmanTables
  | left + 1 => do
    let s ← hufDecodeSym
    let eob ← mtfDecSym s
    if eob then pure () else decodeSymbols left

/-- The header fields that `BlkDecStart()` reads (rule R270): stored CRC, randomized flag, start pointer. -/
def readBlockHeader : Cmd Unit := do
  let stored ← read32
  modCrc fun c => { c with storedBlock := BitVec.ofNat 32 stored }
  let flag ← readBits 1
  modBlock fun b => { b with randFlag := flag = 1 }
  let start ← readBits 24
  modBwt fun u => { u with startPtr := BitVec.ofNat 24 start }

/-- `BlkDecStart()` (rule R270): yields BWT_LEN. -/
def blkDecStart : Cmd Nat := do
  readBlockHeader
  mtfReadMap
  mtfInit true
  readTables
  let e ← get
  decodeSymbols (e.huf.nSelectors.toNat * Config.groupSize)
  let n ← bwtInvSetup
  modBlock fun b => { b with rlLast := 0, rlCnt := 0, rlRep := 0, randNtogo := 0, randTpos := 0 }
  modCrc fun c => { c with block := 0xFFFFFFFF }
  pure n

/-! ### Commands -/

/-- The body of BLK_ENC_OPEN (rule R261). -/
def cmdBlkEncOpen (k : BitVec 4) : Cmd Unit := blkEncOpen k

/-- The third and fourth lines of BLK_ENC_WRITE (rule R262): the CRC takes an accepted byte; FULL marks a refused one. -/
def feedOrRefuse (ok : Bool) (b : Byte) : Cmd Unit := if ok then feedBlockCrc b else setFull

/-- The body of BLK_ENC_WRITE (rule R262). -/
def cmdBlkEncWrite : Cmd Unit := do
  let b ← argByte
  let ok ← rle1Put b
  feedOrRefuse ok b
  setResult ok.toNat

/-- The body of BLK_ENC_CLOSE (rule R263). -/
def cmdBlkEncClose : Cmd Unit := do
  let e ← get
  if e.block.nonempty then do
    let c ← blkEncClose
    setResult c.toNat
  else endWithNodata

/-- The check of BLK_DEC_START (rule R270): a multiplier 1..9, or 0 to keep BLOCK_K. -/
def checkBlkDecStart (k : BitVec 4) : Cmd Unit := requireOk (k.toNat ≤ 9)

/-- The body of BLK_DEC_START (rule R270). -/
def cmdBlkDecStart (k : BitVec 4) : Cmd Unit := do
  doWhen (0 < k.toNat) (modBlock fun b => { b with k := k })
  let n ← blkDecStart
  setResult n

/-- The body of BLK_DEC_READ (rule R275). -/
def cmdBlkDecRead : Cmd Unit := do
  let b ← rle1Next
  match b with
  | none => endWithNodata
  | some v => do
    feedBlockCrc v
    setResult v.toNat

/-- The check of BLK_CHECK_CRC (rule R276): the block has been read to its end. -/
def checkBlkCheckCrc : Cmd Unit := do
  let e ← get
  requireOk (blockExhausted e)

/-- The body of BLK_CHECK_CRC (rule R276). -/
def cmdBlkCheckCrc : Cmd Unit := do
  let e ← get
  let c := crcValue e.crc.block
  setResult c.toNat
  raiseWhen (c ≠ e.crc.storedBlock) .blockCrcMismatch

/-- BLK_ENC_OPEN (rule R261). -/
def execBlkEncOpen (k : BitVec 4) (s : State) : Host.Outcome State Fault Refusal :=
  runCommand (.blkEncOpen k) (requireMultiplier k) (cmdBlkEncOpen k) s

/-- BLK_ENC_WRITE (rule R262). -/
def execBlkEncWrite (s : State) : Host.Outcome State Fault Refusal := runCommand .blkEncWrite noChecks cmdBlkEncWrite s

/-- BLK_ENC_CLOSE (rule R263). -/
def execBlkEncClose (s : State) : Host.Outcome State Fault Refusal := runCommand .blkEncClose noChecks cmdBlkEncClose s

/-- BLK_DEC_START (rule R270). -/
def execBlkDecStart (k : BitVec 4) (s : State) : Host.Outcome State Fault Refusal :=
  runCommand (.blkDecStart k) (checkBlkDecStart k) (cmdBlkDecStart k) s

/-- BLK_DEC_READ (rule R275). -/
def execBlkDecRead (s : State) : Host.Outcome State Fault Refusal := runCommand .blkDecRead noChecks cmdBlkDecRead s

/-- BLK_CHECK_CRC (rule R276). -/
def execBlkCheckCrc (s : State) : Host.Outcome State Fault Refusal := runCommand .blkCheckCrc checkBlkCheckCrc cmdBlkCheckCrc s

end Sys2Proof.Machine
end

