-- ==== Sys2Proof/Machine/Stream.lean ====
section
/-! DEFINITION. The stream framing state machine (spec/48_stream_framing.md, rules R290 to R302). -/

namespace Sys2Proof.Machine

/-! ### The encoder -/

/-- `STREAM_CRC <- rotl1(STREAM_CRC) ^ BlkEncClose()` (rules R292, R293). -/
def closeAndCombine : Cmd Unit := do
  let c ← blkEncClose
  combineCrc c

/-- STR_ENC_OPEN and STR_DEC_OPEN are accepted in the quiet states only (rules R291, R294, R301). -/
def requireQuiet : Cmd Unit := do
  let e ← get
  requireOk e.frame.phase.quiet

/-- STR_ENC_WRITE and STR_ENC_FINISH are accepted in ENC_ACTIVE only (rules R292, R293, R301). -/
def requireEncoding : Cmd Unit := do
  let e ← get
  requireOk (e.frame.phase = .encActive)

/-- STR_DEC_READ is accepted in the decoder's states only (rules R295, R301). -/
def requireDecoding : Cmd Unit := do
  let e ← get
  requireOk e.frame.phase.decoding

/-- The checks of STR_ENC_OPEN (rule R291). -/
def checkStrEncOpen (k : BitVec 4) : Cmd Unit := do
  requireMultiplier k
  requireQuiet

/-- The body of STR_ENC_OPEN (rule R291). -/
def cmdStrEncOpen (k : BitVec 4) : Cmd Unit := do
  modBits fun r => { r with wrAcc := 0, wrCnt := 0 }
  writeBits 8 0x42
  writeBits 8 0x5A
  writeBits 8 0x68
  writeBits 8 (0x30 + k.toNat)
  modCrc fun c => { c with stream := 0 }
  blkEncOpen k
  setPhase .encActive

/-- The lines of STR_ENC_WRITE for a full block (rule R292): it is closed, and the byte is the first of the next one. -/
def nextBlockWith (b : Byte) : Cmd Unit := do
  closeAndCombine
  let e ← get
  blkEncOpen e.block.k
  let _ ← rle1Put b

/-- The body of STR_ENC_WRITE (rule R292). -/
def cmdStrEncWrite : Cmd Unit := do
  let b ← argByte
  let ok ← rle1Put b
  doWhen (!ok) (nextBlockWith b)
  feedBlockCrc b
  setResult 1

/-- The body of STR_ENC_FINISH (rule R293). -/
def cmdStrEncFinish : Cmd Unit := do
  let e ← get
  doWhen e.block.nonempty closeAndCombine
  write48 Config.endMagic
  let e ← get
  write32 e.crc.stream.toNat
  flushWriter
  setPhase .encDone
  setResult e.crc.stream.toNat

/-! ### The decoder -/

/-- The body of STR_DEC_OPEN (rule R294). -/
def cmdStrDecOpen (headerless : BitVec 1) : Cmd Unit := do
  modBits fun r => { r with rdAcc := 0, rdCnt := 0 }
  modFrame fun f => { f with headerless := headerless = 1 }
  modCrc fun c => { c with stream := 0 }
  setPhase .decUninit

/-- `if ReadBits(8) != v: raise InvalidHeader` (rule R296). -/
def expectByte (v : Nat) : Cmd Unit := do
  let b ← readBits 8
  raiseWhen (b ≠ v) .invalidHeader

/-- The first two header bytes, 'B' and 'Z' (rule R296). -/
def expectMagic : Cmd Unit := do
  expectByte 0x42
  expectByte 0x5A

/-- `ReadHeader()` (rule R296). -/
def readHeader : Cmd Unit := do
  let e ← get
  doWhen (!e.frame.headerless) expectMagic
  expectByte 0x68
  let d ← readBits 8
  raiseWhen (d < 0x31 ∨ d > 0x39) .invalidHeader
  modBlock fun b => { b with k := BitVec.ofNat 4 (d - 0x30) }
  setPhase .decBlockBoundary

/-- `BoundaryStep()` (rule R297). -/
def boundaryStep : Cmd Unit := do
  let m ← read48
  if m = Config.blockMagic then do
    let _ ← blkDecStart
    setPhase .decBlockActive
  else if m = Config.endMagic then do
    let v ← read32
    modCrc fun c => { c with storedStream := BitVec.ofNat 32 v }
    let e ← get
    raiseWhen (e.crc.storedStream ≠ e.crc.stream) .streamCrcMismatch
    setPhase .decComplete
  else
    Cmd.raise .invalidHeader

/-- `EndBlock()` (rule R298). -/
def endBlock : Cmd Unit := do
  let e ← get
  let c := crcValue e.crc.block
  raiseWhen (c ≠ e.crc.storedBlock) .blockCrcMismatch
  combineCrc c
  setPhase .decBlockBoundary

/-- The loop of STR_DEC_READ (rule R295). A block that has just started holds a byte, so no command goes round more than three
times; the bound is the number of passes still allowed (log entry 15). -/
def strDecLoop : Nat → Cmd Unit
  | 0 => Cmd.fail .loopBound
  | passes + 1 => do
    let e ← get
    match e.frame.phase with
    | .decUninit => do
      readHeader
      strDecLoop passes
    | .decBlockBoundary => do
      boundaryStep
      strDecLoop passes
    | .decBlockActive => do
      let b ← rle1Next
      match b with
      | some v => do
        feedBlockCrc v
        setResult v.toNat
      | none => do
        endBlock
        strDecLoop passes
    | .idle => endWithNodata
    | .encActive => endWithNodata
    | .encDone => endWithNodata
    | .decComplete => endWithNodata
    | .error => endWithNodata
    | .closed => endWithNodata

/-- The body of STR_DEC_READ (rule R295). -/
def cmdStrDecRead : Cmd Unit := strDecLoop 4

/-- The body of STR_CLOSE (rule R300). -/
def cmdStrClose : Cmd Unit := setPhase .closed

/-! ### Commands -/

/-- STR_ENC_OPEN (rule R291). -/
def execStrEncOpen (k : BitVec 4) (s : State) : Host.Outcome State Fault Refusal :=
  runCommand (.strEncOpen k) (checkStrEncOpen k) (cmdStrEncOpen k) s

/-- STR_ENC_WRITE (rule R292). -/
def execStrEncWrite (s : State) : Host.Outcome State Fault Refusal := runCommand .strEncWrite requireEncoding cmdStrEncWrite s

/-- STR_ENC_FINISH (rule R293). -/
def execStrEncFinish (s : State) : Host.Outcome State Fault Refusal := runCommand .strEncFinish requireEncoding cmdStrEncFinish s

/-- STR_DEC_OPEN (rule R294). -/
def execStrDecOpen (headerless : BitVec 1) (s : State) : Host.Outcome State Fault Refusal :=
  runCommand (.strDecOpen headerless) requireQuiet (cmdStrDecOpen headerless) s

/-- STR_DEC_READ (rule R295). -/
def execStrDecRead (s : State) : Host.Outcome State Fault Refusal := runCommand .strDecRead requireDecoding cmdStrDecRead s

/-- STR_CLOSE (rule R300). -/
def execStrClose (s : State) : Host.Outcome State Fault Refusal := runCommand .strClose noChecks cmdStrClose s

end Sys2Proof.Machine
end

