-- ==== Sys2Proof/Machine/System.lean ====
section
/-! DEFINITION. The two system commands (spec/49_system.md, rules R305, R306): the only ones an instance accepts in ERROR and CLOSED
(rule R313). -/

namespace Sys2Proof.Machine

/-- NOP (rule R305): clears NODATA and FULL, in any state. -/
def execNop (s : State) : Host.Outcome State Fault Refusal := .next { s with toEngine := s.toEngine.clearFlags, hold := none }

/-- CORE_RESET (rule R306): the reset sequence of rule R340, in any state. -/
def execCoreReset (s : State) : Host.Outcome State Fault Refusal := .next { s with toEngine := s.toEngine.resetEngine, hold := none }

/-- A command word with a reserved opcode (rules R105, R314 check 3): UnsupportedOperation with no other change, after the same earlier
checks as every command. It never holds, so the instruction named here is never resumed. -/
def execReserved (s : State) : Host.Outcome State Fault Refusal := runCommand .nop (Cmd.raise .unsupportedOperation) noChecks s

end Sys2Proof.Machine
end

