-- ==== Sys2Proof/Machine/Dispatch.lean ====
section
/-! DEFINITION. One arm per command of the opcode map (rule R104). -/

namespace Sys2Proof.Machine

def exec (i : Instr) (s : State) : Host.Outcome State Fault Refusal :=
  match i with
  | .nop => Sys2Proof.Machine.execNop s
  | .brReadBits n => Sys2Proof.Machine.execBrReadBits n s
  | .brReadBool => Sys2Proof.Machine.execBrReadBool s
  | .brReadUnary limit => Sys2Proof.Machine.execBrReadUnary limit s
  | .brReadInt32 => Sys2Proof.Machine.execBrReadInt32 s
  | .bwWriteBits n => Sys2Proof.Machine.execBwWriteBits n s
  | .bwWriteBool => Sys2Proof.Machine.execBwWriteBool s
  | .bwWriteUnary => Sys2Proof.Machine.execBwWriteUnary s
  | .bwFlush => Sys2Proof.Machine.execBwFlush s
  | .bwWriteInt32 => Sys2Proof.Machine.execBwWriteInt32 s
  | .rle1Put => Sys2Proof.Machine.execRle1Put s
  | .rle1Flush => Sys2Proof.Machine.execRle1Flush s
  | .rle1Get => Sys2Proof.Machine.execRle1Get s
  | .rle1GetBlk => Sys2Proof.Machine.execRle1GetBlk s
  | .bwtForward => Sys2Proof.Machine.execBwtForward s
  | .bwtInvSetup => Sys2Proof.Machine.execBwtInvSetup s
  | .bwtInvNext => Sys2Proof.Machine.execBwtInvNext s
  | .bwtGet => Sys2Proof.Machine.execBwtGet s
  | .bwtSetStart => Sys2Proof.Machine.execBwtSetStart s
  | .mtfInit decoding => Sys2Proof.Machine.execMtfInit decoding s
  | .mtfEncByte => Sys2Proof.Machine.execMtfEncByte s
  | .mtfEncEnd => Sys2Proof.Machine.execMtfEncEnd s
  | .mtfDecSym => Sys2Proof.Machine.execMtfDecSym s
  | .mtfReadMap => Sys2Proof.Machine.execMtfReadMap s
  | .mtfWriteMap => Sys2Proof.Machine.execMtfWriteMap s
  | .mtfGet => Sys2Proof.Machine.execMtfGet s
  | .hufAlloc t count => Sys2Proof.Machine.execHufAlloc t count s
  | .hufSetFreq t sym => Sys2Proof.Machine.execHufSetFreq t sym s
  | .hufSetGroups => Sys2Proof.Machine.execHufSetGroups s
  | .hufSeed => Sys2Proof.Machine.execHufSeed s
  | .hufSelectPass => Sys2Proof.Machine.execHufSelectPass s
  | .hufOptimize => Sys2Proof.Machine.execHufOptimize s
  | .hufAssignCodes t => Sys2Proof.Machine.execHufAssignCodes t s
  | .hufWriteTables => Sys2Proof.Machine.execHufWriteTables s
  | .hufEncodeData => Sys2Proof.Machine.execHufEncodeData s
  | .hufReadTables => Sys2Proof.Machine.execHufReadTables s
  | .hufBuildDecode t => Sys2Proof.Machine.execHufBuildDecode t s
  | .hufDecodeSym => Sys2Proof.Machine.execHufDecodeSym s
  | .hufEncodeSym t => Sys2Proof.Machine.execHufEncodeSym t s
  | .hufSetLen t sym => Sys2Proof.Machine.execHufSetLen t sym s
  | .hufGetLen t sym => Sys2Proof.Machine.execHufGetLen t sym s
  | .hufGetCode t sym => Sys2Proof.Machine.execHufGetCode t sym s
  | .hufGetSel => Sys2Proof.Machine.execHufGetSel s
  | .crcInit => Sys2Proof.Machine.execCrcInit s
  | .crcUpdate => Sys2Proof.Machine.execCrcUpdate s
  | .crcFinal => Sys2Proof.Machine.execCrcFinal s
  | .crcCombine => Sys2Proof.Machine.execCrcCombine s
  | .crcStreamInit => Sys2Proof.Machine.execCrcStreamInit s
  | .crcReadStream => Sys2Proof.Machine.execCrcReadStream s
  | .crcReadStored which => Sys2Proof.Machine.execCrcReadStored which s
  | .blkEncOpen k => Sys2Proof.Machine.execBlkEncOpen k s
  | .blkEncWrite => Sys2Proof.Machine.execBlkEncWrite s
  | .blkEncClose => Sys2Proof.Machine.execBlkEncClose s
  | .blkDecStart k => Sys2Proof.Machine.execBlkDecStart k s
  | .blkDecRead => Sys2Proof.Machine.execBlkDecRead s
  | .blkCheckCrc => Sys2Proof.Machine.execBlkCheckCrc s
  | .strEncOpen k => Sys2Proof.Machine.execStrEncOpen k s
  | .strEncWrite => Sys2Proof.Machine.execStrEncWrite s
  | .strEncFinish => Sys2Proof.Machine.execStrEncFinish s
  | .strDecOpen headerless => Sys2Proof.Machine.execStrDecOpen headerless s
  | .strDecRead => Sys2Proof.Machine.execStrDecRead s
  | .strClose => Sys2Proof.Machine.execStrClose s
  | .coreReset => Sys2Proof.Machine.execCoreReset s

end Sys2Proof.Machine
end

