-- ==== Sys2Proof/Machine/Bus.lean ====
section
/-! DEFINITION. The host's side (rules R31, R35 to R38, R81, R82, R87, R95 to R97, R342, R346): register accesses, starting a command,
resuming a held one, and the host's next action. -/

namespace Sys2Proof.Machine

/-! ### Changing the engine while a command may hold -/

/-- Change the engine, and the start image of a held command with it, so that the change is still there when it is resumed. -/
def State.onEngine (f : Engine → Engine) (s : State) : State :=
  { s with
    toEngine := f s.toEngine
    hold :=
      match s.hold with
      | some h => some { h with start := f h.start }
      | none => none }

/-- STATUS.DROP <- 1 (rule R346). -/
def Engine.setDrop (e : Engine) : Engine := { e with host.drop := true }

/-- IN_CTRL.EOI <- 1 (rules R35, R37). -/
def Engine.setEoi (e : Engine) : Engine := { e with host.eoi := true }

/-- A byte appended to the input FIFO (rule R37). -/
def Engine.pushInput (b : Byte) (e : Engine) : Engine := { e with host.inFifo := e.host.inFifo ++ [b] }

/-! ### Starting and resuming a command -/

/-- A CMD write while BUSY is 0 (rule R32): CMD keeps the word, and the command it encodes runs. -/
def startCommand (w : Word) (s : State) : Host.Outcome State Fault Refusal :=
  let s := { s with host.cmd := w }
  match decode w with
  | .ok i => exec i s
  | .error _ => execReserved s

/-- The state a held command is run from again (rule R94, log entry 2): the engine as it stood when the command started, with what
the host has pushed since; the bytes popped since count as room in the output FIFO. -/
def State.replay (s : State) (h : Hold) : State :=
  { s with toEngine := { h.start with outDepth := s.outDepth + h.popped }, hold := none }

/-- After the command has run again: the bytes the host popped meanwhile leave the output FIFO, the depth is the real one, and a
command that holds again keeps its start and the count of bytes popped. -/
def State.settle (depth : Nat) (h : Hold) (t : State) : State :=
  { t with
    host.outFifo := t.host.outFifo.drop h.popped
    outDepth := depth
    hold :=
      match t.hold with
      | some h' => some { h' with start := h.start, popped := h.popped }
      | none => none }

/-- Go on with a held command. -/
def resumeCommand (s : State) (h : Hold) : Host.Outcome State Fault Refusal :=
  match exec h.instr (s.replay h) with
  | .next t => .next (t.settle s.outDepth h)
  | .fault f => .fault f
  | .refused r => .refused r

/-- Whether what a held command waits for has come (rule R15): a byte or EOI, or room in the output FIFO. -/
def State.canResume (s : State) (h : Hold) : Bool :=
  match h.wait with
  | .input => s.host.inFifo ≠ [] ∨ s.host.eoi
  | .output => s.host.outFifo.length < s.outDepth

/-! ### Register accesses -/

/-- A 32-bit write inside the decode window (rules R31, R35, R82, R97, R346; a write to OUT_DATA: log entry 8). -/
def writeRegister (offset : Nat) (v : Word) (s : State) : Host.Outcome State Fault Refusal :=
  match offset with
  | 0x00 => if s.busy then .next (s.onEngine Engine.setDrop) else startCommand v s
  | 0x04 => if s.busy then .next s else .next { s with host.arg := v }
  | 0x10 =>
    if s.host.inFifo.length < s.inDepth ∧ s.host.eoi = false then .next (s.onEngine (Engine.pushInput (v.setWidth 8)))
    else .next (s.onEngine Engine.setDrop)
  | 0x14 => if v.getLsbD 0 then .next (s.onEngine Engine.setEoi) else .next s
  | _ => .next s

/-- The value of a 32-bit read inside the decode window (rules R31, R35, R38, R39, R82). -/
def registerValue (offset : Nat) (s : State) : Word :=
  match offset with
  | 0x00 => s.host.cmd
  | 0x04 => s.host.arg
  | 0x08 => s.host.result
  | 0x0C => s.statusWord
  | 0x14 => (BitVec.ofBool s.host.eoi).zeroExtend 32
  | 0x18 => BitVec.ofNat 32 s.host.inFifo.length
  | 0x1C => (s.host.outFifo.headD 0).zeroExtend 32
  | 0x20 => BitVec.ofNat 32 s.host.outFifo.length
  | 0x24 => Config.idWord
  | _ => 0

/-- A read of OUT_DATA removes the head of the output FIFO when there is one (rules R38, R87). -/
def State.popOutput (s : State) : State :=
  match s.host.outFifo with
  | [] => s
  | _ :: rest =>
    { s with
      host.outFifo := rest
      hold :=
        match s.hold with
        | some h => some { h with popped := h.popped + 1 }
        | none => none }

/-- A 32-bit read inside the decode window: the value is seen by the host, and OUT_DATA pops. -/
def readRegister (offset : Nat) (s : State) : State :=
  let t := { s with seen := s.seen ++ [registerValue offset s] }
  if offset = 0x1C then t.popOutput else t

/-- 32 bits wide and aligned (rule R81), and inside the 64-byte decode window of rule R82. DESIGN CHOICE: the spec gives an aligned 32-bit
access beyond the window no meaning, and the model refuses it as rule R81 refuses the others (log entry 16; safe). -/
def accessOk (width offset : Nat) : Bool := width = 32 ∧ offset % 4 = 0 ∧ offset ≤ 0x3C

/-- The offset of a bus address in the register block (rule R80): REG_BASE is OPEN, and no rule but this depends on it. DESIGN CHOICE: the
spec gives an address below REG_BASE no meaning, and here it has no offset, so it is no register's (log entry 13; safe). -/
def busOffset (address : Nat) : Option Nat := if Config.regBase ≤ address then some (address - Config.regBase) else none

/-! ### The host's next action -/

/-- One action of the host; the script is already past it. -/
def hostAct (a : HostAction) (s : State) : Host.Outcome State Fault Refusal :=
  match a with
  | .write width offset v => if accessOk width offset then writeRegister offset v s else .refused (.badAccess width offset)
  | .read width offset => if accessOk width offset then .next (readRegister offset s) else .refused (.badAccess width offset)
  | .awaitDone => .next s
  | .powerOnReset => .next { s with toEngine := s.toEngine.resetEngine, hold := none }

/-- The host's turn: its next action. With nothing pending, or while it waits for BUSY = 0 and BUSY is 1, nothing happens (rules R344,
R352). -/
def hostTurn (s : State) : Host.Outcome State Fault Refusal :=
  match s.script with
  | [] => .next s
  | .awaitDone :: rest => if s.busy then .next s else .next { s with script := rest }
  | a :: rest => hostAct a { s with script := rest }

/-- One step: a held command goes on as soon as it can (rule R94: the result does not depend on when), and else the host acts. -/
def stepState (s : State) : Host.Outcome State Fault Refusal :=
  match s.hold with
  | some h => if s.canResume h then resumeCommand s h else hostTurn s
  | none => hostTurn s

end Sys2Proof.Machine
end

