-- ==== Sys2Proof/Machine/Step.lean ====
section
/-! DEFINITION. The step of the machine, and the placing of one command where the step takes its next one. -/

namespace Sys2Proof.Machine

/-- One step of the machine: three outcomes. -/
def step (s : State) : Host.Outcome State Fault Refusal := stepState s

/-- The state with one command word as the host's next action (log entry 11): a 32-bit write of it to CMD, with no other command in
progress, so that the next step runs exactly it. -/
def State.withFetchWord (s : State) (nbits w : Nat) : State :=
  { s with hold := none, script := .write 32 0 (BitVec.ofNat 32 (w % 2 ^ nbits)) :: s.script }

end Sys2Proof.Machine
end

