-- ==== Sys2Proof/Safety.lean ====
section
/-! DEFINITION. The terms in which claims are made: the two streams as lists of bits, what "the command completed" means, the
well-formedness of the bit engine, and the invariants of the machine. -/

namespace Sys2Proof.Machine

/-! ### Bits, most significant first (rules R11, R83) -/

/-- The low `n` bits of `v`, most significant first. -/
def bitsOf : Nat → Nat → List Bool
  | 0, _ => []
  | n + 1, v => v.testBit n :: bitsOf n v

/-- The number a list of bits stands for, its first bit the most significant. -/
def bitsVal (bs : List Bool) : Nat := bs.foldl (fun a b => 2 * a + b.toNat) 0

/-- The bits of bytes in stream order (rule R83). -/
def bytesBits (bs : List Byte) : List Bool := bs.flatMap fun b => bitsOf 8 b.toNat

/-- The bytes that full groups of eight bits stand for. -/
def bitsBytes : Nat → List Bool → List Byte
  | 0, _ => []
  | n + 1, bs => BitVec.ofNat 8 (bitsVal (bs.take 8)) :: bitsBytes n (bs.drop 8)

/-- The input stream that has been supplied and not yet read: the valid bits of RD_ACC, then the input FIFO (rules R40, R90). -/
def Engine.inBits (e : Engine) : List Bool := bitsOf e.bits.rdCnt.toNat e.bits.rdAcc.toNat ++ bytesBits e.host.inFifo

/-- The bits written and not yet emitted: the valid bits of WR_ACC (rule R41). -/
def Engine.wrBits (e : Engine) : List Bool := bitsOf e.bits.wrCnt.toNat e.bits.wrAcc.toNat

/-- The reader between commands (rules R40, R142): at most 7 valid bits, and all bits above them 0. -/
abbrev BitEngine.ReaderOk (b : BitEngine) : Prop := b.rdCnt.toNat ≤ 7 ∧ b.rdAcc.toNat < 2 ^ b.rdCnt.toNat

/-- The writer between commands (rules R41, R153): at most 7 valid bits, and all bits above them 0. -/
abbrev BitEngine.WriterOk (b : BitEngine) : Prop := b.wrCnt.toNat ≤ 7 ∧ b.wrAcc.toNat < 2 ^ b.wrCnt.toNat

/-- The engine after `n` more bits of the input have been read (rules R90, R142): bytes are pulled only for bits that are missing,
and the unread tail of the last byte stays in the accumulator. -/
def Engine.consume (n : Nat) (e : Engine) : Engine :=
  let pulled := (n - e.bits.rdCnt.toNat + 7) / 8
  let cnt := e.bits.rdCnt.toNat + 8 * pulled - n
  { e with
    host.inFifo := e.host.inFifo.drop pulled
    bits.rdCnt := BitVec.ofNat 6 cnt
    bits.rdAcc := BitVec.ofNat 32 (bitsVal ((e.inBits.drop n).take cnt)) }

/-- The engine when a read has found the input too short: every byte at hand has been pulled, and all their bits are held in the
accumulator (rules R141, R315). -/
def Engine.drainInput (e : Engine) : Engine :=
  { e with
    host.inFifo := []
    bits.rdCnt := BitVec.ofNat 6 (e.bits.rdCnt.toNat + 8 * e.host.inFifo.length)
    bits.rdAcc := BitVec.ofNat 32 (bitsVal e.inBits) }

/-- The engine after the bits `bs` have been written (rules R91, R147): every full byte is in the output FIFO, and fewer than 8 bits
stay in the accumulator. -/
def Engine.append (bs : List Bool) (e : Engine) : Engine :=
  let all := e.wrBits ++ bs
  let n := all.length / 8
  { e with
    host.outFifo := e.host.outFifo ++ bitsBytes n all
    bits.wrCnt := BitVec.ofNat 6 (all.length % 8)
    bits.wrAcc := BitVec.ofNat 32 (bitsVal (all.drop (8 * n))) }

/-- The engine after a flush (rule R151): the waiting bits, if any, are the high bits of one more byte, its low bits 0. -/
def Engine.flushed (e : Engine) : Engine :=
  { e with
    host.outFifo :=
      e.host.outFifo ++ if e.bits.wrCnt = 0 then [] else bitsBytes 1 (e.wrBits ++ List.replicate (8 - e.bits.wrCnt.toNat) false)
    bits.wrAcc := 0
    bits.wrCnt := 0 }

/-- A write of the bits `bs` that finds the output FIFO full (rules R15, R147): the FIFO has been filled with the oldest bytes, and
what waits in the accumulator is the beginning of the rest. -/
def Engine.StuckWriting (e : Engine) (bs : List Bool) (e' : Engine) : Prop :=
  let all := e.wrBits ++ bs
  let room := e.outDepth - e.host.outFifo.length
  e'.host.outFifo = e.host.outFifo ++ bitsBytes room all ∧ e'.wrBits <+: all.drop (8 * room) ∧ e'.outDepth = e.outDepth ∧
    8 * room ≤ all.length

/-- The output FIFO has room for the full bytes that writing `n` more bits completes. -/
abbrev Engine.HasRoom (n : Nat) (e : Engine) : Prop :=
  e.host.outFifo.length + (e.bits.wrCnt.toNat + n) / 8 ≤ e.outDepth

/-! ### How a command ended -/

/-- STATE accepts commands: neither ERROR nor CLOSED (rules R301, R313). -/
abbrev State.Live (s : State) : Prop := s.frame.phase.live = true

/-- The command ended normally, and the engine is `e`; nothing else of the machine changed. -/
abbrev Completes (i : Instr) (s : State) (e : Engine) : Prop := exec i s = .next { s with toEngine := e, hold := none }

/-- The command raised `k`: the engine `e` it had reached takes the error (rule R311). -/
abbrev Raises (i : Instr) (s : State) (k : ErrorKind) (e : Engine) : Prop :=
  exec i s = .next { s with toEngine := e.raiseError k, hold := none }

/-- The command waits, with the engine as it stood (rule R15): BUSY is 1, and the start image is the engine it began with. -/
abbrev Waits (i : Instr) (s : State) (w : Wait) (e : Engine) : Prop :=
  exec i s = .next { s with toEngine := e, hold := some { instr := i, wait := w, start := s.toEngine, popped := 0 } }

/-- The command found the input too short, with the engine `e` (rules R15, R352): at end of input it raises InsufficientData, and
before that it waits for a byte. -/
def RunsOut (i : Instr) (s : State) (e : Engine) : Prop :=
  if s.host.eoi then Raises i s .insufficientData e else Waits i s .input e

/-- RESULT holds the number `v` (rules R12, R36). -/
def Engine.withResult (v : Nat) (e : Engine) : Engine := { e with host.result := BitVec.ofNat 32 v }

/-- The engine a command of the machine `s` starts from once its checks have passed: NODATA and FULL are cleared (rule R33). -/
abbrev State.begun (s : State) : Engine := s.toEngine.clearFlags

/-! ### Invariants -/

/-- The five partial maps are in canonical form. -/
abbrev Engine.StoresWf (e : Engine) : Prop :=
  Store.wf e.block.blk ∧ Store.wf e.bwt.arr ∧ Store.wf e.bwt.merged ∧ Store.wf e.mtf.stream ∧ Store.wf e.huf.selectors

/-- Memory.wf of this machine: the partial maps of the engine, and of the start image of a held command, are in canonical form. -/
abbrev State.StoresWf (s : State) : Prop := s.toEngine.StoresWf ∧ ∀ h ∈ s.hold, h.start.StoresWf

/-- The error latch (rules R311, R312): ERR is 1 exactly when an ERRCODE is latched, and exactly in state ERROR. -/
abbrev Engine.LatchOk (e : Engine) : Prop :=
  (e.host.err = true ↔ e.frame.errcode ≠ none) ∧ (e.host.err = true ↔ e.frame.phase = .error)

/-- The error latch is consistent, and no error is latched while a command holds. -/
abbrev State.LatchOk (s : State) : Prop :=
  s.toEngine.LatchOk ∧ ∀ h ∈ s.hold, s.host.err = false ∧ h.start.LatchOk ∧ h.start.host.err = false

/-- The bit engine between commands (rules R40, R41, R142, R153): a reader with at most 7 valid bits and zeros above them, and at most
7 bits waiting in the writer. -/
abbrev Engine.BitsOk (e : Engine) : Prop := e.bits.ReaderOk ∧ e.bits.wrCnt.toNat ≤ 7

/-- The bit engine is in its between-commands form unless an error is latched or a command holds; the start image of a held command
always is. -/
abbrev State.BitsOk (s : State) : Prop :=
  (s.hold = none → s.host.err = false → s.toEngine.BitsOk) ∧ ∀ h ∈ s.hold, h.start.BitsOk

/-- Every packed code has a length of at most 20 (rules R48, R228). -/
abbrev Engine.CodesOk (e : Engine) : Prop := ∀ row ∈ e.huf.code.toList, ∀ c ∈ row.toList, c.toNat / 2 ^ 24 ≤ 20

/-- No bit of WR_ACC above the valid ones is set (rule R41), between commands and with no error latched, and the packed codes are
codes that the writer can take. -/
abbrev State.WriterClean (s : State) : Prop :=
  (s.toEngine.CodesOk ∧ (s.hold = none → s.host.err = false → s.bits.WriterOk)) ∧
    ∀ h ∈ s.hold, h.start.CodesOk ∧ h.start.bits.WriterOk

/-- The output FIFO never holds more than OUT_DEPTH bytes (rule R38). -/
abbrev State.OutFifoOk (s : State) : Prop :=
  s.host.outFifo.length ≤ s.outDepth ∧ ∀ h ∈ s.hold, h.start.host.outFifo.length ≤ s.outDepth + h.popped

/-- BLOCK_K is a block-size multiplier (rule R42). -/
abbrev State.BlockKOk (s : State) : Prop :=
  (1 ≤ s.block.k.toNat ∧ s.block.k.toNat ≤ 9) ∧ ∀ h ∈ s.hold, 1 ≤ h.start.block.k.toNat ∧ h.start.block.k.toNat ≤ 9

/-- The counts and lengths stay in the ranges that rules R42 to R48 give them; the pending run fits the headroom of the block (rule
R168). -/
structure Engine.RangesOk (e : Engine) : Prop where
  k : 1 ≤ e.block.k.toNat ∧ e.block.k.toNat ≤ 9
  blkLen : e.block.len.toNat ≤ 899993 ∨ (e.block.len.toNat ≤ 899998 ∧ e.block.runLen.toNat ≤ 1) ∨
    (e.block.len.toNat ≤ 899999 ∧ e.block.runLen = 0)
  rlCnt : e.block.rlCnt.toNat ≤ 4
  randNtogo : e.block.randNtogo.toNat ≤ 999
  bwtLen : e.bwt.len.toNat ≤ 900000
  hopsLeft : e.bwt.hopsLeft.toNat ≤ 900000
  nInUse : e.mtf.nInUse.toNat ≤ 256
  mtfLen : e.mtf.len.toNat ≤ 900001
  nGroups : e.huf.nGroups.toNat ≤ 6
  nSelectors : e.huf.nSelectors.toNat ≤ 18001
  symCount : e.huf.symCount.toNat ≤ 900050

/-- The ranges hold in the engine and in the start image of a held command. -/
abbrev State.RangesOk (s : State) : Prop := s.toEngine.RangesOk ∧ ∀ h ∈ s.hold, h.start.RangesOk

/-- Every element below the valid length of an array has been written (rules R51, R84), and the inverse walk stays inside written
entries (rules R178, R180). -/
structure Engine.FilledOk (e : Engine) : Prop where
  blk : ∀ i < e.block.len.toNat, ∃ v, e.block.blk.read i = some v
  bwtArr : ∀ i < e.bwt.len.toNat, ∃ v, e.bwt.arr.read i = some v
  stream : ∀ i < e.mtf.len.toNat, ∃ v, e.mtf.stream.read i = some v
  walk : 0 < e.bwt.hopsLeft.toNat →
    ∃ n, e.bwt.curEntry.toNat / 256 < n ∧ ∀ k < n, ∃ x : Word, e.bwt.merged.read k = some x ∧ x.toNat / 256 < n

/-- The arrays are filled in the engine and in the start image of a held command. -/
abbrev State.FilledOk (s : State) : Prop := s.toEngine.FilledOk ∧ ∀ h ∈ s.hold, h.start.FilledOk

end Sys2Proof.Machine
end

