-- ==== Sys2Proof/Safety/Frame.lean ====
section
/-! DEFINITION. The terms of the frames: every register and array of the engine by name (rules R31 to R50), and for each command which
of them its rule may write. -/

namespace Sys2Proof.Machine

/-- The registers and arrays of the engine (rules R31 to R50); the last three are the model's own fields. -/
inductive Reg where
  | arg
  | cmd
  | result
  | err
  | nodata
  | full
  | drop
  | inFifo
  | eoi
  | outFifo
  | rdAcc
  | rdCnt
  | wrAcc
  | wrCnt
  | blk
  | blkLen
  | blockK
  | presence
  | blkNonempty
  | runCh
  | runLen
  | rlLast
  | rlCnt
  | rlRep
  | randFlag
  | randNtogo
  | randTpos
  | bwtArr
  | bwtLen
  | startPtr
  | merged
  | charBase
  | curEntry
  | hopsLeft
  | nInUse
  | seqToUnseq
  | unseqToSeq
  | mtfList
  | zpend
  | runAcc
  | runW
  | mtfStream
  | mtfLen
  | mtfFreq
  | nGroups
  | nSelectors
  | selectors
  | len
  | code
  | rfreq
  | minLen
  | maxLen
  | base
  | limit
  | perm
  | symCount
  | decEob
  | blockCrc
  | streamCrc
  | storedBcrc
  | storedScrc
  | phase
  | headerless
  | errcode
  | inDepth
  | outDepth
  | freeCount
  deriving DecidableEq, Repr

/-- The register or array holds the same in two engines. -/
def Reg.same : Reg → Engine → Engine → Prop
  | .arg, a, b => a.host.arg = b.host.arg
  | .cmd, a, b => a.host.cmd = b.host.cmd
  | .result, a, b => a.host.result = b.host.result
  | .err, a, b => a.host.err = b.host.err
  | .nodata, a, b => a.host.nodata = b.host.nodata
  | .full, a, b => a.host.full = b.host.full
  | .drop, a, b => a.host.drop = b.host.drop
  | .inFifo, a, b => a.host.inFifo = b.host.inFifo
  | .eoi, a, b => a.host.eoi = b.host.eoi
  | .outFifo, a, b => a.host.outFifo = b.host.outFifo
  | .rdAcc, a, b => a.bits.rdAcc = b.bits.rdAcc
  | .rdCnt, a, b => a.bits.rdCnt = b.bits.rdCnt
  | .wrAcc, a, b => a.bits.wrAcc = b.bits.wrAcc
  | .wrCnt, a, b => a.bits.wrCnt = b.bits.wrCnt
  | .blk, a, b => a.block.blk = b.block.blk
  | .blkLen, a, b => a.block.len = b.block.len
  | .blockK, a, b => a.block.k = b.block.k
  | .presence, a, b => a.block.presence = b.block.presence
  | .blkNonempty, a, b => a.block.nonempty = b.block.nonempty
  | .runCh, a, b => a.block.runCh = b.block.runCh
  | .runLen, a, b => a.block.runLen = b.block.runLen
  | .rlLast, a, b => a.block.rlLast = b.block.rlLast
  | .rlCnt, a, b => a.block.rlCnt = b.block.rlCnt
  | .rlRep, a, b => a.block.rlRep = b.block.rlRep
  | .randFlag, a, b => a.block.randFlag = b.block.randFlag
  | .randNtogo, a, b => a.block.randNtogo = b.block.randNtogo
  | .randTpos, a, b => a.block.randTpos = b.block.randTpos
  | .bwtArr, a, b => a.bwt.arr = b.bwt.arr
  | .bwtLen, a, b => a.bwt.len = b.bwt.len
  | .startPtr, a, b => a.bwt.startPtr = b.bwt.startPtr
  | .merged, a, b => a.bwt.merged = b.bwt.merged
  | .charBase, a, b => a.bwt.charBase = b.bwt.charBase
  | .curEntry, a, b => a.bwt.curEntry = b.bwt.curEntry
  | .hopsLeft, a, b => a.bwt.hopsLeft = b.bwt.hopsLeft
  | .nInUse, a, b => a.mtf.nInUse = b.mtf.nInUse
  | .seqToUnseq, a, b => a.mtf.seqToUnseq = b.mtf.seqToUnseq
  | .unseqToSeq, a, b => a.mtf.unseqToSeq = b.mtf.unseqToSeq
  | .mtfList, a, b => a.mtf.list = b.mtf.list
  | .zpend, a, b => a.mtf.zpend = b.mtf.zpend
  | .runAcc, a, b => a.mtf.runAcc = b.mtf.runAcc
  | .runW, a, b => a.mtf.runW = b.mtf.runW
  | .mtfStream, a, b => a.mtf.stream = b.mtf.stream
  | .mtfLen, a, b => a.mtf.len = b.mtf.len
  | .mtfFreq, a, b => a.mtf.freq = b.mtf.freq
  | .nGroups, a, b => a.huf.nGroups = b.huf.nGroups
  | .nSelectors, a, b => a.huf.nSelectors = b.huf.nSelectors
  | .selectors, a, b => a.huf.selectors = b.huf.selectors
  | .len, a, b => a.huf.len = b.huf.len
  | .code, a, b => a.huf.code = b.huf.code
  | .rfreq, a, b => a.huf.rfreq = b.huf.rfreq
  | .minLen, a, b => a.huf.minLen = b.huf.minLen
  | .maxLen, a, b => a.huf.maxLen = b.huf.maxLen
  | .base, a, b => a.huf.base = b.huf.base
  | .limit, a, b => a.huf.limit = b.huf.limit
  | .perm, a, b => a.huf.perm = b.huf.perm
  | .symCount, a, b => a.huf.symCount = b.huf.symCount
  | .decEob, a, b => a.huf.decEob = b.huf.decEob
  | .blockCrc, a, b => a.crc.block = b.crc.block
  | .streamCrc, a, b => a.crc.stream = b.crc.stream
  | .storedBcrc, a, b => a.crc.storedBlock = b.crc.storedBlock
  | .storedScrc, a, b => a.crc.storedStream = b.crc.storedStream
  | .phase, a, b => a.frame.phase = b.frame.phase
  | .headerless, a, b => a.frame.headerless = b.frame.headerless
  | .errcode, a, b => a.frame.errcode = b.frame.errcode
  | .inDepth, a, b => a.inDepth = b.inDepth
  | .outDepth, a, b => a.outDepth = b.outDepth
  | .freeCount, a, b => a.freeCount = b.freeCount

/-- What every command that is not refused may write, whatever its rule: NODATA and FULL (rule R33), and the latch of a raise with
the state ERROR (rule R311). The stream commands write STATE by rules of their own. -/
def statusRegs : List Reg := [.nodata, .full, .err, .errcode, .phase]

/-- What reading bits writes (rules R140, R141). -/
def readerRegs : List Reg := [.inFifo, .rdAcc, .rdCnt]

/-- What writing bits writes (rules R147, R151). -/
def writerRegs : List Reg := [.outFifo, .wrAcc, .wrCnt]

/-- What accepting a byte into the block writes (rule R162). -/
def putRegs : List Reg := [.blk, .blkLen, .presence, .runCh, .runLen, .blkNonempty]

/-- What flushing the pending run writes (rule R161). -/
def flushRegs : List Reg := [.blk, .blkLen, .presence, .runLen]

/-- What `Rle1Next()` writes (rules R165, R180, R274). -/
def nextRegs : List Reg := [.rlRep, .rlCnt, .rlLast, .curEntry, .hopsLeft, .randNtogo, .randTpos]

/-- What BWT_FORWARD writes besides RESULT (rule R177). -/
def forwardRegs : List Reg := [.blk, .bwtArr, .bwtLen, .startPtr]

/-- What BWT_INV_SETUP writes besides RESULT (rules R178, R179). -/
def inverseRegs : List Reg := [.charBase, .merged, .curEntry, .hopsLeft]

/-- What `MtfInit(0)` writes (rules R190, R191). -/
def mtfInitRegs : List Reg :=
  [.seqToUnseq, .unseqToSeq, .nInUse, .mtfList, .zpend, .mtfLen, .mtfFreq, .runAcc, .runW]

/-- What emitting symbols writes (rules R194, R195). -/
def emitRegs : List Reg := [.zpend, .mtfStream, .mtfLen, .mtfFreq]

/-- What applying a decoded symbol writes (rule R198). -/
def applyRegs : List Reg := [.runAcc, .runW, .bwtArr, .bwtLen, .mtfList, .decEob]

/-- What a selection pass writes (rule R224). -/
def passRegs : List Reg := [.rfreq, .selectors, .len]

/-- What building a decode table writes (rule R235). -/
def lookupRegs : List Reg := [.minLen, .maxLen, .base, .limit, .perm]

/-- What `ReadTables()` writes (rule R233). -/
def readTablesRegs : List Reg :=
  readerRegs ++ lookupRegs ++ [.nGroups, .nSelectors, .selectors, .len, .symCount, .decEob]

/-- What `BlkEncOpen(k)` writes (rule R261). -/
def blkOpenRegs : List Reg := [.blockK, .blkLen, .presence, .runLen, .blkNonempty, .blockCrc]

/-- What `BlkEncClose()` writes (rule R264). -/
def blkCloseRegs : List Reg :=
  flushRegs ++ forwardRegs ++ writerRegs ++ mtfInitRegs ++ emitRegs ++ passRegs ++
    [.nGroups, .nSelectors, .code, .blkNonempty, .freeCount]

/-- What `BlkDecStart()` writes (rule R270). -/
def blkStartRegs : List Reg :=
  readTablesRegs ++ mtfInitRegs ++ applyRegs ++ inverseRegs ++
    [.storedBcrc, .randFlag, .startPtr, .presence, .rlLast, .rlCnt, .rlRep, .randNtogo, .randTpos, .blockCrc]

/-- What each command other than CORE_RESET may write, by its rule; every other register and array is its frame. CORE_RESET writes
all but the three fields of the model's own (rule R340). -/
def writesOf : Instr → List Reg
  | .nop => [.nodata, .full]
  | .brReadBits _ => statusRegs ++ readerRegs ++ [.result]
  | .brReadBool => statusRegs ++ readerRegs ++ [.result]
  | .brReadUnary _ => statusRegs ++ readerRegs ++ [.result]
  | .brReadInt32 => statusRegs ++ readerRegs ++ [.result]
  | .bwWriteBits _ => statusRegs ++ writerRegs
  | .bwWriteBool => statusRegs ++ writerRegs
  | .bwWriteUnary => statusRegs ++ writerRegs
  | .bwFlush => statusRegs ++ writerRegs
  | .bwWriteInt32 => statusRegs ++ writerRegs
  | .rle1Put => statusRegs ++ putRegs ++ [.result]
  | .rle1Flush => statusRegs ++ flushRegs ++ [.result]
  | .rle1Get => statusRegs ++ nextRegs ++ [.result]
  | .rle1GetBlk => statusRegs ++ [.result]
  | .bwtForward => statusRegs ++ forwardRegs ++ [.result]
  | .bwtInvSetup => statusRegs ++ inverseRegs ++ [.result]
  | .bwtInvNext => statusRegs ++ [.curEntry, .hopsLeft, .result]
  | .bwtGet => statusRegs ++ [.result]
  | .bwtSetStart => statusRegs ++ [.startPtr]
  | .mtfInit decoding => statusRegs ++ mtfInitRegs ++ [.result] ++ if decoding = 1 then [.bwtLen, .decEob] else []
  | .mtfEncByte => statusRegs ++ emitRegs ++ [.mtfList, .freeCount, .result]
  | .mtfEncEnd => statusRegs ++ emitRegs ++ [.result]
  | .mtfDecSym => statusRegs ++ applyRegs ++ [.result]
  | .mtfReadMap => statusRegs ++ readerRegs ++ [.presence, .result]
  | .mtfWriteMap => statusRegs ++ writerRegs ++ [.result]
  | .mtfGet => statusRegs ++ [.result]
  | .hufAlloc _ _ => statusRegs ++ [.len, .result]
  | .hufSetFreq _ _ => statusRegs ++ [.rfreq]
  | .hufSetGroups => statusRegs ++ [.nGroups, .nSelectors, .result]
  | .hufSeed => statusRegs ++ [.len]
  | .hufSelectPass => statusRegs ++ passRegs ++ [.result]
  | .hufOptimize => statusRegs ++ passRegs ++ [.result]
  | .hufAssignCodes _ => statusRegs ++ [.code]
  | .hufWriteTables => statusRegs ++ writerRegs ++ [.freeCount, .result]
  | .hufEncodeData => statusRegs ++ writerRegs ++ [.result]
  | .hufReadTables => statusRegs ++ readTablesRegs ++ [.result]
  | .hufBuildDecode _ => statusRegs ++ lookupRegs
  | .hufDecodeSym => statusRegs ++ readerRegs ++ [.symCount, .result]
  | .hufEncodeSym _ => statusRegs ++ writerRegs
  | .hufSetLen _ _ => statusRegs ++ [.len]
  | .hufGetLen _ _ => statusRegs ++ [.result]
  | .hufGetCode _ _ => statusRegs ++ [.result]
  | .hufGetSel => statusRegs ++ [.result]
  | .crcInit => statusRegs ++ [.blockCrc]
  | .crcUpdate => statusRegs ++ [.blockCrc]
  | .crcFinal => statusRegs ++ [.result]
  | .crcCombine => statusRegs ++ [.streamCrc, .result]
  | .crcStreamInit => statusRegs ++ [.streamCrc]
  | .crcReadStream => statusRegs ++ [.result]
  | .crcReadStored _ => statusRegs ++ [.result]
  | .blkEncOpen _ => statusRegs ++ blkOpenRegs
  | .blkEncWrite => statusRegs ++ putRegs ++ [.blockCrc, .result]
  | .blkEncClose => statusRegs ++ blkCloseRegs ++ [.result]
  | .blkDecStart _ => statusRegs ++ blkStartRegs ++ [.blockK, .result]
  | .blkDecRead => statusRegs ++ nextRegs ++ [.blockCrc, .result]
  | .blkCheckCrc => statusRegs ++ [.result]
  | .strEncOpen _ => statusRegs ++ writerRegs ++ blkOpenRegs ++ [.streamCrc]
  | .strEncWrite => statusRegs ++ putRegs ++ blkCloseRegs ++ blkOpenRegs ++ [.streamCrc, .result]
  | .strEncFinish => statusRegs ++ blkCloseRegs ++ [.streamCrc, .result]
  | .strDecOpen _ => statusRegs ++ [.rdAcc, .rdCnt, .headerless, .streamCrc]
  | .strDecRead => statusRegs ++ nextRegs ++ blkStartRegs ++ [.blockK, .streamCrc, .storedScrc, .result]
  | .strClose => statusRegs
  | .coreReset =>
    [.arg, .cmd, .result, .err, .nodata, .full, .drop, .inFifo, .eoi, .outFifo, .rdAcc, .rdCnt, .wrAcc, .wrCnt, .blk,
      .blkLen, .blockK, .presence, .blkNonempty, .runCh, .runLen, .rlLast, .rlCnt, .rlRep, .randFlag, .randNtogo, .randTpos,
      .bwtArr, .bwtLen, .startPtr, .merged, .charBase, .curEntry, .hopsLeft, .nInUse, .seqToUnseq, .unseqToSeq, .mtfList,
      .zpend, .runAcc, .runW, .mtfStream, .mtfLen, .mtfFreq, .nGroups, .nSelectors, .selectors, .len, .code, .rfreq,
      .minLen, .maxLen, .base, .limit, .perm, .symCount, .decEob, .blockCrc, .streamCrc, .storedBcrc, .storedScrc, .phase,
      .headerless, .errcode]

/-- The frame of a command: when it answers a next state, every register and array its rule does not write is as before, and so is
the host's side. -/
def Framed (i : Instr) : Prop :=
  ∀ s t : State, exec i s = .next t →
    (∀ r : Reg, r ∉ writesOf i → r.same s.toEngine t.toEngine) ∧ t.script = s.script ∧ t.seen = s.seen

end Sys2Proof.Machine
end

