-- ==== Sys2Proof/Safety/Units.lean ====
section
/-! DEFINITION. The terms of the statements about the units: what the block holds, what the inverse walk yields, and the closed forms
of the loops of spec/41_rle1.md to spec/48_stream_framing.md. -/

namespace Sys2Proof.Machine

/-! ### The block being encoded (rules R160 to R163) -/

/-- The bytes that a run of `n` bytes `v` takes in the block (rules R160, R161). -/
def runBytes (v : Byte) (n : Nat) : List Byte :=
  if n ≤ 3 then List.replicate n v else List.replicate 4 v ++ [BitVec.ofNat 8 (n - 4)]

/-- The engine after one byte has been appended to the block (`BlkAppend`, rule R161). -/
def Engine.storeByte (e : Engine) (v : Byte) : Engine :=
  { e with
    block.blk := e.block.blk.write e.block.len.toNat v
    block.len := BitVec.ofNat 20 (e.block.len.toNat + 1)
    block.presence := byteSet e.block.presence v true }

/-- The engine after bytes have been appended to the block, the first one first. -/
def Engine.storeBlock (vs : List Byte) (e : Engine) : Engine := vs.foldl Engine.storeByte e

/-- The engine after the pending run has been moved into the block (rule R161). -/
def Engine.runFlushed (e : Engine) : Engine :=
  { e.storeBlock (runBytes e.block.runCh e.block.runLen.toNat) with block.runLen := 0 }

/-- The byte continues the pending run (rules R160, R162). -/
abbrev Engine.Extends (e : Engine) (b : Byte) : Prop :=
  0 < e.block.runLen.toNat ∧ b = e.block.runCh ∧ e.block.runLen.toNat < 255

/-- The engine after the block has accepted a byte (rule R162). -/
def Engine.accept (b : Byte) (e : Engine) : Engine :=
  if e.Extends b then
    { e with block.runLen := BitVec.ofNat 8 (e.block.runLen.toNat + 1), block.nonempty := true }
  else { e.runFlushed with block.runCh := b, block.runLen := 1, block.nonempty := true }

/-- The block accepts a byte (rules R9, R162): fewer than FULL_THRESHOLD bytes are in it. -/
abbrev Engine.Accepts (e : Engine) : Prop := e.block.len.toNat < e.block.k.toNat * 100000 - 6

/-- BLOCK_K is a multiplier (rule R42). -/
abbrev Engine.KOk (e : Engine) : Prop := 1 ≤ e.block.k.toNat ∧ e.block.k.toNat ≤ 9

/-- The bytes of the block, BLK[0 .. BLK_LEN−1]. -/
def Engine.blockBytes (e : Engine) : List Byte := (List.range e.block.len.toNat).map fun i => (e.block.blk.read i).getD 0

/-- Every byte of the block has been written (rules R51, R84). -/
abbrev Engine.BlockFilled (e : Engine) : Prop := ∀ i < e.block.len.toNat, ∃ v, e.block.blk.read i = some v

/-- BWT_ARR[0 .. BWT_LEN−1]. -/
def Engine.bwtBytes (e : Engine) : List Byte := (List.range e.bwt.len.toNat).map fun i => (e.bwt.arr.read i).getD 0

/-- Every byte of BWT_ARR below BWT_LEN has been written (rules R51, R84). -/
abbrev Engine.BwtFilled (e : Engine) : Prop := ∀ i < e.bwt.len.toNat, ∃ v, e.bwt.arr.read i = some v

/-- Rotation `i` of `b` stands before rotation `j` in the order of rule R175. -/
abbrev RotationBefore (b : List Byte) (i j : Nat) : Prop := b.rotate i < b.rotate j ∨ (b.rotate i = b.rotate j ∧ i < j)

/-- The engine after a byte has been fed to the block CRC (rule R251). -/
def Engine.fedCrc (b : Byte) (e : Engine) : Engine := { e with crc.block := crcUpdate e.crc.block b }

/-! ### The inverse walk (rules R165, R180, R274) -/

/-- The walk stays inside written entries: from the current entry, every successor is an index below some `n` whose entries are all
written (rules R178, R180). -/
def Engine.WalkOk (e : Engine) : Prop :=
  0 < e.bwt.hopsLeft.toNat →
    ∃ n, e.bwt.curEntry.toNat / 256 < n ∧ ∀ k < n, ∃ x : Word, e.bwt.merged.read k = some x ∧ x.toNat / 256 < n

/-- The walk yields exactly the bytes of the list, one per hop (rule R180). -/
def Engine.Walks : List Byte → Engine → Prop
  | [], e => e.bwt.hopsLeft = 0
  | b :: bs, e =>
    e.bwt.hopsLeft.toNat = bs.length + 1 ∧ e.bwt.curEntry.setWidth 8 = b ∧
      ∃ x : Word, e.bwt.merged.read (e.bwt.curEntry.toNat / 256) = some x ∧
        Engine.Walks bs { e with bwt.curEntry := x, bwt.hopsLeft := BitVec.ofNat 20 bs.length }

/-- The engine after one hop (rule R180). -/
def Engine.hopped (e : Engine) : Engine :=
  { e with
    bwt.curEntry := (e.bwt.merged.read (e.bwt.curEntry.toNat / 256)).getD 0
    bwt.hopsLeft := BitVec.ofNat 20 (e.bwt.hopsLeft.toNat - 1) }

/-- The value the de-randomisation counter counts down from at this byte (rule R274). -/
def Engine.randLoad (e : Engine) : Nat :=
  if e.block.randNtogo.toNat = 0 then randEntry e.block.randTpos.toNat else e.block.randNtogo.toNat

/-- The engine after one hop with the de-randomisation counter stepped (rule R274). -/
def Engine.fetched (e : Engine) : Engine :=
  if e.block.randFlag then
    { e.hopped with
      block.randNtogo := BitVec.ofNat 10 (e.randLoad - 1)
      block.randTpos :=
        if e.block.randNtogo.toNat = 0 then BitVec.ofNat 9 ((e.block.randTpos.toNat + 1) % 512) else e.block.randTpos }
  else e.hopped

/-- The byte that one hop yields, de-randomised (rule R274). -/
def Engine.fetchedByte (e : Engine) : Byte :=
  if e.block.randFlag ∧ e.randLoad = 2 then e.bwt.curEntry.setWidth 8 ^^^ 1 else e.bwt.curEntry.setWidth 8

/-- The engine after the data byte `b` has been counted (rule R165). -/
def Engine.counted (b : Byte) (e : Engine) : Engine :=
  { e with
    block.rlCnt := if 0 < e.block.rlCnt.toNat ∧ b = e.block.rlLast then BitVec.ofNat 3 (e.block.rlCnt.toNat + 1) else 1
    block.rlLast := b }

/-- The closed form of `Rle1Next()` (rule R165): the next original byte, or none at the end of the block, and the engine after it. A
count byte is followed by its first repeat, or, when it is 0, by the data byte after it. -/
def Engine.next (e : Engine) : Option Byte × Engine :=
  if 0 < e.block.rlRep.toNat then
    (some e.block.rlLast, { e with block.rlRep := BitVec.ofNat 8 (e.block.rlRep.toNat - 1) })
  else if e.bwt.hopsLeft.toNat = 0 then (none, e)
  else if e.block.rlCnt.toNat = 4 then
    let n := e.fetchedByte
    let c : Engine := { e.fetched with block.rlCnt := 0, block.rlRep := n }
    if 0 < n.toNat then (some e.block.rlLast, { c with block.rlRep := BitVec.ofNat 8 (n.toNat - 1) })
    else if c.bwt.hopsLeft.toNat = 0 then (none, c)
    else (some c.fetchedByte, c.fetched.counted c.fetchedByte)
  else (some e.fetchedByte, e.fetched.counted e.fetchedByte)

/-- The engine after a read-type command that produced no byte (rules R33, R36). -/
def Engine.noData (e : Engine) : Engine := { e with host.nodata := true, host.result := 0 }

/-! ### The symbol stream (spec/43_mtf_rle2.md) -/

/-- How many byte values are present. -/
def countPresent (p : Vector Bool 256) : Nat := p.toList.countP id

/-- The dense rank of `v`: how many smaller values are present (rule R190). -/
def rankOf (p : Vector Bool 256) (v : Byte) : Nat := (p.toList.take v.toNat).countP id

/-- The digits of a run of `z` zeros, least significant first, 0 for RUNA and 1 for RUNB: the bits of `z + 1` below its leading one
(rule R200). -/
def runSyms (z : Nat) : List Nat := (List.range (Nat.log2 (z + 1))).map fun p => (z + 1) / 2 ^ p % 2

/-- The engine after one symbol has been appended to the stream (rule R194). -/
def Engine.emitOne (e : Engine) (s : Nat) : Engine :=
  { e with
    mtf.stream := e.mtf.stream.write e.mtf.len.toNat (BitVec.ofNat 9 s)
    mtf.len := BitVec.ofNat 20 (e.mtf.len.toNat + 1)
    mtf.freq := e.mtf.freq.setIfInBounds s (BitVec.ofNat 20 ((e.mtf.freq.toList.getD s 0).toNat + 1)) }

/-- The engine after symbols have been appended to the stream, the first one first. -/
def Engine.emit (syms : List Nat) (e : Engine) : Engine := syms.foldl Engine.emitOne e

/-- The symbols that end the pending run of zeros, if there is one (rules R196, R197). -/
def Engine.zeroSyms (e : Engine) : List Nat := if e.mtf.zpend = 0 then [] else runSyms e.mtf.zpend.toNat

/-- The move-to-front state between MTF_INIT and the next change of PRESENCE (rules R190, R191, R193): N_IN_USE values are present, the
front of MTF_LIST holds their ranks once each, and the two maps are inverse to each other. -/
structure Engine.MtfOk (e : Engine) : Prop where
  count : e.mtf.nInUse.toNat = countPresent e.block.presence
  list : ((e.mtf.list.toList.take e.mtf.nInUse.toNat).map BitVec.toNat).Perm (List.range e.mtf.nInUse.toNat)
  rank : ∀ v, byteGet e.block.presence v = true → (byteGet e.mtf.unseqToSeq v).toNat = rankOf e.block.presence v
  value : ∀ v, byteGet e.block.presence v = true → byteGet e.mtf.seqToUnseq (BitVec.ofNat 8 (rankOf e.block.presence v)) = v

/-- MTF_STREAM[0 .. MTF_LEN−1]. -/
def Engine.symbols (e : Engine) : List Nat := (List.range e.mtf.len.toNat).map fun i => ((e.mtf.stream.read i).getD 0).toNat

/-- Every symbol of the stream has been written (rules R51, R84). -/
abbrev Engine.StreamFilled (e : Engine) : Prop := ∀ i < e.mtf.len.toNat, ∃ s, e.mtf.stream.read i = some s

/-- The engine after bytes have been appended to BWT_ARR, the first one first (rule R198). -/
def Engine.pushBwt (vs : List Byte) (e : Engine) : Engine :=
  vs.foldl (fun e v => { e with bwt.arr := e.bwt.arr.write e.bwt.len.toNat v, bwt.len := BitVec.ofNat 20 (e.bwt.len.toNat + 1) }) e

/-- The byte value at the front of the move-to-front list, which a run repeats (rule R198). -/
def Engine.frontByte (e : Engine) : Byte := byteGet e.mtf.seqToUnseq (byteGet e.mtf.list 0)

/-- The engine after the pending run of the decoder has been flushed (rule R198). -/
def Engine.runApplied (e : Engine) : Engine :=
  if e.mtf.runAcc = 0 then e
  else { e.pushBwt (List.replicate e.mtf.runAcc.toNat e.frontByte) with mtf.runAcc := 0, mtf.runW := 1 }

/-- The engine after the list entry at position `j` has been moved to the front (rule R193). -/
def Engine.moved (j : Nat) (e : Engine) : Engine :=
  { e with
    mtf.list := Vector.ofFn fun i : Fin 256 => e.mtf.list.toList.getD (if i = 0 then j else if i ≤ j then i - 1 else i) 0 }

/-- The bits of the symbol map (rule R123): one bit for each range of 16 values, then the 16 bits of each range that has one. -/
def mapBits (p : Vector Bool 256) : List Bool :=
  let ranges := (List.range 16).map fun i => (p.toList.drop (16 * i)).take 16
  ranges.map (fun r => r.any id) ++ (ranges.filter fun r => r.any id).flatten

/-! ### The Huffman tables (spec/44_huffman_alloc.md, spec/45_huffman_codec.md) -/

/-- Element `[t][s]` of a table, as a number; 0 outside it. -/
def cell {w n : Nat} (v : Table6 (BitVec w) n) (t s : Nat) : Nat :=
  ((v.toList.getD t (Vector.replicate n 0)).toList.getD s 0).toNat

/-- A table with element `[t][s]` replaced. -/
def withCell {w n : Nat} (v : Table6 (BitVec w) n) (t s x : Nat) : Table6 (BitVec w) n :=
  Vector.ofFn fun i => Vector.ofFn fun j => if i.val = t ∧ j.val = s then BitVec.ofNat w x else (v[i])[j]

/-- A table with the first elements of row `t` replaced. -/
def withRow {w n : Nat} (v : Table6 (BitVec w) n) (t : Nat) (xs : List Nat) : Table6 (BitVec w) n :=
  Vector.ofFn fun i => Vector.ofFn fun j =>
    if i.val = t ∧ j.val < xs.length then BitVec.ofNat w (xs.getD j.val 0) else (v[i])[j]

/-- ALPHA (rule R17). -/
def Engine.alpha (e : Engine) : Nat := e.mtf.nInUse.toNat + 2

/-- LEN[t][0 .. ALPHA−1]. -/
def Engine.lens (e : Engine) (t : Nat) : List Nat := (List.range e.alpha).map (cell e.huf.len t)

/-- The largest of a list of numbers. -/
def greatest (xs : List Nat) : Nat := xs.foldr max 0

/-- N_IN_USE is the size of a symbol map (rule R47). -/
abbrev Engine.AlphaOk (e : Engine) : Prop := e.mtf.nInUse.toNat ≤ 256

/-- What `Seed()` leaves (rule R222): the symbols are cut into one band per table, each as short as its target allows; the lengths are
0 inside a table's band and 15 outside it. -/
def SeedResult (e e' : Engine) : Prop :=
  let freq := fun v => (e.mtf.freq.toList.getD v 0).toNat
  let sum := fun a b => ((List.range (b - a)).map fun i => freq (a + i)).sum
  ∃ (cut : Nat → Nat) (m : Table6 (BitVec 5) 258),
    e' = { e with huf.len := m } ∧ cut 0 = 0 ∧
    (∀ t < e.huf.nGroups.toNat,
      let target := (e.mtf.len.toNat - sum 0 (cut t)) / (e.huf.nGroups.toNat - t)
      cut t ≤ cut (t + 1) ∧ cut (t + 1) ≤ e.alpha ∧
      (cut (t + 1) = e.alpha ∨ target ≤ sum (cut t) (cut (t + 1))) ∧
      (∀ c, cut t ≤ c → c < cut (t + 1) → sum (cut t) c < target) ∧
      ∀ v < e.alpha, cell m t v = if cut t ≤ v ∧ v < cut (t + 1) then 0 else 15) ∧
    ∀ t v, e.huf.nGroups.toNat ≤ t ∨ e.alpha ≤ v → cell m t v = cell e.huf.len t v

/-- The symbols of group `g` (rule R223). -/
def Engine.group (e : Engine) (g : Nat) : List Nat := (e.symbols.drop (50 * g)).take 50

/-- The cost of group `g` under table `t` (rule R224). -/
def Engine.cost (e : Engine) (g t : Nat) : Nat := ((e.group g).map (cell e.huf.len t)).sum

/-- The checks of a selection pass (rule R225), and that the pass reads written symbols of the alphabet only. -/
abbrev Engine.PassOk (e : Engine) : Prop :=
  (2 ≤ e.huf.nGroups.toNat ∧ e.huf.nGroups.toNat ≤ 6) ∧ e.mtf.len.toNat ≠ 0 ∧
    e.mtf.len.toNat ≤ e.huf.nSelectors.toNat * 50 ∧ e.huf.nSelectors.toNat ≤ 18001 ∧ e.AlphaOk ∧ e.StreamFilled ∧
    ∀ x ∈ e.symbols, x < e.alpha

/-- What `SelectPass()` leaves (rule R224): each group has chosen the first table of least cost, RFREQ counts the symbols of the groups
of each table, and every table has been allocated from its counts; `total` is the sum of the costs. -/
def PassResult (e : Engine) (total : Nat) (e' : Engine) : Prop :=
  let nG := e.huf.nGroups.toNat
  let nS := e.huf.nSelectors.toNat
  ∃ (choice : Nat → Nat) (sel : Store (BitVec 3)) (rf : Table6 (BitVec 20) 258) (ln : Table6 (BitVec 5) 258),
    e' = { e with huf.selectors := sel, huf.rfreq := rf, huf.len := ln } ∧
    total = ((List.range nS).map fun g => e.cost g (choice g)).sum ∧
    (∀ g < nS, choice g < nG ∧ sel.read g = some (BitVec.ofNat 3 (choice g)) ∧
      ∀ t < nG, e.cost g (choice g) ≤ e.cost g t ∧ (t < choice g → e.cost g (choice g) < e.cost g t)) ∧
    (∀ g ≥ nS, sel.read g = e.huf.selectors.read g) ∧
    (∀ t < nG, ∀ v < e.alpha,
      cell rf t v = (((List.range nS).filter fun g => choice g = t).map fun g => (e.group g).count v).sum ∧
      cell ln t v = (allocate ((List.range e.alpha).map (cell rf t))).getD v 0) ∧
    ∀ t v, nG ≤ t ∨ e.alpha ≤ v → cell rf t v = cell e.huf.rfreq t v ∧ cell ln t v = cell e.huf.len t v

/-- The canonical code of symbol `v` (rule R227): every symbol before it, in the order of length and then index, takes its share of the
codes of that length. -/
def canonicalCode (lens : List Nat) (v : Nat) : Nat :=
  (((List.range lens.length).filter fun u =>
      lens.getD u 0 < lens.getD v 0 ∨ (lens.getD u 0 = lens.getD v 0 ∧ u < v)).map
    fun u => 2 ^ (lens.getD v 0 - lens.getD u 0)).sum

/-- The Kraft sum of a list of lengths in units of 2^(−limit) (rules R210, R228). -/
def kraft (limit : Nat) (lens : List Nat) : Nat := (lens.map fun n => 2 ^ (limit - n)).sum

/-- Every length of the list is in 1 .. `limit`. -/
abbrev LensOk (limit : Nat) (lens : List Nat) : Prop := ∀ n ∈ lens, 1 ≤ n ∧ n ≤ limit

/-- `c` one-bits and a zero (rule R150). -/
def unaryBits (c : Nat) : List Bool := List.replicate c true ++ [false]

/-- The positions at which the values of a list are found in turn, each value moved to the front when found (rule R229). -/
def frontPositions : List Nat → List Nat → List Nat
  | _, [] => []
  | list, v :: vs => list.idxOf v :: frontPositions (v :: list.eraseIdx (list.idxOf v)) vs

/-- The values found at positions in turn, each moved to the front (rule R233). -/
def frontValues : List Nat → List Nat → List Nat
  | _, [] => []
  | list, j :: js => list.getD j 0 :: frontValues (list.getD j 0 :: list.eraseIdx j) js

/-- The bits of the lengths of one table from the current length `cur` (rules R126, R229): `10` for up, `11` for down, `0` to end. -/
def deltaBits : Nat → List Nat → List Bool
  | _, [] => []
  | cur, n :: ns =>
    (List.replicate (n - cur) [true, false]).flatten ++ (List.replicate (cur - n) [true, true]).flatten ++ false :: deltaBits n ns

/-- SELECTORS[0 .. N_SELECTORS−1]. -/
def Engine.sels (e : Engine) : List Nat :=
  (List.range e.huf.nSelectors.toNat).map fun g => ((e.huf.selectors.read g).getD 0).toNat

/-- Every selector in use has been written, and names a table below `bound`. -/
abbrev Engine.SelectorsOk (e : Engine) (bound : Nat) : Prop :=
  ∀ g < e.huf.nSelectors.toNat, ∃ t, e.huf.selectors.read g = some t ∧ t.toNat < bound

/-- The bits of the selectors and tables (rules R124 to R126, R229). -/
def Engine.tableBits (e : Engine) : List Bool :=
  bitsOf 3 e.huf.nGroups.toNat ++ bitsOf 15 e.huf.nSelectors.toNat ++
    (frontPositions (List.range e.huf.nGroups.toNat) e.sels).flatMap unaryBits ++
    (List.range e.huf.nGroups.toNat).flatMap fun t => bitsOf 5 ((e.lens t).headD 0) ++ deltaBits ((e.lens t).headD 0) (e.lens t)

/-- The packed code that symbol `i` of the stream is written with (rule R231). -/
def Engine.codeAt (e : Engine) (i : Nat) : Nat := cell e.huf.code (e.sels.getD (i / 50) 0) (e.symbols.getD i 0)

/-- The packed code that HUF_ENCODE_DATA looks up for symbol `i` of the stream, where both elements it reads have been written and name
an element of CODE (rule R231). -/
def Engine.codeRead (e : Engine) (i : Nat) : Option Nat :=
  match e.huf.selectors.read (i / 50), e.mtf.stream.read i with
  | some t, some x => if t.toNat < 6 ∧ x.toNat < 258 then some (cell e.huf.code t.toNat x.toNat) else none
  | _, _ => none

/-- No symbol of the list is found without a code (rule R231); the search ends where a lookup is not possible (log entry 12). -/
def Engine.allCoded (e : Engine) : List Nat → Bool
  | [] => true
  | i :: is =>
    match e.codeRead i with
    | none => true
    | some c => c / 2 ^ 24 ≠ 0 && e.allCoded is

/-- The bits of a packed code (rule R48). -/
def codeBits (c : Nat) : List Bool := bitsOf (c / 2 ^ 24) c

/-- One step of the delta code (rule R233). -/
def stepTo (cur : Nat) (down : Bool) : Nat := if down then cur - 1 else cur + 1

/-- The length stays in 1..23 before every bit of the delta code of one symbol (rule R233). -/
def StepsOk : Nat → List Bool → Prop
  | cur, [] => 1 ≤ cur ∧ cur ≤ 23
  | cur, d :: ds => (1 ≤ cur ∧ cur ≤ 23) ∧ StepsOk (stepTo cur d) ds

/-- The steps of one symbol take its length out of 1..23, at the last of them and not before (rule R233). -/
def StepsLeave : Nat → List Bool → Prop
  | cur, [] => ¬ (1 ≤ cur ∧ cur ≤ 23)
  | cur, d :: ds => (1 ≤ cur ∧ cur ≤ 23) ∧ StepsLeave (stepTo cur d) ds

/-- So for the symbols of one table in turn. -/
def TableStepsOk : Nat → List (List Bool) → Prop
  | _, [] => True
  | cur, ds :: rest => StepsOk cur ds ∧ TableStepsOk (ds.foldl stepTo cur) rest

/-- The lengths that the steps of one table stand for (rule R233). -/
def steppedLens : Nat → List (List Bool) → List Nat
  | _, [] => []
  | cur, ds :: rest => ds.foldl stepTo cur :: steppedLens (ds.foldl stepTo cur) rest

/-- The bits of the steps of one table (rule R126). -/
def stepBits (steps : List (List Bool)) : List Bool := steps.flatMap fun ds => ds.flatMap (fun d => [true, d]) ++ [false]

/-- The bits of the start length and the symbols of one table (rule R126). -/
def tableStepBits (q : Nat × List (List Bool)) : List Bool := bitsOf 5 q.1 ++ stepBits q.2

/-- SELECTORS holds the values found at the positions `js`, and what it held elsewhere (rule R233). -/
def SelsRead (nG : Nat) (js : List Nat) (before after : Store (BitVec 3)) : Prop :=
  (∀ g < js.length, after.read g = some (BitVec.ofNat 3 ((frontValues (List.range nG) js).getD g 0))) ∧
    ∀ g ≥ js.length, after.read g = before.read g

/-- How many symbols come before `v` in the order of length and then index (rule R235). -/
def permRank (lens : List Nat) (v : Nat) : Nat :=
  (List.range lens.length).countP fun u => lens.getD u 0 < lens.getD v 0 ∨ (lens.getD u 0 = lens.getD v 0 ∧ u < v)

/-- The lookup of table `t` is the one that `BuildDecode` derives from these lengths (rule R235). -/
structure Engine.LookupOf (e : Engine) (t : Nat) (lens : List Nat) : Prop where
  minLen : ((e.huf.minLen.toList[t]?).map BitVec.toNat) = some (lens.foldr min 31)
  maxLen : ((e.huf.maxLen.toList[t]?).map BitVec.toNat) = some (greatest lens)
  perm : ∀ v < lens.length, cell e.huf.perm t (permRank lens v) = v
  inside : ∀ n, lens.foldr min 31 ≤ n → n ≤ greatest lens →
    let first := ((lens.filter fun m => m < n).map fun m => 2 ^ (n - m)).sum
    cell e.huf.base t n + lens.countP (fun m => m < n) = first ∧ cell e.huf.limit t n + 1 = first + lens.count n
  outside : ∀ n ≤ 23, n < lens.foldr min 31 ∨ greatest lens < n →
    cell e.huf.base t n = 0 ∧ cell e.huf.limit t n = 2 ^ 32 - 1

/-! ### Blocks and streams (spec/47_block_framing.md, spec/48_stream_framing.md) -/

/-- The engine after a block has been opened with the multiplier `k` (rule R261). -/
def Engine.opened (k : BitVec 4) (e : Engine) : Engine :=
  { e with
    block.k := k
    block.len := 0
    block.presence := Vector.replicate 256 false
    block.runLen := 0
    block.nonempty := false
    crc.block := 0xFFFFFFFF }

/-- The engine after a block CRC has been combined (rule R256). -/
def Engine.combined (c : Word) (e : Engine) : Engine := { e with crc.stream := e.crc.stream.rotateLeft 1 ^^^ c }

/-- The bits of the block that holds the one byte `v`, after its marker (rules R122 to R127): CRC, flag, start pointer, symbol map, two
tables of the lengths 2, 2, 1 with one selector, and the codes of RUNA and END_OF_BLOCK. -/
def oneByteBlock (v : Byte) (crc : Word) : List Bool :=
  bitsOf 32 crc.toNat ++ false :: bitsOf 24 0 ++ mapBits (Vector.ofFn fun i => decide (i.val = v.toNat)) ++
    bitsOf 3 2 ++ bitsOf 15 1 ++ unaryBits 0 ++ (List.replicate 2 (bitsOf 5 2 ++ deltaBits 2 [2, 2, 1])).flatten ++ [true, false, false]

/-- The end marker and a combined CRC (rule R128). -/
def trailerBits (crc : Word) : List Bool := bitsOf 48 Config.endMagic ++ bitsOf 32 crc.toNat

/-- The header of a stream (rules R120, R121), less its first two bytes for a headerless decoder. -/
def headerBytes (headerless : Bool) (k : Nat) : List Byte := (if headerless then [] else [0x42, 0x5A]) ++ [0x68, BitVec.ofNat 8 (0x30 + k)]

/-- Commands one after the other. -/
def runAll : List Instr → State → Host.Outcome State Fault Refusal
  | [], s => .next s
  | i :: is, s =>
    match exec i s with
    | .next t => runAll is t
    | .fault f => .fault f
    | .refused r => .refused r

/-! ### Checks, errors and states (spec/60_exceptions.md, rules R290, R301) -/

/-- The operand and state checks that open a command (rule R314 checks 4 and 5). -/
def checksOk (e : Engine) : Instr → Bool
  | .brReadBits n => n.toNat ≤ 24
  | .bwWriteBits n => n.toNat ≤ 24
  | .rle1GetBlk => e.host.arg.toNat < e.block.len.toNat
  | .bwtGet => e.host.arg.toNat < e.bwt.len.toNat
  | .mtfEncByte => byteGet e.block.presence (e.host.arg.setWidth 8)
  | .mtfDecSym => e.mtf.nInUse ≠ 0 ∧ e.host.arg.toNat % 512 < e.alpha ∧ e.huf.decEob = false
  | .mtfGet => e.host.arg.toNat < e.mtf.len.toNat
  | .hufAlloc t n => t.toNat ≤ 5 ∧ n.toNat ≠ 1 ∧ n.toNat ≤ 258
  | .hufSetFreq t s => t.toNat ≤ 5 ∧ s.toNat ≤ 257 ∧ e.host.arg.toNat < 2 ^ 20
  | .hufSetGroups => e.mtf.len ≠ 0
  | .hufSeed => 2 ≤ e.huf.nGroups.toNat ∧ e.huf.nGroups.toNat ≤ 6 ∧ e.mtf.len ≠ 0
  | .hufSelectPass =>
    2 ≤ e.huf.nGroups.toNat ∧ e.huf.nGroups.toNat ≤ 6 ∧ e.mtf.len.toNat ≤ e.huf.nSelectors.toNat * 50 ∧ e.mtf.len ≠ 0
  | .hufOptimize =>
    2 ≤ e.huf.nGroups.toNat ∧ e.huf.nGroups.toNat ≤ 6 ∧ e.mtf.len.toNat ≤ e.huf.nSelectors.toNat * 50 ∧ e.mtf.len ≠ 0
  | .hufAssignCodes t => t.toNat ≤ 5 ∧ (∀ n ∈ e.lens t.toNat, 1 ≤ n ∧ n ≤ 20) ∧ kraft 20 (e.lens t.toNat) ≤ 2 ^ 20
  | .hufWriteTables =>
    2 ≤ e.huf.nGroups.toNat ∧ e.huf.nGroups.toNat ≤ 6 ∧ 1 ≤ e.huf.nSelectors.toNat ∧ e.huf.nSelectors.toNat ≤ 18001 ∧
      ∀ t < e.huf.nGroups.toNat, ∀ n ∈ e.lens t, 1 ≤ n ∧ n ≤ 20
  | .hufEncodeData => e.mtf.len.toNat ≤ e.huf.nSelectors.toNat * 50 ∧ e.allCoded (List.range e.mtf.len.toNat)
  | .hufBuildDecode t => t.toNat ≤ 5 ∧ ∀ n ∈ e.lens t.toNat, 1 ≤ n ∧ n ≤ 23
  | .hufEncodeSym t =>
    t.toNat ≤ 5 ∧ e.host.arg.toNat % 512 < e.alpha ∧ cell e.huf.code t.toNat (e.host.arg.toNat % 512) / 2 ^ 24 ≠ 0
  | .hufSetLen t s => t.toNat ≤ 5 ∧ s.toNat ≤ 257 ∧ 1 ≤ e.host.arg.toNat ∧ e.host.arg.toNat ≤ 23
  | .hufGetLen t s => t.toNat ≤ 5 ∧ s.toNat ≤ 257
  | .hufGetCode t s => t.toNat ≤ 5 ∧ s.toNat ≤ 257
  | .hufGetSel => e.host.arg.toNat < e.huf.nSelectors.toNat
  | .blkEncOpen k => 1 ≤ k.toNat ∧ k.toNat ≤ 9
  | .blkDecStart k => k.toNat ≤ 9
  | .blkCheckCrc => e.block.rlRep = 0 ∧ e.bwt.hopsLeft = 0
  | .strEncOpen k => (1 ≤ k.toNat ∧ k.toNat ≤ 9) ∧ (e.frame.phase = .idle ∨ e.frame.phase = .encDone ∨ e.frame.phase = .decComplete)
  | .strEncWrite => e.frame.phase = .encActive
  | .strEncFinish => e.frame.phase = .encActive
  | .strDecOpen _ => e.frame.phase = .idle ∨ e.frame.phase = .encDone ∨ e.frame.phase = .decComplete
  | .strDecRead =>
    e.frame.phase = .decUninit ∨ e.frame.phase = .decBlockBoundary ∨ e.frame.phase = .decBlockActive ∨ e.frame.phase = .decComplete
  | .nop => true
  | .brReadBool => true
  | .brReadUnary _ => true
  | .brReadInt32 => true
  | .bwWriteBool => true
  | .bwWriteUnary => true
  | .bwFlush => true
  | .bwWriteInt32 => true
  | .rle1Put => true
  | .rle1Flush => true
  | .rle1Get => true
  | .bwtForward => true
  | .bwtInvSetup => true
  | .bwtInvNext => true
  | .bwtSetStart => true
  | .mtfInit _ => true
  | .mtfEncEnd => true
  | .mtfReadMap => true
  | .mtfWriteMap => true
  | .hufReadTables => true
  | .hufDecodeSym => true
  | .crcInit => true
  | .crcUpdate => true
  | .crcFinal => true
  | .crcCombine => true
  | .crcStreamInit => true
  | .crcReadStream => true
  | .crcReadStored _ => true
  | .blkEncWrite => true
  | .blkEncClose => true
  | .blkDecRead => true
  | .strClose => true
  | .coreReset => true

/-- The error kinds that a command can raise besides UnsupportedOperation, which any command but NOP and CORE_RESET can (rule R310). -/
def ownErrors : Instr → List ErrorKind
  | .brReadBits _ => [.insufficientData]
  | .brReadBool => [.insufficientData]
  | .brReadUnary _ => [.insufficientData, .invalidHuffmanTables]
  | .brReadInt32 => [.insufficientData]
  | .mtfReadMap => [.insufficientData]
  | .mtfDecSym => [.blockSizeExceeded]
  | .hufReadTables => [.insufficientData, .invalidHuffmanTables]
  | .hufDecodeSym => [.insufficientData, .invalidHuffmanTables]
  | .bwtInvSetup => [.invalidStartPointer]
  | .blkDecStart _ => [.insufficientData, .invalidHuffmanTables, .blockSizeExceeded, .invalidStartPointer]
  | .blkCheckCrc => [.blockCrcMismatch]
  | .strDecRead =>
    [.insufficientData, .invalidHeader, .invalidHuffmanTables, .blockSizeExceeded, .invalidStartPointer, .blockCrcMismatch,
      .streamCrcMismatch]
  | _ => []

/-- The states a command can move to from a state, besides staying in it and, for every command but NOP and CORE_RESET, ERROR (rules
R290, R301). -/
def ownPhases (p : Phase) : Instr → List Phase
  | .strEncOpen _ => if p = .idle ∨ p = .encDone ∨ p = .decComplete then [.encActive] else []
  | .strEncFinish => if p = .encActive then [.encDone] else []
  | .strDecOpen _ => if p = .idle ∨ p = .encDone ∨ p = .decComplete then [.decUninit] else []
  | .strDecRead =>
    if p = .decUninit ∨ p = .decBlockBoundary ∨ p = .decBlockActive then [.decBlockBoundary, .decBlockActive, .decComplete] else []
  | .strClose => [.closed]
  | .coreReset => [.idle]
  | _ => []

end Sys2Proof.Machine
end

