-- ==== Sys2Proof/WellFormed.lean ====
section
/-! DEFINITION. Which command words pass the operand checks that depend on the word alone (rule R102). A command that fails one is
still a command: it is decoded and run, and it raises UnsupportedOperation (rule R314 check 4). -/

namespace Sys2Proof

/-- N ≤ 24 on the bit-count commands (rule R102). -/
def bitCountOk (n : BitVec 5) : Bool := n.toNat ≤ 24

/-- T ≤ 5 on the table commands (rule R102). -/
def tableOk (t : BitVec 3) : Bool := t.toNat ≤ 5

/-- A symbol index below 258, the size of the `[t][s]` tables (rules R48, R214, R240 to R242). -/
def symbolOk (s : BitVec 9) : Bool := s.toNat ≤ 257

/-- A symbol count 2..258, or 0 for ALPHA (rule R213). -/
def symbolCountOk (n : BitVec 9) : Bool := n.toNat = 0 ∨ (2 ≤ n.toNat ∧ n.toNat ≤ 258)

/-- A block-size multiplier 1..9 (rule R102). -/
def multiplierOk (k : BitVec 4) : Bool := 1 ≤ k.toNat ∧ k.toNat ≤ 9

/-- A block-size multiplier 1..9, or 0 to keep BLOCK_K (rule R270). -/
def multiplierOrKeepOk (k : BitVec 4) : Bool := k.toNat ≤ 9

/-- The operand checks of a command word (rule R102). -/
def Instr.wellFormed : Instr → Bool
  | .brReadBits n => bitCountOk n
  | .bwWriteBits n => bitCountOk n
  | .hufAlloc t n => tableOk t && symbolCountOk n
  | .hufSetFreq t s => tableOk t && symbolOk s
  | .hufAssignCodes t => tableOk t
  | .hufBuildDecode t => tableOk t
  | .hufEncodeSym t => tableOk t
  | .hufSetLen t s => tableOk t && symbolOk s
  | .hufGetLen t s => tableOk t && symbolOk s
  | .hufGetCode t s => tableOk t && symbolOk s
  | .blkEncOpen k => multiplierOk k
  | .blkDecStart k => multiplierOrKeepOk k
  | .strEncOpen k => multiplierOk k
  | .nop => true
  | .brReadBool => true
  | .brReadUnary _ => true
  | .brReadInt32 => true
  | .bwWriteBool => true
  | .bwWriteUnary => true
  | .bwFlush => true
  | .bwWriteInt32 => true
  | .rle1Put => true
  | .rle1Flush => true
  | .rle1Get => true
  | .rle1GetBlk => true
  | .bwtForward => true
  | .bwtInvSetup => true
  | .bwtInvNext => true
  | .bwtGet => true
  | .bwtSetStart => true
  | .mtfInit _ => true
  | .mtfEncByte => true
  | .mtfEncEnd => true
  | .mtfDecSym => true
  | .mtfReadMap => true
  | .mtfWriteMap => true
  | .mtfGet => true
  | .hufSetGroups => true
  | .hufSeed => true
  | .hufSelectPass => true
  | .hufOptimize => true
  | .hufWriteTables => true
  | .hufEncodeData => true
  | .hufReadTables => true
  | .hufDecodeSym => true
  | .hufGetSel => true
  | .crcInit => true
  | .crcUpdate => true
  | .crcFinal => true
  | .crcCombine => true
  | .crcStreamInit => true
  | .crcReadStream => true
  | .crcReadStored _ => true
  | .blkEncWrite => true
  | .blkEncClose => true
  | .blkDecRead => true
  | .blkCheckCrc => true
  | .strEncWrite => true
  | .strEncFinish => true
  | .strDecOpen _ => true
  | .strDecRead => true
  | .strClose => true
  | .coreReset => true

end Sys2Proof
end

