-- ==== Sys2Proof/Certificates/Slice0/Obligations.lean ====
section
/-! DEFINITION. The statements for the provers. -/

open Sys2Proof Sys2Proof.Machine

/-! ### The bit engine (spec/40_bitio.md) -/

/-- Rules R143 to R146: with enough bits at hand a read command gives the next bits as an unsigned number, the first bit the most
significant, and exactly those bits are consumed. BR_READ_UNARY counts the one-bits before a zero; the M-th one-bit in a row raises
InvalidHuffmanTables, with the one-bits read consumed; M is IMM, or 65536 for IMM = 0. -/
def Obligations.ReadCommandsComplete : Prop :=
  ∀ s : State, s.Live → s.bits.ReaderOk →
    (∀ n : BitVec 5, n.toNat ≤ 24 → n.toNat ≤ s.inBits.length →
      Completes (.brReadBits n) s ((s.begun.consume n.toNat).withResult (bitsVal (s.inBits.take n.toNat)))) ∧
    (1 ≤ s.inBits.length → Completes .brReadBool s ((s.begun.consume 1).withResult (bitsVal (s.inBits.take 1)))) ∧
    (32 ≤ s.inBits.length → Completes .brReadInt32 s ((s.begun.consume 32).withResult (bitsVal (s.inBits.take 32)))) ∧
    ∀ (limit : BitVec 16) (c : Nat) (rest : List Bool),
      let m := if limit = 0 then 65536 else limit.toNat
      (c < m → s.inBits = List.replicate c true ++ false :: rest →
        Completes (.brReadUnary limit) s ((s.begun.consume (c + 1)).withResult c)) ∧
      (s.inBits = List.replicate m true ++ rest → Raises (.brReadUnary limit) s .invalidHuffmanTables (s.begun.consume m))

/-- Rules R15, R141, R145 to R147, R315: a read command that needs more bits than are at hand has pulled every byte (BR_READ_INT32 has
lost its high half when that was there); then it waits, or at end of input raises InsufficientData. A write command without room
fills the output FIFO and waits, and nothing is lost. -/
def Obligations.BitCommandsWait : Prop :=
  ∀ s : State, s.Live →
    (s.bits.ReaderOk →
      (∀ n : BitVec 5, n.toNat ≤ 24 → s.inBits.length < n.toNat → RunsOut (.brReadBits n) s s.begun.drainInput) ∧
      (s.inBits = [] → RunsOut .brReadBool s s.begun) ∧
      (s.inBits.length < 16 → RunsOut .brReadInt32 s s.begun.drainInput) ∧
      (16 ≤ s.inBits.length → s.inBits.length < 32 → RunsOut .brReadInt32 s (s.begun.consume 16).drainInput) ∧
      (∀ (limit : BitVec 16) (c : Nat), c < (if limit = 0 then 65536 else limit.toNat) → s.inBits = List.replicate c true →
        RunsOut (.brReadUnary limit) s (s.begun.consume c))) ∧
    (s.bits.WriterOk → s.host.outFifo.length ≤ s.outDepth →
      (∀ n : BitVec 5, n.toNat ≤ 24 → ¬ s.HasRoom n.toNat →
        ∃ e, Waits (.bwWriteBits n) s .output e ∧ s.begun.StuckWriting (bitsOf n.toNat s.host.arg.toNat) e) ∧
      (¬ s.HasRoom 1 → ∃ e, Waits .bwWriteBool s .output e ∧ s.begun.StuckWriting [s.host.arg.getLsbD 0] e) ∧
      (¬ s.HasRoom (s.host.arg.toNat % 65536 + 1) →
        ∃ e, Waits .bwWriteUnary s .output e ∧
          s.begun.StuckWriting (List.replicate (s.host.arg.toNat % 65536) true ++ [false]) e) ∧
      (¬ s.HasRoom 32 → ∃ e, Waits .bwWriteInt32 s .output e ∧ s.begun.StuckWriting (bitsOf 32 s.host.arg.toNat) e))

/-- Rules R148, R149, R150, R152, R91: with room for the bytes it completes, a write command appends its bits, most significant first,
and every full byte is in the output FIFO. -/
def Obligations.WriteCommandsComplete : Prop :=
  ∀ s : State, s.Live → s.bits.WriterOk →
    (∀ n : BitVec 5, n.toNat ≤ 24 → s.HasRoom n.toNat →
      Completes (.bwWriteBits n) s (s.begun.append (bitsOf n.toNat s.host.arg.toNat))) ∧
    (s.HasRoom 1 → Completes .bwWriteBool s (s.begun.append [s.host.arg.getLsbD 0])) ∧
    (s.HasRoom (s.host.arg.toNat % 65536 + 1) →
      Completes .bwWriteUnary s (s.begun.append (List.replicate (s.host.arg.toNat % 65536) true ++ [false]))) ∧
    (s.HasRoom 32 → Completes .bwWriteInt32 s (s.begun.append (bitsOf 32 s.host.arg.toNat)))

/-- Rule R151: BW_FLUSH pads the waiting bits with zeros to one byte; with none waiting it writes nothing, so that flushing twice is
flushing once; and without room for the byte it waits. -/
def Obligations.FlushPadsToAByte : Prop :=
  ∀ s : State, s.Live → s.bits.WriterOk →
    (s.bits.wrCnt = 0 ∨ s.host.outFifo.length < s.outDepth →
      Completes .bwFlush s s.begun.flushed ∧
      ∀ t : State, exec .bwFlush s = .next t → Completes .bwFlush t t.toEngine) ∧
    (s.bits.wrCnt ≠ 0 → s.outDepth ≤ s.host.outFifo.length → Waits .bwFlush s .output s.begun)

/-- Rule R154: fields written one after the other and flushed are read back by a reader that starts afresh, each cut to its width; the
reader ends with the pad bits, which are 0. -/
def Obligations.FieldsRoundTrip : Prop :=
  ∀ (fields : List (Nat × Nat)) (w r : Engine), (∀ f ∈ fields, f.1 ≤ 24) →
    w.bits.wrAcc = 0 → w.bits.wrCnt = 0 → w.host.outFifo = [] → (fields.map Prod.fst).sum ≤ 8 * w.outDepth →
    r.bits.rdAcc = 0 → r.bits.rdCnt = 0 →
    ∃ w', (do forEach fields (fun f => writeBits f.1 f.2); flushWriter : Cmd Unit) w = .ok () w' ∧
      (r.host.inFifo = w'.host.outFifo →
        ∃ r', collect fields (fun f => readBits f.1) r = .ok (fields.map fun f => f.2 % 2 ^ f.1) r' ∧
          r'.host.inFifo = [] ∧ r'.bits.rdAcc = 0 ∧
          r'.bits.rdCnt.toNat + (fields.map Prod.fst).sum = 8 * w'.host.outFifo.length)

/-! ### First-stage run-length coding (spec/41_rle1.md) -/

/-- Rules R161 to R164, R167, R262, R292: below FULL_THRESHOLD the byte in ARG is accepted: it continues the pending run, or the pending
run goes into the block and a new run starts; the block and stream commands feed it to the block CRC as well. At FULL_THRESHOLD it
is refused: FULL is set, RESULT is 0, and nothing else changes. RLE1_FLUSH moves the pending run into the block and reports BLK_LEN;
RLE1_GET_BLK reads one byte of the block. -/
def Obligations.Rle1EncoderCommands : Prop :=
  ∀ s : State, s.Live →
    (s.KOk → s.Accepts →
      let b : Byte := s.host.arg.setWidth 8
      Completes .rle1Put s ((s.begun.accept b).withResult 1) ∧
      Completes .blkEncWrite s (((s.begun.accept b).fedCrc b).withResult 1) ∧
      (s.frame.phase = .encActive → Completes .strEncWrite s (((s.begun.accept b).fedCrc b).withResult 1))) ∧
    (¬ s.Accepts →
      Completes .rle1Put s (Engine.withResult 0 { s.begun with host.full := true }) ∧
      Completes .blkEncWrite s (Engine.withResult 0 { s.begun with host.full := true })) ∧
    (s.block.len.toNat + (runBytes s.block.runCh s.block.runLen.toNat).length ≤ 900001 →
      Completes .rle1Flush s (s.begun.runFlushed.withResult s.begun.runFlushed.block.len.toNat)) ∧
    (∀ v : Byte, s.host.arg.toNat < s.block.len.toNat → s.block.blk.read s.host.arg.toNat = some v →
      Completes .rle1GetBlk s (s.begun.withResult v.toNat))

/-- Rule R168: while a block is filled by `Rle1Put` only, it keeps two bytes of headroom, and one after the last flush; no put and
no flush stops. -/
def Obligations.BlockHeadroom : Prop :=
  ∀ (bs : List Byte) (e : Engine), e.KOk → e.block.len = 0 → e.block.runLen = 0 →
    ∃ accepted e₁ e₂, collect bs rle1Put e = .ok accepted e₁ ∧ flushRun e₁ = .ok () e₂ ∧
      e₁.block.len.toNat ≤ e.block.k.toNat * 100000 - 2 ∧ e₂.block.len.toNat ≤ e.block.k.toNat * 100000 - 1 ∧ e₂.BlockFilled

/-- Rules R165, R166, R275, R295: RLE1_GET, BLK_DEC_READ and, while a block is read out, STR_DEC_READ yield the next original byte; at
the end of the block the first two yield NODATA. -/
def Obligations.NextByteCommands : Prop :=
  ∀ s : State, s.Live → s.WalkOk →
    let r := s.begun.next
    (∀ b, r.1 = some b →
      Completes .rle1Get s (r.2.withResult b.toNat) ∧
      Completes .blkDecRead s ((r.2.fedCrc b).withResult b.toNat) ∧
      (s.frame.phase = .decBlockActive → Completes .strDecRead s ((r.2.fedCrc b).withResult b.toNat))) ∧
    (r.1 = none → Completes .rle1Get s r.2.noData ∧ Completes .blkDecRead s r.2.noData)

/-- Rule R169: the bytes accepted by `Rle1Put` and flushed, read back from the block through `Rle1Next`, are the original bytes and then
the end; a run of 3 has no count byte, a run of 4 the count 0, a run of 259 the counts 251 and 0. -/
def Obligations.Rle1RoundTrip : Prop :=
  (∀ (bs : List Byte) (accepted : List Bool) (e e₁ : Engine), e.KOk → e.block.len = 0 → e.block.runLen = 0 →
    collect bs rle1Put e = .ok accepted e₁ → (∀ a ∈ accepted, a = true) →
    ∃ e₂, flushRun e₁ = .ok () e₂ ∧
      ∀ d : Engine, d.block.rlRep = 0 → d.block.rlCnt = 0 → d.block.randFlag = false → d.Walks e₂.blockBytes →
        ∃ d', collect (List.range (bs.length + 1)) (fun _ => rle1Next) d = .ok (bs.map some ++ [none]) d') ∧
  ∀ (v : Byte) (e : Engine), e.KOk → e.block.len = 0 → e.block.runLen = 0 →
    ∀ n coded, (n, coded) ∈ [(3, [v, v, v]), (4, [v, v, v, v, 0]), (259, [v, v, v, v, 251, v, v, v, v, 0])] →
      ∃ e', (do repeatCmd n (do let _ ← rle1Put v); flushRun : Cmd Unit) e = .ok () e' ∧ e'.blockBytes = coded

/-! ### The Burrows-Wheeler transform (spec/42_bwt.md) -/

/-- Rules R175, R176, R177: BWT_FORWARD sorts the rotations of the block, equal ones by start index, and leaves the last byte of each
in BWT_ARR, the place of the block itself in START_PTR and RESULT, and the wrap byte after the block. -/
def Obligations.ForwardSortsRotations : Prop :=
  ∀ s : State, s.Live → s.BlockFilled → s.block.len.toNat ≤ 900000 →
    let n := s.block.len.toNat
    let b := s.blockBytes
    (n = 0 → Completes .bwtForward s (Engine.withResult 0 { s.begun with bwt.len := 0, bwt.startPtr := 0 })) ∧
    (0 < n → ∃ (e : Engine) (order : List Nat), Completes .bwtForward s e ∧
      order.Perm (List.range n) ∧ order.Pairwise (RotationBefore b) ∧
      (∀ k < n, e.bwt.arr.read k = some (b.getD ((order.getD k 0 + n - 1) % n) 0)) ∧
      e.bwt.len = s.block.len ∧ order[e.bwt.startPtr.toNat]? = some 0 ∧ e.host.result = e.bwt.startPtr.zeroExtend 32 ∧
      e.block.blk.read n = s.block.blk.read 0 ∧ ∀ i ≠ n, e.block.blk.read i = s.block.blk.read i)

/-- Rules R178, R179: BWT_INV_SETUP packs into MERGED the successor index and the byte of every position, ordered by byte and then by
position, and starts the walk at START_PTR. -/
def Obligations.InverseSetupOrders : Prop :=
  ∀ s : State, s.Live → s.BwtFilled → s.bwt.len.toNat ≤ 900000 →
    let n := s.bwt.len.toNat
    let b := s.bwtBytes
    (s.bwt.startPtr.toNat < n → ∃ (e : Engine) (order : List Nat), Completes .bwtInvSetup s e ∧
      order.Perm (List.range n) ∧
      order.Pairwise (fun i j => b.getD i 0 < b.getD j 0 ∨ (b.getD i 0 = b.getD j 0 ∧ i < j)) ∧
      (∀ k < n, e.bwt.merged.read k = some (BitVec.ofNat 32 (order.getD k 0 * 256 + (b.getD (order.getD k 0) 0).toNat))) ∧
      (∀ k ≥ n, e.bwt.merged.read k = s.bwt.merged.read k) ∧
      (∀ v : Byte, (byteGet e.bwt.charBase v).toNat = b.countP (fun x => decide (x ≤ v))) ∧
      e.bwt.merged.read s.bwt.startPtr.toNat = some e.bwt.curEntry ∧ e.bwt.hopsLeft = s.bwt.len ∧
      e.host.result = s.bwt.len.zeroExtend 32) ∧
    (n ≤ s.bwt.startPtr.toNat → Raises .bwtInvSetup s .invalidStartPointer s.begun)

/-- Rules R180, R181, R182, R183: one hop of the walk, or NODATA after the last; a byte of BWT_ARR; the start pointer set. -/
def Obligations.WalkCommands : Prop :=
  ∀ s : State, s.Live →
    (s.bwt.hopsLeft = 0 → Completes .bwtInvNext s s.begun.noData) ∧
    (s.bwt.hopsLeft ≠ 0 → s.WalkOk → Completes .bwtInvNext s (s.begun.hopped.withResult (s.bwt.curEntry.toNat % 256))) ∧
    (∀ v : Byte, s.host.arg.toNat < s.bwt.len.toNat → s.bwt.arr.read s.host.arg.toNat = some v →
      Completes .bwtGet s (s.begun.withResult v.toNat)) ∧
    Completes .bwtSetStart s { s.begun with bwt.startPtr := s.host.arg.setWidth 24 }

/-- Rule R184: after BWT_FORWARD on a block, BWT_INV_SETUP starts a walk that yields the bytes of the block in order. -/
def Obligations.InverseUndoesForward : Prop :=
  ∀ e : Engine, e.BlockFilled → 0 < e.block.len.toNat → e.block.len.toNat ≤ 900000 →
    ∃ p e₁ n e₂, bwtForward e = .ok p e₁ ∧ bwtInvSetup e₁ = .ok n e₂ ∧ n = e.block.len.toNat ∧ e₂.Walks e.blockBytes

/-! ### Move-to-front and the zero-counter (spec/43_mtf_rle2.md) -/

/-- Rules R190, R191, R192: MTF_INIT numbers the present values in ascending order, both ways, starts the list with the ranks in
order, and clears the stream, the counters and the runs; the decoder start also empties BWT_ARR. -/
def Obligations.MtfInitMapsValues : Prop :=
  ∀ (s : State) (d : BitVec 1), s.Live →
    ∃ e, Completes (.mtfInit d) s e ∧ e.MtfOk ∧
      (∀ j < e.mtf.nInUse.toNat, e.mtf.list.toList[j]? = some (BitVec.ofNat 8 j)) ∧
      (∀ j ≥ e.mtf.nInUse.toNat,
        e.mtf.list.toList[j]? = s.mtf.list.toList[j]? ∧ e.mtf.seqToUnseq.toList[j]? = s.mtf.seqToUnseq.toList[j]?) ∧
      (∀ v, byteGet s.block.presence v = false → byteGet e.mtf.unseqToSeq v = byteGet s.mtf.unseqToSeq v) ∧
      e.mtf.zpend = 0 ∧ e.mtf.len = 0 ∧ (∀ c ∈ e.mtf.freq.toList, c = 0) ∧ e.mtf.runAcc = 0 ∧ e.mtf.runW = 1 ∧
      e.host.result = e.mtf.nInUse.zeroExtend 32 ∧
      (e.bwt.len = if d = 1 then 0 else s.bwt.len) ∧ (e.huf.decEob = if d = 1 then false else s.huf.decEob)

/-- Rule R200: `EmitRun` writes a run as the digits of its bijective base-2 form, as many as the logarithm of the run plus one; no
other digits have that value; and the decoder adds them up to the run again. -/
def Obligations.RunLaw : Prop :=
  ∀ z : Nat, 1 ≤ z →
    emitRun z = forEach (runSyms z) emitSym ∧
    (∀ ds : List Nat, (∀ d ∈ ds, d ≤ 1) → (ds.zipIdx.map fun q => (q.1 + 1) * 2 ^ q.2).sum = z → ds = runSyms z) ∧
    (((runSyms z).zipIdx.map fun q => (q.1 + 1) * 2 ^ q.2).sum = z) ∧
    ∀ e : Engine, e.KOk → e.mtf.runAcc = 0 → e.mtf.runW = 1 → e.bwt.len.toNat + z ≤ e.block.k.toNat * 100000 →
      ∃ e', forEach (runSyms z) mtfRunDigit e = .ok () e' ∧ e'.mtf.runAcc.toNat = z

/-- Rules R193 to R197: MTF_ENC_BYTE finds the rank of the byte in the list; at the front it counts one more zero, and elsewhere it ends
the pending run, moves the rank to the front and emits the position plus one; MTF_ENC_END ends the run and emits END_OF_BLOCK. -/
def Obligations.EncodeSymbolCommands : Prop :=
  ∀ s : State, s.Live → s.MtfOk → s.mtf.len.toNat + 21 ≤ 900001 →
    (∀ j : Nat, j < s.mtf.nInUse.toNat → byteGet s.block.presence (s.host.arg.setWidth 8) = true →
      s.mtf.list.toList[j]? = some (byteGet s.mtf.unseqToSeq (s.host.arg.setWidth 8)) →
      (j = 0 → Completes .mtfEncByte s
        (Engine.withResult s.mtf.len.toNat { s.begun with mtf.zpend := BitVec.ofNat 20 (s.mtf.zpend.toNat + 1) })) ∧
      (0 < j →
        let e : Engine := { (s.begun.emit (s.zeroSyms ++ [j + 1])).moved j with mtf.zpend := 0 }
        Completes .mtfEncByte s (e.withResult (s.mtf.len.toNat + s.zeroSyms.length + 1)))) ∧
    (let e : Engine := { s.begun.emit (s.zeroSyms ++ [s.mtf.nInUse.toNat + 1]) with mtf.zpend := 0 }
     Completes .mtfEncEnd s (e.withResult (s.mtf.len.toNat + s.zeroSyms.length + 1)))

/-- Rules R193, R198, R199: MTF_DEC_SYM adds a run digit, or flushes the run and appends the byte of the list entry, moved to the front,
or ends the block; a digit or a byte past CAP(BLOCK_K) raises BlockSizeExceeded. -/
def Obligations.DecodeSymbolCommand : Prop :=
  ∀ s : State, s.Live → s.KOk → s.mtf.nInUse.toNat ≤ 256 → s.huf.decEob = false → s.mtf.nInUse ≠ 0 →
    s.bwt.len.toNat + s.mtf.runAcc.toNat ≤ 900000 →
    let n := s.mtf.nInUse.toNat
    let sym := s.host.arg.toNat % 512
    let cap := s.block.k.toNat * 100000
    let new := s.mtf.runAcc.toNat + s.mtf.runW.toNat * (sym + 1)
    (sym ≤ 1 → s.bwt.len.toNat + new ≤ cap →
      Completes .mtfDecSym s (Engine.withResult 0
        { s.begun with mtf.runAcc := BitVec.ofNat 20 new, mtf.runW := BitVec.ofNat 20 (s.mtf.runW.toNat * 2) })) ∧
    (sym ≤ 1 → cap < s.bwt.len.toNat + new → Raises .mtfDecSym s .blockSizeExceeded s.begun) ∧
    (2 ≤ sym → sym ≤ n → s.bwt.len.toNat + s.mtf.runAcc.toNat < cap →
      let e := s.begun.runApplied.moved (sym - 1)
      Completes .mtfDecSym s ((e.pushBwt [e.frontByte]).withResult 0)) ∧
    (2 ≤ sym → sym ≤ n → cap ≤ s.bwt.len.toNat + s.mtf.runAcc.toNat →
      Raises .mtfDecSym s .blockSizeExceeded s.begun.runApplied) ∧
    (sym = n + 1 → Completes .mtfDecSym s (Engine.withResult 1 { s.begun.runApplied with huf.decEob := true }))

/-- Rules R123, R202, R203, R204: MTF_WRITE_MAP appends the bits of the symbol map; MTF_READ_MAP reads one back, a range bit with no
value bit included; MTF_GET reads one symbol of the stream. -/
def Obligations.SymbolMapCommands : Prop :=
  ∀ s : State, s.Live →
    (s.bits.WriterOk → s.HasRoom (mapBits s.block.presence).length →
      Completes .mtfWriteMap s ((s.begun.append (mapBits s.block.presence)).withResult (countPresent s.block.presence))) ∧
    (∀ (ranges : List Bool) (values : List (List Bool)) (rest : List Bool), s.bits.ReaderOk →
      ranges.length = 16 → values.length = 16 → (∀ vs ∈ values, vs.length = 16) →
      let bits := ranges ++ (ranges.zip values).flatMap fun q => if q.1 then q.2 else []
      s.inBits = bits ++ rest →
      ∃ p : Vector Bool 256, (∀ i < 16, ∀ j < 16, p.toList[16 * i + j]? = some ((ranges.getD i false) && (values.getD i []).getD j false)) ∧
        Completes .mtfReadMap s (Engine.withResult (countPresent p) { s.begun.consume bits.length with block.presence := p })) ∧
    (∀ v : BitVec 9, s.host.arg.toNat < s.mtf.len.toNat → s.mtf.stream.read s.host.arg.toNat = some v →
      Completes .mtfGet s (s.begun.withResult v.toNat))

/-- Rule R205: the bytes of a sequence whose values are all present, encoded from MTF_INIT 0 to MTF_ENC_END, are rebuilt in BWT_ARR by
applying the symbols after MTF_INIT 1 with the same PRESENCE; the last symbol alone is END_OF_BLOCK. -/
def Obligations.MtfRoundTrip : Prop :=
  ∀ (q : List Byte) (e d : Engine), (∀ v ∈ q, byteGet e.block.presence v = true) → d.block.presence = e.block.presence → d.KOk →
    countPresent e.block.presence ≠ 0 → q.length ≤ d.block.k.toNat * 100000 →
    ∃ e', (do mtfInit false; forEach q mtfEncByte; mtfEncEnd : Cmd Unit) e = .ok () e' ∧ e'.StreamFilled ∧
      e'.mtf.len.toNat ≤ q.length + 1 ∧
      ∃ d', (do mtfInit true; collect e'.symbols mtfDecSym : Cmd (List Bool)) d =
          .ok (List.replicate (e'.mtf.len.toNat - 1) false ++ [true]) d' ∧
        d'.BwtFilled ∧ d'.bwtBytes = q

/-! ### The Huffman allocator and tables (spec/44_huffman_alloc.md, spec/45_huffman_codec.md) -/

/-- Rules R213, R214, R220, R221, R240 to R243: HUF_ALLOC writes the allocated lengths of one table and reports the longest;
HUF_SET_FREQ and HUF_SET_LEN write one element; HUF_GET_LEN, HUF_GET_CODE and HUF_GET_SEL read one; HUF_SET_GROUPS sets the counts of
tables and selectors. -/
def Obligations.TableAccessCommands : Prop :=
  ∀ s : State, s.Live →
    (∀ (t : BitVec 3) (count : BitVec 9), t.toNat ≤ 5 →
      let n := if count = 0 then s.alpha else count.toNat
      let lens := allocate ((List.range n).map (cell s.huf.rfreq t.toNat))
      2 ≤ n → n ≤ 258 →
        Completes (.hufAlloc t count) s (Engine.withResult (greatest lens) { s.begun with huf.len := withRow s.huf.len t.toNat lens })) ∧
    (∀ (t : BitVec 3) (sym : BitVec 9), t.toNat ≤ 5 → sym.toNat ≤ 257 →
      (s.host.arg.toNat < 2 ^ 20 →
        Completes (.hufSetFreq t sym) s { s.begun with huf.rfreq := withCell s.huf.rfreq t.toNat sym.toNat s.host.arg.toNat }) ∧
      (1 ≤ s.host.arg.toNat → s.host.arg.toNat ≤ 23 →
        Completes (.hufSetLen t sym) s { s.begun with huf.len := withCell s.huf.len t.toNat sym.toNat s.host.arg.toNat }) ∧
      Completes (.hufGetLen t sym) s (s.begun.withResult (cell s.huf.len t.toNat sym.toNat)) ∧
      Completes (.hufGetCode t sym) s (s.begun.withResult (cell s.huf.code t.toNat sym.toNat))) ∧
    (∀ v : BitVec 3, s.host.arg.toNat < s.huf.nSelectors.toNat → s.huf.selectors.read s.host.arg.toNat = some v →
      Completes .hufGetSel s (s.begun.withResult v.toNat)) ∧
    (s.mtf.len ≠ 0 →
      let m := s.mtf.len.toNat
      let n := if 2400 ≤ m then 6 else if 1200 ≤ m then 5 else if 600 ≤ m then 4 else if 200 ≤ m then 3 else 2
      Completes .hufSetGroups s (Engine.withResult n
        { s.begun with huf.nGroups := BitVec.ofNat 3 n, huf.nSelectors := BitVec.ofNat 15 ((m + 49) / 50) }))

/-- Rules R210 (items 1 and 2), R212, R215: the allocator gives each of 2 to 258 symbols a length of 1 to 20 bits, and the lengths meet Kraft
equality. -/
def Obligations.AllocatorGivesACode : Prop :=
  ∀ f : List Nat, 2 ≤ f.length → f.length ≤ 258 →
    (allocate f).length = f.length ∧ LensOk 20 (allocate f) ∧ kraft 20 (allocate f) = 2 ^ 20

/-- Rule R222: HUF_SEED cuts the alphabet into one band per table. -/
def Obligations.SeedCutsBands : Prop :=
  ∀ s : State, s.Live → 2 ≤ s.huf.nGroups.toNat → s.huf.nGroups.toNat ≤ 6 → s.mtf.len ≠ 0 → s.AlphaOk →
    ∃ e, Completes .hufSeed s e ∧ SeedResult s.begun e

/-- Rules R223 to R226: HUF_SELECT_PASS chooses for every group the first table of least cost, recounts and reallocates, and reports
the cost; HUF_OPTIMIZE seeds and runs four passes, and reports the cost of the last. -/
def Obligations.SelectionPasses : Prop :=
  ∀ s : State, s.Live → s.PassOk →
    (∃ e total, Completes .hufSelectPass s (e.withResult total) ∧ PassResult s.begun total e) ∧
    ∃ e₀ c₁ e₁ c₂ e₂ c₃ e₃ c₄ e₄, SeedResult s.begun e₀ ∧ PassResult e₀ c₁ e₁ ∧ PassResult e₁ c₂ e₂ ∧ PassResult e₂ c₃ e₃ ∧
      PassResult e₃ c₄ e₄ ∧ Completes .hufOptimize s (e₄.withResult c₄)

/-- Rules R227, R228: HUF_ASSIGN_CODES packs into CODE each symbol's length and canonical code, which fits its length; the codes of a
table are prefix-free; entries outside the alphabet or the table are unchanged. -/
def Obligations.CanonicalCodes : Prop :=
  ∀ (s : State) (t : BitVec 3), s.Live → s.AlphaOk → t.toNat ≤ 5 →
    let lens := s.lens t.toNat
    LensOk 20 lens → kraft 20 lens ≤ 2 ^ 20 →
    ∃ m, Completes (.hufAssignCodes t) s { s.begun with huf.code := m } ∧
      (∀ v < s.alpha, canonicalCode lens v < 2 ^ lens.getD v 0 ∧
        cell m t.toNat v = lens.getD v 0 * 2 ^ 24 + canonicalCode lens v) ∧
      (∀ t' v, t' ≠ t.toNat ∨ s.alpha ≤ v → cell m t' v = cell s.huf.code t' v) ∧
      ∀ u < s.alpha, ∀ v < s.alpha, u ≠ v → ¬ codeBits (cell m t.toNat u) <+: codeBits (cell m t.toNat v)

/-- Rules R229 to R232: HUF_WRITE_TABLES appends the counts, the selectors and the delta-coded lengths; HUF_ENCODE_DATA appends the code
of every symbol of the stream under the table of its group; HUF_ENCODE_SYM appends one code. -/
def Obligations.TablesAndDataWritten : Prop :=
  ∀ s : State, s.Live → s.AlphaOk → s.bits.WriterOk →
    (2 ≤ s.huf.nGroups.toNat → s.huf.nGroups.toNat ≤ 6 → 1 ≤ s.huf.nSelectors.toNat → s.huf.nSelectors.toNat ≤ 18001 →
      s.SelectorsOk s.huf.nGroups.toNat → (∀ t < s.huf.nGroups.toNat, LensOk 20 (s.lens t)) → s.HasRoom s.tableBits.length →
      Completes .hufWriteTables s ((s.begun.append s.tableBits).withResult s.huf.nSelectors.toNat)) ∧
    (s.mtf.len.toNat ≤ s.huf.nSelectors.toNat * 50 → s.StreamFilled → s.SelectorsOk 6 → (∀ x ∈ s.symbols, x < 258) →
      (∀ i < s.mtf.len.toNat, 1 ≤ s.codeAt i / 2 ^ 24 ∧ s.codeAt i / 2 ^ 24 ≤ 24) →
      let bits := (List.range s.mtf.len.toNat).flatMap fun i => codeBits (s.codeAt i)
      s.HasRoom bits.length → Completes .hufEncodeData s ((s.begun.append bits).withResult s.mtf.len.toNat)) ∧
    (∀ t : BitVec 3, t.toNat ≤ 5 →
      let c := cell s.huf.code t.toNat (s.host.arg.toNat % 512)
      s.host.arg.toNat % 512 < s.alpha → 1 ≤ c / 2 ^ 24 → c / 2 ^ 24 ≤ 24 → s.HasRoom (c / 2 ^ 24) →
      Completes (.hufEncodeSym t) s (s.begun.append (codeBits c)))

/-- Rules R233, R234: HUF_READ_TABLES reads the counts, the selectors by their positions, and the lengths by their steps, each staying in
1..23; then it has built the lookup of every table read, and the symbol count starts again. -/
def Obligations.TablesRead : Prop :=
  ∀ (s : State) (nG : Nat) (js : List Nat) (tables : List (Nat × List (List Bool))) (rest : List Bool),
    s.Live → s.bits.ReaderOk → s.AlphaOk → s.mtf.nInUse ≠ 0 →
    2 ≤ nG → nG ≤ 6 → 1 ≤ js.length → js.length ≤ 18001 → (∀ j ∈ js, j < nG) → tables.length = nG →
    (∀ q ∈ tables, q.1 < 32 ∧ q.2.length = s.alpha ∧ TableStepsOk q.1 q.2) →
    let bits := bitsOf 3 nG ++ bitsOf 15 js.length ++ js.flatMap unaryBits ++ tables.flatMap fun q => bitsOf 5 q.1 ++ stepBits q.2
    let lens := fun t => steppedLens (tables.getD t (0, [])).1 (tables.getD t (0, [])).2
    s.inBits = bits ++ rest →
    ∃ e : Engine, Completes .hufReadTables s (e.withResult nG) ∧
      e.bits = (s.begun.consume bits.length).bits ∧ e.host.inFifo = (s.begun.consume bits.length).host.inFifo ∧
      e.huf.nGroups.toNat = nG ∧ e.huf.nSelectors.toNat = js.length ∧ e.sels = frontValues (List.range nG) js ∧
      (∀ t < nG, e.lens t = lens t ∧ e.LookupOf t (lens t)) ∧
      (∀ t v, nG ≤ t ∨ s.alpha ≤ v → cell e.huf.len t v = cell s.huf.len t v) ∧
      e.huf.symCount = 0 ∧ e.huf.decEob = false

/-- Rules R233, R234, R273, R315: HUF_READ_TABLES raises InvalidHuffmanTables on an empty map before any read, on a table count outside
2..6 after 3 bits, on a selector count outside 1..18001 after 15 more, on a selector of as many one-bits as there are tables, the first
or a later one, and on a length of the delta code that leaves 1..23, at its start or at a step. N_GROUPS, N_SELECTORS, SELECTORS and LEN
are left as far as they were read, and nothing else is written. -/
def Obligations.TablesRefused : Prop :=
  ∀ s : State, s.Live → s.bits.ReaderOk →
    (s.mtf.nInUse = 0 → Raises .hufReadTables s .invalidHuffmanTables s.begun) ∧
    (s.mtf.nInUse ≠ 0 → ∀ (nG nS : Nat) (rest : List Bool), nG < 8 → nS < 2 ^ 15 →
      (¬ (2 ≤ nG ∧ nG ≤ 6) → s.inBits = bitsOf 3 nG ++ rest →
        Raises .hufReadTables s .invalidHuffmanTables (s.begun.consume 3)) ∧
      (2 ≤ nG ∧ nG ≤ 6 → ¬ (1 ≤ nS ∧ nS ≤ 18001) → s.inBits = bitsOf 3 nG ++ bitsOf 15 nS ++ rest →
        Raises .hufReadTables s .invalidHuffmanTables (s.begun.consume 18)) ∧
      (2 ≤ nG ∧ nG ≤ 6 → 1 ≤ nS ∧ nS ≤ 18001 →
        s.inBits = bitsOf 3 nG ++ bitsOf 15 nS ++ List.replicate nG true ++ rest →
        Raises .hufReadTables s .invalidHuffmanTables
          { s.begun.consume (18 + nG) with huf.nGroups := BitVec.ofNat 3 nG, huf.nSelectors := BitVec.ofNat 15 nS }) ∧
      (2 ≤ nG ∧ nG ≤ 6 → 1 ≤ nS ∧ nS ≤ 18001 → ∀ js : List Nat, (∀ j ∈ js, j < nG) →
        (js.length < nS →
          let bits := bitsOf 3 nG ++ bitsOf 15 nS ++ js.flatMap unaryBits ++ List.replicate nG true
          s.inBits = bits ++ rest →
          ∃ sel, SelsRead nG js s.huf.selectors sel ∧
            Raises .hufReadTables s .invalidHuffmanTables
              { s.begun.consume bits.length with
                huf.nGroups := BitVec.ofNat 3 nG
                huf.nSelectors := BitVec.ofNat 15 nS
                huf.selectors := sel }) ∧
        (js.length = nS → s.AlphaOk → ∀ (tables : List (Nat × List (List Bool))) (start : Nat) (passed : List (List Bool))
          (steps : List Bool), tables.length < nG → (∀ q ∈ tables, q.1 < 32 ∧ q.2.length = s.alpha ∧ TableStepsOk q.1 q.2) →
          start < 32 → passed.length < s.alpha → TableStepsOk start passed →
          StepsLeave ((steppedLens start passed).getLastD start) steps →
          let bits := bitsOf 3 nG ++ bitsOf 15 nS ++ js.flatMap unaryBits ++ tables.flatMap tableStepBits ++
            tableStepBits (start, passed) ++ steps.flatMap fun d => [true, d]
          s.inBits = bits ++ rest →
          ∃ sel m, SelsRead nG js s.huf.selectors sel ∧
            (∀ t v, cell m t v =
              if t < tables.length ∧ v < s.alpha then (steppedLens (tables.getD t (0, [])).1 (tables.getD t (0, [])).2).getD v 0
              else if t = tables.length ∧ v < passed.length then (steppedLens start passed).getD v 0
              else cell s.huf.len t v) ∧
            Raises .hufReadTables s .invalidHuffmanTables
              { s.begun.consume bits.length with
                huf.nGroups := BitVec.ofNat 3 nG
                huf.nSelectors := BitVec.ofNat 15 nS
                huf.selectors := sel
                huf.len := m })))

/-- Rules R235, R236: HUF_BUILD_DECODE derives the lookup of one table from its lengths, and changes no other table. -/
def Obligations.LookupBuilt : Prop :=
  ∀ (s : State) (t : BitVec 3), s.Live → s.AlphaOk → t.toNat ≤ 5 → LensOk 23 (s.lens t.toNat) →
    ∃ e : Engine, Completes (.hufBuildDecode t) s e ∧ e.LookupOf t.toNat (s.lens t.toNat) ∧
      (∀ t' k, t' ≠ t.toNat ∨ s.alpha ≤ k → cell e.huf.perm t' k = cell s.huf.perm t' k) ∧
      ∀ t' k, t' ≠ t.toNat →
        e.huf.minLen.toList[t']? = s.huf.minLen.toList[t']? ∧ e.huf.maxLen.toList[t']? = s.huf.maxLen.toList[t']? ∧
        cell e.huf.base t' k = cell s.huf.base t' k ∧ cell e.huf.limit t' k = cell s.huf.limit t' k

/-- Rules R237, R238, R239: HUF_DECODE_SYM with the table of the current group: the bits of a symbol's canonical code give the symbol;
23 bits at or above the codes of the table give InvalidHuffmanTables; and so does a symbol past the selectors, before any read. -/
def Obligations.DecodeInvertsCodes : Prop :=
  ∀ (s : State) (lens : List Nat), s.Live → s.bits.ReaderOk →
    let g := s.huf.symCount.toNat / 50
    (s.huf.nSelectors.toNat ≤ g → Raises .hufDecodeSym s .invalidHuffmanTables s.begun) ∧
    (∀ t : BitVec 3, g < s.huf.nSelectors.toNat → s.huf.selectors.read g = some t → t.toNat < 6 → s.LookupOf t.toNat lens →
      2 ≤ lens.length → lens.length ≤ 258 → LensOk 23 lens → kraft 23 lens ≤ 2 ^ 23 →
      (∀ v < lens.length, ∀ rest, s.inBits = bitsOf (lens.getD v 0) (canonicalCode lens v) ++ rest →
        Completes .hufDecodeSym s
          (Engine.withResult v { s.begun.consume (lens.getD v 0) with huf.symCount := BitVec.ofNat 20 (s.huf.symCount.toNat + 1) })) ∧
      (23 ≤ s.inBits.length → kraft 23 lens ≤ bitsVal (s.inBits.take 23) →
        Raises .hufDecodeSym s .invalidHuffmanTables (s.begun.consume 23)))

/-- Rule R239 item 1: with the lookup of any lengths 1..23, Kraft or not, decoding a symbol ends with a symbol whose length is the number
of bits read, or raises, or waits; it never reads an element that was not written. -/
def Obligations.DecodeStaysInTable : Prop :=
  ∀ (e : Engine) (t : Nat) (lens : List Nat), e.bits.ReaderOk → t < 6 → e.LookupOf t lens →
    2 ≤ lens.length → lens.length ≤ 258 → LensOk 23 lens →
    match decodeSym t e with
    | .ok v e' => v < lens.length ∧ e' = e.consume (lens.getD v 0) ∧ lens.getD v 0 ≤ e.inBits.length
    | .error r _ => r = .raised .invalidHuffmanTables ∨ r = .raised .insufficientData ∨ r = .hold .input

/-! ### The CRC unit (spec/46_crc.md) -/

/-- Rules R252, R254 to R259: the seven CRC commands. -/
def Obligations.CrcCommands : Prop :=
  ∀ s : State, s.Live →
    Completes .crcInit s { s.begun with crc.block := 0xFFFFFFFF } ∧
    Completes .crcUpdate s (s.begun.fedCrc (s.host.arg.setWidth 8)) ∧
    Completes .crcFinal s (s.begun.withResult (s.crc.block ^^^ 0xFFFFFFFF).toNat) ∧
    Completes .crcCombine s ((s.begun.combined s.host.arg).withResult (s.crc.stream.rotateLeft 1 ^^^ s.host.arg).toNat) ∧
    Completes .crcStreamInit s { s.begun with crc.stream := 0 } ∧
    Completes .crcReadStream s (s.begun.withResult s.crc.stream.toNat) ∧
    Completes (.crcReadStored 0) s (s.begun.withResult s.crc.storedBlock.toNat) ∧
    Completes (.crcReadStored 1) s (s.begun.withResult s.crc.storedStream.toNat)

/-- Rules R250, R251, R256: the bit loop agrees with a table of 256 entries; the check value; and the combination law, which gives a
combined CRC as the exclusive or of the block CRCs, each rotated once for every block after it. -/
def Obligations.CrcLaws : Prop :=
  (∀ (c : Word) (b : Byte), crcUpdate c b = (c <<< 8) ^^^ crcUpdate 0 ((c >>> 24).setWidth 8 ^^^ b)) ∧
  ([0x31, 0x32, 0x33, 0x34, 0x35, 0x36, 0x37, 0x38, 0x39].foldl crcUpdate 0xFFFFFFFF ^^^ 0xFFFFFFFF = 0xFC891918) ∧
  ∀ (cs : List Word) (e : Engine), e.crc.stream = 0 →
    (cs.foldl (fun e c => e.combined c) e).crc.stream =
      (cs.zipIdx.map fun q => q.1.rotateLeft ((cs.length - 1 - q.2) % 32)).foldl (· ^^^ ·) 0

/-! ### Block framing (spec/47_block_framing.md) -/

/-- Rules R261, R263, R264, R272, R276: BLK_ENC_OPEN starts an empty block; BLK_ENC_CLOSE writes nothing for an empty one, and the marker
and the bits of the block for a block of one byte, and reports its CRC; BLK_CHECK_CRC reports the CRC and compares it. -/
def Obligations.BlockCommands : Prop :=
  ∀ s : State, s.Live →
    (∀ k : BitVec 4, 1 ≤ k.toNat → k.toNat ≤ 9 → Completes (.blkEncOpen k) s (s.begun.opened k)) ∧
    (s.block.nonempty = false → Completes .blkEncClose s s.begun.noData) ∧
    (s.block.nonempty = true → s.block.len = 0 → s.block.runLen = 1 → (∀ p ∈ s.block.presence.toList, p = false) →
      s.bits.WriterOk → s.HasRoom 179 →
      let crc := s.crc.block ^^^ 0xFFFFFFFF
      let out := s.begun.append (bitsOf 48 Config.blockMagic ++ oneByteBlock s.block.runCh crc)
      ∃ e : Engine, Completes .blkEncClose s (e.withResult crc.toNat) ∧ e.bits = out.bits ∧ e.host.outFifo = out.host.outFifo ∧
        e.block.nonempty = false ∧ e.crc.stream = s.crc.stream) ∧
    (s.block.rlRep = 0 → s.bwt.hopsLeft = 0 →
      let c := s.crc.block ^^^ 0xFFFFFFFF
      (c = s.crc.storedBlock → Completes .blkCheckCrc s (s.begun.withResult c.toNat)) ∧
      (c ≠ s.crc.storedBlock → Raises .blkCheckCrc s .blockCrcMismatch (s.begun.withResult c.toNat)))

/-- Rules R260, R270, R271: BLK_DEC_START reads the block of one byte: it keeps the stored CRC, the flag and the start pointer, rebuilds
the byte, and starts the walk that yields it, with the decoder of runs and the block CRC started again. -/
def Obligations.BlockStartReadsAByte : Prop :=
  ∀ (s : State) (k : BitVec 4) (v : Byte) (crc : Word) (rest : List Bool), s.Live → s.bits.ReaderOk → s.KOk → k.toNat ≤ 9 →
    s.inBits = oneByteBlock v crc ++ rest →
    let after := s.begun.consume (oneByteBlock v crc).length
    ∃ e : Engine, Completes (.blkDecStart k) s (e.withResult 1) ∧ e.bits = after.bits ∧ e.host.inFifo = after.host.inFifo ∧
      e.crc.storedBlock = crc ∧ e.block.randFlag = false ∧ e.bwt.startPtr = 0 ∧ e.bwt.len = 1 ∧ e.bwtBytes = [v] ∧ e.Walks [v] ∧
      e.block.rlLast = 0 ∧ e.block.rlCnt = 0 ∧ e.block.rlRep = 0 ∧ e.block.randNtogo = 0 ∧ e.block.randTpos = 0 ∧
      e.crc.block = 0xFFFFFFFF ∧ e.block.k = (if k = 0 then s.block.k else k) ∧ e.mtf.nInUse = 1 ∧ e.huf.decEob = true

/-- Rules R274, R286: the bytes that `Fetch()` yields in the walk of a randomized block, from its start, are the bytes of the walk, the
low bit inverted exactly at the hops `i` that are a sum of entries of the table, plus the next entry, less 2. The table has 512 entries
of 50 to 999, and their sum is 278212 (rule R285). -/
def Obligations.DerandomFlips : Prop :=
  (randTable.length = 512 ∧ randTable.sum = 278212 ∧ ∀ x ∈ randTable, 50 ≤ x ∧ x ≤ 999) ∧
  ∀ (bs : List Byte) (e : Engine), e.block.randFlag = true → e.block.randNtogo = 0 → e.block.randTpos = 0 → e.Walks bs →
    ∃ out e', collect bs (fun _ => fetchByte) e = .ok out e' ∧ out.length = bs.length ∧
      ∀ i < bs.length,
        let flips := ∃ j, i + 2 = ((List.range j).map fun m => randEntry (m % 512)).sum + randEntry (j % 512)
        (flips → out.getD i 0 = bs.getD i 0 ^^^ 1) ∧ (¬ flips → out.getD i 0 = bs.getD i 0)

/-! ### Stream framing (spec/48_stream_framing.md) -/

/-- Rules R291, R292, R293, R300: STR_ENC_OPEN writes the header from a byte boundary and opens a block; STR_ENC_WRITE closes a full
block, combines its CRC and puts the byte in the next block; STR_ENC_FINISH closes a block that holds a byte, and writes the end
marker, the combined CRC and the pad; STR_CLOSE closes the instance. -/
def Obligations.StreamEncoderCommands : Prop :=
  ∀ s : State, s.Live →
    (∀ k : BitVec 4, 1 ≤ k.toNat → k.toNat ≤ 9 →
      s.frame.phase = .idle ∨ s.frame.phase = .encDone ∨ s.frame.phase = .decComplete →
      s.host.outFifo.length + 4 ≤ s.outDepth →
      Completes (.strEncOpen k) s
        { s.begun.opened k with
          host.outFifo := s.host.outFifo ++ headerBytes false k.toNat
          bits.wrAcc := 0
          bits.wrCnt := 0
          crc.stream := 0
          frame.phase := .encActive }) ∧
    (s.frame.phase = .encActive → s.KOk → ¬ s.Accepts →
      let b : Byte := s.host.arg.setWidth 8
      exec .strEncWrite s = finish .strEncWrite s (match blkEncClose s.begun with
        | .ok c e => .ok () (((((e.combined c).opened s.block.k).accept b).fedCrc b).withResult 1)
        | .error r e => .error r e)) ∧
    (s.frame.phase = .encActive → ∀ e : Engine,
      (s.block.nonempty = false ∧ e = s.begun) ∨
        (s.block.nonempty = true ∧ ∃ c e₀, blkEncClose s.begun = .ok c e₀ ∧ e = e₀.combined c) →
      e.bits.WriterOk → e.host.outFifo.length + (e.bits.wrCnt.toNat + 87) / 8 ≤ e.outDepth →
      Completes .strEncFinish s
        (Engine.withResult e.crc.stream.toNat { (e.append (trailerBits e.crc.stream)).flushed with frame.phase := .encDone })) ∧
    Completes .strClose s { s.begun with frame.phase := .closed }

/-- Rules R294, R296, R297, R299: STR_DEC_OPEN discards the reader's bits and reads nothing; STR_DEC_READ checks the header byte by
byte, and at a block boundary it ends the stream on the end marker, with NODATA if the combined CRC is the stored one. -/
def Obligations.StreamDecoderEnds : Prop :=
  ∀ s : State, s.Live → s.bits.ReaderOk →
    (s.frame.phase = .idle ∨ s.frame.phase = .encDone ∨ s.frame.phase = .decComplete → ∀ h : BitVec 1,
      Completes (.strDecOpen h) s
        { s.begun with
          bits.rdAcc := 0
          bits.rdCnt := 0
          frame.headerless := decide (h = 1)
          crc.stream := 0
          frame.phase := .decUninit }) ∧
    (s.frame.phase = .decComplete → Completes .strDecRead s s.begun.noData) ∧
    (∀ (v : Word) (rest : List Bool),
      (s.frame.phase = .decBlockBoundary → s.inBits = trailerBits v ++ rest →
        let e : Engine := { s.begun.consume 80 with crc.storedStream := v }
        (v = s.crc.stream → Completes .strDecRead s { e.noData with frame.phase := .decComplete }) ∧
        (v ≠ s.crc.stream → Raises .strDecRead s .streamCrcMismatch e)) ∧
      (∀ k : Nat, s.frame.phase = .decUninit → 1 ≤ k → k ≤ 9 → v = s.crc.stream →
        s.inBits = bytesBits (headerBytes s.frame.headerless k) ++ trailerBits v ++ rest →
        Completes .strDecRead s
          { (s.begun.consume (8 * (headerBytes s.frame.headerless k).length + 80)).noData with
            block.k := BitVec.ofNat 4 k
            crc.storedStream := v
            frame.phase := .decComplete }) ∧
      (∀ m : Nat, s.frame.phase = .decBlockBoundary → m < 2 ^ 48 → m ≠ Config.blockMagic → m ≠ Config.endMagic →
        s.inBits = bitsOf 48 m ++ rest → Raises .strDecRead s .invalidHeader (s.begun.consume 48)) ∧
      (∀ good bad : List Byte, s.frame.phase = .decUninit →
        (s.frame.headerless = false ∧
            ((good = [] ∧ ∃ b, bad = [b] ∧ b ≠ 0x42) ∨ (good = [0x42] ∧ ∃ b, bad = [b] ∧ b ≠ 0x5A))) ∨
          (good = (if s.frame.headerless then [] else [0x42, 0x5A]) ∧ ∃ b, bad = [b] ∧ b ≠ 0x68) ∨
          (good = (if s.frame.headerless then [] else [0x42, 0x5A]) ++ [0x68] ∧
            ∃ b : Byte, bad = [b] ∧ (b.toNat < 0x31 ∨ 0x39 < b.toNat)) →
        s.inBits = bytesBits (good ++ bad) ++ rest →
        Raises .strDecRead s .invalidHeader (s.begun.consume (8 * (good ++ bad).length))))

/-- Rules R295, R297, R298: STR_DEC_READ at a block marker starts the block and returns its first byte; at the end of a block it checks
the block CRC and, if that matches, combines it and goes on to the next marker. -/
def Obligations.StreamDecoderBlocks : Prop :=
  ∀ s : State, s.Live → s.bits.ReaderOk →
    (∀ (n : Nat) (e e' : Engine) (b : Byte) (rest : List Bool), s.frame.phase = .decBlockBoundary →
      s.inBits = bitsOf 48 Config.blockMagic ++ rest → blkDecStart (s.begun.consume 48) = .ok n e → e.WalkOk →
      ({ e with frame.phase := .decBlockActive } : Engine).next = (some b, e') →
      Completes .strDecRead s ((e'.fedCrc b).withResult b.toNat)) ∧
    (∀ e : Engine, s.frame.phase = .decBlockActive → s.WalkOk → s.begun.next = (none, e) →
      let c := s.crc.block ^^^ 0xFFFFFFFF
      (c ≠ s.crc.storedBlock → Raises .strDecRead s .blockCrcMismatch e) ∧
      (c = s.crc.storedBlock → ∀ rest, s.inBits = trailerBits (s.crc.stream.rotateLeft 1 ^^^ c) ++ rest →
        Completes .strDecRead s
          { ((e.combined c).consume 80).noData with
            crc.storedStream := s.crc.stream.rotateLeft 1 ^^^ c
            frame.phase := .decComplete }))

/-- Rules R293, R302: the stream of no bytes is the header, the end marker and the CRC 0, 14 bytes; it decodes to no byte, with no
error. -/
def Obligations.EmptyStreamRoundTrip : Prop :=
  ∀ (s u : State) (k : BitVec 4), s.Live → u.Live → 1 ≤ k.toNat → k.toNat ≤ 9 →
    s.frame.phase = .idle ∨ s.frame.phase = .encDone ∨ s.frame.phase = .decComplete →
    u.frame.phase = .idle ∨ u.frame.phase = .encDone ∨ u.frame.phase = .decComplete →
    s.host.outFifo = [] → 14 ≤ s.outDepth →
    ∃ t v : State, runAll [.strEncOpen k, .strEncFinish] s = .next t ∧
      t.host.outFifo = headerBytes false k.toNat ++ [0x17, 0x72, 0x45, 0x38, 0x50, 0x90, 0, 0, 0, 0] ∧
      (u.host.inFifo = t.host.outFifo →
        runAll [.strDecOpen 0, .strDecRead] u = .next v ∧ v.host.nodata = true ∧ v.host.result = 0 ∧ v.host.err = u.host.err ∧
          v.host.inFifo = [] ∧ v.frame.phase = .decComplete ∧ v.block.k = k)

/-! ### System commands and reset (spec/49_system.md, spec/70_reset_and_hazards.md) -/

/-- Rules R305, R306, R340, R342: in every state NOP clears NODATA and FULL only, CORE_RESET resets the engine, and the host's power-on
reset does the same and ends a held command. The step takes the host's power-on reset when no held command can go on (log entry 4). -/
def Obligations.SystemCommands : Prop :=
  ∀ s : State,
    exec .nop s = .next { s with host.nodata := false, host.full := false, hold := none } ∧
    exec .coreReset s = .next { s with toEngine := Engine.initial s.inDepth s.outDepth s.freeCount, hold := none } ∧
    hostAct .powerOnReset s = .next { s with toEngine := Engine.initial s.inDepth s.outDepth s.freeCount, hold := none } ∧
    ∀ rest, s.script = .powerOnReset :: rest → (∀ h ∈ s.hold, s.canResume h = false) →
      step s = .next { toEngine := Engine.initial s.inDepth s.outDepth s.freeCount, hold := none, script := rest, seen := s.seen }

/-- Rules R31 to R51, R340, R341: the reset values; and every invariant of the machine holds at reset. -/
def Obligations.ResetValues : Prop :=
  (∀ inDepth outDepth freeCount : Nat,
    let e := Engine.initial inDepth outDepth freeCount
    (e.host.cmd = 0 ∧ e.host.arg = 0 ∧ e.host.result = 0 ∧ e.host.err = false ∧ e.host.nodata = false ∧ e.host.full = false ∧
      e.host.drop = false ∧ e.host.inFifo = [] ∧ e.host.eoi = false ∧ e.host.outFifo = []) ∧
    (e.bits.rdAcc = 0 ∧ e.bits.rdCnt = 0 ∧ e.bits.wrAcc = 0 ∧ e.bits.wrCnt = 0) ∧
    (e.block.len = 0 ∧ e.block.k = 9 ∧ (∀ v, byteGet e.block.presence v = false) ∧ e.block.nonempty = false ∧ e.block.runCh = 0 ∧
      e.block.runLen = 0 ∧ e.block.rlLast = 0 ∧ e.block.rlCnt = 0 ∧ e.block.rlRep = 0 ∧ e.block.randFlag = false ∧
      e.block.randNtogo = 0 ∧ e.block.randTpos = 0) ∧
    (e.bwt.len = 0 ∧ e.bwt.startPtr = 0 ∧ (∀ v, byteGet e.bwt.charBase v = 0) ∧ e.bwt.curEntry = 0 ∧ e.bwt.hopsLeft = 0) ∧
    (e.mtf.nInUse = 0 ∧ (∀ v, byteGet e.mtf.seqToUnseq v = 0 ∧ byteGet e.mtf.unseqToSeq v = 0 ∧ byteGet e.mtf.list v = 0) ∧
      e.mtf.zpend = 0 ∧ e.mtf.runAcc = 0 ∧ e.mtf.runW = 1 ∧ e.mtf.len = 0 ∧ ∀ c ∈ e.mtf.freq.toList, c = 0) ∧
    (e.huf.nGroups = 0 ∧ e.huf.nSelectors = 0 ∧
      (∀ t s, cell e.huf.len t s = 0 ∧ cell e.huf.code t s = 0 ∧ cell e.huf.rfreq t s = 0 ∧ cell e.huf.base t s = 0 ∧
        cell e.huf.limit t s = 0 ∧ cell e.huf.perm t s = 0) ∧
      (∀ x ∈ e.huf.minLen.toList, x = 0) ∧ (∀ x ∈ e.huf.maxLen.toList, x = 0) ∧ e.huf.symCount = 0 ∧ e.huf.decEob = false) ∧
    (e.crc.block = 0 ∧ e.crc.stream = 0 ∧ e.crc.storedBlock = 0 ∧ e.crc.storedStream = 0) ∧
    e.frame.phase = .idle ∧ e.frame.headerless = false ∧ e.frame.errcode = none) ∧
  let s := State.reset
  s.hold = none ∧ s.statusWord = 0 ∧ s.StoresWf ∧ s.LatchOk ∧ s.BitsOk ∧ s.OutFifoOk ∧ s.BlockKOk ∧ s.RangesOk ∧ s.FilledOk ∧
    s.WriterClean

/-! ### Command words (spec/30_encoding.md) -/

/-- Rules R100, R101, R104: the decoder reads back every command, with every field at every value, from the word it is written as. -/
def Obligations.DecodeOfEncode : Prop := ∀ i : Instr, decode (encode i) = .ok i

/-- Rules R103, R104, R105: the opcode alone decides the command; its fields are the bits it uses, and the others are ignored; a word
is refused exactly if its opcode is not in the map. -/
def Obligations.OpcodeMap : Prop :=
  ∀ w : Word,
    (∀ i, decode w = .ok i → encode i = w &&& i.usedBits ∧ ∀ w', w' &&& i.usedBits = w &&& i.usedBits → decode w' = .ok i) ∧
    (decode w = .error (.reservedOpcode (w.setWidth 8)) ↔
      w.toNat % 256 ∉
        [0x00, 0x01, 0x02, 0x03, 0x04, 0x08, 0x09, 0x0A, 0x0B, 0x0C, 0x10, 0x11, 0x12, 0x13, 0x20, 0x21, 0x22, 0x23, 0x24, 0x30, 0x31,
          0x32, 0x33, 0x34, 0x35, 0x36, 0x40, 0x41, 0x50, 0x51, 0x52, 0x53, 0x54, 0x55, 0x56, 0x57, 0x58, 0x59, 0x5A, 0x5B, 0x5C,
          0x5D, 0x5E, 0x60, 0x61, 0x62, 0x63, 0x64, 0x65, 0x66, 0x70, 0x71, 0x72, 0x73, 0x74, 0x75, 0x80, 0x81, 0x82, 0x88, 0x89,
          0x8F, 0xFF])

/-- Rules R100, R104: words written out bit by bit, one for each family, decode to their commands. -/
def Obligations.SampleWords : Prop :=
  decode 0b00000000000000000000000000000000 = .ok .nop ∧
  decode 0b00000000000000000001100000000001 = .ok (.brReadBits 24) ∧
  decode 0b00000000000001100000000000000011 = .ok (.brReadUnary 6) ∧
  decode 0b00000000000000000000010100001000 = .ok (.bwWriteBits 5) ∧
  decode 0b00000000000000000000000000010000 = .ok .rle1Put ∧
  decode 0b00000000000000000000000000100001 = .ok .bwtInvSetup ∧
  decode 0b00000000000000010000000000110000 = .ok (.mtfInit 1) ∧
  decode 0b00000000000001000010000001000000 = .ok (.hufAlloc 1 4) ∧
  decode 0b00000001000000011010000001011011 = .ok (.hufSetLen 5 257) ∧
  decode 0b00000000000000010000000001100110 = .ok (.crcReadStored 1) ∧
  decode 0b00000000000010010000000001110000 = .ok (.blkEncOpen 9) ∧
  decode 0b00000000000000010000000010001000 = .ok (.strDecOpen 1) ∧
  decode 0b00000000000000000000000011111111 = .ok .coreReset ∧
  decode 0b00000000000000000000000000000101 = .error (.reservedOpcode 5)

/-- Rules R32, R89, R93: when no command holds, a step on the host's CMD write keeps the word in CMD and runs the command it decodes
to; a reserved opcode raises UnsupportedOperation and changes nothing else (rule R105); and a placed word is the next one run. That CMD
keeps the word of a command that ERROR refuses is the model's reading (log entry 7). -/
def Obligations.StepRunsTheCommand : Prop :=
  ∀ (s : State) (w : Word) (rest : List HostAction), s.hold = none → s.script = .write 32 0 w :: rest →
    let t : State := { s with host.cmd := w, script := rest }
    (∀ i, decode w = .ok i → step s = exec i t) ∧
    (∀ x, decode w = .error x → s.Live →
      step s = .next { t with toEngine := t.raiseError .unsupportedOperation, hold := none }) ∧
    ∀ (u : State) (n : Nat) (i : Instr), decode (BitVec.ofNat 32 (n % 2 ^ 32)) = .ok i →
      step (u.withFetchWord 32 n) = exec i { u with host.cmd := BitVec.ofNat 32 (n % 2 ^ 32), hold := none }

/-! ### The host's accesses (rules R31 to R39, R81, R82, R87, R97, R346) -/

/-- Rules R31, R35 to R37, R81, R82, R97, R346: what a register write does, besides a CMD write while idle: the drop of a CMD write while
a command holds, ARG, a byte pushed or dropped, EOI, and nothing at every other offset of the window. An access of another width or
alignment is refused (rule R81); that one beyond the window is refused too is the model's choice (log entry 16). -/
def Obligations.HostWrites : Prop :=
  ∀ (s : State) (v : Word),
    let act := fun offset => hostAct (.write 32 offset v) s
    (s.busy = true →
      ∃ t, act 0 = .next t ∧ t.host.drop = true ∧ (∀ r : Reg, r ≠ .drop → r.same s.toEngine t.toEngine) ∧ t.busy = true) ∧
    (act 4 = .next (if s.busy then s else { s with host.arg := v })) ∧
    (∃ t, act 0x10 = .next t ∧
      if s.host.inFifo.length < s.inDepth ∧ s.host.eoi = false then
        t.host.inFifo = s.host.inFifo ++ [v.setWidth 8] ∧ ∀ r : Reg, r ≠ .inFifo → r.same s.toEngine t.toEngine
      else t.host.drop = true ∧ ∀ r : Reg, r ≠ .drop → r.same s.toEngine t.toEngine) ∧
    (∃ t, act 0x14 = .next t ∧ (t.host.eoi = (s.host.eoi || v.getLsbD 0)) ∧
      ∀ r : Reg, r ≠ .eoi → r.same s.toEngine t.toEngine) ∧
    (∀ offset, offset ≤ 0x3C → offset % 4 = 0 → offset ∉ [0, 4, 0x10, 0x14] → act offset = .next s) ∧
    ∀ width offset, width ≠ 32 ∨ offset % 4 ≠ 0 ∨ 0x3C < offset →
      hostAct (.write width offset v) s = .refused (.badAccess width offset) ∧
      hostAct (.read width offset) s = .refused (.badAccess width offset)

/-- Rules R31, R33 to R35, R38, R39, R82, R87, R310: what a register read returns; reading OUT_DATA removes the byte it returns, and no
other read changes anything. -/
def Obligations.HostReads : Prop :=
  ∀ s : State,
    let value := fun offset => registerValue offset s
    (∀ offset, offset ≤ 0x3C → offset % 4 = 0 →
      ∃ t, hostAct (.read 32 offset) s = .next t ∧ t.seen = s.seen ++ [value offset] ∧ t.script = s.script ∧
        (offset ≠ 0x1C → t = { s with seen := s.seen ++ [value offset] }) ∧
        (offset = 0x1C → t.host.outFifo = s.host.outFifo.drop 1 ∧ ∀ r : Reg, r ≠ .outFifo → r.same s.toEngine t.toEngine)) ∧
    (value 0 = s.host.cmd ∧ value 4 = s.host.arg ∧ value 8 = s.host.result ∧ value 0x10 = 0 ∧
      value 0x18 = BitVec.ofNat 32 s.host.inFifo.length ∧ (s.host.outFifo = [] → value 0x1C = 0) ∧
      (∀ b rest, s.host.outFifo = b :: rest → value 0x1C = b.setWidth 32) ∧
      value 0x20 = BitVec.ofNat 32 s.host.outFifo.length ∧ value 0x24 = 0x425A3243 ∧
      (value 0x14 = if s.host.eoi then 1 else 0) ∧ ∀ offset, 0x28 ≤ offset → value offset = 0) ∧
    ((value 0xC).getLsbD 0 = s.hold.isSome ∧ (value 0xC).getLsbD 1 = s.host.err ∧ (value 0xC).getLsbD 2 = s.host.nodata ∧
      (value 0xC).getLsbD 3 = s.host.full ∧ (value 0xC).getLsbD 6 = s.host.drop ∧
      ((value 0xC).getLsbD 4 = true ↔ ∃ h, s.hold = some h ∧ h.wait = .input) ∧
      ((value 0xC).getLsbD 5 = true ↔ ∃ h, s.hold = some h ∧ h.wait = .output) ∧
      (value 0xC).extractLsb' 7 1 = 0 ∧ (value 0xC).extractLsb' 16 16 = 0 ∧
      (value 0xC).extractLsb' 8 4 = (match s.frame.errcode with | none => 0 | some k => k.code) ∧
      (value 0xC).extractLsb' 12 4 = s.frame.phase.code)

/-- Rules R15, R94, R97: a command that waits for input, and is given a byte or the end of input, does what it would have done with
that input from the start; one that waits for room does what it would have done with a FIFO one byte deeper, less the byte popped. -/
def Obligations.HoldsOnlyDelay : Prop :=
  ∀ (i : Instr) (s t : State) (h : Hold), s.hold = none → exec i s = .next t → t.hold = some h →
    (h.wait = .input →
      (∀ b : Byte, step (t.onEngine (Engine.pushInput b)) = exec i { s with toEngine := s.toEngine.pushInput b }) ∧
      step (t.onEngine Engine.setEoi) = exec i { s with toEngine := s.toEngine.setEoi }) ∧
    (h.wait = .output → t.host.outFifo ≠ [] → t.host.outFifo.length ≤ t.outDepth →
      ∀ u : State, exec i { s with outDepth := s.outDepth + 1 } = .next u →
        ∃ v : State, step t.popOutput = .next v ∧ v.host.outFifo = u.host.outFifo.drop 1 ∧ v.hold.isSome = u.hold.isSome ∧
          ∀ r : Reg, r ≠ .outFifo → r ≠ .outDepth → r.same u.toEngine v.toEngine)

/-! ### Errors (spec/60_exceptions.md) -/

/-- Rules R301, R305, R306, R313, R314: in ERROR every command but NOP and CORE_RESET changes nothing at all, and in CLOSED every such
command, and a reserved opcode too, raises UnsupportedOperation with no other change (rule R315). CMD keeps the word (log entry 7). -/
def Obligations.UnusableStates : Prop :=
  ∀ s : State,
    (∀ i : Instr, i ≠ .nop → i ≠ .coreReset →
      (s.frame.phase = .error → exec i s = .next s) ∧ (s.frame.phase = .closed → Raises i s .unsupportedOperation s.toEngine)) ∧
    ∀ w x, decode w = .error x →
      (s.frame.phase = .error → startCommand w s = .next { s with host.cmd := w }) ∧
      (s.frame.phase = .closed →
        startCommand w s =
          .next { s with toEngine := Engine.raiseError .unsupportedOperation { s.toEngine with host.cmd := w }, hold := none })

/-- Rules R102, R231, R314, R315: a command whose operand or state check fails raises UnsupportedOperation, and nothing but the latch and
STATE changes: NODATA and FULL keep their values. -/
def Obligations.FailedChecksRaise : Prop :=
  ∀ (i : Instr) (s : State), s.Live →
    (s.AlphaOk → checksOk s.toEngine i = false → Raises i s .unsupportedOperation s.toEngine) ∧
    (i.wellFormed = false → Raises i s .unsupportedOperation s.toEngine)

/-- Rules R290, R301, R310 to R312: a command latches only an error of a kind its rule gives it, and only if none is latched; and it
moves STATE only as the table of transitions says. -/
def Obligations.ErrorsAndTransitions : Prop :=
  ∀ (i : Instr) (s t : State), exec i s = .next t →
    (t.frame.errcode = s.frame.errcode ∨ (i = .coreReset ∧ t.frame.errcode = none) ∨
      (s.frame.errcode = none ∧ t.host.err = true ∧ t.frame.phase = .error ∧ i ≠ .nop ∧ i ≠ .coreReset ∧
        ∃ k, t.frame.errcode = some k ∧ (k = .unsupportedOperation ∨ k ∈ ownErrors i))) ∧
    (t.frame.phase = s.frame.phase ∨ (t.frame.phase = .error ∧ i ≠ .nop ∧ i ≠ .coreReset) ∨
      t.frame.phase ∈ ownPhases s.frame.phase i) ∧
    (s.host.err = true → i ≠ .coreReset → t.host.err = true)

/-! ### Invariants that every step keeps -/

/-- Rules R38, R40 to R42, R142, R153, R311, R312: the error latch stays consistent: ERR, ERRCODE and the state ERROR go together, and no
command holds with an error latched. Between commands the reader holds at most 7 bits and zeros above them, and the writer at most 7
bits, where the latch is consistent; the output FIFO stays within its depth; BLOCK_K stays a multiplier. -/
def Obligations.StepKeepsLatchAndBits : Prop :=
  ∀ s t : State, step s = .next t →
    (s.LatchOk → t.LatchOk) ∧ (s.LatchOk → s.BitsOk → t.BitsOk) ∧ (s.OutFifoOk → t.OutFifoOk) ∧ (s.BlockKOk → t.BlockKOk)

/-- Rules R41, R48: no bit of WR_ACC above the valid ones is ever set between commands, and packed codes keep lengths of at most 20, from a
state with a consistent latch, the bit engine in its form and the ranges kept. -/
def Obligations.StepKeepsWriterClean : Prop :=
  ∀ s t : State, step s = .next t → s.LatchOk → s.BitsOk → s.RangesOk → s.WriterClean → t.WriterClean

/-- Rules R42 to R48, R168: the counts and lengths stay in their ranges. -/
def Obligations.StepKeepsRanges : Prop := ∀ s t : State, step s = .next t → s.RangesOk → t.RangesOk

/-- Rules R51, R84: the partial maps BLK, BWT_ARR, MERGED, MTF_STREAM and SELECTORS keep their canonical form; every element of BLK below
BLK_LEN, of BWT_ARR below BWT_LEN and of MTF_STREAM below MTF_LEN stays written, and the inverse walk stays inside written entries of
MERGED. (SELECTORS below N_SELECTORS is not among them: HUF_SET_GROUPS sets the count before any selector is written, log entry 12.) -/
def Obligations.StepKeepsArrays : Prop :=
  ∀ s t : State, step s = .next t → (s.StoresWf → t.StoresWf) ∧ (s.FilledOk → t.FilledOk)

/-! ### Frames -/

/-- Frame of the bit engine, the CRC unit and NOP (rules R140 to R155, R252 to R259, R305): what each rule does not write is
unchanged. -/
def Obligations.FrameBitsAndCrc : Prop :=
  Framed .nop ∧ (∀ n, Framed (.brReadBits n)) ∧ Framed .brReadBool ∧ (∀ m, Framed (.brReadUnary m)) ∧ Framed .brReadInt32 ∧
    (∀ n, Framed (.bwWriteBits n)) ∧ Framed .bwWriteBool ∧ Framed .bwWriteUnary ∧ Framed .bwFlush ∧ Framed .bwWriteInt32 ∧
    Framed .crcInit ∧ Framed .crcUpdate ∧ Framed .crcFinal ∧ Framed .crcCombine ∧ Framed .crcStreamInit ∧ Framed .crcReadStream ∧
    ∀ b, Framed (.crcReadStored b)

/-- Frame of the RLE1, BWT and MTF commands (rules R160 to R205). -/
def Obligations.FrameRle1BwtMtf : Prop :=
  Framed .rle1Put ∧ Framed .rle1Flush ∧ Framed .rle1Get ∧ Framed .rle1GetBlk ∧ Framed .bwtForward ∧ Framed .bwtInvSetup ∧
    Framed .bwtInvNext ∧ Framed .bwtGet ∧ Framed .bwtSetStart ∧ (∀ d, Framed (.mtfInit d)) ∧ Framed .mtfEncByte ∧ Framed .mtfEncEnd ∧
    Framed .mtfDecSym ∧ Framed .mtfReadMap ∧ Framed .mtfWriteMap ∧ Framed .mtfGet

/-- Frame of the Huffman commands (rules R210 to R243). -/
def Obligations.FrameHuffman : Prop :=
  (∀ t n, Framed (.hufAlloc t n)) ∧ (∀ t s, Framed (.hufSetFreq t s)) ∧ Framed .hufSetGroups ∧ Framed .hufSeed ∧
    Framed .hufSelectPass ∧ Framed .hufOptimize ∧ (∀ t, Framed (.hufAssignCodes t)) ∧ Framed .hufWriteTables ∧ Framed .hufEncodeData ∧
    Framed .hufReadTables ∧ (∀ t, Framed (.hufBuildDecode t)) ∧ Framed .hufDecodeSym ∧ (∀ t, Framed (.hufEncodeSym t)) ∧
    (∀ t s, Framed (.hufSetLen t s)) ∧ (∀ t s, Framed (.hufGetLen t s)) ∧ (∀ t s, Framed (.hufGetCode t s)) ∧ Framed .hufGetSel

/-- Frame of the block and stream commands and of CORE_RESET (rules R260 to R300, R306). -/
def Obligations.FrameBlockAndStream : Prop :=
  (∀ k, Framed (.blkEncOpen k)) ∧ Framed .blkEncWrite ∧ Framed .blkEncClose ∧ (∀ k, Framed (.blkDecStart k)) ∧ Framed .blkDecRead ∧
    Framed .blkCheckCrc ∧ (∀ k, Framed (.strEncOpen k)) ∧ Framed .strEncWrite ∧ Framed .strEncFinish ∧ (∀ h, Framed (.strDecOpen h)) ∧
    Framed .strDecRead ∧ Framed .strClose ∧ Framed .coreReset

/-- Frame of the arrays, element by element (rules R161, R177, R178, R194, R198, R224, R233): every command that writes one of the five
arrays BLK, BWT_ARR, MERGED, MTF_STREAM and SELECTORS writes only where its length register says. The block and stream encoders write
BLK from BLK_LEN on, the last run and the wrap byte; what else they and the decoders write lies below the lengths they leave. -/
def Obligations.ArrayFrames : Prop :=
  ∀ s t : State,
    (∀ i ∈ [Instr.rle1Put, .rle1Flush, .blkEncWrite], exec i s = .next t → ∀ k,
      k < s.block.len.toNat ∨ s.block.len.toNat + 5 ≤ k → t.block.blk.read k = s.block.blk.read k) ∧
    (exec .bwtForward s = .next t →
      (∀ k, k ≠ s.block.len.toNat → t.block.blk.read k = s.block.blk.read k) ∧
      ∀ k, s.block.len.toNat ≤ k → t.bwt.arr.read k = s.bwt.arr.read k) ∧
    (exec .bwtInvSetup s = .next t → ∀ k, s.bwt.len.toNat ≤ k → t.bwt.merged.read k = s.bwt.merged.read k) ∧
    (∀ i ∈ [Instr.mtfEncByte, .mtfEncEnd], exec i s = .next t → ∀ k,
      k < s.mtf.len.toNat ∨ t.mtf.len.toNat ≤ k → t.mtf.stream.read k = s.mtf.stream.read k) ∧
    (exec .mtfDecSym s = .next t → ∀ k,
      k < s.bwt.len.toNat ∨ t.bwt.len.toNat ≤ k → t.bwt.arr.read k = s.bwt.arr.read k) ∧
    (∀ i ∈ [Instr.hufSelectPass, .hufOptimize], exec i s = .next t → ∀ g,
      s.huf.nSelectors.toNat ≤ g → t.huf.selectors.read g = s.huf.selectors.read g) ∧
    (∀ i ∈ [Instr.blkEncClose, .strEncWrite, .strEncFinish], exec i s = .next t →
      (∀ k, k < s.block.len.toNat ∨ s.block.len.toNat + 6 ≤ k → t.block.blk.read k = s.block.blk.read k) ∧
      (∀ k, t.bwt.len.toNat ≤ k → t.bwt.arr.read k = s.bwt.arr.read k) ∧
      (∀ k, t.mtf.len.toNat ≤ k → t.mtf.stream.read k = s.mtf.stream.read k) ∧
      ∀ g, t.huf.nSelectors.toNat ≤ g → t.huf.selectors.read g = s.huf.selectors.read g) ∧
    (exec .hufReadTables s = .next t → ∀ g, t.huf.nSelectors.toNat ≤ g → t.huf.selectors.read g = s.huf.selectors.read g) ∧
    ∀ i, (∃ k, i = Instr.blkDecStart k) ∨ i = .strDecRead → exec i s = .next t →
      (∀ g, t.huf.nSelectors.toNat ≤ g → t.huf.selectors.read g = s.huf.selectors.read g) ∧
      ∀ k, t.bwt.len.toNat ≤ k → t.bwt.arr.read k = s.bwt.arr.read k ∧ t.bwt.merged.read k = s.bwt.merged.read k
end

