-- ==== Sys2Proof/Laws/Cmd.lean ====
section
/-! SUPPORT. How the pieces of a command's pseudocode run: one equation for each primitive, and how a command ends. -/

namespace Sys2Proof.Machine

set_option Elab.async false

variable {α β : Type} {e e' : Engine}

@[simp] theorem pure_run (a : α) : (pure a : Cmd α) e = .ok a e := rfl

@[simp] theorem get_run : (get : Cmd Engine) e = .ok e e := rfl

@[simp] theorem modify_run (f : Engine → Engine) : (modify f : Cmd Unit) e = .ok () (f e) := rfl

@[simp] theorem throw_run (r : Stop) : (throw r : Cmd α) e = .error r e := rfl

@[simp] theorem raise_run (k : ErrorKind) : (Cmd.raise k : Cmd α) e = .error (.raised k) e := rfl

@[simp] theorem fail_run (f : Fault) : (Cmd.fail f : Cmd α) e = .error (.fault f) e := rfl

theorem bind_run (x : Cmd α) (f : α → Cmd β) :
    (x >>= f) e = match x e with | .ok a e' => f a e' | .error r e' => .error r e' := by
  show EStateM.bind x f e = _
  unfold EStateM.bind
  cases x e <;> rfl

/-- After a piece that ends normally, the rest runs from where it ended. -/
theorem bind_ok {x : Cmd α} {f : α → Cmd β} {a : α} (h : x e = .ok a e') : (x >>= f) e = f a e' := by
  rw [bind_run, h]

/-- A piece that stops ends the whole. -/
theorem bind_error {x : Cmd α} {f : α → Cmd β} {r : Stop} (h : x e = .error r e') : (x >>= f) e = .error r e' := by
  rw [bind_run, h]

@[simp] theorem pure_bind_run (a : α) (f : α → Cmd β) : (pure a >>= f) e = f a e := rfl

@[simp] theorem get_bind_run (f : Engine → Cmd β) : (get >>= f) e = f e e := rfl

@[simp] theorem modify_bind_run (g : Engine → Engine) (f : Unit → Cmd β) : (modify g >>= f) e = f () (g e) := rfl

@[simp] theorem raise_bind_run (k : ErrorKind) (f : α → Cmd β) : (Cmd.raise k >>= f) e = .error (.raised k) e := rfl

@[simp] theorem fail_bind_run (r : Fault) (f : α → Cmd β) : (Cmd.fail r >>= f) e = .error (.fault r) e := rfl

@[simp] theorem modHost_run (f : HostBlock → HostBlock) : modHost f e = .ok () { e with host := f e.host } := rfl
@[simp] theorem modBits_run (f : BitEngine → BitEngine) : modBits f e = .ok () { e with bits := f e.bits } := rfl
@[simp] theorem modBlock_run (f : BlockUnit → BlockUnit) : modBlock f e = .ok () { e with block := f e.block } := rfl
@[simp] theorem modBwt_run (f : BwtUnit → BwtUnit) : modBwt f e = .ok () { e with bwt := f e.bwt } := rfl
@[simp] theorem modMtf_run (f : MtfUnit → MtfUnit) : modMtf f e = .ok () { e with mtf := f e.mtf } := rfl
@[simp] theorem modHuf_run (f : HufUnit → HufUnit) : modHuf f e = .ok () { e with huf := f e.huf } := rfl
@[simp] theorem modCrc_run (f : CrcUnit → CrcUnit) : modCrc f e = .ok () { e with crc := f e.crc } := rfl
@[simp] theorem modFrame_run (f : FrameUnit → FrameUnit) : modFrame f e = .ok () { e with frame := f e.frame } := rfl

@[simp] theorem modHost_bind_run (g : HostBlock → HostBlock) (f : Unit → Cmd β) :
    (modHost g >>= f) e = f () { e with host := g e.host } := rfl
@[simp] theorem modBits_bind_run (g : BitEngine → BitEngine) (f : Unit → Cmd β) :
    (modBits g >>= f) e = f () { e with bits := g e.bits } := rfl
@[simp] theorem modBlock_bind_run (g : BlockUnit → BlockUnit) (f : Unit → Cmd β) :
    (modBlock g >>= f) e = f () { e with block := g e.block } := rfl
@[simp] theorem modBwt_bind_run (g : BwtUnit → BwtUnit) (f : Unit → Cmd β) :
    (modBwt g >>= f) e = f () { e with bwt := g e.bwt } := rfl
@[simp] theorem modMtf_bind_run (g : MtfUnit → MtfUnit) (f : Unit → Cmd β) :
    (modMtf g >>= f) e = f () { e with mtf := g e.mtf } := rfl
@[simp] theorem modHuf_bind_run (g : HufUnit → HufUnit) (f : Unit → Cmd β) :
    (modHuf g >>= f) e = f () { e with huf := g e.huf } := rfl
@[simp] theorem modCrc_bind_run (g : CrcUnit → CrcUnit) (f : Unit → Cmd β) :
    (modCrc g >>= f) e = f () { e with crc := g e.crc } := rfl
@[simp] theorem modFrame_bind_run (g : FrameUnit → FrameUnit) (f : Unit → Cmd β) :
    (modFrame g >>= f) e = f () { e with frame := g e.frame } := rfl

@[simp] theorem setPhase_run (p : Phase) : setPhase p e = .ok () { e with frame.phase := p } := rfl
@[simp] theorem setPhase_bind_run (p : Phase) (f : Unit → Cmd β) :
    (setPhase p >>= f) e = f () { e with frame.phase := p } := rfl
@[simp] theorem setResult_run (v : Nat) : setResult v e = .ok () { e with host.result := BitVec.ofNat 32 v } := rfl
@[simp] theorem setResult_bind_run (v : Nat) (f : Unit → Cmd β) :
    (setResult v >>= f) e = f () { e with host.result := BitVec.ofNat 32 v } := rfl
@[simp] theorem setFull_run : setFull e = .ok () { e with host.full := true } := rfl
@[simp] theorem setFull_bind_run (f : Unit → Cmd β) : (setFull >>= f) e = f () { e with host.full := true } := rfl
@[simp] theorem endWithNodata_run : endWithNodata e = .ok () { e with host.nodata := true, host.result := 0 } := rfl
@[simp] theorem readArg_run : readArg e = .ok e.host.arg e := rfl
@[simp] theorem readArg_bind_run (f : Word → Cmd β) : (readArg >>= f) e = f e.host.arg e := rfl
@[simp] theorem argByte_run : argByte e = .ok (e.host.arg.setWidth 8) e := rfl
@[simp] theorem argByte_bind_run (f : Byte → Cmd β) : (argByte >>= f) e = f (e.host.arg.setWidth 8) e := rfl
@[simp] theorem argLow_run (n : Nat) : argLow n e = .ok (e.host.arg.toNat % 2 ^ n) e := rfl
@[simp] theorem argLow_bind_run (n : Nat) (f : Nat → Cmd β) :
    (argLow n >>= f) e = f (e.host.arg.toNat % 2 ^ n) e := rfl

/-- A check that holds changes nothing. -/
theorem requireOk_true {ok : Bool} (h : ok = true) : requireOk ok e = .ok () e := by subst h; rfl

/-- A check that fails raises UnsupportedOperation with nothing changed. -/
theorem requireOk_false {ok : Bool} (h : ok = false) : requireOk ok e = .error (.raised .unsupportedOperation) e := by
  subst h; rfl

theorem requireOk_true_bind {ok : Bool} (h : ok = true) (f : Unit → Cmd β) : (requireOk ok >>= f) e = f () e := by
  subst h; rfl

theorem requireOk_false_bind {ok : Bool} (h : ok = false) (f : Unit → Cmd β) :
    (requireOk ok >>= f) e = .error (.raised .unsupportedOperation) e := by subst h; rfl

/-- A raise whose condition fails does nothing. -/
theorem raiseWhen_false {c : Bool} (h : c = false) (k : ErrorKind) : raiseWhen c k e = .ok () e := by subst h; rfl

theorem raiseWhen_true {c : Bool} (h : c = true) (k : ErrorKind) : raiseWhen c k e = .error (.raised k) e := by subst h; rfl

theorem raiseWhen_false_bind {c : Bool} (h : c = false) (k : ErrorKind) (f : Unit → Cmd β) :
    (raiseWhen c k >>= f) e = f () e := by subst h; rfl

theorem raiseWhen_true_bind {c : Bool} (h : c = true) (k : ErrorKind) (f : Unit → Cmd β) :
    (raiseWhen c k >>= f) e = .error (.raised k) e := by subst h; rfl

theorem doWhen_true {c : Bool} (h : c = true) (x : Cmd Unit) : doWhen c x = x := by subst h; rfl

theorem doWhen_false {c : Bool} (h : c = false) (x : Cmd Unit) : doWhen c x = pure () := by subst h; rfl

/-- A draw of a free value changes the counter only (log entry 3). -/
@[simp] theorem drawFree_run (bound : Nat) :
    drawFree bound e = .ok (Config.freeValue e.freeCount % bound) { e with freeCount := e.freeCount + 1 } := rfl

/-- `InByte()` with a byte at hand takes the oldest one (rule R15). -/
theorem inByte_cons {b : Byte} {rest : List Byte} (h : e.host.inFifo = b :: rest) :
    inByte e = .ok b { e with host.inFifo := rest } := by
  unfold inByte
  rw [get_bind_run, h]
  rfl

/-- `InByte()` on an empty FIFO at end of input raises InsufficientData (rule R15). -/
theorem inByte_end (h : e.host.inFifo = []) (he : e.host.eoi = true) : inByte e = .error (.raised .insufficientData) e := by
  unfold inByte
  rw [get_bind_run, h]
  simp [he]

/-- `InByte()` on an empty FIFO before the end of input holds (rule R15). -/
theorem inByte_wait (h : e.host.inFifo = []) (he : e.host.eoi = false) : inByte e = .error (.hold .input) e := by
  unfold inByte
  rw [get_bind_run, h]
  simp [he]

/-- `OutByte(v)` with room appends (rule R15). -/
theorem outByte_room {v : Byte} (h : e.host.outFifo.length < e.outDepth) :
    outByte v e = .ok () { e with host.outFifo := e.host.outFifo ++ [v] } := by
  unfold outByte
  rw [get_bind_run, if_pos h]
  rfl

/-- `OutByte(v)` on a full FIFO holds (rule R15). -/
theorem outByte_full {v : Byte} (h : ¬ e.host.outFifo.length < e.outDepth) : outByte v e = .error (.hold .output) e := by
  unfold outByte
  rw [get_bind_run, if_neg h]
  rfl

@[simp] theorem forEach_nil (c : α → Cmd Unit) : forEach [] c = pure () := rfl
@[simp] theorem forEach_cons (x : α) (xs : List α) (c : α → Cmd Unit) :
    forEach (x :: xs) c = (do c x; forEach xs c) := rfl
@[simp] theorem collect_nil (c : α → Cmd β) : collect [] c = pure [] := rfl
@[simp] theorem collect_cons (x : α) (xs : List α) (c : α → Cmd β) :
    collect (x :: xs) c = (do let y ← c x; let ys ← collect xs c; pure (y :: ys)) := rfl
@[simp] theorem repeatCmd_zero (c : Cmd Unit) : repeatCmd 0 c = pure () := rfl
@[simp] theorem repeatCmd_succ (n : Nat) (c : Cmd Unit) : repeatCmd (n + 1) c = (do c; repeatCmd n c) := rfl

/-- A loop whose body reads a value and changes nothing collects the values. -/
theorem collect_pure {xs : List α} {c : α → Cmd β} {g : α → β} (h : ∀ x ∈ xs, c x e = .ok (g x) e) :
    collect xs c e = .ok (xs.map g) e := by
  induction xs with
  | nil => rfl
  | cons x xs ih =>
    have hx := h x (by simp)
    have hxs := ih fun y hy => h y (by simp [hy])
    rw [collect_cons, bind_ok hx, bind_ok hxs]
    rfl

/-- A loop whose body checks something and changes nothing. -/
theorem forEach_pure {xs : List α} {c : α → Cmd Unit} (h : ∀ x ∈ xs, c x e = .ok () e) : forEach xs c e = .ok () e := by
  induction xs with
  | nil => rfl
  | cons x xs ih =>
    rw [forEach_cons, bind_ok (h x (by simp))]
    exact ih fun y hy => h y (by simp [hy])

/-- A loop keeps what each pass keeps: `I k` holds before pass `k`. -/
theorem forEach_ind {xs : List α} {c : α → Cmd Unit} (I : Nat → Engine → Prop)
    (step : ∀ k (hk : k < xs.length) e, I k e → ∃ e', c xs[k] e = .ok () e' ∧ I (k + 1) e') (h : I 0 e) :
    ∃ e', forEach xs c e = .ok () e' ∧ I xs.length e' := by
  induction xs generalizing e I with
  | nil => exact ⟨e, rfl, h⟩
  | cons x xs ih =>
    obtain ⟨e₁, h₁, i₁⟩ := step 0 (by simp) e h
    obtain ⟨e₂, h₂, i₂⟩ := ih (fun k => I (k + 1)) (fun k hk e he => step (k + 1) (by simpa using hk) e he) i₁
    exact ⟨e₂, by rw [forEach_cons, bind_ok (by simpa using h₁)]; exact h₂, by simpa using i₂⟩

/-! ### How a command ends in the machine -/

/-- No check passes always. -/
@[simp] theorem noChecks_run (e : Engine) : noChecks e = .ok () e := rfl

/-- A command in a state that accepts commands is checked and run (rule R314). -/
theorem runCommand_live {i : Instr} {checks body : Cmd Unit} {s : State} (h : s.Live) :
    runCommand i checks body s = checkThenRun i checks body s := by
  unfold State.Live at h
  unfold runCommand
  split <;> simp_all [Phase.live]

/-- A command in ERROR is refused: nothing changes (rule R313). -/
theorem runCommand_error {i : Instr} {checks body : Cmd Unit} {s : State} (h : s.frame.phase = .error) :
    runCommand i checks body s = .next s := by simp [runCommand, h]

/-- A command in CLOSED raises UnsupportedOperation (rule R313), with no other change (rule R315). -/
theorem runCommand_closed {i : Instr} {checks body : Cmd Unit} {s : State} (h : s.frame.phase = .closed) :
    runCommand i checks body s = .next { s with toEngine := s.toEngine.raiseError .unsupportedOperation, hold := none } := by
  simp [runCommand, finish, h]

/-- A command whose checks pass runs its body with NODATA and FULL cleared (rule R33). -/
theorem runCommand_passed {i : Instr} {checks body : Cmd Unit} {s : State} {e₀ : Engine} (h : s.Live)
    (hc : checks s.toEngine = .ok () e₀) : runCommand i checks body s = finish i s (body s.begun) := by
  rw [runCommand_live h, checkThenRun, hc]

/-- A command whose checks stop does nothing else (rules R102, R315). -/
theorem runCommand_stopped {i : Instr} {checks body : Cmd Unit} {s : State} {r : Stop} {e₀ : Engine} (h : s.Live)
    (hc : checks s.toEngine = .error r e₀) : runCommand i checks body s = finish i s (.error r s.toEngine) := by
  rw [runCommand_live h, checkThenRun, hc]

/-- Everything a command can answer (rules R311, R313, R314): refused in ERROR, UnsupportedOperation in CLOSED, stopped by its checks
with no other change, and else what its body answers. -/
theorem runCommand_cases (i : Instr) (checks body : Cmd Unit) (s : State) :
    (s.frame.phase = .error ∧ runCommand i checks body s = .next s) ∨
    (s.frame.phase = .closed ∧
      runCommand i checks body s = .next { s with toEngine := s.toEngine.raiseError .unsupportedOperation, hold := none }) ∨
    (s.Live ∧ ∃ r e₀, checks s.toEngine = .error r e₀ ∧ runCommand i checks body s = finish i s (.error r s.toEngine)) ∨
    (s.Live ∧ ∃ e₀, checks s.toEngine = .ok () e₀ ∧ runCommand i checks body s = finish i s (body s.begun)) := by
  by_cases he : s.frame.phase = .error
  · exact .inl ⟨he, runCommand_error he⟩
  by_cases hc : s.frame.phase = .closed
  · exact .inr (.inl ⟨hc, runCommand_closed hc⟩)
  have hl : s.Live := by
    unfold State.Live
    cases hp : s.frame.phase <;> simp_all [Phase.live]
  cases hr : checks s.toEngine with
  | ok u e₀ => exact .inr (.inr (.inr ⟨hl, e₀, rfl, runCommand_passed hl hr⟩))
  | error r e₀ => exact .inr (.inr (.inl ⟨hl, r, e₀, rfl, runCommand_stopped hl hr⟩))

/-! ### The normal endings, from the results of the checks and of the body -/

theorem completes_of {i : Instr} {checks body : Cmd Unit} {s : State} {e₀ : Engine} (hex : exec i s = runCommand i checks body s)
    (hl : s.Live) (hc : checks s.toEngine = .ok () e₀) (h : body s.begun = .ok () e) : Completes i s e := by
  unfold Completes
  rw [hex, runCommand_passed hl hc, h]
  rfl

theorem raises_of {i : Instr} {checks body : Cmd Unit} {s : State} {e₀ : Engine} {k : ErrorKind}
    (hex : exec i s = runCommand i checks body s) (hl : s.Live) (hc : checks s.toEngine = .ok () e₀)
    (h : body s.begun = .error (.raised k) e) : Raises i s k e := by
  unfold Raises
  rw [hex, runCommand_passed hl hc, h]
  rfl

theorem waits_of {i : Instr} {checks body : Cmd Unit} {s : State} {e₀ : Engine} {w : Wait}
    (hex : exec i s = runCommand i checks body s) (hl : s.Live) (hc : checks s.toEngine = .ok () e₀)
    (h : body s.begun = .error (.hold w) e) : Waits i s w e := by
  unfold Waits
  rw [hex, runCommand_passed hl hc, h]
  rfl

/-- A check that fails raises with no other change (rules R102, R315). -/
theorem raises_of_checks {i : Instr} {checks body : Cmd Unit} {s : State} {e₀ : Engine} {k : ErrorKind}
    (hex : exec i s = runCommand i checks body s) (hl : s.Live) (hc : checks s.toEngine = .error (.raised k) e₀) :
    Raises i s k s.toEngine := by
  unfold Raises
  rw [hex, runCommand_stopped hl hc]
  rfl

/-- A read that found the input too short (rule R15). -/
theorem runsOut_of {i : Instr} {checks body : Cmd Unit} {s : State} {e₀ : Engine} (hex : exec i s = runCommand i checks body s)
    (hl : s.Live) (hc : checks s.toEngine = .ok () e₀)
    (h : body s.begun = .error (if s.host.eoi then .raised .insufficientData else .hold .input) e) : RunsOut i s e := by
  unfold RunsOut
  cases he : s.host.eoi <;> simp only [he] at h ⊢
  · exact waits_of hex hl hc h
  · exact raises_of hex hl hc h

end Sys2Proof.Machine
end

