-- ==== Sys2Proof/Laws/Bits.lean ====
section
/-! SUPPORT. Bits and numbers, and what reading and writing bits does: `readBits` is `Engine.consume` and `writeBits` is
`Engine.append` (rules R140 to R153). -/

namespace Sys2Proof.Machine

set_option Elab.async false

/-! ### Bits and numbers -/

@[simp] theorem bitsOf_zero (v : Nat) : bitsOf 0 v = [] := rfl
@[simp] theorem bitsOf_succ (n v : Nat) : bitsOf (n + 1) v = v.testBit n :: bitsOf n v := rfl
@[simp] theorem bitsOf_length (n v : Nat) : (bitsOf n v).length = n := by induction n <;> simp [*]

theorem foldl_bits (bs : List Bool) (a : Nat) :
    bs.foldl (fun a b => 2 * a + b.toNat) a = a * 2 ^ bs.length + bitsVal bs := by
  induction bs generalizing a with
  | nil => simp [bitsVal]
  | cons b bs ih =>
    unfold bitsVal
    simp only [List.foldl_cons, ih, List.length_cons, Nat.pow_succ]
    ring

@[simp] theorem bitsVal_nil : bitsVal [] = 0 := rfl

theorem bitsVal_cons (b : Bool) (bs : List Bool) : bitsVal (b :: bs) = b.toNat * 2 ^ bs.length + bitsVal bs := by
  have := foldl_bits bs (0 * 2 + b.toNat)
  simpa [bitsVal] using this

theorem bitsVal_append (as bs : List Bool) : bitsVal (as ++ bs) = bitsVal as * 2 ^ bs.length + bitsVal bs := by
  have := foldl_bits bs (bitsVal as)
  rw [← this]
  simp [bitsVal]

theorem bitsVal_lt (bs : List Bool) : bitsVal bs < 2 ^ bs.length := by
  induction bs with
  | nil => simp
  | cons b bs ih =>
    rw [bitsVal_cons, List.length_cons, Nat.pow_succ]
    have : b.toNat ≤ 1 := Bool.toNat_le b
    have h2 : b.toNat * 2 ^ bs.length ≤ 1 * 2 ^ bs.length := Nat.mul_le_mul_right _ this
    omega

/-- The bits of a number are the bits of its low part. -/
theorem bitsVal_bitsOf (n v : Nat) : bitsVal (bitsOf n v) = v % 2 ^ n := by
  induction n with
  | zero => simp [Nat.mod_one]
  | succ n ih =>
    rw [bitsOf_succ, bitsVal_cons, ih, bitsOf_length, Nat.mod_pow_succ, Nat.testBit_eq_decide_div_mod_eq]
    rcases Nat.mod_two_eq_zero_or_one (v / 2 ^ n) with h | h <;> simp [h] <;> ring

theorem bitsOf_mod (n v : Nat) : bitsOf n (v % 2 ^ n) = bitsOf n v := by
  suffices h : ∀ m ≤ n, bitsOf m (v % 2 ^ n) = bitsOf m v from h n le_rfl
  intro m hm
  induction m with
  | zero => rfl
  | succ m ih => simp [ih (by omega), Nat.testBit_mod_two_pow, show m < n by omega]

theorem bitsOf_bitsVal (bs : List Bool) : bitsOf bs.length (bitsVal bs) = bs := by
  induction bs with
  | nil => rfl
  | cons b bs ih =>
    have hlt := bitsVal_lt bs
    rw [List.length_cons, bitsOf_succ, bitsVal_cons]
    congr 1
    · rw [Nat.testBit_eq_decide_div_mod_eq, Nat.mul_comm, Nat.mul_add_div (by positivity), Nat.div_eq_of_lt hlt]
      cases b <;> rfl
    · rw [← bitsOf_mod, Nat.mul_comm, Nat.mul_add_mod, Nat.mod_eq_of_lt hlt, ih]

theorem bitsOf_eq {n : Nat} {bs : List Bool} (h : bs.length = n) : bitsOf n (bitsVal bs) = bs := by
  subst h
  exact bitsOf_bitsVal bs

theorem bitsVal_replicate_false (n : Nat) : bitsVal (List.replicate n false) = 0 := by
  induction n with
  | zero => rfl
  | succ n ih => simp [List.replicate_succ, bitsVal_cons, ih]

/-- A list of bits is its first `n` bits above the rest. -/
theorem bitsVal_split (bs : List Bool) (n : Nat) :
    bitsVal bs = 2 ^ (bs.length - n) * bitsVal (bs.take n) + bitsVal (bs.drop n) := by
  have h := bitsVal_append (bs.take n) (bs.drop n)
  rw [List.take_append_drop, List.length_drop] at h
  rw [h, Nat.mul_comm]

/-- Taking bits from the front divides. -/
theorem bitsVal_take (bs : List Bool) (n : Nat) : bitsVal (bs.take n) = bitsVal bs / 2 ^ (bs.length - n) := by
  have hlt := bitsVal_lt (bs.drop n)
  rw [List.length_drop] at hlt
  rw [bitsVal_split bs n, Nat.mul_add_div (by positivity), Nat.div_eq_of_lt hlt, Nat.add_zero]

/-- Dropping bits from the front leaves the remainder. -/
theorem bitsVal_drop (bs : List Bool) (n : Nat) : bitsVal (bs.drop n) = bitsVal bs % 2 ^ (bs.length - n) := by
  have hlt := bitsVal_lt (bs.drop n)
  rw [List.length_drop] at hlt
  rw [bitsVal_split bs n, Nat.mul_add_mod, Nat.mod_eq_of_lt hlt]

@[simp] theorem bytesBits_nil : bytesBits [] = [] := rfl
@[simp] theorem bytesBits_cons (b : Byte) (bs : List Byte) : bytesBits (b :: bs) = bitsOf 8 b.toNat ++ bytesBits bs := rfl
@[simp] theorem bytesBits_append (as bs : List Byte) : bytesBits (as ++ bs) = bytesBits as ++ bytesBits bs := by
  simp [bytesBits]
@[simp] theorem bytesBits_length (bs : List Byte) : (bytesBits bs).length = 8 * bs.length := by
  induction bs with
  | nil => rfl
  | cons b bs ih => simp [ih]; omega

theorem bytesBits_drop (bs : List Byte) (p : Nat) : bytesBits (bs.drop p) = (bytesBits bs).drop (8 * p) := by
  induction p generalizing bs with
  | zero => simp
  | succ p ih =>
    cases bs with
    | nil => simp
    | cons b bs =>
      rw [List.drop_succ_cons, ih, bytesBits_cons, show 8 * (p + 1) = 8 + 8 * p by ring, ← List.drop_drop, List.drop_left' (by simp)]

/-- The bits of the bytes that full groups of eight bits stand for are those bits. -/
theorem bytesBits_bitsBytes (n : Nat) (bs : List Bool) (h : 8 * n ≤ bs.length) : bytesBits (bitsBytes n bs) = bs.take (8 * n) := by
  induction n generalizing bs with
  | zero => simp [bitsBytes]
  | succ n ih =>
    have h8 : (bs.take 8).length = 8 := by simp; omega
    have hlt := bitsVal_lt (bs.take 8)
    rw [h8] at hlt
    rw [bitsBytes, bytesBits_cons, ih _ (by simp; omega), BitVec.toNat_ofNat, Nat.mod_eq_of_lt (by simpa using hlt),
      bitsOf_eq h8]
    rw [show 8 * (n + 1) = 8 + 8 * n by ring, List.take_add]

@[simp] theorem bitsBytes_length (n : Nat) (bs : List Bool) : (bitsBytes n bs).length = n := by
  induction n generalizing bs <;> simp [bitsBytes, *]

/-! ### The reader -/

variable {e : Engine}

theorem ofNat6_toNat {n : Nat} (h : n < 64) : (BitVec.ofNat 6 n).toNat = n := by simp; omega

theorem inBits_length : e.inBits.length = e.bits.rdCnt.toNat + 8 * e.host.inFifo.length := by simp [Engine.inBits]

/-- After `p` bytes have been pulled into the accumulator (rule R141). -/
def Engine.pull (p : Nat) (e : Engine) : Engine :=
  { e with
    host.inFifo := e.host.inFifo.drop p
    bits.rdCnt := BitVec.ofNat 6 (e.bits.rdCnt.toNat + 8 * p)
    bits.rdAcc := BitVec.ofNat 32 (bitsVal (e.inBits.take (e.bits.rdCnt.toNat + 8 * p))) }

/-- The accumulator holds its valid bits and nothing above them. -/
abbrev BitEngine.AccOk (b : BitEngine) : Prop := b.rdAcc.toNat < 2 ^ b.rdCnt.toNat

theorem pull_zero (h : e.bits.AccOk) : e.pull 0 = e := by
  have h1 : (bitsOf e.bits.rdCnt.toNat e.bits.rdAcc.toNat ++ bytesBits e.host.inFifo).take e.bits.rdCnt.toNat =
      bitsOf e.bits.rdCnt.toNat e.bits.rdAcc.toNat := by
    rw [List.take_append_of_le_length (by simp), List.take_of_length_le (by simp)]
  simp [Engine.pull, Engine.inBits, h1, bitsVal_bitsOf, Nat.mod_eq_of_lt h]

/-- One fill (rule R141). -/
theorem fillByte_run (hcnt : e.bits.rdCnt.toNat ≤ 23) (hacc : e.bits.AccOk) (hin : e.host.inFifo ≠ []) :
    fillByte e = .ok () (e.pull 1) := by
  obtain ⟨b, rest, hb⟩ := List.exists_cons_of_ne_nil hin
  have hlt := bitsVal_lt (bitsOf e.bits.rdCnt.toNat e.bits.rdAcc.toNat)
  have hb8 : b.toNat < 2 ^ 8 := b.isLt
  have htake : (bitsOf e.bits.rdCnt.toNat e.bits.rdAcc.toNat ++ bytesBits (b :: rest)).take (e.bits.rdCnt.toNat + 8 * 1) =
      bitsOf e.bits.rdCnt.toNat e.bits.rdAcc.toNat ++ bitsOf 8 b.toNat := by
    rw [bytesBits_cons, ← List.append_assoc, List.take_append_of_le_length (by simp), List.take_of_length_le (by simp)]
  unfold fillByte
  rw [bind_ok (inByte_cons hb), modBits_run]
  unfold Engine.pull Engine.inBits
  rw [hb, htake, bitsVal_append, bitsVal_bitsOf, bitsVal_bitsOf, Nat.mod_eq_of_lt hacc, Nat.mod_eq_of_lt hb8]
  simp only [bitsOf_length, List.drop_succ_cons, List.drop_zero, Nat.mul_one]
  rw [← Nat.shiftLeft_eq, Nat.shiftLeft_add_eq_or_of_lt hb8]

theorem pull_accOk {p : Nat} (hcnt : e.bits.rdCnt.toNat + 8 * p < 32) (h : e.bits.rdCnt.toNat + 8 * p ≤ e.inBits.length) :
    (e.pull p).bits.AccOk := by
  have hlt := bitsVal_lt (e.inBits.take (e.bits.rdCnt.toNat + 8 * p))
  rw [List.length_take, Nat.min_eq_left h] at hlt
  have : 2 ^ (e.bits.rdCnt.toNat + 8 * p) ≤ 2 ^ 32 := Nat.pow_le_pow_right (by norm_num) (by omega)
  unfold BitEngine.AccOk Engine.pull
  simp only [BitVec.toNat_ofNat]
  rw [Nat.mod_eq_of_lt (by omega : bitsVal _ < 2 ^ 32), Nat.mod_eq_of_lt (by omega : _ < 2 ^ 6)]
  exact hlt

theorem pull_rdCnt {p : Nat} (hcnt : e.bits.rdCnt.toNat + 8 * p < 32) :
    (e.pull p).bits.rdCnt.toNat = e.bits.rdCnt.toNat + 8 * p := by
  simp only [Engine.pull, BitVec.toNat_ofNat]
  omega

/-- Pulling bytes does not change the input. -/
theorem pull_inBits {p : Nat} (hcnt : e.bits.rdCnt.toNat + 8 * p < 32) (hp : p ≤ e.host.inFifo.length) :
    (e.pull p).inBits = e.inBits := by
  have hle : e.bits.rdCnt.toNat + 8 * p ≤ e.inBits.length := by rw [inBits_length]; omega
  have hlt := bitsVal_lt (e.inBits.take (e.bits.rdCnt.toNat + 8 * p))
  rw [List.length_take, Nat.min_eq_left hle] at hlt
  have h32 : 2 ^ (e.bits.rdCnt.toNat + 8 * p) ≤ 2 ^ 32 := Nat.pow_le_pow_right (by norm_num) (by omega)
  unfold Engine.inBits
  rw [pull_rdCnt hcnt]
  simp only [Engine.pull, BitVec.toNat_ofNat]
  rw [Nat.mod_eq_of_lt (by omega : bitsVal _ < 2 ^ 32), bitsOf_eq (by rw [List.length_take, Nat.min_eq_left hle])]
  conv_rhs => rw [← Engine.inBits, ← List.take_append_drop (e.bits.rdCnt.toNat + 8 * p) e.inBits]
  congr 1
  unfold Engine.inBits
  rw [bytesBits_drop, ← List.drop_drop, List.drop_left' (by simp)]

theorem pull_pull {p q : Nat} (hcnt : e.bits.rdCnt.toNat + 8 * (p + q) < 32) (hp : p ≤ e.host.inFifo.length) :
    (e.pull p).pull q = e.pull (p + q) := by
  have h1 := pull_inBits (e := e) (p := p) (by omega) hp
  have h2 := pull_rdCnt (e := e) (p := p) (by omega)
  have h3 : (e.pull p).pull q =
      { e.pull p with
        host.inFifo := (e.pull p).host.inFifo.drop q
        bits.rdCnt := BitVec.ofNat 6 ((e.pull p).bits.rdCnt.toNat + 8 * q)
        bits.rdAcc := BitVec.ofNat 32 (bitsVal ((e.pull p).inBits.take ((e.pull p).bits.rdCnt.toNat + 8 * q))) } := rfl
  rw [h3, h1, h2]
  unfold Engine.pull
  simp only [List.drop_drop]
  rw [show e.bits.rdCnt.toNat + 8 * p + 8 * q = e.bits.rdCnt.toNat + 8 * (p + q) by ring]

/-- The fill loop pulls exactly the bytes that are missing (rules R140, R141). -/
theorem fillTo_run {n fuel : Nat} (hn : n ≤ 24) (hacc : e.bits.AccOk) (hcnt : e.bits.rdCnt.toNat < 32) (hlen : n ≤ e.inBits.length)
    (hfuel : (n - e.bits.rdCnt.toNat + 7) / 8 ≤ fuel) :
    fillTo n fuel e = .ok () (e.pull ((n - e.bits.rdCnt.toNat + 7) / 8)) := by
  induction fuel generalizing e with
  | zero =>
    have : (n - e.bits.rdCnt.toNat + 7) / 8 = 0 := by omega
    rw [this, pull_zero hacc]
    rfl
  | succ fuel ih =>
    unfold fillTo
    rw [get_bind_run]
    split
    · rename_i hlt
      have hin : e.host.inFifo ≠ [] := by
        intro h
        rw [inBits_length, h] at hlen
        simp at hlen
        omega
      have hpos : 1 ≤ e.host.inFifo.length := List.length_pos_iff.mpr hin
      rw [bind_ok (fillByte_run (by omega) hacc hin)]
      have hc := pull_rdCnt (e := e) (p := 1) (by omega)
      rw [ih (pull_accOk (by omega) (by rw [inBits_length]; omega)) (by omega) (by rw [pull_inBits (by omega) hpos]; exact hlen) (by omega)]
      rw [pull_pull (by omega) hpos, hc]
      congr 2
      omega
    · rename_i hge
      have : (n - e.bits.rdCnt.toNat + 7) / 8 = 0 := by omega
      rw [this, pull_zero hacc]
      rfl

/-- Taking `n` bits from the accumulator (rule R140). -/
theorem takeBits_run {n : Nat} (hn : n ≤ e.bits.rdCnt.toNat) (hcnt : e.bits.rdCnt.toNat < 32) (hacc : e.bits.AccOk) :
    takeBits n e = .ok (bitsVal (e.inBits.take n))
      { e with
        bits.rdCnt := BitVec.ofNat 6 (e.bits.rdCnt.toNat - n)
        bits.rdAcc := BitVec.ofNat 32 (bitsVal ((e.inBits.drop n).take (e.bits.rdCnt.toNat - n))) } := by
  have hb : bitsVal (bitsOf e.bits.rdCnt.toNat e.bits.rdAcc.toNat) = e.bits.rdAcc.toNat := by
    rw [bitsVal_bitsOf, Nat.mod_eq_of_lt hacc]
  have h1 : bitsVal (e.inBits.take n) = e.bits.rdAcc.toNat / 2 ^ (e.bits.rdCnt.toNat - n) := by
    unfold Engine.inBits
    rw [List.take_append_of_le_length (by simpa using hn), bitsVal_take, hb, bitsOf_length]
  have h2 : bitsVal ((e.inBits.drop n).take (e.bits.rdCnt.toNat - n)) = e.bits.rdAcc.toNat % 2 ^ (e.bits.rdCnt.toNat - n) := by
    unfold Engine.inBits
    rw [List.drop_append_of_le_length (by simpa using hn), List.take_append_of_le_length (by simp),
      List.take_of_length_le (by simp), bitsVal_drop, hb, bitsOf_length]
  have h3 : e.bits.rdAcc.toNat / 2 ^ (e.bits.rdCnt.toNat - n) < 2 ^ n := by
    rw [Nat.div_lt_iff_lt_mul (by positivity), ← Nat.pow_add]
    rwa [show n + (e.bits.rdCnt.toNat - n) = e.bits.rdCnt.toNat by omega]
  unfold takeBits
  rw [get_bind_run]
  simp only [modBits_bind_run, pure_run]
  rw [h1, h2, Nat.shiftRight_eq_div_pow, Nat.mod_eq_of_lt h3]

/-- `ReadBits(n)` with the bits at hand (rules R140, R142, R90): the next `n` bits as a number; the engine has consumed them. -/
theorem readBits_run {n : Nat} (hn : n ≤ 24) (hok : e.bits.ReaderOk) (hlen : n ≤ e.inBits.length) :
    readBits n e = .ok (bitsVal (e.inBits.take n)) (e.consume n) := by
  obtain ⟨hcnt, hacc⟩ := hok
  unfold readBits
  split
  · rename_i h0
    subst h0
    have h1 : (bitsOf e.bits.rdCnt.toNat e.bits.rdAcc.toNat ++ bytesBits e.host.inFifo).take e.bits.rdCnt.toNat =
        bitsOf e.bits.rdCnt.toNat e.bits.rdAcc.toNat := by
      rw [List.take_append_of_le_length (by simp), List.take_of_length_le (by simp)]
    have hp : (0 - e.bits.rdCnt.toNat + 7) / 8 = 0 := by omega
    simp only [Engine.consume, hp, List.drop_zero, Nat.mul_zero, Nat.add_zero, Nat.sub_zero, Engine.inBits, h1, bitsVal_bitsOf,
      Nat.mod_eq_of_lt hacc, pure_run, List.take_zero, bitsVal_nil]
    simp
  · rename_i h0
    have hp : (n - e.bits.rdCnt.toNat + 7) / 8 ≤ e.host.inFifo.length := by
      rw [inBits_length] at hlen; omega
    have hbig : e.bits.rdCnt.toNat + 8 * ((n - e.bits.rdCnt.toNat + 7) / 8) < 32 := by omega
    rw [bind_ok (fillTo_run hn hacc (by omega) hlen (by omega))]
    rw [takeBits_run (by rw [pull_rdCnt hbig]; omega) (by rw [pull_rdCnt hbig]; omega)
      (pull_accOk hbig (by rw [inBits_length]; omega))]
    rw [pull_inBits hbig hp, pull_rdCnt hbig]
    rfl

/-- How many valid bits are left in the accumulator after `n` bits have been consumed. -/
theorem consume_rdCnt {n : Nat} (hlen : n ≤ e.inBits.length) (hcnt : e.bits.rdCnt.toNat ≤ 7) :
    (e.consume n).bits.rdCnt.toNat = e.bits.rdCnt.toNat + 8 * ((n - e.bits.rdCnt.toNat + 7) / 8) - n ∧
      e.bits.rdCnt.toNat + 8 * ((n - e.bits.rdCnt.toNat + 7) / 8) - n ≤ 7 ∧
      n ≤ e.bits.rdCnt.toNat + 8 * ((n - e.bits.rdCnt.toNat + 7) / 8) ∧
      (n - e.bits.rdCnt.toNat + 7) / 8 ≤ e.host.inFifo.length := by
  rw [inBits_length] at hlen
  refine ⟨?_, by omega, by omega, by omega⟩
  simp only [Engine.consume, BitVec.toNat_ofNat]
  omega

/-- The bits left in the accumulator after `n` bits have been consumed. -/
theorem consume_rdAcc {n : Nat} (hlen : n ≤ e.inBits.length) (hcnt : e.bits.rdCnt.toNat ≤ 7) :
    (e.consume n).bits.rdAcc.toNat = bitsVal ((e.inBits.drop n).take (e.consume n).bits.rdCnt.toNat) ∧
      ((e.inBits.drop n).take (e.consume n).bits.rdCnt.toNat).length = (e.consume n).bits.rdCnt.toNat := by
  obtain ⟨h1, h2, h3, h4⟩ := consume_rdCnt hlen hcnt
  have hl : ((e.inBits.drop n).take (e.consume n).bits.rdCnt.toNat).length = (e.consume n).bits.rdCnt.toNat := by
    rw [List.length_take, List.length_drop, Nat.min_eq_left]
    rw [inBits_length]
    omega
  refine ⟨?_, hl⟩
  have hlt := bitsVal_lt ((e.inBits.drop n).take (e.consume n).bits.rdCnt.toNat)
  rw [hl] at hlt
  have h7 : 2 ^ (e.consume n).bits.rdCnt.toNat ≤ 2 ^ 7 := Nat.pow_le_pow_right (by norm_num) (by omega)
  have h5 : (e.consume n).bits.rdAcc = BitVec.ofNat 32 (bitsVal ((e.inBits.drop n).take
    (e.bits.rdCnt.toNat + 8 * ((n - e.bits.rdCnt.toNat + 7) / 8) - n))) := rfl
  rw [h5, ← h1, BitVec.toNat_ofNat, Nat.mod_eq_of_lt (by omega)]

theorem consume_readerOk {n : Nat} (hok : e.bits.ReaderOk) (hlen : n ≤ e.inBits.length) : (e.consume n).bits.ReaderOk := by
  obtain ⟨h1, h2, -, -⟩ := consume_rdCnt hlen hok.1
  obtain ⟨h5, h6⟩ := consume_rdAcc hlen hok.1
  refine ⟨by omega, ?_⟩
  rw [h5]
  exact lt_of_lt_of_eq (bitsVal_lt _) (by rw [h6])

/-- What is left of the input after `n` bits. -/
theorem consume_inBits {n : Nat} (hok : e.bits.ReaderOk) (hlen : n ≤ e.inBits.length) : (e.consume n).inBits = e.inBits.drop n := by
  obtain ⟨h1, h2, h3, h4⟩ := consume_rdCnt hlen hok.1
  obtain ⟨h5, h6⟩ := consume_rdAcc hlen hok.1
  have hf : (e.consume n).host.inFifo = e.host.inFifo.drop ((n - e.bits.rdCnt.toNat + 7) / 8) := rfl
  have hd : bytesBits (e.consume n).host.inFifo = (e.inBits.drop n).drop (e.consume n).bits.rdCnt.toNat := by
    have h7 : n + (e.consume n).bits.rdCnt.toNat = e.bits.rdCnt.toNat + 8 * ((n - e.bits.rdCnt.toNat + 7) / 8) := by omega
    rw [hf, bytesBits_drop, List.drop_drop, h7]
    unfold Engine.inBits
    rw [← List.drop_drop, List.drop_left' (by simp)]
  conv_lhs => unfold Engine.inBits
  rw [h5, bitsOf_eq h6, hd, List.take_append_drop]

/-- Consuming in two steps. -/
theorem consume_consume {m n : Nat} (hok : e.bits.ReaderOk) (hlen : m + n ≤ e.inBits.length) :
    (e.consume m).consume n = e.consume (m + n) := by
  have hm : m ≤ e.inBits.length := by omega
  obtain ⟨h1, h2, h3, h4⟩ := consume_rdCnt hm hok.1
  have hi := consume_inBits hok hm
  have hl := hlen
  rw [inBits_length] at hl
  have hf : (e.consume m).host.inFifo = e.host.inFifo.drop ((m - e.bits.rdCnt.toNat + 7) / 8) := rfl
  have h3 : (e.consume m).consume n =
      { e.consume m with
        host.inFifo := (e.consume m).host.inFifo.drop ((n - (e.consume m).bits.rdCnt.toNat + 7) / 8)
        bits.rdCnt := BitVec.ofNat 6 ((e.consume m).bits.rdCnt.toNat + 8 * ((n - (e.consume m).bits.rdCnt.toNat + 7) / 8) - n)
        bits.rdAcc := BitVec.ofNat 32 (bitsVal (((e.consume m).inBits.drop n).take
          ((e.consume m).bits.rdCnt.toNat + 8 * ((n - (e.consume m).bits.rdCnt.toNat + 7) / 8) - n))) } := rfl
  have e1 : (m - e.bits.rdCnt.toNat + 7) / 8 + (n - (e.consume m).bits.rdCnt.toNat + 7) / 8 =
      (m + n - e.bits.rdCnt.toNat + 7) / 8 := by omega
  have e2 : (e.consume m).bits.rdCnt.toNat + 8 * ((n - (e.consume m).bits.rdCnt.toNat + 7) / 8) - n =
      e.bits.rdCnt.toNat + 8 * ((m + n - e.bits.rdCnt.toNat + 7) / 8) - (m + n) := by omega
  rw [h3, e2, hi, hf, List.drop_drop, List.drop_drop, e1]
  rfl

theorem consume_zero (hok : e.bits.ReaderOk) : e.consume 0 = e := by
  have := readBits_run (e := e) (n := 0) (by norm_num) hok (Nat.zero_le _)
  simpa [readBits] using this.symm

/-- A read that runs out of input has pulled every byte at hand. -/
theorem drainInput_eq_pull : e.drainInput = e.pull e.host.inFifo.length := by
  unfold Engine.drainInput Engine.pull
  rw [List.drop_of_length_le le_rfl, List.take_of_length_le (by rw [inBits_length])]

/-- `ReadBits(n)` with too few bits at hand: it has pulled them all, and then the missing byte holds or raises. -/
theorem readBits_short {n : Nat} (hn : n ≤ 24) (hok : e.bits.ReaderOk) (hlen : e.inBits.length < n) :
    readBits n e = .error (if e.host.eoi then .raised .insufficientData else .hold .input) e.drainInput := by
  suffices h : ∀ fuel (e : Engine), e.bits.AccOk → e.bits.rdCnt.toNat < 32 → e.inBits.length < n → e.host.inFifo.length < fuel →
      fillTo n fuel e = .error (if e.host.eoi then .raised .insufficientData else .hold .input) e.drainInput by
    unfold readBits
    rw [if_neg (by omega)]
    refine bind_error (h n e hok.2 (by have := hok.1; omega) hlen ?_)
    rw [inBits_length] at hlen
    omega
  intro fuel
  induction fuel with
  | zero => intro e _ _ _ h; omega
  | succ fuel ih =>
    intro e hacc hcnt hlen hfuel
    have hlt : e.bits.rdCnt.toNat < n := by rw [inBits_length] at hlen; omega
    unfold fillTo
    rw [get_bind_run, if_pos hlt]
    by_cases hin : e.host.inFifo = []
    · have hd : e.drainInput = e := by rw [drainInput_eq_pull, hin]; exact pull_zero hacc
      rw [hd]
      cases he : e.host.eoi with
      | true => exact bind_error (bind_error (inByte_end hin he))
      | false => exact bind_error (bind_error (inByte_wait hin he))
    · have hpos : 1 ≤ e.host.inFifo.length := List.length_pos_iff.mpr hin
      rw [inBits_length] at hlen
      rw [bind_ok (fillByte_run (by omega) hacc hin)]
      rw [ih _ (pull_accOk (by omega) (by rw [inBits_length]; omega)) (by rw [pull_rdCnt (by omega)]; omega)
        (by rw [pull_inBits (by omega) hpos, inBits_length]; omega)
        (by show (e.host.inFifo.drop 1).length < fuel; rw [List.length_drop]; omega)]
      congr 1
      have hl : (e.pull 1).host.inFifo.length = e.host.inFifo.length - 1 := by
        show (e.host.inFifo.drop 1).length = _
        rw [List.length_drop]
      rw [drainInput_eq_pull, drainInput_eq_pull, hl, pull_pull (by omega) hpos]
      congr 1
      omega

/-- `ReadBits(n)` however many bits are at hand. -/
theorem readBits_cases {n : Nat} (hn : n ≤ 24) (hok : e.bits.ReaderOk) :
    (n ≤ e.inBits.length ∧ readBits n e = .ok (bitsVal (e.inBits.take n)) (e.consume n)) ∨
    (e.inBits.length < n ∧ readBits n e =
      .error (if e.host.eoi then .raised .insufficientData else .hold .input) e.drainInput) := by
  rcases Nat.lt_or_ge e.inBits.length n with h | h
  · exact .inr ⟨h, readBits_short hn hok h⟩
  · exact .inl ⟨h, readBits_run hn hok h⟩

/-- One bit. -/
theorem readBits_one {b : Bool} {rest : List Bool} (hok : e.bits.ReaderOk) (h : e.inBits = b :: rest) :
    readBits 1 e = .ok b.toNat (e.consume 1) := by
  rw [readBits_run (by norm_num) hok (by simp [h]), h]
  simp [bitsVal_cons]

/-- `ReadUnary(M)` with a zero among the next `M` bits (rule R145). -/
theorem readUnary_run {m c : Nat} {rest : List Bool} (hok : e.bits.ReaderOk) (hc : c < m)
    (h : e.inBits = List.replicate c true ++ false :: rest) : readUnary m e = .ok c (e.consume (c + 1)) := by
  suffices hs : ∀ c left k (e : Engine), e.bits.ReaderOk → c < left → e.inBits = List.replicate c true ++ false :: rest →
      readUnaryFrom left k e = .ok (k + c) (e.consume (c + 1)) by
    have := hs c m 0 e hok hc h
    rwa [Nat.zero_add] at this
  clear h hc hok
  intro c
  induction c with
  | zero =>
    intro left k e hok hc h
    obtain ⟨left, rfl⟩ : ∃ l, left = l + 1 := ⟨left - 1, by omega⟩
    unfold readUnaryFrom
    rw [bind_ok (readBits_one hok (by simpa using h))]
    rfl
  | succ c ih =>
    intro left k e hok hc h
    obtain ⟨left, rfl⟩ : ∃ l, left = l + 1 := ⟨left - 1, by omega⟩
    have h1 : 1 ≤ e.inBits.length := by rw [h]; simp only [List.length_append, List.length_replicate]; omega
    unfold readUnaryFrom
    rw [bind_ok (readBits_one (b := true) hok (by rw [h, List.replicate_succ, List.cons_append]))]
    rw [if_neg (by simp), ih left (k + 1) (e.consume 1) (consume_readerOk hok h1) (by omega)
      (by rw [consume_inBits hok h1, h, List.replicate_succ]; rfl)]
    rw [consume_consume hok (by rw [h]; simp; omega)]
    congr 1
    · omega
    · congr 1; omega

/-- `ReadUnary(M)` with `M` one-bits ahead raises after the M-th (rule R145). -/
theorem readUnary_over {m : Nat} {rest : List Bool} (hok : e.bits.ReaderOk) (h : e.inBits = List.replicate m true ++ rest) :
    readUnary m e = .error (.raised .invalidHuffmanTables) (e.consume m) := by
  suffices hs : ∀ left k (e : Engine), e.bits.ReaderOk → e.inBits = List.replicate left true ++ rest →
      readUnaryFrom left k e = .error (.raised .invalidHuffmanTables) (e.consume left) from hs m 0 e hok h
  intro left
  induction left with
  | zero =>
    intro k e hok _
    rw [consume_zero hok]
    rfl
  | succ left ih =>
    intro k e hok h
    have h1 : 1 ≤ e.inBits.length := by rw [h]; simp only [List.length_append, List.length_replicate]; omega
    unfold readUnaryFrom
    rw [bind_ok (readBits_one (b := true) hok (by rw [h, List.replicate_succ, List.cons_append]))]
    rw [if_neg (by simp), ih (k + 1) (e.consume 1) (consume_readerOk hok h1)
      (by rw [consume_inBits hok h1, h, List.replicate_succ]; rfl)]
    rw [consume_consume hok (by rw [h]; simp; omega)]
    congr 2
    omega

/-- Two reads in a row put together. -/
theorem bitsVal_take_add (bs : List Bool) (m n : Nat) (h : m + n ≤ bs.length) :
    bitsVal (bs.take (m + n)) = bitsVal (bs.take m) * 2 ^ n + bitsVal ((bs.drop m).take n) := by
  rw [List.take_add, bitsVal_append, List.length_take, List.length_drop, Nat.min_eq_left (by omega)]

theorem readTwo_run {n : Nat} (hn : n ≤ 24) (hok : e.bits.ReaderOk) (hlen : n + n ≤ e.inBits.length) :
    (readBits n >>= fun hi => readBits n >>= fun lo => pure (hi <<< n ||| lo)) e =
      .ok (bitsVal (e.inBits.take (n + n))) (e.consume (n + n)) := by
  have h1 : n ≤ e.inBits.length := by omega
  rw [bind_ok (readBits_run hn hok h1)]
  rw [bind_ok (readBits_run hn (consume_readerOk hok h1) (by rw [consume_inBits hok h1, List.length_drop]; omega))]
  rw [consume_consume hok hlen, consume_inBits hok h1, pure_run, bitsVal_take_add _ _ _ hlen]
  have hlt := bitsVal_lt ((e.inBits.drop n).take n)
  rw [List.length_take, List.length_drop, Nat.min_eq_left (by omega)] at hlt
  rw [← Nat.shiftLeft_add_eq_or_of_lt hlt, Nat.shiftLeft_eq]

/-- `Read32()` (rule R146). -/
theorem read32_run (hok : e.bits.ReaderOk) (hlen : 32 ≤ e.inBits.length) :
    read32 e = .ok (bitsVal (e.inBits.take 32)) (e.consume 32) := readTwo_run (n := 16) (by norm_num) hok hlen

/-- `Read48()` (rule R146). -/
theorem read48_run (hok : e.bits.ReaderOk) (hlen : 48 ≤ e.inBits.length) :
    read48 e = .ok (bitsVal (e.inBits.take 48)) (e.consume 48) := readTwo_run (n := 24) (by norm_num) hok hlen

/-! ### The writer -/

theorem wrBits_length : e.wrBits.length = e.bits.wrCnt.toNat := by simp [Engine.wrBits]

theorem wrBits_val (h : e.bits.wrAcc.toNat < 2 ^ e.bits.wrCnt.toNat) : bitsVal e.wrBits = e.bits.wrAcc.toNat := by
  rw [Engine.wrBits, bitsVal_bitsOf, Nat.mod_eq_of_lt h]

theorem bitsBytes_succ (n : Nat) (bs : List Bool) :
    bitsBytes (n + 1) bs = BitVec.ofNat 8 (bitsVal (bs.take 8)) :: bitsBytes n (bs.drop 8) := rfl

/-- The loop of `WriteBits` (rule R147): the oldest `k` bytes leave the accumulator. -/
theorem emitBytes_run {k : Nat} (hk : 8 * k ≤ e.bits.wrCnt.toNat) (hacc : e.bits.wrAcc.toNat < 2 ^ e.bits.wrCnt.toNat)
    (hcnt : e.bits.wrCnt.toNat < 32) (hroom : e.host.outFifo.length + k ≤ e.outDepth) :
    emitBytes k e = .ok ()
      { e with
        host.outFifo := e.host.outFifo ++ bitsBytes k e.wrBits
        bits.wrCnt := BitVec.ofNat 6 (e.bits.wrCnt.toNat - 8 * k)
        bits.wrAcc := BitVec.ofNat 32 (bitsVal (e.wrBits.drop (8 * k))) } := by
  induction k generalizing e with
  | zero =>
    simp only [bitsBytes, List.append_nil, Nat.mul_zero, Nat.sub_zero, List.drop_zero, wrBits_val hacc]
    simp [emitBytes]
  | succ k ih =>
    have hv := wrBits_val hacc
    have hl := wrBits_length (e := e)
    have hd : bitsVal (e.wrBits.drop 8) = e.bits.wrAcc.toNat % 2 ^ (e.bits.wrCnt.toNat - 8) := by
      rw [bitsVal_drop, hv, hl]
    have ht : BitVec.ofNat 8 (bitsVal (e.wrBits.take 8)) = BitVec.ofNat 8 (e.bits.wrAcc.toNat >>> (e.bits.wrCnt.toNat - 8)) := by
      rw [bitsVal_take, hv, hl, Nat.shiftRight_eq_div_pow]
    have hlt : e.bits.wrAcc.toNat % 2 ^ (e.bits.wrCnt.toNat - 8) < 2 ^ (e.bits.wrCnt.toNat - 8) := Nat.mod_lt _ (by positivity)
    have h32 : 2 ^ (e.bits.wrCnt.toNat - 8) ≤ 2 ^ 32 := Nat.pow_le_pow_right (by norm_num) (by omega)
    unfold emitBytes
    simp only [get_bind_run]
    rw [bind_ok (outByte_room (by omega)), modBits_bind_run]
    have hw : Engine.wrBits { e with
        host.outFifo := e.host.outFifo ++ [BitVec.ofNat 8 (e.bits.wrAcc.toNat >>> (e.bits.wrCnt.toNat - 8))]
        bits.wrCnt := BitVec.ofNat 6 (e.bits.wrCnt.toNat - 8)
        bits.wrAcc := BitVec.ofNat 32 (e.bits.wrAcc.toNat % 2 ^ (e.bits.wrCnt.toNat - 8)) } = e.wrBits.drop 8 := by
      unfold Engine.wrBits
      simp only [BitVec.toNat_ofNat]
      rw [Nat.mod_eq_of_lt (by omega : e.bits.wrCnt.toNat - 8 < 2 ^ 6), Nat.mod_eq_of_lt (by omega), ← hd]
      exact bitsOf_eq (by rw [List.length_drop, hl])
    have hc : (BitVec.ofNat 6 (e.bits.wrCnt.toNat - 8)).toNat = e.bits.wrCnt.toNat - 8 := ofNat6_toNat (by omega)
    have ha : (BitVec.ofNat 32 (e.bits.wrAcc.toNat % 2 ^ (e.bits.wrCnt.toNat - 8))).toNat =
        e.bits.wrAcc.toNat % 2 ^ (e.bits.wrCnt.toNat - 8) := by
      rw [BitVec.toNat_ofNat, Nat.mod_eq_of_lt (by omega)]
    rw [ih (by rw [hc]; omega) (by rw [hc, ha]; exact hlt) (by rw [hc]; omega) (by simp; omega), hw]
    simp only [hc, bitsBytes_succ, ht, List.append_assoc, List.singleton_append, List.drop_drop]
    rw [show 8 + 8 * k = 8 * (k + 1) by ring, show e.bits.wrCnt.toNat - 8 - 8 * k = e.bits.wrCnt.toNat - 8 * (k + 1) by omega]

/-- The bits that wait in the writer, from what its two registers hold. -/
theorem wrBits_of {bs : List Bool} (hc : e.bits.wrCnt.toNat = bs.length) (ha : e.bits.wrAcc.toNat = bitsVal bs) :
    e.wrBits = bs := by
  unfold Engine.wrBits
  rw [hc, ha, bitsOf_eq rfl]

theorem append_nil (hok : e.bits.WriterOk) : e.append [] = e := by
  have hc := hok.1
  have hq : (e.wrBits ++ []).length / 8 = 0 := by simp [wrBits_length]; omega
  have hr : (e.wrBits ++ []).length % 8 = e.bits.wrCnt.toNat := by simp [wrBits_length]; omega
  have h : e.append [] =
      { e with
        host.outFifo := e.host.outFifo ++ bitsBytes ((e.wrBits ++ []).length / 8) (e.wrBits ++ [])
        bits.wrCnt := BitVec.ofNat 6 ((e.wrBits ++ []).length % 8)
        bits.wrAcc := BitVec.ofNat 32 (bitsVal ((e.wrBits ++ []).drop (8 * ((e.wrBits ++ []).length / 8)))) } := rfl
  rw [h, hq, hr]
  simp only [bitsBytes, List.append_nil, Nat.mul_zero, List.drop_zero, wrBits_val hok.2]
  simp

/-- `WriteBits(n, v)` with room for the bytes it completes (rules R147, R91): the low `n` bits of `v` have been written. -/
theorem writeBits_run {n v : Nat} (hn : n ≤ 24) (hok : e.bits.WriterOk) (hroom : e.HasRoom n) :
    writeBits n v e = .ok () (e.append (bitsOf n v)) := by
  have hv := wrBits_val hok.2
  have hl := wrBits_length (e := e)
  have hcnt := hok.1
  unfold writeBits
  split
  · rename_i h0
    subst h0
    rw [bitsOf_zero, append_nil hok]
    rfl
  · have hval : e.bits.wrAcc.toNat <<< n ||| v % 2 ^ n = bitsVal (e.wrBits ++ bitsOf n v) := by
      rw [bitsVal_append, hv, bitsVal_bitsOf, bitsOf_length, ← Nat.shiftLeft_eq,
        Nat.shiftLeft_add_eq_or_of_lt (Nat.mod_lt _ (by positivity))]
    have hlen : (e.wrBits ++ bitsOf n v).length = e.bits.wrCnt.toNat + n := by simp [hl]
    have hlt := bitsVal_lt (e.wrBits ++ bitsOf n v)
    rw [hlen] at hlt
    have h32 : 2 ^ (e.bits.wrCnt.toNat + n) ≤ 2 ^ 32 := Nat.pow_le_pow_right (by norm_num) (by omega)
    have hc : (BitVec.ofNat 6 (e.bits.wrCnt.toNat + n)).toNat = e.bits.wrCnt.toNat + n := ofNat6_toNat (by omega)
    have ha : (BitVec.ofNat 32 (bitsVal (e.wrBits ++ bitsOf n v))).toNat = bitsVal (e.wrBits ++ bitsOf n v) := by
      rw [BitVec.toNat_ofNat, Nat.mod_eq_of_lt (by omega)]
    obtain ⟨e1, he1⟩ : ∃ x, x = { e with
      bits.wrAcc := BitVec.ofNat 32 (bitsVal (e.wrBits ++ bitsOf n v))
      bits.wrCnt := BitVec.ofNat 6 (e.bits.wrCnt.toNat + n) } := ⟨_, rfl⟩
    have c1 : e1.bits.wrCnt.toNat = e.bits.wrCnt.toNat + n := by rw [he1]; exact hc
    have a1 : e1.bits.wrAcc.toNat = bitsVal (e.wrBits ++ bitsOf n v) := by rw [he1]; exact ha
    have w1 : e1.wrBits = e.wrBits ++ bitsOf n v := wrBits_of (by rw [c1, hlen]) a1
    have r1 : e1.host.outFifo.length + e1.bits.wrCnt.toNat / 8 ≤ e1.outDepth := by rw [c1, he1]; exact hroom
    have hpush : pushBits n v e = .ok () e1 := by rw [he1, ← hval]; rfl
    rw [bind_ok hpush, get_bind_run, emitBytes_run (by omega) (by rw [c1, a1]; exact hlt) (by omega) r1, w1, c1]
    have hmod : e.bits.wrCnt.toNat + n - 8 * ((e.bits.wrCnt.toNat + n) / 8) = (e.bits.wrCnt.toNat + n) % 8 := by omega
    rw [hmod, he1]
    unfold Engine.append
    simp only [hlen]

/-- How many bits wait in the writer after an append. -/
theorem append_wrCnt (bs : List Bool) : (e.append bs).bits.wrCnt.toNat = (e.bits.wrCnt.toNat + bs.length) % 8 := by
  simp only [Engine.append, BitVec.toNat_ofNat, List.length_append, wrBits_length]
  omega

theorem append_wrAcc (bs : List Bool) :
    (e.append bs).bits.wrAcc.toNat = bitsVal ((e.wrBits ++ bs).drop (8 * ((e.wrBits ++ bs).length / 8))) ∧
      ((e.wrBits ++ bs).drop (8 * ((e.wrBits ++ bs).length / 8))).length = (e.append bs).bits.wrCnt.toNat := by
  have hl : ((e.wrBits ++ bs).drop (8 * ((e.wrBits ++ bs).length / 8))).length = (e.append bs).bits.wrCnt.toNat := by
    rw [append_wrCnt, List.length_drop, List.length_append, wrBits_length]
    omega
  refine ⟨?_, hl⟩
  have hlt := bitsVal_lt ((e.wrBits ++ bs).drop (8 * ((e.wrBits ++ bs).length / 8)))
  rw [hl, append_wrCnt] at hlt
  have h7 : 2 ^ ((e.bits.wrCnt.toNat + bs.length) % 8) ≤ 2 ^ 7 := Nat.pow_le_pow_right (by norm_num) (by omega)
  simp only [Engine.append, BitVec.toNat_ofNat]
  rw [Nat.mod_eq_of_lt (by omega)]

/-- The bits that wait in the writer after an append. -/
theorem append_wrBits (bs : List Bool) : (e.append bs).wrBits = (e.wrBits ++ bs).drop (8 * ((e.wrBits ++ bs).length / 8)) := by
  obtain ⟨h1, h2⟩ := append_wrAcc (e := e) bs
  conv_lhs => unfold Engine.wrBits
  rw [h1, bitsOf_eq h2]

theorem append_writerOk (bs : List Bool) : (e.append bs).bits.WriterOk := by
  obtain ⟨h1, h2⟩ := append_wrAcc (e := e) bs
  refine ⟨by rw [append_wrCnt]; omega, ?_⟩
  rw [h1]
  exact lt_of_lt_of_eq (bitsVal_lt _) (by rw [h2])

@[simp] theorem append_outDepth (bs : List Bool) : (e.append bs).outDepth = e.outDepth := rfl

theorem append_outFifo_length (bs : List Bool) :
    (e.append bs).host.outFifo.length = e.host.outFifo.length + (e.bits.wrCnt.toNat + bs.length) / 8 := by
  simp [Engine.append, wrBits_length]

/-- Room for two writes is room for the first, and then for the second. -/
theorem hasRoom_append {bs : List Bool} {n : Nat} (h : e.HasRoom (bs.length + n)) :
    e.HasRoom bs.length ∧ (e.append bs).HasRoom n := by
  unfold Engine.HasRoom at *
  rw [append_outFifo_length, append_wrCnt, append_outDepth]
  omega

theorem bitsBytes_add (m n : Nat) (bs : List Bool) : bitsBytes (m + n) bs = bitsBytes m bs ++ bitsBytes n (bs.drop (8 * m)) := by
  induction m generalizing bs with
  | zero => simp [bitsBytes]
  | succ m ih =>
    rw [Nat.add_right_comm, bitsBytes_succ, ih, bitsBytes_succ, List.drop_drop, List.cons_append,
      show 8 + 8 * m = 8 * (m + 1) by ring]

theorem bitsBytes_append {m : Nat} {as bs : List Bool} (h : 8 * m ≤ as.length) : bitsBytes m (as ++ bs) = bitsBytes m as := by
  induction m generalizing as with
  | zero => rfl
  | succ m ih =>
    rw [bitsBytes_succ, bitsBytes_succ, List.take_append_of_le_length (by omega), List.drop_append_of_le_length (by omega),
      ih (by rw [List.length_drop]; omega)]

/-- Writing in two steps. -/
theorem append_append (as bs : List Bool) : (e.append as).append bs = e.append (as ++ bs) := by
  have hw := append_wrBits (e := e) as
  have hl : (e.wrBits ++ as).length = e.bits.wrCnt.toNat + as.length := by simp [wrBits_length]
  have h3 : (e.append as).append bs =
      { e.append as with
        host.outFifo := (e.append as).host.outFifo ++ bitsBytes (((e.append as).wrBits ++ bs).length / 8) ((e.append as).wrBits ++ bs)
        bits.wrCnt := BitVec.ofNat 6 (((e.append as).wrBits ++ bs).length % 8)
        bits.wrAcc := BitVec.ofNat 32 (bitsVal (((e.append as).wrBits ++ bs).drop (8 * (((e.append as).wrBits ++ bs).length / 8)))) } := rfl
  have h4 : ((e.wrBits ++ as).drop (8 * ((e.wrBits ++ as).length / 8)) ++ bs).length =
      (e.wrBits ++ (as ++ bs)).length - 8 * ((e.wrBits ++ as).length / 8) := by
    simp only [List.length_append, List.length_drop]
    omega
  have h5 : (e.wrBits ++ as).drop (8 * ((e.wrBits ++ as).length / 8)) ++ bs =
      (e.wrBits ++ (as ++ bs)).drop (8 * ((e.wrBits ++ as).length / 8)) := by
    have : 8 * ((e.wrBits ++ as).length / 8) ≤ (e.wrBits ++ as).length := by omega
    rw [← List.append_assoc, List.drop_append_of_le_length this]
  have h6 : (e.append as).host.outFifo = e.host.outFifo ++ bitsBytes ((e.wrBits ++ as).length / 8) (e.wrBits ++ as) := rfl
  have hq : (e.wrBits ++ as).length / 8 + (e.wrBits ++ (as ++ bs)).length / 8 - (e.wrBits ++ as).length / 8 =
      (e.wrBits ++ (as ++ bs)).length / 8 := by omega
  have hle : (e.wrBits ++ as).length ≤ (e.wrBits ++ (as ++ bs)).length := by simp
  have e1 : ((e.wrBits ++ (as ++ bs)).length - 8 * ((e.wrBits ++ as).length / 8)) / 8 =
      (e.wrBits ++ (as ++ bs)).length / 8 - (e.wrBits ++ as).length / 8 := by omega
  have e2 : ((e.wrBits ++ (as ++ bs)).length - 8 * ((e.wrBits ++ as).length / 8)) % 8 =
      (e.wrBits ++ (as ++ bs)).length % 8 := by omega
  have e3 : 8 * ((e.wrBits ++ as).length / 8) + 8 * ((e.wrBits ++ (as ++ bs)).length / 8 - (e.wrBits ++ as).length / 8) =
      8 * ((e.wrBits ++ (as ++ bs)).length / 8) := by omega
  have h7 : bitsBytes ((e.wrBits ++ (as ++ bs)).length / 8) (e.wrBits ++ (as ++ bs)) =
      bitsBytes ((e.wrBits ++ as).length / 8) (e.wrBits ++ as) ++
        bitsBytes ((e.wrBits ++ (as ++ bs)).length / 8 - (e.wrBits ++ as).length / 8)
          ((e.wrBits ++ (as ++ bs)).drop (8 * ((e.wrBits ++ as).length / 8))) := by
    conv_lhs => rw [show (e.wrBits ++ (as ++ bs)).length / 8 = (e.wrBits ++ as).length / 8 +
      ((e.wrBits ++ (as ++ bs)).length / 8 - (e.wrBits ++ as).length / 8) by omega]
    rw [bitsBytes_add]
    have : 8 * ((e.wrBits ++ as).length / 8) ≤ (e.wrBits ++ as).length := by omega
    congr 1
    rw [← List.append_assoc, bitsBytes_append this]
  rw [h3, hw, h4, h5, h6, e1, e2, List.drop_drop, e3]
  unfold Engine.append
  simp only [h7, List.append_assoc]

/-! ### Pieces that only write bits -/

/-- The piece writes the bits `bs` and does nothing else: with room it ends normally with them written, and without room it waits on
the full output FIFO. -/
def Cmd.Emits (bs : List Bool) (c : Cmd Unit) : Prop :=
  ∀ e : Engine, e.bits.WriterOk → e.host.outFifo.length ≤ e.outDepth →
    (e.HasRoom bs.length ∧ c e = .ok () (e.append bs)) ∨
    (¬ e.HasRoom bs.length ∧ ∃ e', c e = .error (.hold .output) e' ∧ e.StuckWriting bs e')

theorem emits_pure : Cmd.Emits [] (pure ()) := by
  intro e hok hdep
  refine .inl ⟨?_, by rw [append_nil hok]; rfl⟩
  have := hok.1
  show e.host.outFifo.length + (e.bits.wrCnt.toNat + 0) / 8 ≤ e.outDepth
  omega

theorem emits_bind {as bs : List Bool} {x y : Cmd Unit} (hx : Cmd.Emits as x) (hy : Cmd.Emits bs y) :
    Cmd.Emits (as ++ bs) (do x; y) := by
  intro e hok hdep
  have hlen : (as ++ bs).length = as.length + bs.length := by simp
  rcases hx e hok hdep with ⟨hroom, hrun⟩ | ⟨hroom, e', hrun, hs⟩
  · have hdep' : (e.append as).host.outFifo.length ≤ (e.append as).outDepth := by
      rw [append_outFifo_length, append_outDepth]
      exact hroom
    rcases hy (e.append as) (append_writerOk _) hdep' with ⟨hroom', hrun'⟩ | ⟨hroom', e', hrun', hs⟩
    · left
      refine ⟨?_, by rw [bind_ok hrun, hrun', append_append]⟩
      unfold Engine.HasRoom at *
      rw [append_outFifo_length, append_wrCnt, append_outDepth] at hroom'
      rw [hlen]
      omega
    · right
      refine ⟨?_, e', by rw [bind_ok hrun, hrun'], ?_⟩
      · unfold Engine.HasRoom at *
        rw [append_outFifo_length, append_wrCnt, append_outDepth] at hroom'
        rw [hlen]
        omega
      · obtain ⟨h1, h2, h3, h4⟩ := hs
        have hw := append_wrBits (e := e) as
        have hwl : (e.wrBits ++ as).length = e.bits.wrCnt.toNat + as.length := by simp [wrBits_length]
        have hle : 8 * ((e.wrBits ++ as).length / 8) ≤ (e.wrBits ++ as).length := by omega
        have hrest : (e.append as).wrBits ++ bs = (e.wrBits ++ (as ++ bs)).drop (8 * ((e.wrBits ++ as).length / 8)) := by
          rw [hw, ← List.append_assoc, List.drop_append_of_le_length hle]
        have hq : (e.append as).outDepth - (e.append as).host.outFifo.length =
            e.outDepth - e.host.outFifo.length - (e.wrBits ++ as).length / 8 := by
          rw [append_outFifo_length, append_outDepth, hwl]
          omega
        have hsum : e.outDepth - e.host.outFifo.length = (e.wrBits ++ as).length / 8 +
            (e.outDepth - e.host.outFifo.length - (e.wrBits ++ as).length / 8) := by
          unfold Engine.HasRoom at hroom
          rw [hwl]
          omega
        have hout : (e.append as).host.outFifo =
            e.host.outFifo ++ bitsBytes ((e.wrBits ++ as).length / 8) (e.wrBits ++ as) := rfl
        refine ⟨?_, ?_, ?_, ?_⟩
        · have key : bitsBytes (e.outDepth - e.host.outFifo.length) (e.wrBits ++ (as ++ bs)) =
              bitsBytes ((e.wrBits ++ as).length / 8) (e.wrBits ++ as) ++
                bitsBytes (e.outDepth - e.host.outFifo.length - (e.wrBits ++ as).length / 8)
                  ((e.wrBits ++ (as ++ bs)).drop (8 * ((e.wrBits ++ as).length / 8))) := by
            conv_lhs => rw [hsum, bitsBytes_add]
            congr 1
            rw [← List.append_assoc, bitsBytes_append hle]
          rw [h1, hq, hrest, hout, key, List.append_assoc]
        · rw [hq, hrest, List.drop_drop] at h2
          rw [hsum, Nat.mul_add]
          convert h2 using 2
        · rw [h3, append_outDepth]
        · rw [hq, hrest, List.length_drop] at h4
          rw [hsum]
          have hge : (e.wrBits ++ as).length ≤ (e.wrBits ++ (as ++ bs)).length := by simp
          omega
  · right
    refine ⟨?_, e', bind_error hrun, ?_⟩
    · unfold Engine.HasRoom at *
      rw [hlen]
      omega
    · obtain ⟨h1, h2, h3, h4⟩ := hs
      refine ⟨?_, ?_, h3, ?_⟩
      · rw [h1, ← List.append_assoc, bitsBytes_append h4]
      · rw [← List.append_assoc, List.drop_append_of_le_length h4]
        exact h2.trans (List.prefix_append _ _)
      · simp only [List.length_append] at h4 ⊢
        omega

/-- The loop of `WriteBits` on a full output FIFO. -/
theorem emitBytes_stuck {k : Nat} (hk : 8 * k ≤ e.bits.wrCnt.toNat) (hacc : e.bits.wrAcc.toNat < 2 ^ e.bits.wrCnt.toNat)
    (hcnt : e.bits.wrCnt.toNat < 32) (hdep : e.host.outFifo.length ≤ e.outDepth) (hroom : e.outDepth < e.host.outFifo.length + k) :
    ∃ e', emitBytes k e = .error (.hold .output) e' ∧
      e'.host.outFifo = e.host.outFifo ++ bitsBytes (e.outDepth - e.host.outFifo.length) e.wrBits ∧
      e'.wrBits = e.wrBits.drop (8 * (e.outDepth - e.host.outFifo.length)) ∧ e'.outDepth = e.outDepth := by
  induction k generalizing e with
  | zero => omega
  | succ k ih =>
    by_cases hfull : e.host.outFifo.length < e.outDepth
    · have h1 := emitBytes_run (e := e) (k := 1) (by omega) hacc hcnt (by omega)
      obtain ⟨e1, he1⟩ : ∃ x, x = { e with
        host.outFifo := e.host.outFifo ++ bitsBytes 1 e.wrBits
        bits.wrCnt := BitVec.ofNat 6 (e.bits.wrCnt.toNat - 8 * 1)
        bits.wrAcc := BitVec.ofNat 32 (bitsVal (e.wrBits.drop (8 * 1))) } := ⟨_, rfl⟩
      have hl := wrBits_length (e := e)
      have hlt := bitsVal_lt (e.wrBits.drop 8)
      rw [List.length_drop, hl] at hlt
      have h32 : 2 ^ (e.bits.wrCnt.toNat - 8) ≤ 2 ^ 32 := Nat.pow_le_pow_right (by norm_num) (by omega)
      have c1 : e1.bits.wrCnt.toNat = e.bits.wrCnt.toNat - 8 := by rw [he1]; exact ofNat6_toNat (by omega)
      have a1 : e1.bits.wrAcc.toNat = bitsVal (e.wrBits.drop 8) := by
        rw [he1]
        show (BitVec.ofNat 32 (bitsVal (e.wrBits.drop 8))).toNat = _
        rw [BitVec.toNat_ofNat, Nat.mod_eq_of_lt (by omega)]
      have w1 : e1.wrBits = e.wrBits.drop 8 := wrBits_of (by rw [c1, List.length_drop, hl]) a1
      have o1 : e1.host.outFifo = e.host.outFifo ++ bitsBytes 1 e.wrBits := by rw [he1]
      have d1 : e1.outDepth = e.outDepth := by rw [he1]
      have l1 : e1.host.outFifo.length = e.host.outFifo.length + 1 := by rw [o1]; simp
      obtain ⟨e', hrun, h2, h3, h4⟩ := ih (e := e1) (by omega) (by rw [c1, a1]; exact hlt) (by omega) (by omega) (by omega)
      have hstep : emitBytes (k + 1) e = emitBytes k e1 := by
        obtain ⟨x, hx⟩ : ∃ x, x = { e with
          host.outFifo := e.host.outFifo ++ [BitVec.ofNat 8 (e.bits.wrAcc.toNat >>> (e.bits.wrCnt.toNat - 8))]
          bits.wrCnt := BitVec.ofNat 6 (e.bits.wrCnt.toNat - 8)
          bits.wrAcc := BitVec.ofNat 32 (e.bits.wrAcc.toNat % 2 ^ (e.bits.wrCnt.toNat - 8)) } := ⟨_, rfl⟩
        have hany : ∀ j, emitBytes (j + 1) e = emitBytes j x := by
          intro j
          rw [hx]
          conv_lhs => unfold emitBytes
          simp only [get_bind_run]
          rw [bind_ok (outByte_room hfull), modBits_bind_run]
        have hx1 : emitBytes 1 e = .ok () x := hany 0
        rw [h1, ← he1, EStateM.Result.ok.injEq] at hx1
        rw [hany k, ← hx1.2]
      refine ⟨e', by rw [hstep, hrun], ?_, ?_, by rw [h4, d1]⟩
      · rw [h2, o1, w1, d1, List.append_assoc, List.length_append, bitsBytes_length,
          show e.outDepth - e.host.outFifo.length = 1 + (e.outDepth - (e.host.outFifo.length + 1)) by omega, bitsBytes_add]
      · rw [h3, w1, d1, l1, List.drop_drop]
        congr 1
        omega
    · refine ⟨e, ?_, ?_, ?_, rfl⟩
      · unfold emitBytes
        simp only [get_bind_run]
        exact bind_error (outByte_full hfull)
      · rw [show e.outDepth - e.host.outFifo.length = 0 by omega]
        simp [bitsBytes]
      · rw [show e.outDepth - e.host.outFifo.length = 0 by omega]
        simp

theorem emits_writeBits {n : Nat} (hn : n ≤ 24) (v : Nat) : Cmd.Emits (bitsOf n v) (writeBits n v) := by
  intro e hok hdep
  rw [bitsOf_length]
  by_cases hroom : e.HasRoom n
  · exact .inl ⟨hroom, writeBits_run hn hok hroom⟩
  · right
    have hv := wrBits_val hok.2
    have hl := wrBits_length (e := e)
    have hcnt := hok.1
    have hval : e.bits.wrAcc.toNat <<< n ||| v % 2 ^ n = bitsVal (e.wrBits ++ bitsOf n v) := by
      rw [bitsVal_append, hv, bitsVal_bitsOf, bitsOf_length, ← Nat.shiftLeft_eq,
        Nat.shiftLeft_add_eq_or_of_lt (Nat.mod_lt _ (by positivity))]
    have hlen : (e.wrBits ++ bitsOf n v).length = e.bits.wrCnt.toNat + n := by simp [hl]
    have hlt := bitsVal_lt (e.wrBits ++ bitsOf n v)
    rw [hlen] at hlt
    have h32 : 2 ^ (e.bits.wrCnt.toNat + n) ≤ 2 ^ 32 := Nat.pow_le_pow_right (by norm_num) (by omega)
    obtain ⟨e1, he1⟩ : ∃ x, x = { e with
      bits.wrAcc := BitVec.ofNat 32 (bitsVal (e.wrBits ++ bitsOf n v))
      bits.wrCnt := BitVec.ofNat 6 (e.bits.wrCnt.toNat + n) } := ⟨_, rfl⟩
    have c1 : e1.bits.wrCnt.toNat = e.bits.wrCnt.toNat + n := by rw [he1]; exact ofNat6_toNat (by omega)
    have a1 : e1.bits.wrAcc.toNat = bitsVal (e.wrBits ++ bitsOf n v) := by
      rw [he1]
      show (BitVec.ofNat 32 (bitsVal (e.wrBits ++ bitsOf n v))).toNat = _
      rw [BitVec.toNat_ofNat, Nat.mod_eq_of_lt (by omega)]
    have w1 : e1.wrBits = e.wrBits ++ bitsOf n v := wrBits_of (by rw [c1, hlen]) a1
    have o1 : e1.host.outFifo = e.host.outFifo := by rw [he1]
    have d1 : e1.outDepth = e.outDepth := by rw [he1]
    unfold Engine.HasRoom at hroom
    have h0 : n ≠ 0 := by
      rintro rfl
      omega
    obtain ⟨e', hrun, h2, h3, h4⟩ := emitBytes_stuck (e := e1) (k := e1.bits.wrCnt.toNat / 8) (by omega) (by rw [c1, a1]; exact hlt)
      (by omega) (by rw [o1, d1]; exact hdep) (by rw [o1, d1, c1]; omega)
    refine ⟨hroom, e', ?_, ?_, ?_, ?_, ?_⟩
    · have hpush : pushBits n v e = .ok () e1 := by rw [he1, ← hval]; rfl
      unfold writeBits
      rw [if_neg h0, bind_ok hpush, get_bind_run, hrun]
    · rw [h2, o1, d1, w1]
    · rw [h3, o1, d1, w1]
    · rw [h4, d1]
    · rw [hlen]
      omega

theorem emits_forEach {α : Type} {xs : List α} {c : α → Cmd Unit} {f : α → List Bool} (h : ∀ x ∈ xs, Cmd.Emits (f x) (c x)) :
    Cmd.Emits (xs.flatMap f) (forEach xs c) := by
  induction xs with
  | nil => exact emits_pure
  | cons x xs ih =>
    rw [List.flatMap_cons]
    exact emits_bind (h x (by simp)) (ih fun y hy => h y (by simp [hy]))

theorem emits_repeatCmd {bs : List Bool} {c : Cmd Unit} (h : Cmd.Emits bs c) (n : Nat) :
    Cmd.Emits (List.replicate n bs).flatten (repeatCmd n c) := by
  induction n with
  | zero => exact emits_pure
  | succ n ih =>
    rw [List.replicate_succ, List.flatten_cons]
    exact emits_bind h ih

theorem emits_flag (b : Bool) : Cmd.Emits [b] (writeBits 1 b.toNat) := by
  have := emits_writeBits (n := 1) (by norm_num) b.toNat
  cases b <;> exact this

/-- `WriteUnary(c)` (rule R150). -/
theorem emits_writeUnary (c : Nat) : Cmd.Emits (List.replicate c true ++ [false]) (writeUnary c) := by
  have h := emits_repeatCmd (emits_flag true) c
  have hflat : (List.replicate c [true]).flatten = List.replicate c true := by
    induction c with
    | zero => rfl
    | succ c ih => rw [List.replicate_succ, List.flatten_cons, ih (emits_repeatCmd (emits_flag true) c)]; rfl
  rw [hflat] at h
  exact emits_bind h (emits_flag false)

theorem bitsOf_add (m n v : Nat) : bitsOf (m + n) v = bitsOf m (v >>> n) ++ bitsOf n v := by
  induction m with
  | zero => simp
  | succ m ih =>
    rw [Nat.add_right_comm, bitsOf_succ, ih, bitsOf_succ, List.cons_append, Nat.testBit_shiftRight, Nat.add_comm n m]

/-- `Write32(v)` (rule R152). -/
theorem emits_write32 (v : Nat) : Cmd.Emits (bitsOf 32 v) (write32 v) := by
  rw [show (32 : Nat) = 16 + 16 by norm_num, bitsOf_add]
  exact emits_bind (emits_writeBits (by norm_num) _) (emits_writeBits (by norm_num) _)

/-- `Write48(v)` (rule R152). -/
theorem emits_write48 (v : Nat) : Cmd.Emits (bitsOf 48 v) (write48 v) := by
  rw [show (48 : Nat) = 24 + 24 by norm_num, bitsOf_add]
  exact emits_bind (emits_writeBits (by norm_num) _) (emits_writeBits (by norm_num) _)

/-- With room, a piece that writes bits ends normally with them written. -/
theorem Cmd.Emits.run {bs : List Bool} {c : Cmd Unit} (h : Cmd.Emits bs c) (hok : e.bits.WriterOk) (hroom : e.HasRoom bs.length) :
    c e = .ok () (e.append bs) := by
  have hdep : e.host.outFifo.length ≤ e.outDepth := by unfold Engine.HasRoom at hroom; omega
  rcases h e hok hdep with ⟨-, hrun⟩ | ⟨hno, -⟩
  · exact hrun
  · exact absurd hroom hno

/-- `Flush()` with room (rule R151). -/
theorem flushWriter_run (hok : e.bits.WriterOk) (hroom : e.bits.wrCnt = 0 ∨ e.host.outFifo.length < e.outDepth) :
    flushWriter e = .ok () e.flushed := by
  have hv := wrBits_val hok.2
  have hcnt := hok.1
  unfold flushWriter
  simp only [get_bind_run]
  by_cases h0 : e.bits.wrCnt.toNat = 0
  · have hz : e.bits.wrCnt = 0 := by apply BitVec.eq_of_toNat_eq; simpa using h0
    rw [doWhen_false (by simp [h0])]
    simp [Engine.flushed, hz]
  · have hz : e.bits.wrCnt ≠ 0 := by intro h; exact h0 (by simp [h])
    rw [doWhen_true (by simp; omega), bind_ok (outByte_room (hroom.resolve_left hz)), modBits_run]
    unfold Engine.flushed
    rw [if_neg hz]
    have hb : bitsBytes 1 (e.wrBits ++ List.replicate (8 - e.bits.wrCnt.toNat) false) =
        [BitVec.ofNat 8 (e.bits.wrAcc.toNat <<< (8 - e.bits.wrCnt.toNat))] := by
      rw [bitsBytes_succ, List.take_of_length_le (by simp [wrBits_length]; omega), bitsVal_append, bitsVal_replicate_false, hv]
      simp [bitsBytes, Nat.shiftLeft_eq]
    rw [hb]

/-- `Flush()` on a full output FIFO holds with nothing changed (rules R15, R151). -/
theorem flushWriter_stuck (h0 : e.bits.wrCnt ≠ 0) (hfull : ¬ e.host.outFifo.length < e.outDepth) :
    flushWriter e = .error (.hold .output) e := by
  have hz : 0 < e.bits.wrCnt.toNat := by
    rcases Nat.eq_zero_or_pos e.bits.wrCnt.toNat with h | h
    · exact absurd (BitVec.eq_of_toNat_eq (by simpa using h)) h0
    · exact h
  unfold flushWriter
  simp only [get_bind_run]
  rw [doWhen_true (by simpa using hz)]
  exact bind_error (outByte_full hfull)

end Sys2Proof.Machine
end

