-- ==== Sys2Proof/Laws/Store.lean ====
section
/-! SUPPORT. The laws of the partial maps: a read after a write, and the canonical form. -/

namespace Sys2Proof.Machine

set_option Elab.async false

variable {α : Type}

@[simp] theorem Store.read_nil (i : Nat) : Store.read ([] : Store α) i = none := rfl

/-- A read after a write to the same index gives the value written. -/
@[simp] theorem Store.read_write_same (m : Store α) (i : Nat) (v : α) : Store.read (Store.write m i v) i = some v := by
  induction m with
  | nil => simp [Store.write, Store.read]
  | cons p m ih =>
    obtain ⟨j, x⟩ := p
    unfold Store.write
    split
    · simp [Store.read]
    · split
      · simp [Store.read]
      · simp [Store.read, *]

/-- A write leaves every other index alone. -/
theorem Store.read_write_other (m : Store α) {i j : Nat} (v : α) (h : j ≠ i) :
    Store.read (Store.write m i v) j = Store.read m j := by
  induction m with
  | nil =>
    simp only [Store.write, Store.read]
    split
    · rfl
    · simp
  | cons p m ih =>
    obtain ⟨k, x⟩ := p
    unfold Store.write
    split
    · rename_i hik
      simp only [Store.read]
      split <;> split <;> first | rfl | omega | (split <;> first | rfl | omega)
    · split
      · rename_i _ hik
        subst hik
        simp [Store.read, h]
      · simp only [Store.read, ih]

/-- The value read anywhere after a write. -/
theorem Store.read_write (m : Store α) (i j : Nat) (v : α) :
    Store.read (Store.write m i v) j = if j = i then some v else Store.read m j := by
  split
  · subst_vars; simp
  · exact Store.read_write_other m v ‹_›

theorem Store.wf_nil : Store.wf ([] : Store α) := by simp [Store.wf]

/-- The indexes after a write are the written one and those of before. -/
theorem Store.mem_write {m : Store α} {i : Nat} {v : α} {p : Nat × α} (h : p ∈ Store.write m i v) : p = (i, v) ∨ p ∈ m := by
  induction m with
  | nil => simpa [Store.write] using h
  | cons q m ih =>
    obtain ⟨k, x⟩ := q
    unfold Store.write at h
    split at h
    · simpa using h
    · split at h
      · rcases List.mem_cons.mp h with h | h
        · exact .inl h
        · exact .inr (List.mem_cons_of_mem _ h)
      · rcases List.mem_cons.mp h with h | h
        · exact .inr (by simp [h])
        · rcases ih h with h | h
          · exact .inl h
          · exact .inr (List.mem_cons_of_mem _ h)

/-- A write keeps the canonical form. -/
theorem Store.wf_write {m : Store α} (h : Store.wf m) (i : Nat) (v : α) : Store.wf (Store.write m i v) := by
  induction m with
  | nil => simp [Store.write, Store.wf]
  | cons p m ih =>
    obtain ⟨k, x⟩ := p
    obtain ⟨hk, hm⟩ := List.pairwise_cons.mp h
    unfold Store.write
    split
    · rename_i hik
      refine List.pairwise_cons.mpr ⟨?_, h⟩
      intro a ha
      rcases List.mem_cons.mp ha with rfl | ha
      · exact hik
      · exact lt_trans hik (hk a ha)
    · split
      · rename_i _ hik
        subst hik
        exact h
      · refine List.pairwise_cons.mpr ⟨?_, ih hm⟩
        intro a ha
        obtain ⟨q, hq, rfl⟩ := List.mem_map.mp ha
        rcases Store.mem_write hq with rfl | hq
        · simp only
          omega
        · exact hk _ (List.mem_map_of_mem hq)

/-- In canonical form an entry of the list is what its index reads as, so equal reads mean equal maps. -/
theorem Store.read_eq_some_iff {m : Store α} (h : Store.wf m) {i : Nat} {v : α} : Store.read m i = some v ↔ (i, v) ∈ m := by
  induction m with
  | nil => simp
  | cons p m ih =>
    obtain ⟨k, x⟩ := p
    obtain ⟨hk, hm⟩ := List.pairwise_cons.mp h
    have hlt : ∀ y, (i, y) ∈ m → k < i := fun y hy => hk i (List.mem_map_of_mem (f := Prod.fst) hy)
    simp only [Store.read, List.mem_cons, Prod.mk.injEq]
    split
    · constructor
      · simp
      · rintro (⟨rfl, -⟩ | hy)
        · omega
        · have := hlt v hy; omega
    · split
      · subst_vars
        constructor
        · rintro ⟨rfl⟩; exact .inl ⟨rfl, rfl⟩
        · rintro (⟨-, rfl⟩ | hy)
          · rfl
          · exact absurd (hlt v hy) (lt_irrefl _)
      · rw [ih hm]
        constructor
        · exact .inr
        · rintro (⟨rfl, -⟩ | hy)
          · omega
          · exact hy

end Sys2Proof.Machine
end

