-- ==== Sys2Proof/Laws/Rle1.lean ====
section
/-! SUPPORT. How the pieces of RLE1 run: the block store, the flush, the put, and the closed form of `Rle1Next` (spec/41_rle1.md). -/

namespace Sys2Proof.Machine

set_option Elab.async false

variable {e : Engine}

theorem storeGet_run {α : Type} {a : ArrayName} {m : Store α} {i : Nat} {x : α} (h : Store.read m i = some x) :
    storeGet a m i e = .ok x e := by simp [storeGet, h]

theorem storeSet_run {α : Type} {a : ArrayName} {size : Nat} {m : Store α} {i : Nat} {x : α} (h : i < size) :
    storeSet a size m i x e = .ok (Store.write m i x) e := by simp [storeSet, h]

/-- Reading a written byte of the block. -/
theorem blkGet_run {i : Nat} {v : Byte} (h : e.block.blk.read i = some v) : blkGet i e = .ok v e := by
  unfold blkGet
  rw [get_bind_run]
  exact storeGet_run h

/-- Writing a byte of the block. -/
theorem blkSet_run {i : Nat} {v : Byte} (h : i < 900001) : blkSet i v e = .ok () { e with block.blk := e.block.blk.write i v } := by
  unfold blkSet
  rw [get_bind_run]
  exact (bind_ok (storeSet_run h)).trans rfl

/-- `BlkAppend(v)` (rule R161). -/
theorem blkAppend_run {v : Byte} (h : e.block.len.toNat < 900001) : blkAppend v e = .ok () (e.storeByte v) := by
  unfold blkAppend
  rw [get_bind_run, bind_ok (blkSet_run h)]
  rfl

theorem storeByte_len {v : Byte} (h : e.block.len.toNat < 900001) : (e.storeByte v).block.len.toNat = e.block.len.toNat + 1 := by
  simp only [Engine.storeByte, BitVec.toNat_ofNat]
  omega

@[simp] theorem storeBlock_nil : e.storeBlock [] = e := rfl
@[simp] theorem storeBlock_cons (v : Byte) (vs : List Byte) : e.storeBlock (v :: vs) = (e.storeByte v).storeBlock vs := rfl

theorem storeBlock_append (us vs : List Byte) : e.storeBlock (us ++ vs) = (e.storeBlock us).storeBlock vs := by
  simp [Engine.storeBlock]

theorem storeBlock_len {vs : List Byte} (h : e.block.len.toNat + vs.length ≤ 900001) :
    (e.storeBlock vs).block.len.toNat = e.block.len.toNat + vs.length := by
  induction vs generalizing e with
  | nil => rfl
  | cons v vs ih =>
    simp only [List.length_cons] at h ⊢
    have h1 := storeByte_len (e := e) (v := v) (by omega)
    rw [storeBlock_cons, ih (by omega)]
    omega

/-- Appending one byte `n` times. -/
theorem repeat_blkAppend_run {v : Byte} {n : Nat} (h : e.block.len.toNat + n ≤ 900001) :
    repeatCmd n (blkAppend v) e = .ok () (e.storeBlock (List.replicate n v)) := by
  induction n generalizing e with
  | zero => rfl
  | succ n ih =>
    have h1 := storeByte_len (e := e) (v := v) (by omega)
    rw [repeatCmd_succ, bind_ok (blkAppend_run (by omega)), ih (by omega), List.replicate_succ, storeBlock_cons]

theorem runBytes_length (v : Byte) (n : Nat) : (runBytes v n).length ≤ 5 := by
  unfold runBytes
  split <;> simp
  omega

/-- The bytes of a run go into the block (rule R161). -/
theorem appendRun_run {v : Byte} {n : Nat} (h : e.block.len.toNat + 5 ≤ 900001) :
    appendRun v n e = .ok () (e.storeBlock (runBytes v n)) := by
  unfold appendRun runBytes
  split
  · exact repeat_blkAppend_run (by omega)
  · rw [bind_ok (repeat_blkAppend_run (by omega))]
    have h4 := storeBlock_len (e := e) (vs := List.replicate 4 v) (by simp; omega)
    rw [blkAppend_run (by rw [h4, List.length_replicate]; omega), storeBlock_append]
    rfl

theorem set_runLen {n : BitVec 8} (h : e.block.runLen = n) : { e with block.runLen := n } = e := by rw [← h]

/-- `FlushRun()` (rule R161). -/
theorem flushRun_run (h : e.block.len.toNat + 5 ≤ 900001) : flushRun e = .ok () e.runFlushed := by
  unfold flushRun
  rw [get_bind_run]
  split
  · rename_i h0
    have hz : e.block.runLen = 0 := BitVec.eq_of_toNat_eq (by simpa using h0)
    have : e.runFlushed = e := by
      unfold Engine.runFlushed
      rw [hz]
      exact set_runLen hz
    rw [this]
    rfl
  · rw [bind_ok (appendRun_run h)]
    rfl

/-- `Rle1Put(b)` below the threshold accepts the byte (rule R162). -/
theorem rle1Put_accept {b : Byte} (h : e.Accepts) (hlen : e.block.len.toNat + 5 ≤ 900001) :
    rle1Put b e = .ok true (e.accept b) := by
  have hn : ¬ e.block.len.toNat ≥ fullThreshold e.block.k := by
    unfold fullThreshold capacity
    unfold Engine.Accepts at h
    omega
  unfold rle1Put
  rw [get_bind_run, if_neg hn]
  unfold Engine.accept
  have hx : rle1Accept b e =
      .ok () (if e.Extends b then { e with block.runLen := BitVec.ofNat 8 (e.block.runLen.toNat + 1) }
        else { e.runFlushed with block.runCh := b, block.runLen := 1 }) := by
    unfold rle1Accept
    rw [get_bind_run]
    by_cases hb : e.Extends b
    · rw [if_pos hb, if_pos hb]; rfl
    · rw [if_neg hb, if_neg hb, bind_ok (flushRun_run hlen)]; rfl
  rw [bind_ok hx]
  split <;> rfl

/-- `Rle1Put(b)` at the threshold refuses the byte and changes nothing (rule R162). -/
theorem rle1Put_refuse {b : Byte} (h : ¬ e.Accepts) : rle1Put b e = .ok false e := by
  have hn : e.block.len.toNat ≥ fullThreshold e.block.k := by
    unfold fullThreshold capacity
    unfold Engine.Accepts at h
    omega
  unfold rle1Put
  rw [get_bind_run, if_pos hn]
  rfl

/-- With a multiplier 1 to 9, a block below the threshold has room for a run. -/
theorem accepts_room (hk : e.KOk) (h : e.Accepts) : e.block.len.toNat + 5 ≤ 900001 := by
  unfold Engine.Accepts at h
  have := hk.2
  omega

/-! ### The decoder -/

/-- Reading a written entry of MERGED. -/
theorem mergedGet_run {i : Nat} {x : Word} (h : e.bwt.merged.read i = some x) : mergedGet i e = .ok x e := by
  unfold mergedGet
  rw [get_bind_run]
  exact storeGet_run h

/-- One hop (rule R180). -/
theorem bwtHop_run {x : Word} (h : e.bwt.merged.read (e.bwt.curEntry.toNat / 256) = some x) :
    bwtHop e = .ok (e.bwt.curEntry.setWidth 8) e.hopped := by
  unfold bwtHop
  rw [get_bind_run, Nat.shiftRight_eq_div_pow, bind_ok (mergedGet_run h)]
  simp [Engine.hopped, h]

/-- One hop with de-randomisation (rule R274). -/
theorem fetchByte_run {x : Word} (h : e.bwt.merged.read (e.bwt.curEntry.toNat / 256) = some x) :
    fetchByte e = .ok e.fetchedByte e.fetched := by
  have hload : e.randLoad < 1024 := by
    unfold Engine.randLoad
    split
    · have hall : ∀ i < 512, randEntry i < 1024 := by decide +kernel
      exact hall _ e.block.randTpos.isLt
    · exact e.block.randNtogo.isLt
  unfold fetchByte
  rw [bind_ok (bwtHop_run h), get_bind_run]
  by_cases hf : e.block.randFlag = true
  · have hf' : e.hopped.block.randFlag = true := hf
    rw [if_pos hf']
    have hs : randStep e.hopped = .ok (decide (e.randLoad = 2)) e.fetched := by
      unfold randStep
      rw [get_bind_run]
      by_cases h0 : e.block.randNtogo.toNat = 0
      · rw [doWhen_true (decide_eq_true (show e.hopped.block.randNtogo.toNat = 0 from h0))]
        have hl : e.randLoad = randEntry e.block.randTpos.toNat := by simp [Engine.randLoad, h0]
        simp only [modBlock_bind_run, get_bind_run]
        unfold Engine.fetched
        rw [if_pos hf, if_pos h0, hl]
        rw [hl] at hload
        have hm : (BitVec.ofNat 10 (randEntry e.hopped.block.randTpos.toNat)).toNat = randEntry e.block.randTpos.toNat := by
          rw [BitVec.toNat_ofNat]
          exact Nat.mod_eq_of_lt hload
        rw [hm]
        refine congrArg₂ EStateM.Result.ok ?_ rfl
        rw [BitVec.toNat_ofNat, decide_eq_decide]
        omega
      · rw [doWhen_false (decide_eq_false (show ¬ e.hopped.block.randNtogo.toNat = 0 from h0))]
        have hl : e.randLoad = e.block.randNtogo.toNat := by simp [Engine.randLoad, h0]
        simp only [pure_bind_run, modBlock_bind_run, get_bind_run]
        unfold Engine.fetched
        rw [if_pos hf, if_neg h0, hl]
        rw [hl] at hload
        refine congrArg₂ EStateM.Result.ok ?_ rfl
        show decide ((BitVec.ofNat 10 (e.block.randNtogo.toNat - 1)).toNat = 1) = _
        rw [BitVec.toNat_ofNat, decide_eq_decide]
        omega
    rw [bind_ok hs]
    unfold Engine.fetchedByte
    by_cases hr : e.randLoad = 2 <;> simp [hr, hf]
  · have hf' : ¬ e.hopped.block.randFlag = true := hf
    rw [if_neg hf']
    simp [Engine.fetchedByte, Engine.fetched, hf]

theorem fetched_walkOk (h : e.WalkOk) (hpos : 0 < e.bwt.hopsLeft.toNat) : e.fetched.WalkOk := by
  obtain ⟨n, hc, hn⟩ := h hpos
  obtain ⟨x, hx, hlt⟩ := hn _ hc
  have hcur : e.fetched.bwt.curEntry = x ∧ e.fetched.bwt.merged = e.bwt.merged := by
    unfold Engine.fetched
    split <;> simp [Engine.hopped, hx]
  intro _
  rw [hcur.1, hcur.2]
  exact ⟨n, hlt, hn⟩

theorem walkOk_read (h : e.WalkOk) (hpos : 0 < e.bwt.hopsLeft.toNat) : ∃ x, e.bwt.merged.read (e.bwt.curEntry.toNat / 256) = some x := by
  obtain ⟨n, hc, hn⟩ := h hpos
  obtain ⟨x, hx, -⟩ := hn _ hc
  exact ⟨x, hx⟩

theorem rle1Data_run (b : Byte) : rle1Data b e = .ok (some b) (e.counted b) := rfl

/-- A pass of `Rle1Next` with a repeat pending. -/
theorem rle1Pass_repeat {go : Byte → Cmd (Option Byte)} (h : 0 < e.block.rlRep.toNat) :
    rle1Pass go e = .ok (some e.block.rlLast) { e with block.rlRep := BitVec.ofNat 8 (e.block.rlRep.toNat - 1) } := by
  unfold rle1Pass
  rw [get_bind_run, if_pos h]
  rfl

theorem rle1Pass_none {go : Byte → Cmd (Option Byte)} (h : ¬ 0 < e.block.rlRep.toNat) (h0 : e.bwt.hopsLeft.toNat = 0) :
    rle1Pass go e = .ok none e := by
  unfold rle1Pass
  rw [get_bind_run, if_neg h, if_pos h0]
  rfl

theorem rle1Pass_fetch {go : Byte → Cmd (Option Byte)} (hw : e.WalkOk) (h : ¬ 0 < e.block.rlRep.toNat)
    (h0 : e.bwt.hopsLeft.toNat ≠ 0) : rle1Pass go e = go e.fetchedByte e.fetched := by
  obtain ⟨x, hx⟩ := walkOk_read hw (by omega)
  unfold rle1Pass
  rw [get_bind_run, if_neg h, if_neg h0, bind_ok (fetchByte_run hx)]

theorem fetched_rlCnt : e.fetched.block.rlCnt = e.block.rlCnt := by unfold Engine.fetched; split <;> rfl
theorem fetched_rlLast : e.fetched.block.rlLast = e.block.rlLast := by unfold Engine.fetched; split <;> rfl

/-- `Rle1Next()` in closed form (rule R165): from a walk inside written entries it never stops. -/
theorem rle1Next_run (hw : e.WalkOk) : rle1Next e = .ok e.next.1 e.next.2 := by
  unfold rle1Next Engine.next
  by_cases h : 0 < e.block.rlRep.toNat
  · rw [rle1Pass_repeat h, if_pos h]
  rw [if_neg h]
  by_cases h0 : e.bwt.hopsLeft.toNat = 0
  · rw [rle1Pass_none h h0, if_pos h0]
  rw [if_neg h0, rle1Pass_fetch hw h h0, get_bind_run, fetched_rlCnt]
  by_cases h4 : e.block.rlCnt.toNat = 4
  · rw [if_pos h4, if_pos h4]
    simp only [modBlock_bind_run]
    have hwf : Engine.WalkOk { e.fetched with block.rlCnt := 0, block.rlRep := e.fetchedByte } := fetched_walkOk hw (by omega)
    by_cases hr : 0 < e.fetchedByte.toNat
    · rw [if_pos hr]
      refine (rle1Pass_repeat (e := { e.fetched with block.rlCnt := 0, block.rlRep := e.fetchedByte }) hr).trans ?_
      simp [fetched_rlLast]
    rw [if_neg hr]
    by_cases hh : e.fetched.bwt.hopsLeft.toNat = 0
    · rw [if_pos hh]
      exact rle1Pass_none (e := { e.fetched with block.rlCnt := 0, block.rlRep := e.fetchedByte }) hr hh
    · rw [if_neg hh]
      exact (rle1Pass_fetch hwf hr hh).trans rfl
  · rw [if_neg h4, if_neg h4]
    rfl

end Sys2Proof.Machine
end

