-- ==== Sys2Proof/Laws/Bwt.lean ====
section
/-! SUPPORT. How the two transforms run, and what their tables hold (spec/42_bwt.md). -/

namespace Sys2Proof.Machine

set_option Elab.async false

variable {e : Engine}

/-- A list written into a partial map from index `i` on. -/
def Store.writeList {α : Type} : Store α → Nat → List α → Store α
  | m, _, [] => m
  | m, i, x :: xs => Store.writeList (m.write i x) (i + 1) xs

/-- What an index reads as after a list has been written. -/
theorem Store.read_writeList {α : Type} (m : Store α) (i : Nat) (xs : List α) (j : Nat) :
    (m.writeList i xs).read j = if i ≤ j ∧ j < i + xs.length then xs[j - i]? else m.read j := by
  induction xs generalizing m i with
  | nil =>
    rw [if_neg (by simp)]
    rfl
  | cons x xs ih =>
    show ((m.write i x).writeList (i + 1) xs).read j = _
    rw [ih, Store.read_write]
    simp only [List.length_cons]
    by_cases hij : j = i
    · subst hij
      rw [if_neg (by omega), if_pos rfl, if_pos (by omega)]
      simp
    · rw [if_neg hij]
      by_cases h : i + 1 ≤ j ∧ j < i + 1 + xs.length
      · rw [if_pos h, if_pos (by omega)]
        have : j - i = (j - (i + 1)) + 1 := by omega
        rw [this, List.getElem?_cons_succ]
      · rw [if_neg h, if_neg (by omega)]

theorem Store.wf_writeList {α : Type} {m : Store α} (h : Store.wf m) (i : Nat) (xs : List α) : Store.wf (m.writeList i xs) := by
  induction xs generalizing m i with
  | nil => exact h
  | cons x xs ih => exact ih (Store.wf_write h _ _) _

/-- Reading the whole block. -/
theorem collect_blkGet (h : e.BlockFilled) : collect (List.range e.block.len.toNat) blkGet e = .ok e.blockBytes e := by
  refine collect_pure fun i hi => ?_
  obtain ⟨v, hv⟩ := h i (List.mem_range.mp hi)
  rw [blkGet_run hv, hv]
  rfl

theorem bwtArrGet_run {i : Nat} {v : Byte} (h : e.bwt.arr.read i = some v) : bwtArrGet i e = .ok v e := by
  unfold bwtArrGet
  rw [get_bind_run]
  exact storeGet_run h

theorem bwtArrSet_run {i : Nat} {v : Byte} (h : i < 900000) : bwtArrSet i v e = .ok () { e with bwt.arr := e.bwt.arr.write i v } := by
  unfold bwtArrSet
  rw [get_bind_run]
  exact (bind_ok (storeSet_run h)).trans rfl

theorem mergedSet_run {i : Nat} {v : Word} (h : i < 900000) :
    mergedSet i v e = .ok () { e with bwt.merged := e.bwt.merged.write i v } := by
  unfold mergedSet
  rw [get_bind_run]
  exact (bind_ok (storeSet_run h)).trans rfl

/-- Reading the whole of BWT_ARR. -/
theorem collect_bwtArrGet (h : e.BwtFilled) : collect (List.range e.bwt.len.toNat) bwtArrGet e = .ok e.bwtBytes e := by
  refine collect_pure fun i hi => ?_
  obtain ⟨v, hv⟩ := h i (List.mem_range.mp hi)
  rw [bwtArrGet_run hv, hv]
  rfl

/-- Writing a list into BWT_ARR, element by element. -/
theorem forEach_bwtArrSet {xs : List Byte} {i : Nat} (h : i + xs.length ≤ 900000) :
    forEach (xs.zipIdx i) (fun p => bwtArrSet p.2 p.1) e = .ok () { e with bwt.arr := e.bwt.arr.writeList i xs } := by
  induction xs generalizing i e with
  | nil => rfl
  | cons x xs ih =>
    simp only [List.length_cons] at h
    rw [List.zipIdx_cons, forEach_cons, bind_ok (bwtArrSet_run (by omega)), ih (by omega)]
    rfl

@[simp] theorem blockBytes_length : e.blockBytes.length = e.block.len.toNat := by simp [Engine.blockBytes]
@[simp] theorem bwtBytes_length : e.bwtBytes.length = e.bwt.len.toNat := by simp [Engine.bwtBytes]

theorem blockBytes_get {i : Nat} {v : Byte} (hi : i < e.block.len.toNat) (h : e.block.blk.read i = some v) :
    e.blockBytes[i]? = some v := by simp [Engine.blockBytes, hi, h]

/-! ### The forward transform -/

theorem bwtOrder_perm (b : List Byte) : (bwtOrder b).Perm (List.range b.length) := List.perm_insertionSort _ _

theorem rotationLe_iff (b : List Byte) (i j : Nat) :
    rotationLe b i j = true ↔ b.rotate i < b.rotate j ∨ (b.rotate i = b.rotate j ∧ i ≤ j) := by simp [rotationLe]

/-- Two byte sequences stand in one of the two orders, or are equal. -/
theorem bytes_trichotomy (a b : List Byte) : a < b ∨ a = b ∨ b < a := by
  induction a generalizing b with
  | nil => cases b <;> simp
  | cons x a ih =>
    cases b with
    | nil => simp
    | cons y b =>
      simp only [List.cons_lt_cons_iff, List.cons.injEq]
      have hxy : x < y ∨ x = y ∨ y < x := by
        rcases Nat.lt_trichotomy x.toNat y.toNat with h | h | h
        · exact .inl h
        · exact .inr (.inl (BitVec.eq_of_toNat_eq h))
        · exact .inr (.inr h)
      rcases hxy with h | h | h
      · exact .inl (.inl h)
      · rcases ih b with h' | h' | h'
        · exact .inl (.inr ⟨h, h'⟩)
        · exact .inr (.inl ⟨h, h'⟩)
        · exact .inr (.inr (.inr ⟨h.symm, h'⟩))
      · exact .inr (.inr (.inl h))

theorem bytes_lt_trans {a b c : List Byte} (hab : a < b) (hbc : b < c) : a < c := by
  induction a generalizing b c with
  | nil =>
    cases c with
    | nil => cases b <;> simp at hbc
    | cons z c => simp
  | cons x a ih =>
    cases b with
    | nil => simp at hab
    | cons y b =>
      cases c with
      | nil => simp at hbc
      | cons z c =>
        simp only [List.cons_lt_cons_iff] at *
        rcases hab with h1 | ⟨rfl, h1⟩ <;> rcases hbc with h2 | ⟨rfl, h2⟩
        · exact .inl (BitVec.lt_trans h1 h2)
        · exact .inl h1
        · exact .inl h2
        · exact .inr ⟨rfl, ih h1 h2⟩

/-- The order of rule R175: strictly by rotation, equal rotations by start index. -/
theorem bwtOrder_sorted (b : List Byte) : (bwtOrder b).Pairwise (RotationBefore b) := by
  have hs : (bwtOrder b).Pairwise (fun i j => rotationLe b i j = true) := by
    have : Std.Total (fun i j => rotationLe b i j = true) := ⟨fun i j => by
      simp only [rotationLe_iff]
      rcases bytes_trichotomy (b.rotate i) (b.rotate j) with h | h | h
      · exact .inl (.inl h)
      · rcases Nat.le_total i j with h' | h'
        · exact .inl (.inr ⟨h, h'⟩)
        · exact .inr (.inr ⟨h.symm, h'⟩)
      · exact .inr (.inl h)⟩
    have : IsTrans Nat (fun i j => rotationLe b i j = true) := ⟨fun i j k => by
      simp only [rotationLe_iff]
      rintro (h1 | ⟨h1, h1'⟩) (h2 | ⟨h2, h2'⟩)
      · exact .inl (bytes_lt_trans h1 h2)
      · exact .inl (h2 ▸ h1)
      · exact .inl (h1 ▸ h2)
      · exact .inr ⟨h1.trans h2, by omega⟩⟩
    exact List.pairwise_insertionSort _ _
  have hn : (bwtOrder b).Nodup := (bwtOrder_perm b).nodup_iff.mpr List.nodup_range
  refine (hs.and hn).imp ?_
  rintro i j ⟨h, hne⟩
  rcases (rotationLe_iff b i j).mp h with h | ⟨h, hle⟩
  · exact .inl h
  · exact .inr ⟨h, by omega⟩

theorem bwtOrder_length (b : List Byte) : (bwtOrder b).length = b.length := by simpa using (bwtOrder_perm b).length_eq

theorem bwtLast_length (b : List Byte) : (bwtLast b).length = b.length := by simp [bwtLast, bwtOrder_length]

/-- The block itself is somewhere in the order. -/
theorem bwtStart_get {b : List Byte} (h : b ≠ []) : (bwtOrder b)[bwtStart b]? = some 0 ∧ bwtStart b < b.length := by
  have hmem : 0 ∈ bwtOrder b := (bwtOrder_perm b).mem_iff.mpr (List.mem_range.mpr (List.length_pos_iff.mpr h))
  have hlt : (bwtOrder b).findIdx (fun i => decide (i = 0)) < (bwtOrder b).length :=
    List.findIdx_lt_length_of_exists ⟨0, hmem, by simp⟩
  have hget := List.findIdx_getElem (w := hlt)
  refine ⟨?_, by rw [← bwtOrder_length b]; exact hlt⟩
  unfold bwtStart
  rw [List.getElem?_eq_getElem hlt]
  simpa using hget

/-- The engine after BWT_FORWARD, less RESULT (rule R177). -/
def Engine.forwarded (e : Engine) : Engine :=
  { e with
    block.blk := match e.blockBytes with | [] => e.block.blk | b₀ :: _ => e.block.blk.write e.block.len.toNat b₀
    bwt.arr := e.bwt.arr.writeList 0 (bwtLast e.blockBytes)
    bwt.len := e.block.len
    bwt.startPtr := BitVec.ofNat 24 (bwtStart e.blockBytes) }

theorem writeWrap_run {n : Nat} {b : List Byte} (h : n < 900001) :
    writeWrap n b e = .ok () { e with block.blk := match b with | [] => e.block.blk | b₀ :: _ => e.block.blk.write n b₀ } := by
  cases b with
  | nil => rfl
  | cons b₀ b => exact blkSet_run h

/-- BWT_FORWARD, less RESULT, on a block whose bytes are all written (rule R177). -/
theorem bwtForward_run (hf : e.BlockFilled) (hn : e.block.len.toNat ≤ 900000) :
    bwtForward e = .ok (bwtStart e.blockBytes) e.forwarded := by
  unfold bwtForward
  rw [get_bind_run, bind_ok (collect_blkGet hf), bind_ok (writeWrap_run (by omega)),
    bind_ok (forEach_bwtArrSet (by rw [bwtLast_length, blockBytes_length]; omega))]
  have hs : bwtStart e.blockBytes ≤ 900000 := by
    have := List.findIdx_le_length (xs := bwtOrder e.blockBytes) (p := fun i => decide (i = 0))
    rw [bwtOrder_length, blockBytes_length] at this
    unfold bwtStart
    omega
  simp only [modBwt_bind_run, get_bind_run, pure_run, BitVec.ofNat_toNat, BitVec.setWidth_eq]
  have : (BitVec.ofNat 24 (bwtStart e.blockBytes)).toNat = bwtStart e.blockBytes := by
    rw [BitVec.toNat_ofNat]
    omega
  rw [this]
  rfl

/-! ### The inverse transform -/

/-- Where position `i` goes in MERGED (rule R178): after every position with a smaller byte, and every earlier one with the same. -/
def placeOf (b : List Byte) (i : Nat) : Nat :=
  b.countP (fun x => decide (x < b.getD i 0)) + (b.take i).countP (fun x => decide (x = b.getD i 0))

/-- The order of rule R178: by byte, then by position. -/
abbrev PositionBefore (b : List Byte) (i j : Nat) : Prop := b.getD i 0 < b.getD j 0 ∨ (b.getD i 0 = b.getD j 0 ∧ i < j)

/-- In a list in strict order, an element's place is the number of elements before it. -/
theorem place_eq_count {α : Type} {r : α → α → Prop} [DecidableRel r] (hasymm : ∀ x y, r x y → ¬ r y x) (hirr : ∀ x, ¬ r x x)
    {l : List α} (h : l.Pairwise r) {k : Nat} (hk : k < l.length) : l.countP (fun x => decide (r x l[k])) = k := by
  induction l generalizing k with
  | nil => simp at hk
  | cons x l ih =>
    obtain ⟨hx, hl⟩ := List.pairwise_cons.mp h
    cases k with
    | zero =>
      rw [List.countP_eq_zero]
      intro y hy
      rcases List.mem_cons.mp hy with rfl | hy
      · simpa using hirr _
      · simpa using hasymm _ _ (hx y hy)
    | succ k =>
      have hk' : k < l.length := by simpa using hk
      have hp : r x l[k] := hx _ (List.getElem_mem hk')
      simp only [List.getElem_cons_succ]
      rw [List.countP_cons_of_pos (by simpa using hp), ih hl hk']

theorem positionBefore_asymm (b : List Byte) (i j : Nat) (h : PositionBefore b i j) : ¬ PositionBefore b j i := by
  rintro (h2 | ⟨h2, h2'⟩) <;> rcases h with h1 | ⟨h1, h1'⟩
  · exact absurd (BitVec.lt_trans h1 h2) (BitVec.lt_irrefl _)
  · rw [h1] at h2
    exact BitVec.lt_irrefl _ h2
  · rw [h2] at h1
    exact BitVec.lt_irrefl _ h1
  · omega

theorem countP_positions (b : List Byte) (p : Byte → Bool) : (List.range b.length).countP (fun j => p (b.getD j 0)) = b.countP p := by
  induction b with
  | nil => rfl
  | cons x b ih =>
    rw [List.length_cons, List.range_succ_eq_map, List.countP_cons, List.countP_map, List.countP_cons, ← ih]
    rfl

/-- `placeOf` counts the positions before. -/
theorem placeOf_eq_count (b : List Byte) {i : Nat} (hi : i < b.length) :
    placeOf b i = (List.range b.length).countP (fun j => decide (PositionBefore b j i)) := by
  have hsplit : (List.range b.length).countP (fun j => decide (PositionBefore b j i)) =
      (List.range b.length).countP (fun j => decide (b.getD j 0 < b.getD i 0)) +
        (List.range b.length).countP (fun j => decide (b.getD j 0 = b.getD i 0 ∧ j < i)) := by
    generalize List.range b.length = l
    induction l with
    | nil => rfl
    | cons j l ih =>
      simp only [List.countP_cons, ih]
      by_cases h1 : b.getD j 0 < b.getD i 0
      · have h2 : ¬ (b.getD j 0 = b.getD i 0 ∧ j < i) := by
          rintro ⟨h2, -⟩
          rw [h2] at h1
          exact BitVec.lt_irrefl _ h1
        have h3 : PositionBefore b j i := .inl h1
        simp only [decide_eq_true h3, decide_eq_true h1, decide_eq_false h2]
        simp
        omega
      · by_cases h2 : b.getD j 0 = b.getD i 0 ∧ j < i
        · have h3 : PositionBefore b j i := .inr h2
          simp only [decide_eq_true h3, decide_eq_false h1, decide_eq_true h2]
          simp
          omega
        · have h3 : ¬ PositionBefore b j i := fun h => h.elim h1 h2
          simp only [decide_eq_false h3, decide_eq_false h1, decide_eq_false h2]
          simp
  rw [hsplit, countP_positions b fun x => decide (x < b.getD i 0)]
  unfold placeOf
  congr 1
  have htake : (List.range b.length).countP (fun j => decide (b.getD j 0 = b.getD i 0 ∧ j < i)) =
      (List.range i).countP (fun j => decide (b.getD j 0 = b.getD i 0)) := by
    have hr : List.range b.length = List.range i ++ (List.range (b.length - i)).map (i + ·) := by
      rw [← List.range_add]
      congr 1
      omega
    rw [hr, List.countP_append, List.countP_map]
    have h0 : (List.range (b.length - i)).countP ((fun j => decide (b.getD j 0 = b.getD i 0 ∧ j < i)) ∘ (i + ·)) = 0 := by
      rw [List.countP_eq_zero]
      intro j _
      simp
    rw [h0, Nat.add_zero]
    refine List.countP_congr fun j hj => ?_
    have := List.mem_range.mp hj
    simp [this]
  rw [htake, ← countP_positions (b.take i) fun x => decide (x = b.getD i 0)]
  have hl : (b.take i).length = i := by simp; omega
  rw [hl]
  refine (List.countP_congr fun j hj => ?_).symm
  have hj := List.mem_range.mp hj
  have : (b.take i).getD j 0 = b.getD j 0 := by
    rw [List.getD_eq_getElem?_getD, List.getD_eq_getElem?_getD, List.getElem?_take_of_lt hj]
  rw [this]

theorem positionBefore_irrefl (b : List Byte) (i : Nat) : ¬ PositionBefore b i i := by
  rintro (h | ⟨-, h⟩)
  · exact BitVec.lt_irrefl _ h
  · omega

theorem positionBefore_total (b : List Byte) {i j : Nat} (h : i ≠ j) : PositionBefore b i j ∨ PositionBefore b j i := by
  rcases Nat.lt_trichotomy (b.getD i 0).toNat (b.getD j 0).toNat with h' | h' | h'
  · exact .inl (.inl h')
  · have h' := BitVec.eq_of_toNat_eq h'
    rcases Nat.lt_or_ge i j with hlt | hge
    · exact .inl (.inr ⟨h', hlt⟩)
    · exact .inr (.inr ⟨h'.symm, by omega⟩)
  · exact .inr (.inl h')

theorem positionBefore_trans (b : List Byte) {i j k : Nat} (h : PositionBefore b i j) (h' : PositionBefore b j k) :
    PositionBefore b i k := by
  rcases h with h1 | ⟨h1, h1'⟩ <;> rcases h' with h2 | ⟨h2, h2'⟩
  · exact .inl (BitVec.lt_trans h1 h2)
  · exact .inl (h2 ▸ h1)
  · exact .inl (h1 ▸ h2)
  · exact .inr ⟨h1.trans h2, by omega⟩

/-- The positions in the order of rule R178. -/
def positionOrder (b : List Byte) : List Nat :=
  (List.range b.length).insertionSort (fun i j => i = j ∨ PositionBefore b i j)

theorem positionOrder_perm (b : List Byte) : (positionOrder b).Perm (List.range b.length) := List.perm_insertionSort _ _

theorem positionOrder_length (b : List Byte) : (positionOrder b).length = b.length := by simpa using (positionOrder_perm b).length_eq

theorem positionOrder_sorted (b : List Byte) : (positionOrder b).Pairwise (PositionBefore b) := by
  have hs : (positionOrder b).Pairwise (fun i j => i = j ∨ PositionBefore b i j) := by
    have : Std.Total (fun i j => i = j ∨ PositionBefore b i j) := ⟨fun i j => by
      by_cases h : i = j
      · exact .inl (.inl h)
      · rcases positionBefore_total b h with h | h
        · exact .inl (.inr h)
        · exact .inr (.inr h)⟩
    have : IsTrans Nat (fun i j => i = j ∨ PositionBefore b i j) := ⟨fun i j k => by
      rintro (rfl | h1) (rfl | h2)
      · exact .inl rfl
      · exact .inr h2
      · exact .inr h1
      · exact .inr (positionBefore_trans b h1 h2)⟩
    exact List.pairwise_insertionSort _ _
  have hn : (positionOrder b).Nodup := (positionOrder_perm b).nodup_iff.mpr List.nodup_range
  refine (hs.and hn).imp ?_
  rintro i j ⟨h | h, hne⟩
  · exact absurd h hne
  · exact h

/-- The position that stands at place `k` is the one that `placeOf` puts there. -/
theorem placeOf_positionOrder (b : List Byte) {k : Nat} (hk : k < b.length) :
    placeOf b ((positionOrder b).getD k 0) = k ∧ (positionOrder b).getD k 0 < b.length := by
  have hk' : k < (positionOrder b).length := by rwa [positionOrder_length]
  have hget : (positionOrder b).getD k 0 = (positionOrder b)[k] := by simp [hk']
  have hlt : (positionOrder b)[k] < b.length :=
    List.mem_range.mp ((positionOrder_perm b).mem_iff.mp (List.getElem_mem hk'))
  rw [hget]
  refine ⟨?_, hlt⟩
  rw [placeOf_eq_count b hlt, ← (positionOrder_perm b).countP_eq]
  exact place_eq_count (positionBefore_asymm b) (positionBefore_irrefl b) (positionOrder_sorted b) hk'

theorem placeOf_lt (b : List Byte) {i : Nat} (hi : i < b.length) : placeOf b i < b.length := by
  rw [placeOf_eq_count b hi]
  have h1 := List.countP_eq_length_filter (p := fun j => decide (PositionBefore b j i)) (l := List.range b.length)
  have h2 : (List.range b.length).countP (fun j => decide (PositionBefore b j i)) < (List.range b.length).length := by
    refine lt_of_le_of_ne List.countP_le_length ?_
    intro h
    have := List.countP_eq_length.mp h i (List.mem_range.mpr hi)
    exact positionBefore_irrefl b i (of_decide_eq_true this)
  simpa using h2

theorem placeOf_inj (b : List Byte) {i j : Nat} (hi : i < b.length) (hj : j < b.length) (h : placeOf b i = placeOf b j) : i = j := by
  by_contra hne
  have key : ∀ {i j : Nat}, i < b.length → j < b.length → PositionBefore b i j → placeOf b i < placeOf b j := by
    intro i j hi hj hij
    rw [placeOf_eq_count b hi, placeOf_eq_count b hj]
    have hle : (List.range b.length).countP (fun x => decide (PositionBefore b x i)) + 1 ≤
        (List.range b.length).countP (fun x => decide (PositionBefore b x j)) := by
      have hsum : (List.range b.length).countP (fun x => decide (PositionBefore b x i)) + (List.range b.length).countP (fun x => decide (x = i)) ≤
          (List.range b.length).countP (fun x => decide (PositionBefore b x j)) := by
        generalize List.range b.length = l
        induction l with
        | nil => simp
        | cons x l ih =>
          simp only [List.countP_cons, decide_eq_true_eq]
          by_cases h1 : PositionBefore b x i
          · have h2 : x ≠ i := by rintro rfl; exact positionBefore_irrefl b _ h1
            have h3 := positionBefore_trans b h1 hij
            rw [if_pos h1, if_neg h2, if_pos h3]
            omega
          · by_cases h2 : x = i
            · subst h2
              rw [if_neg h1, if_pos rfl, if_pos hij]
              omega
            · rw [if_neg h1, if_neg h2]
              split <;> omega
      have hone : (List.range b.length).countP (fun x => decide (x = i)) = 1 := by
        have := List.count_eq_one_of_mem (List.nodup_range (n := b.length)) (List.mem_range.mpr hi)
        rw [← this, List.count]
        refine List.countP_congr fun x _ => ?_
        simp
      omega
    omega
  rcases positionBefore_total b hne with h' | h'
  · exact absurd h (ne_of_lt (key hi hj h'))
  · exact absurd h (ne_of_gt (key hj hi h'))

theorem byteGet_tabulate {α : Type} (f : Nat → α) (v : Byte) : byteGet (tabulate 256 f) v = f v.toNat := by
  simp [byteGet, tabulate]

theorem byteGet_byteSet {α : Type} (t : Vector α 256) (u v : Byte) (x : α) :
    byteGet (byteSet t u x) v = if v = u then x else byteGet t v := by
  unfold byteGet byteSet
  by_cases h : v = u
  · subst h
    simp
  · rw [if_neg h, Vector.getElem_set_ne]
    intro h'
    exact h (BitVec.eq_of_toNat_eq h'.symm)

/-- The entry that MERGED holds for position `i` (rule R178). -/
def packed (b : List Byte) (i : Nat) : Word := BitVec.ofNat 32 (i * 256 + (b.getD i 0).toNat)

theorem packed_toNat (b : List Byte) {i : Nat} (h : i ≤ 900000) : (packed b i).toNat = i * 256 + (b.getD i 0).toNat := by
  unfold packed
  rw [BitVec.toNat_ofNat]
  have := (b.getD i 0).isLt
  omega

theorem packed_succ (b : List Byte) {i : Nat} (h : i ≤ 900000) : (packed b i).toNat / 256 = i := by
  rw [packed_toNat b h]
  have := (b.getD i 0).isLt
  omega

theorem packed_byte (b : List Byte) {i : Nat} (h : i ≤ 900000) : (packed b i).setWidth 8 = b.getD i 0 := by
  apply BitVec.eq_of_toNat_eq
  rw [BitVec.toNat_setWidth, packed_toNat b h]
  have := (b.getD i 0).isLt
  omega

theorem pack_eq (i : Nat) (v : Byte) : i <<< 8 ||| v.toNat = i * 256 + v.toNat := by
  rw [← Nat.shiftLeft_add_eq_or_of_lt v.isLt, Nat.shiftLeft_eq]

theorem countP_le_eq (b : List Byte) (v : Byte) :
    b.countP (fun x => decide (x < v)) + b.countP (fun x => decide (x = v)) = b.countP (fun x => decide (x ≤ v)) := by
  induction b with
  | nil => rfl
  | cons x b ih =>
    rw [List.countP_cons, List.countP_cons, List.countP_cons, ← ih]
    by_cases h1 : x.toNat < v.toNat
    · have h2 : x < v := h1
      have h3 : x ≠ v := by
        rintro rfl
        omega
      have h4 : x ≤ v := Nat.le_of_lt h1
      simp [h2, h3, h4]
      omega
    · have h2 : ¬ x < v := h1
      by_cases h3 : x = v
      · subst h3
        simp
        omega
      · have h4 : ¬ x ≤ v := fun h => by
          have hle : x.toNat ≤ v.toNat := h
          exact h3 (BitVec.eq_of_toNat_eq (by omega))
        simp [h2, h3, h4]

/-- `BuildInverse()` (rule R178) on written bytes: MERGED below BWT_LEN holds one entry per position, at its place, and CHAR_BASE
ends at the cumulative counts. -/
theorem buildInverse_run (hf : e.BwtFilled) (hn : e.bwt.len.toNat ≤ 900000) :
    ∃ m c, buildInverse e = .ok () { e with bwt.merged := m, bwt.charBase := c } ∧
      (∀ i < e.bwt.len.toNat, Store.read m (placeOf e.bwtBytes i) = some (packed e.bwtBytes i)) ∧
      (∀ k ≥ e.bwt.len.toNat, Store.read m k = e.bwt.merged.read k) ∧
      ∀ v : Byte, (byteGet c v).toNat = e.bwtBytes.countP (fun x => decide (x ≤ v)) := by
  have hlen : e.bwtBytes.length = e.bwt.len.toNat := bwtBytes_length
  generalize hb : e.bwtBytes = b at hlen
  have hcount : ∀ p : Byte → Bool, b.countP p ≤ 900000 := fun p => le_trans List.countP_le_length (by omega)
  unfold buildInverse
  rw [get_bind_run, bind_ok (collect_bwtArrGet hf), hb]
  simp only [modBwt_bind_run]
  have hloop := forEach_ind (xs := b.zipIdx) (c := fun p => placeMerged p.2 p.1)
    (e := { e with bwt.charBase := tabulate 256 fun v => BitVec.ofNat 20 (charBaseOf b v) })
    (fun k e' => ∃ m c, e' = { e with bwt.merged := m, bwt.charBase := c } ∧
      (∀ i < k, Store.read m (placeOf b i) = some (packed b i)) ∧ (∀ j ≥ b.length, Store.read m j = e.bwt.merged.read j) ∧
      ∀ v : Byte, (byteGet c v).toNat =
        b.countP (fun x => decide (x < v)) + (b.take k).countP (fun x => decide (x = v)))
    ?_ ⟨e.bwt.merged, _, rfl, by intro i hi; omega, fun _ _ => rfl, ?_⟩
  · obtain ⟨e', hrun, m, c, rfl, h1, h2, h3⟩ := hloop
    refine ⟨m, c, hrun, ?_, ?_, ?_⟩
    · intro i hi
      exact h1 i (by simp; omega)
    · intro k hk
      exact h2 k (by omega)
    · intro v
      rw [h3 v]
      simp only [List.length_zipIdx, List.take_length]
      exact countP_le_eq b v
  · rintro k hk e' ⟨m, c, rfl, h1, h2, h3⟩
    have hk : k < b.length := by simpa using hk
    have hbk : b.getD k 0 = b[k] := by simp [hk]
    have hplace : (byteGet c b[k]).toNat = placeOf b k := by rw [h3, placeOf, hbk]
    have hlt := placeOf_lt b hk
    simp only [List.getElem_zipIdx, Nat.zero_add]
    unfold placeMerged
    rw [get_bind_run]
    simp only [hplace]
    rw [bind_ok (mergedSet_run (by omega))]
    refine ⟨_, rfl, _, _, rfl, ?_, ?_, ?_⟩
    · intro i hi
      rw [Store.read_write]
      by_cases hik : i = k
      · subst hik
        rw [if_pos rfl, pack_eq, packed, hbk]
      · rw [if_neg (fun h => hik (placeOf_inj b (by omega) hk h)), h1 i (by omega)]
    · intro j hj
      rw [Store.read_write, if_neg (by omega), h2 j hj]
    · intro v
      rw [byteGet_byteSet, List.take_succ_eq_append_getElem hk, List.countP_append]
      by_cases hv : v = b[k]
      · rw [if_pos hv, BitVec.toNat_ofNat, hv]
        have hp : placeOf b k = b.countP (fun x => decide (x < b[k])) + (b.take k).countP (fun x => decide (x = b[k])) := by
          rw [placeOf, hbk]
        have : (placeOf b k + 1) % 2 ^ 20 = placeOf b k + 1 := by omega
        rw [this, hp]
        simp
        omega
      · rw [if_neg hv, h3 v]
        simp [Ne.symm hv]
  · intro v
    rw [byteGet_tabulate]
    simp only [List.take_zero, List.countP_nil, Nat.add_zero, BitVec.toNat_ofNat]
    have : charBaseOf b v.toNat = b.countP (fun x => decide (x < v)) := by
      unfold charBaseOf
      rfl
    rw [this]
    have := hcount fun x => decide (x < v)
    omega

/-- BWT_INV_SETUP, less RESULT, on written bytes and a start pointer inside (rules R178, R179): entry `k` of MERGED is that of the
`k`-th position by byte and position. -/
theorem bwtInvSetup_run (hf : e.BwtFilled) (hn : e.bwt.len.toNat ≤ 900000) (hp : e.bwt.startPtr.toNat < e.bwt.len.toNat) :
    ∃ m c, bwtInvSetup e = .ok e.bwt.len.toNat
        { e with
          bwt.merged := m
          bwt.charBase := c
          bwt.curEntry := packed e.bwtBytes ((positionOrder e.bwtBytes).getD e.bwt.startPtr.toNat 0)
          bwt.hopsLeft := e.bwt.len } ∧
      (∀ k < e.bwt.len.toNat, Store.read m k = some (packed e.bwtBytes ((positionOrder e.bwtBytes).getD k 0))) ∧
      (∀ k ≥ e.bwt.len.toNat, Store.read m k = e.bwt.merged.read k) ∧
      ∀ v : Byte, (byteGet c v).toNat = e.bwtBytes.countP (fun x => decide (x ≤ v)) := by
  obtain ⟨m, c, hrun, h1, h2, h3⟩ := buildInverse_run hf hn
  have hread : ∀ k < e.bwt.len.toNat, Store.read m k = some (packed e.bwtBytes ((positionOrder e.bwtBytes).getD k 0)) := by
    intro k hk
    obtain ⟨hpl, hlt⟩ := placeOf_positionOrder e.bwtBytes (k := k) (by simpa using hk)
    rw [bwtBytes_length] at hlt
    have := h1 _ hlt
    rwa [hpl] at this
  refine ⟨m, c, ?_, hread, h2, h3⟩
  unfold bwtInvSetup
  rw [get_bind_run, raiseWhen_false_bind (decide_eq_false (by omega)), bind_ok hrun]
  exact (bind_ok (mergedGet_run (hread _ hp))).trans rfl

theorem bwtInvSetup_refuses (hp : e.bwt.len.toNat ≤ e.bwt.startPtr.toNat) :
    bwtInvSetup e = .error (.raised .invalidStartPointer) e := by
  unfold bwtInvSetup
  rw [get_bind_run, raiseWhen_true_bind (decide_eq_true hp)]

/-! ### The inverse lemma -/

theorem rotate_last {x : List Byte} {n : Nat} (hx : x.length = n + 1) : x.rotate n = x.getD n 0 :: x.take n := by
  have hn : n ≤ x.length := by omega
  rw [List.rotate_eq_drop_append_take hn]
  have : x.drop n = [x.getD n 0] := by
    rw [List.drop_eq_getElem_cons (by omega), List.drop_eq_nil_of_le (by omega)]
    simp [hx]
  rw [this]
  rfl

/-- Of two sequences of one length in order, the beginnings are in order too. -/
theorem take_le_of_le {x y : List Byte} (hl : x.length = y.length) (h : x < y ∨ x = y) (n : Nat) :
    x.take n < y.take n ∨ x.take n = y.take n := by
  induction n generalizing x y with
  | zero => exact .inr (by simp)
  | succ n ih =>
    rcases h with h | rfl
    · cases x with
      | nil => cases y with
        | nil => simp at h
        | cons b y => simp at hl
      | cons a x =>
        cases y with
        | nil => simp at h
        | cons b y =>
          simp only [List.cons_lt_cons_iff] at h
          simp only [List.take_succ_cons, List.cons_lt_cons_iff, List.cons.injEq]
          rcases h with h | ⟨rfl, h⟩
          · exact .inl (.inl h)
          · rcases ih (by simpa using hl) (.inl h) with h' | h'
            · exact .inl (.inr ⟨rfl, h'⟩)
            · exact .inr ⟨rfl, h'⟩
    · exact .inr rfl

theorem bytes_lt_irrefl (x : List Byte) : ¬ x < x := by
  induction x with
  | nil => simp
  | cons a x ih =>
    rw [List.cons_lt_cons_iff]
    rintro (h | ⟨-, h⟩)
    · exact BitVec.lt_irrefl _ h
    · exact ih h

/-- The step of the walk in terms of rotations: the rotation at place `π k` is the rotation at place `k`, one further. -/
theorem walk_rotation (b : List Byte) {k : Nat} (hk : k < b.length) :
    b.rotate ((bwtOrder b).getD ((positionOrder (bwtLast b)).getD k 0) 0) = b.rotate ((bwtOrder b).getD k 0 + 1) := by
  obtain ⟨n, hn⟩ : ∃ n, b.length = n + 1 := ⟨b.length - 1, by omega⟩
  have hol : (bwtOrder b).length = n + 1 := by rw [bwtOrder_length, hn]
  have hpl : (positionOrder (bwtLast b)).length = n + 1 := by rw [positionOrder_length, bwtLast_length, hn]
  have hperm := positionOrder_perm (bwtLast b)
  rw [bwtLast_length, hn] at hperm
  -- the rotations in sorted order, and those at the positions in order, each turned back by one
  let rot : Nat → List Byte := fun i => b.rotate ((bwtOrder b).getD i 0)
  let R := (List.range (n + 1)).map rot
  let T := (positionOrder (bwtLast b)).map fun j => (rot j).rotate n
  have hrotlen : ∀ i, (rot i).length = n + 1 := fun i => by simp [rot, hn]
  have hlast : ∀ j < n + 1, (bwtLast b).getD j 0 = (rot j).getD n 0 := by
    intro j hj
    have hj' : j < (bwtOrder b).length := by omega
    have e1 : (bwtLast b).getD j 0 = b.getD (((bwtOrder b)[j] + b.length - 1) % b.length) 0 := by
      simp [bwtLast, hj']
    have e2 : (rot j).getD n 0 = b.getD ((n + (bwtOrder b)[j]) % b.length) 0 := by
      simp only [rot]
      rw [List.getD_eq_getElem?_getD, List.getElem?_rotate (by omega), ← List.getD_eq_getElem?_getD]
      simp [hj']
    rw [e1, e2, hn]
    congr 2
    omega
  let le : List Byte → List Byte → Prop := fun x y => x < y ∨ x = y
  have hR : R.Pairwise le := by
    rw [List.pairwise_map, List.pairwise_iff_getElem]
    intro i j hi hj hij
    have hs := List.pairwise_iff_getElem.mp (bwtOrder_sorted b) i j (by simp at hi; omega) (by simp at hj; omega) hij
    simp only [List.getElem_range, rot]
    have g : ∀ m (h : m < (bwtOrder b).length), (bwtOrder b).getD m 0 = (bwtOrder b)[m] := fun m h => by simp [h]
    rw [g i (by simp at hi; omega), g j (by simp at hj; omega)]
    rcases hs with h | ⟨h, -⟩
    · exact .inl h
    · exact .inr h
  have hrange : ∀ i ∈ positionOrder (bwtLast b), i < n + 1 := fun i hi => List.mem_range.mp (hperm.mem_iff.mp hi)
  have hT : T.Pairwise le := by
    rw [List.pairwise_map]
    refine (positionOrder_sorted (bwtLast b)).imp_of_mem ?_
    intro i j hi hj hij
    have hi := hrange i hi
    have hj := hrange j hj
    rw [rotate_last (hrotlen i), rotate_last (hrotlen j), ← hlast i hi, ← hlast j hj]
    rcases hij with h | ⟨h, hlt⟩
    · exact .inl (by rw [List.cons_lt_cons_iff]; exact .inl h)
    · rw [h]
      have hij : le (rot i) (rot j) := by
        have := List.pairwise_iff_getElem.mp hR i j (by simpa [R] using hi) (by simpa [R] using hj) hlt
        simpa [R] using this
      rcases take_le_of_le (by rw [hrotlen, hrotlen]) hij n with h' | h'
      · exact .inl (by rw [List.cons_lt_cons_iff]; exact .inr ⟨rfl, h'⟩)
      · exact .inr (by rw [h'])
  -- both are the rotations of the block, each as often
  have hRp : R.Perm ((List.range (n + 1)).map fun i => b.rotate i) := by
    have : R = (bwtOrder b).map fun i => b.rotate i := by
      apply List.ext_getElem
      · simp [R, hol]
      · intro i h1 h2
        have : i < (bwtOrder b).length := by simpa using h2
        simp [R, rot, this]
    rw [this]
    have := (bwtOrder_perm b).map fun i => b.rotate i
    rwa [hn] at this
  have hTp : T.Perm ((List.range (n + 1)).map fun i => b.rotate i) := by
    have h1 : T.Perm ((List.range (n + 1)).map fun j => (rot j).rotate n) := hperm.map _
    have h2 : ((List.range (n + 1)).map fun j => (rot j).rotate n) = R.map fun x => x.rotate n := by simp [R]
    rw [h2] at h1
    have h3 := hRp.map fun x => x.rotate n
    refine h1.trans (h3.trans ?_)
    rw [List.map_map]
    have h4 : (List.range (n + 1)).map ((fun x => List.rotate x n) ∘ fun i => b.rotate i) =
        b.rotate n :: (List.range n).map fun i => b.rotate i := by
      rw [List.range_succ_eq_map, List.map_cons, List.map_map]
      congr 1
      · simp
      · refine List.map_congr_left fun i _ => ?_
        simp only [Function.comp, List.rotate_rotate]
        have : i.succ + n = i + b.length := by omega
        rw [this, ← List.rotate_mod, Nat.add_mod_right, List.rotate_mod]
    rw [h4, List.range_succ, List.map_append]
    exact (List.perm_append_comm (l₁ := [b.rotate n])).trans (List.Perm.refl _)
  have hRT : T = R := by
    refine List.Perm.eq_of_pairwise (le := le) ?_ hT hR (hTp.trans hRp.symm)
    intro x y _ _ hxy hyx
    rcases hxy with h | h
    · rcases hyx with h' | h'
      · exact absurd (bytes_lt_trans h h') (bytes_lt_irrefl _)
      · exact h'.symm
    · exact h
  have hget := congrArg (fun l => l[k]?) hRT
  have hk1 : k < n + 1 := by omega
  have e1 : T[k]? = some ((rot ((positionOrder (bwtLast b)).getD k 0)).rotate n) := by
    have : k < (positionOrder (bwtLast b)).length := by omega
    simp [T, this]
  have e2 : R[k]? = some (rot k) := by simp [R, hk1]
  simp only [e1, e2, Option.some.injEq] at hget
  have h1 : ((rot ((positionOrder (bwtLast b)).getD k 0)).rotate n).rotate 1 = rot ((positionOrder (bwtLast b)).getD k 0) := by
    rw [List.rotate_rotate, ← hrotlen ((positionOrder (bwtLast b)).getD k 0), List.rotate_length]
  show rot ((positionOrder (bwtLast b)).getD k 0) = _
  rw [← h1, hget]
  simp [rot, List.rotate_rotate]

/-- The byte that the walk emits at place `π k` is the first byte of the rotation at place `k`. -/
theorem walk_byte (b : List Byte) {k : Nat} (hk : k < b.length) :
    (bwtLast b).getD ((positionOrder (bwtLast b)).getD k 0) 0 = b.getD ((bwtOrder b).getD k 0 % b.length) 0 := by
  have hπ : (positionOrder (bwtLast b)).getD k 0 < b.length := by
    have := (placeOf_positionOrder (bwtLast b) (k := k) (by rwa [bwtLast_length])).2
    rwa [bwtLast_length] at this
  have hj : (positionOrder (bwtLast b)).getD k 0 < (bwtOrder b).length := by rwa [bwtOrder_length]
  have h := congrArg (fun x : List Byte => x[b.length - 1]?) (walk_rotation b hk)
  rw [List.getElem?_rotate (by omega), List.getElem?_rotate (by omega)] at h
  have e1 : ∀ p < (bwtOrder b).length, (bwtLast b).getD p 0 = b.getD (((bwtOrder b).getD p 0 + b.length - 1) % b.length) 0 := by
    intro p hp
    simp [bwtLast, hp]
  rw [e1 _ hj, List.getD_eq_getElem?_getD, List.getD_eq_getElem?_getD (l := b)]
  have e2 : b.length - 1 + (bwtOrder b).getD ((positionOrder (bwtLast b)).getD k 0) 0 =
      (bwtOrder b).getD ((positionOrder (bwtLast b)).getD k 0) 0 + b.length - 1 := by omega
  have e3 : (b.length - 1 + ((bwtOrder b).getD k 0 + 1)) % b.length = (bwtOrder b).getD k 0 % b.length := by
    have : b.length - 1 + ((bwtOrder b).getD k 0 + 1) = (bwtOrder b).getD k 0 + b.length := by omega
    rw [this, Nat.add_mod_right]
  rw [e2, e3] at h
  rw [h]

/-- A walk through MERGED as BWT_INV_SETUP leaves it yields the block from the rotation it stands at (rule R184). -/
theorem walks_of_merged {b : List Byte} (hb : b.length ≤ 900000) {m : Store Word}
    (hm : ∀ k < b.length, Store.read m k = some (packed (bwtLast b) ((positionOrder (bwtLast b)).getD k 0))) :
    ∀ (t k j : Nat) (d : Engine), t + j = b.length → k < b.length → b.rotate ((bwtOrder b).getD k 0) = b.rotate j →
      d.bwt.merged = m → d.bwt.curEntry = packed (bwtLast b) ((positionOrder (bwtLast b)).getD k 0) →
      d.bwt.hopsLeft = BitVec.ofNat 20 t → d.Walks (b.drop j) := by
  intro t
  induction t with
  | zero =>
    intro k j d hj _ _ _ _ hh
    have : b.drop j = [] := List.drop_eq_nil_of_le (by omega)
    rw [this]
    exact hh
  | succ t ih =>
    intro k j d hj hk hrot hmd hcur hh
    have hjl : j < b.length := by omega
    have hlen : (b.drop j).length = t + 1 := by simp; omega
    obtain ⟨hpl, hπ⟩ := placeOf_positionOrder (bwtLast b) (k := k) (by rwa [bwtLast_length])
    rw [bwtLast_length] at hπ
    have hw := walk_rotation b hk
    have hbyte : (bwtLast b).getD ((positionOrder (bwtLast b)).getD k 0) 0 = b[j] := by
      rw [walk_byte b hk]
      have h0 := congrArg (fun x : List Byte => x[0]?) hrot
      rw [List.getElem?_rotate (by omega), List.getElem?_rotate (by omega)] at h0
      rw [List.getD_eq_getElem?_getD]
      simp only [Nat.zero_add] at h0
      rw [h0, Nat.mod_eq_of_lt hjl, List.getElem?_eq_getElem hjl]
      rfl
    rw [List.drop_eq_getElem_cons hjl]
    refine ⟨?_, ?_, packed (bwtLast b) ((positionOrder (bwtLast b)).getD ((positionOrder (bwtLast b)).getD k 0) 0), ?_, ?_⟩
    · rw [hh, BitVec.toNat_ofNat]
      simp
      omega
    · rw [hcur, packed_byte _ (by omega), hbyte]
    · rw [hmd, hcur, packed_succ _ (by omega)]
      exact hm _ hπ
    · have hd : (b.drop (j + 1)).length = t := by simp; omega
      refine ih ((positionOrder (bwtLast b)).getD k 0) (j + 1) _ (by omega) hπ ?_ hmd rfl ?_
      · rw [hw, ← List.rotate_rotate, hrot, List.rotate_rotate]
      · rw [← hd]

end Sys2Proof.Machine
end

