-- ==== Sys2Proof/Laws/Encode.lean ====
section
/-! SUPPORT. The fields of a command word put together from its fields (rule R100). -/

namespace Sys2Proof

set_option Elab.async false

variable (imm : BitVec 16) (t : BitVec 3) (n : BitVec 5) (opc : BitVec 8)

theorem commandWord_toNat :
    (commandWord imm t n opc).toNat = imm.toNat * 65536 + t.toNat * 8192 + n.toNat * 256 + opc.toNat := by
  have h1 := opc.isLt
  have h2 := n.isLt
  have h3 := t.isLt
  show (imm ++ t ++ n ++ opc).toNat = _
  rw [BitVec.toNat_append, BitVec.toNat_append, BitVec.toNat_append, ← Nat.shiftLeft_add_eq_or_of_lt h1,
    ← Nat.shiftLeft_add_eq_or_of_lt h2, ← Nat.shiftLeft_add_eq_or_of_lt h3]
  simp only [Nat.shiftLeft_eq]
  omega

@[simp] theorem fieldOpc_commandWord : fieldOpc (commandWord imm t n opc) = opc := by
  apply BitVec.eq_of_toNat_eq
  have := opc.isLt
  simp only [fieldOpc, BitVec.extractLsb'_toNat, commandWord_toNat, Nat.shiftRight_zero]
  omega

@[simp] theorem fieldN_commandWord : fieldN (commandWord imm t n opc) = n := by
  apply BitVec.eq_of_toNat_eq
  have := opc.isLt
  have := n.isLt
  simp only [fieldN, BitVec.extractLsb'_toNat, commandWord_toNat, Nat.shiftRight_eq_div_pow]
  omega

@[simp] theorem fieldT_commandWord : fieldT (commandWord imm t n opc) = t := by
  apply BitVec.eq_of_toNat_eq
  have := opc.isLt
  have := n.isLt
  have := t.isLt
  simp only [fieldT, BitVec.extractLsb'_toNat, commandWord_toNat, Nat.shiftRight_eq_div_pow]
  omega

@[simp] theorem fieldImm_commandWord : fieldImm (commandWord imm t n opc) = imm := by
  apply BitVec.eq_of_toNat_eq
  have := opc.isLt
  have := n.isLt
  have := t.isLt
  have := imm.isLt
  simp only [fieldImm, BitVec.extractLsb'_toNat, commandWord_toNat, Nat.shiftRight_eq_div_pow]
  omega

/-- A narrower operand comes back from the field it was widened into. -/
theorem setWidth_setWidth_le {a b : Nat} (x : BitVec a) (h : a ≤ b) : (x.setWidth b).setWidth a = x := by
  apply BitVec.eq_of_toNat_eq
  have hx := x.isLt
  have : 2 ^ a ≤ 2 ^ b := Nat.pow_le_pow_right (by decide) h
  rw [BitVec.toNat_setWidth, BitVec.toNat_setWidth, Nat.mod_eq_of_lt (show x.toNat < 2 ^ b by omega), Nat.mod_eq_of_lt hx]

end Sys2Proof
end

