-- ==== Sys2Proof/Laws/Rel.lean ====
section
/-! SUPPORT. What a piece of pseudocode does to the engine however it ends, and when it ends normally: composition once, for any
relation that composes. Frames and invariants are instances. -/

namespace Sys2Proof.Machine

set_option Elab.async false

variable {α β : Type}

/-- The engine a piece leaves, however it ends. -/
def Cmd.after (c : Cmd α) (e : Engine) : Engine :=
  match c e with
  | .ok _ e' => e'
  | .error _ e' => e'

theorem Cmd.after_ok {c : Cmd α} {e e' : Engine} {a : α} (h : c e = .ok a e') : c.after e = e' := by simp [Cmd.after, h]

theorem Cmd.after_error {c : Cmd α} {e e' : Engine} {r : Stop} (h : c e = .error r e') : c.after e = e' := by
  simp [Cmd.after, h]

/-- A relation between engines that composes. -/
structure Composes (R : Engine → Engine → Prop) : Prop where
  refl : ∀ e, R e e
  trans : ∀ {a b c}, R a b → R b c → R a c

/-- However the piece ends, `R` relates the engine before and after it. -/
def Cmd.Rel (R : Engine → Engine → Prop) (c : Cmd α) : Prop := ∀ e, R e (c.after e)

/-- When the piece ends normally, `R` relates the engine before and after it. -/
def Cmd.OkRel (R : Engine → Engine → Prop) (c : Cmd α) : Prop := ∀ e a e', c e = .ok a e' → R e e'

section
variable {R : Engine → Engine → Prop}

theorem rel_pure (hR : Composes R) (a : α) : Cmd.Rel R (pure a : Cmd α) := fun e => hR.refl e
theorem rel_get (hR : Composes R) : Cmd.Rel R (get : Cmd Engine) := fun e => hR.refl e
theorem rel_throw (hR : Composes R) (r : Stop) : Cmd.Rel R (throw r : Cmd α) := fun e => hR.refl e
theorem rel_raise (hR : Composes R) (k : ErrorKind) : Cmd.Rel R (Cmd.raise k : Cmd α) := fun e => hR.refl e
theorem rel_fail (hR : Composes R) (f : Fault) : Cmd.Rel R (Cmd.fail f : Cmd α) := fun e => hR.refl e

theorem rel_bind (hR : Composes R) {x : Cmd α} {f : α → Cmd β} (hx : Cmd.Rel R x) (hf : ∀ a, Cmd.Rel R (f a)) :
    Cmd.Rel R (x >>= f) := by
  intro e
  have h1 := hx e
  unfold Cmd.after at h1 ⊢
  rw [bind_run]
  cases h : x e with
  | ok a e' =>
    rw [h] at h1
    exact hR.trans h1 (hf a e')
  | error r e' =>
    rw [h] at h1
    exact h1

/-- After a `get`, the piece runs from the engine it was given. -/
theorem rel_get_bind {f : Engine → Cmd β} (hf : ∀ e, R e ((f e).after e)) : Cmd.Rel R (get >>= f) := fun e => hf e

theorem rel_ite {c : Prop} [Decidable c] {x y : Cmd α} (hx : Cmd.Rel R x) (hy : Cmd.Rel R y) :
    Cmd.Rel R (if c then x else y) := by split <;> assumption

theorem rel_requireOk (hR : Composes R) (ok : Bool) : Cmd.Rel R (requireOk ok) := by
  cases ok
  · exact rel_raise hR _
  · exact rel_pure hR _

theorem rel_raiseWhen (hR : Composes R) (c : Bool) (k : ErrorKind) : Cmd.Rel R (raiseWhen c k) := by
  cases c
  · exact rel_pure hR _
  · exact rel_raise hR _

theorem rel_doWhen (hR : Composes R) {c : Bool} {x : Cmd Unit} (hx : Cmd.Rel R x) : Cmd.Rel R (doWhen c x) := by
  cases c
  · exact rel_pure hR _
  · exact hx

theorem rel_repeatCmd (hR : Composes R) {c : Cmd Unit} (hc : Cmd.Rel R c) (n : Nat) : Cmd.Rel R (repeatCmd n c) := by
  induction n with
  | zero => exact rel_pure hR _
  | succ n ih => exact rel_bind hR hc fun _ => ih

theorem rel_forEach (hR : Composes R) {xs : List α} {c : α → Cmd Unit} (hc : ∀ x, Cmd.Rel R (c x)) :
    Cmd.Rel R (forEach xs c) := by
  induction xs with
  | nil => exact rel_pure hR _
  | cons x xs ih => exact rel_bind hR (hc x) fun _ => ih

theorem rel_collect (hR : Composes R) {xs : List α} {c : α → Cmd β} (hc : ∀ x, Cmd.Rel R (c x)) :
    Cmd.Rel R (collect xs c) := by
  induction xs with
  | nil => exact rel_pure hR _
  | cons x xs ih => exact rel_bind hR (hc x) fun _ => rel_bind hR ih fun _ => rel_pure hR _

theorem rel_tableGet (hR : Composes R) {n : Nat} (a : ArrayName) (v : Vector α n) (i : Nat) :
    Cmd.Rel R (tableGet a v i) := by
  unfold tableGet; split
  · exact rel_pure hR _
  · exact rel_fail hR _

theorem rel_tableSet (hR : Composes R) {n : Nat} (a : ArrayName) (v : Vector α n) (i : Nat) (x : α) :
    Cmd.Rel R (tableSet a v i x) := by
  unfold tableSet; split
  · exact rel_pure hR _
  · exact rel_fail hR _

theorem rel_tableGet2 (hR : Composes R) {n : Nat} (a : ArrayName) (v : Table6 α n) (t s : Nat) :
    Cmd.Rel R (tableGet2 a v t s) := rel_bind hR (rel_tableGet hR _ _ _) fun _ => rel_tableGet hR _ _ _

theorem rel_tableSet2 (hR : Composes R) {n : Nat} (a : ArrayName) (v : Table6 α n) (t s : Nat) (x : α) :
    Cmd.Rel R (tableSet2 a v t s x) :=
  rel_bind hR (rel_tableGet hR _ _ _) fun _ => rel_bind hR (rel_tableSet hR _ _ _ _) fun _ => rel_tableSet hR _ _ _ _

theorem rel_storeGet (hR : Composes R) (a : ArrayName) (m : Store α) (i : Nat) : Cmd.Rel R (storeGet a m i) := by
  unfold storeGet; split
  · exact rel_pure hR _
  · exact rel_fail hR _

theorem rel_storeSet (hR : Composes R) (a : ArrayName) (size : Nat) (m : Store α) (i : Nat) (x : α) :
    Cmd.Rel R (storeSet a size m i x) := by
  unfold storeSet; split
  · exact rel_pure hR _
  · exact rel_fail hR _

theorem rel_readArg (hR : Composes R) : Cmd.Rel R readArg := fun e => hR.refl e
theorem rel_argLow (hR : Composes R) (n : Nat) : Cmd.Rel R (argLow n) := fun e => hR.refl e
theorem rel_argByte (hR : Composes R) : Cmd.Rel R argByte := fun e => hR.refl e

theorem rel_modify {f : Engine → Engine} (h : ∀ e : Engine, R e (f e)) : Cmd.Rel R (modify f : Cmd Unit) := h
theorem rel_modHost {f : HostBlock → HostBlock} (h : ∀ e : Engine, R e { e with host := f e.host }) : Cmd.Rel R (modHost f) := h
theorem rel_modBits {f : BitEngine → BitEngine} (h : ∀ e : Engine, R e { e with bits := f e.bits }) : Cmd.Rel R (modBits f) := h
theorem rel_modBlock {f : BlockUnit → BlockUnit} (h : ∀ e : Engine, R e { e with block := f e.block }) : Cmd.Rel R (modBlock f) := h
theorem rel_modBwt {f : BwtUnit → BwtUnit} (h : ∀ e : Engine, R e { e with bwt := f e.bwt }) : Cmd.Rel R (modBwt f) := h
theorem rel_modMtf {f : MtfUnit → MtfUnit} (h : ∀ e : Engine, R e { e with mtf := f e.mtf }) : Cmd.Rel R (modMtf f) := h
theorem rel_modHuf {f : HufUnit → HufUnit} (h : ∀ e : Engine, R e { e with huf := f e.huf }) : Cmd.Rel R (modHuf f) := h
theorem rel_modCrc {f : CrcUnit → CrcUnit} (h : ∀ e : Engine, R e { e with crc := f e.crc }) : Cmd.Rel R (modCrc f) := h
theorem rel_modFrame {f : FrameUnit → FrameUnit} (h : ∀ e : Engine, R e { e with frame := f e.frame }) : Cmd.Rel R (modFrame f) := h

/-- A relation that holds however the piece ends holds when it ends normally. -/
theorem Cmd.Rel.ok {c : Cmd α} (h : Cmd.Rel R c) : Cmd.OkRel R c := by
  intro e a e' he
  have := h e
  rwa [Cmd.after_ok he] at this

theorem okRel_pure (hR : Composes R) (a : α) : Cmd.OkRel R (pure a : Cmd α) := (rel_pure hR a).ok
theorem okRel_raise (k : ErrorKind) : Cmd.OkRel R (Cmd.raise k : Cmd α) := by intro e a e' h; cases h
theorem okRel_fail (f : Fault) : Cmd.OkRel R (Cmd.fail f : Cmd α) := by intro e a e' h; cases h

theorem okRel_bind (hR : Composes R) {x : Cmd α} {f : α → Cmd β} (hx : Cmd.OkRel R x) (hf : ∀ a, Cmd.OkRel R (f a)) :
    Cmd.OkRel R (x >>= f) := by
  intro e b e' h
  rw [bind_run] at h
  cases hxe : x e with
  | ok a e1 =>
    rw [hxe] at h
    exact hR.trans (hx e a e1 hxe) (hf a e1 b e' h)
  | error r e1 => rw [hxe] at h; cases h

theorem okRel_get_bind {f : Engine → Cmd β} (hf : ∀ e b e', f e e = .ok b e' → R e e') : Cmd.OkRel R (get >>= f) :=
  fun e b e' h => hf e b e' h

theorem okRel_ite {c : Prop} [Decidable c] {x y : Cmd α} (hx : Cmd.OkRel R x) (hy : Cmd.OkRel R y) :
    Cmd.OkRel R (if c then x else y) := by split <;> assumption

theorem okRel_doWhen (hR : Composes R) {c : Bool} {x : Cmd Unit} (hx : Cmd.OkRel R x) : Cmd.OkRel R (doWhen c x) := by
  cases c
  · exact okRel_pure hR _
  · exact hx

theorem okRel_repeatCmd (hR : Composes R) {c : Cmd Unit} (hc : Cmd.OkRel R c) (n : Nat) : Cmd.OkRel R (repeatCmd n c) := by
  induction n with
  | zero => exact okRel_pure hR _
  | succ n ih => exact okRel_bind hR hc fun _ => ih

theorem okRel_forEach (hR : Composes R) {xs : List α} {c : α → Cmd Unit} (hc : ∀ x, Cmd.OkRel R (c x)) :
    Cmd.OkRel R (forEach xs c) := by
  induction xs with
  | nil => exact okRel_pure hR _
  | cons x xs ih => exact okRel_bind hR (hc x) fun _ => ih

theorem okRel_collect (hR : Composes R) {xs : List α} {c : α → Cmd β} (hc : ∀ x, Cmd.OkRel R (c x)) :
    Cmd.OkRel R (collect xs c) := by
  induction xs with
  | nil => exact okRel_pure hR _
  | cons x xs ih => exact okRel_bind hR (hc x) fun _ => okRel_bind hR ih fun _ => okRel_pure hR _

end

/-! ### Ending normally, with a condition before and after -/

/-- From an engine that meets `P`, a piece that ends normally ends with a value and an engine that meet `Q`. -/
def Cmd.Ends (P : Engine → Prop) (c : Cmd α) (Q : α → Engine → Prop) : Prop := ∀ e a e', P e → c e = .ok a e' → Q a e'

theorem ends_bind {P : Engine → Prop} {x : Cmd α} {f : α → Cmd β} {Q : α → Engine → Prop} {S : β → Engine → Prop}
    (hx : Cmd.Ends P x Q) (hf : ∀ a, Cmd.Ends (Q a) (f a) S) : Cmd.Ends P (x >>= f) S := by
  intro e b e' hp h
  rw [bind_run] at h
  cases hxe : x e with
  | ok a e1 =>
    rw [hxe] at h
    exact hf a e1 b e' (hx e a e1 hp hxe) h
  | error r e1 => rw [hxe] at h; cases h

end Sys2Proof.Machine
end

