-- ==== Sys2Proof/Laws/Frame.lean ====
section
/-! SUPPORT. What each piece of pseudocode may write, however it ends: one lemma per piece, composed from those of its parts. -/

namespace Sys2Proof.Machine

set_option Elab.async false

variable {α β : Type}

/-- However the piece ends, every register outside `W` is as before. -/
abbrev Writes (W : List Reg) (c : Cmd α) : Prop := Cmd.Rel (fun a b => ∀ r : Reg, r ∉ W → r.same a b) c

theorem Reg.same_refl (r : Reg) (e : Engine) : r.same e e := by cases r <;> rfl

theorem Reg.same_trans {r : Reg} {a b c : Engine} (h : r.same a b) (h' : r.same b c) : r.same a c := by
  cases r <;> exact Eq.trans h h'

theorem Reg.same_symm {r : Reg} {a b : Engine} (h : r.same a b) : r.same b a := by cases r <;> exact Eq.symm h

theorem composes_frame (W : List Reg) : Composes (fun a b => ∀ r : Reg, r ∉ W → r.same a b) where
  refl e r _ := r.same_refl e
  trans h h' r hr := Reg.same_trans (h r hr) (h' r hr)

/-- A piece that writes less. -/
theorem writes_mono {W W' : List Reg} {c : Cmd α} (h : Writes W c) (hs : ∀ r ∈ W, r ∈ W') : Writes W' c :=
  fun e r hr => h e r fun hm => hr (hs r hm)

theorem writes_setResult (v : Nat) : Writes [.result] (setResult v) := by
  intro e r hr; cases r <;> first | rfl | exact absurd (by decide +kernel) hr

theorem writes_setNodata : Writes [.nodata] (setNodata) := by
  intro e r hr; cases r <;> first | rfl | exact absurd (by decide +kernel) hr

theorem writes_setFull : Writes [.full] (setFull) := by
  intro e r hr; cases r <;> first | rfl | exact absurd (by decide +kernel) hr

theorem writes_endWithNodata : Writes [.nodata, .result] (endWithNodata) := by
  intro e r hr; cases r <;> first | rfl | exact absurd (by decide +kernel) hr

theorem writes_setPhase (p : Phase) : Writes [.phase] (setPhase p) := by
  intro e r hr; cases r <;> first | rfl | exact absurd (by decide +kernel) hr

theorem writes_drawFree (n : Nat) : Writes [.freeCount] (drawFree n) := by
  intro e r hr; cases r <;> first | rfl | exact absurd (by decide +kernel) hr

theorem writes_resultOrNodata (b : Option Byte) : Writes [.nodata, .result] (resultOrNodata b) := by
  cases b
  · exact writes_endWithNodata
  · exact writes_mono (writes_setResult _) (by decide +kernel)

theorem writes_inByte : Writes [.inFifo] inByte := by
  intro e r hr
  rcases hi : e.host.inFifo with _ | ⟨b, rest⟩
  · cases he : e.host.eoi
    · rw [Cmd.after_error (inByte_wait hi he)]
      exact r.same_refl e
    · rw [Cmd.after_error (inByte_end hi he)]
      exact r.same_refl e
  · rw [Cmd.after_ok (inByte_cons hi)]
    cases r <;> first | rfl | exact absurd (by decide +kernel) hr

theorem writes_outByte (v : Byte) : Writes [.outFifo] (outByte v) := by
  unfold outByte
  refine rel_bind (composes_frame _) (rel_get (composes_frame _)) fun e => ?_
  split
  · intro e r hr; cases r <;> first | rfl | exact absurd (by decide +kernel) hr
  · exact rel_throw (composes_frame _) _

theorem writes_fillByte : Writes readerRegs (fillByte) := by
  unfold fillByte
  repeat' first
    | with_reducible exact writes_mono (writes_inByte) (by decide +kernel)
    | with_reducible refine rel_bind (composes_frame _) ?_ fun _ => ?_
    | ((with_reducible refine rel_modBits ?_); intro e r hr; cases r <;> first | rfl | exact absurd (by decide +kernel) hr)

theorem writes_fillTo (n fuel : Nat) : Writes readerRegs (fillTo n fuel) := by
  induction fuel with
  | zero => exact rel_pure (composes_frame _) _
  | succ k ih =>
    refine rel_bind (composes_frame _) (rel_get (composes_frame _)) fun e => ?_
    split
    · exact rel_bind (composes_frame _) writes_fillByte fun _ => ih
    · exact rel_pure (composes_frame _) _

theorem writes_takeBits (n : Nat) : Writes readerRegs (takeBits n) := by
  unfold takeBits
  repeat' first
    | with_reducible exact rel_pure (composes_frame _) _
    | with_reducible exact rel_get (composes_frame _)
    | with_reducible refine rel_bind (composes_frame _) ?_ fun _ => ?_
    | ((with_reducible refine rel_modBits ?_); intro e r hr; cases r <;> first | rfl | exact absurd (by decide +kernel) hr)

theorem writes_readBits (n : Nat) : Writes readerRegs (readBits n) := by
  unfold readBits
  repeat' first
    | with_reducible exact writes_mono (writes_fillTo _ _) (by decide +kernel)
    | with_reducible exact writes_mono (writes_takeBits _) (by decide +kernel)
    | with_reducible exact rel_pure (composes_frame _) _
    | with_reducible refine rel_bind (composes_frame _) ?_ fun _ => ?_
    | split

theorem writes_readUnaryFrom (left c : Nat) : Writes readerRegs (readUnaryFrom left c) := by
  induction left generalizing c with
  | zero => exact rel_raise (composes_frame _) _
  | succ k ih =>
    refine rel_bind (composes_frame _) (writes_readBits 1) fun b => ?_
    split
    · exact rel_pure (composes_frame _) _
    · exact ih _

theorem writes_readUnary (m : Nat) : Writes readerRegs (readUnary m) := by
  unfold readUnary
  repeat' first
    | with_reducible exact writes_mono (writes_readUnaryFrom _ _) (by decide +kernel)

theorem writes_read32 : Writes readerRegs (read32) := by
  unfold read32
  repeat' first
    | with_reducible exact writes_mono (writes_readBits _) (by decide +kernel)
    | with_reducible exact rel_pure (composes_frame _) _
    | with_reducible refine rel_bind (composes_frame _) ?_ fun _ => ?_

theorem writes_read48 : Writes readerRegs (read48) := by
  unfold read48
  repeat' first
    | with_reducible exact writes_mono (writes_readBits _) (by decide +kernel)
    | with_reducible exact rel_pure (composes_frame _) _
    | with_reducible refine rel_bind (composes_frame _) ?_ fun _ => ?_

theorem writes_emitBytes (k : Nat) : Writes writerRegs (emitBytes k) := by
  induction k with
  | zero => exact rel_pure (composes_frame _) _
  | succ k ih =>
    unfold emitBytes
    refine rel_bind (composes_frame _) (rel_get (composes_frame _)) fun e => ?_
    refine rel_bind (composes_frame _) (writes_mono (writes_outByte _) (by decide +kernel)) fun _ => ?_
    refine rel_bind (composes_frame _) ?_ fun _ => ih
    intro e r hr; cases r <;> first | rfl | exact absurd (by decide +kernel) hr

theorem writes_pushBits (n v : Nat) : Writes writerRegs (pushBits n v) := by
  unfold pushBits
  repeat' first
    | ((with_reducible refine rel_modBits ?_); intro e r hr; cases r <;> first | rfl | exact absurd (by decide +kernel) hr)

theorem writes_writeBits (n v : Nat) : Writes writerRegs (writeBits n v) := by
  unfold writeBits
  repeat' first
    | with_reducible exact writes_mono (writes_pushBits _ _) (by decide +kernel)
    | with_reducible exact writes_mono (writes_emitBytes _) (by decide +kernel)
    | with_reducible exact rel_pure (composes_frame _) _
    | with_reducible exact rel_get (composes_frame _)
    | with_reducible refine rel_bind (composes_frame _) ?_ fun _ => ?_
    | split

theorem writes_writeUnary (c : Nat) : Writes writerRegs (writeUnary c) := by
  unfold writeUnary
  repeat' first
    | with_reducible exact writes_mono (writes_writeBits _ _) (by decide +kernel)
    | with_reducible refine rel_bind (composes_frame _) ?_ fun _ => ?_
    | with_reducible refine rel_repeatCmd (composes_frame _) ?_ _

theorem writes_flushWriter : Writes writerRegs (flushWriter) := by
  unfold flushWriter
  repeat' first
    | with_reducible exact writes_mono (writes_outByte _) (by decide +kernel)
    | with_reducible exact rel_get (composes_frame _)
    | with_reducible refine rel_bind (composes_frame _) ?_ fun _ => ?_
    | with_reducible refine rel_doWhen (composes_frame _) ?_
    | ((with_reducible refine rel_modBits ?_); intro e r hr; cases r <;> first | rfl | exact absurd (by decide +kernel) hr)

theorem writes_write32 (v : Nat) : Writes writerRegs (write32 v) := by
  unfold write32
  repeat' first
    | with_reducible exact writes_mono (writes_writeBits _ _) (by decide +kernel)
    | with_reducible refine rel_bind (composes_frame _) ?_ fun _ => ?_

theorem writes_write48 (v : Nat) : Writes writerRegs (write48 v) := by
  unfold write48
  repeat' first
    | with_reducible exact writes_mono (writes_writeBits _ _) (by decide +kernel)
    | with_reducible refine rel_bind (composes_frame _) ?_ fun _ => ?_

theorem writes_blkGet (i : Nat) : Writes [] (blkGet i) := by
  unfold blkGet
  repeat' first
    | with_reducible exact rel_get (composes_frame _)
    | with_reducible exact rel_storeGet (composes_frame _) _ _ _
    | with_reducible refine rel_bind (composes_frame _) ?_ fun _ => ?_

theorem writes_blkSet (i : Nat) (v : Byte) : Writes [.blk] (blkSet i v) := by
  unfold blkSet
  repeat' first
    | with_reducible exact rel_get (composes_frame _)
    | with_reducible exact rel_storeSet (composes_frame _) _ _ _ _ _
    | with_reducible refine rel_bind (composes_frame _) ?_ fun _ => ?_
    | ((with_reducible refine rel_modBlock ?_); intro e r hr; cases r <;> first | rfl | exact absurd (by decide +kernel) hr)

theorem writes_bwtArrGet (i : Nat) : Writes [] (bwtArrGet i) := by
  unfold bwtArrGet
  repeat' first
    | with_reducible exact rel_get (composes_frame _)
    | with_reducible exact rel_storeGet (composes_frame _) _ _ _
    | with_reducible refine rel_bind (composes_frame _) ?_ fun _ => ?_

theorem writes_bwtArrSet (i : Nat) (v : Byte) : Writes [.bwtArr] (bwtArrSet i v) := by
  unfold bwtArrSet
  repeat' first
    | with_reducible exact rel_get (composes_frame _)
    | with_reducible exact rel_storeSet (composes_frame _) _ _ _ _ _
    | with_reducible refine rel_bind (composes_frame _) ?_ fun _ => ?_
    | ((with_reducible refine rel_modBwt ?_); intro e r hr; cases r <;> first | rfl | exact absurd (by decide +kernel) hr)

theorem writes_mergedGet (i : Nat) : Writes [] (mergedGet i) := by
  unfold mergedGet
  repeat' first
    | with_reducible exact rel_get (composes_frame _)
    | with_reducible exact rel_storeGet (composes_frame _) _ _ _
    | with_reducible refine rel_bind (composes_frame _) ?_ fun _ => ?_

theorem writes_mergedSet (i : Nat) (v : Word) : Writes [.merged] (mergedSet i v) := by
  unfold mergedSet
  repeat' first
    | with_reducible exact rel_get (composes_frame _)
    | with_reducible exact rel_storeSet (composes_frame _) _ _ _ _ _
    | with_reducible refine rel_bind (composes_frame _) ?_ fun _ => ?_
    | ((with_reducible refine rel_modBwt ?_); intro e r hr; cases r <;> first | rfl | exact absurd (by decide +kernel) hr)

theorem writes_writeWrap (n : Nat) (b : List Byte) : Writes [.blk] (writeWrap n b) := by
  unfold writeWrap
  repeat' first
    | with_reducible exact writes_mono (writes_blkSet _ _) (by decide +kernel)
    | with_reducible exact rel_pure (composes_frame _) _
    | split

theorem writes_bwtForward : Writes forwardRegs (bwtForward) := by
  unfold bwtForward
  repeat' first
    | with_reducible exact writes_mono (writes_blkGet _) (by decide +kernel)
    | with_reducible exact writes_mono (writes_writeWrap _ _) (by decide +kernel)
    | with_reducible exact writes_mono (writes_bwtArrSet _ _) (by decide +kernel)
    | with_reducible exact rel_pure (composes_frame _) _
    | with_reducible exact rel_get (composes_frame _)
    | with_reducible refine rel_bind (composes_frame _) ?_ fun _ => ?_
    | with_reducible refine rel_forEach (composes_frame _) fun _ => ?_
    | with_reducible refine rel_collect (composes_frame _) fun _ => ?_
    | ((with_reducible refine rel_modBwt ?_); intro e r hr; cases r <;> first | rfl | exact absurd (by decide +kernel) hr)

theorem writes_placeMerged (i : Nat) (v : Byte) : Writes [.merged, .charBase] (placeMerged i v) := by
  unfold placeMerged
  repeat' first
    | with_reducible exact writes_mono (writes_mergedSet _ _) (by decide +kernel)
    | with_reducible exact rel_get (composes_frame _)
    | with_reducible refine rel_bind (composes_frame _) ?_ fun _ => ?_
    | ((with_reducible refine rel_modBwt ?_); intro e r hr; cases r <;> first | rfl | exact absurd (by decide +kernel) hr)

theorem writes_buildInverse : Writes [.merged, .charBase] (buildInverse) := by
  unfold buildInverse
  repeat' first
    | with_reducible exact writes_mono (writes_bwtArrGet _) (by decide +kernel)
    | with_reducible exact writes_mono (writes_placeMerged _ _) (by decide +kernel)
    | with_reducible exact rel_get (composes_frame _)
    | with_reducible refine rel_bind (composes_frame _) ?_ fun _ => ?_
    | with_reducible refine rel_forEach (composes_frame _) fun _ => ?_
    | with_reducible refine rel_collect (composes_frame _) fun _ => ?_
    | ((with_reducible refine rel_modBwt ?_); intro e r hr; cases r <;> first | rfl | exact absurd (by decide +kernel) hr)

theorem writes_bwtInvSetup : Writes inverseRegs (bwtInvSetup) := by
  unfold bwtInvSetup
  repeat' first
    | with_reducible exact writes_mono (writes_buildInverse) (by decide +kernel)
    | with_reducible exact writes_mono (writes_mergedGet _) (by decide +kernel)
    | with_reducible exact rel_pure (composes_frame _) _
    | with_reducible exact rel_get (composes_frame _)
    | with_reducible exact rel_raiseWhen (composes_frame _) _ _
    | with_reducible refine rel_bind (composes_frame _) ?_ fun _ => ?_
    | ((with_reducible refine rel_modBwt ?_); intro e r hr; cases r <;> first | rfl | exact absurd (by decide +kernel) hr)

theorem writes_bwtHop : Writes [.curEntry, .hopsLeft] (bwtHop) := by
  unfold bwtHop
  repeat' first
    | with_reducible exact writes_mono (writes_mergedGet _) (by decide +kernel)
    | with_reducible exact rel_pure (composes_frame _) _
    | with_reducible exact rel_get (composes_frame _)
    | with_reducible refine rel_bind (composes_frame _) ?_ fun _ => ?_
    | ((with_reducible refine rel_modBwt ?_); intro e r hr; cases r <;> first | rfl | exact absurd (by decide +kernel) hr)

theorem writes_randStep : Writes [.randNtogo, .randTpos] (randStep) := by
  unfold randStep
  repeat' first
    | with_reducible exact rel_pure (composes_frame _) _
    | with_reducible exact rel_get (composes_frame _)
    | with_reducible refine rel_bind (composes_frame _) ?_ fun _ => ?_
    | with_reducible refine rel_doWhen (composes_frame _) ?_
    | ((with_reducible refine rel_modBlock ?_); intro e r hr; cases r <;> first | rfl | exact absurd (by decide +kernel) hr)

theorem writes_fetchByte : Writes [.curEntry, .hopsLeft, .randNtogo, .randTpos] (fetchByte) := by
  unfold fetchByte
  repeat' first
    | with_reducible exact writes_mono (writes_bwtHop) (by decide +kernel)
    | with_reducible exact writes_mono (writes_randStep) (by decide +kernel)
    | with_reducible exact rel_pure (composes_frame _) _
    | with_reducible exact rel_get (composes_frame _)
    | with_reducible refine rel_bind (composes_frame _) ?_ fun _ => ?_
    | split

theorem writes_blkAppend (v : Byte) : Writes [.blk, .blkLen, .presence] (blkAppend v) := by
  unfold blkAppend
  repeat' first
    | with_reducible exact writes_mono (writes_blkSet _ _) (by decide +kernel)
    | with_reducible exact rel_get (composes_frame _)
    | with_reducible refine rel_bind (composes_frame _) ?_ fun _ => ?_
    | ((with_reducible refine rel_modBlock ?_); intro e r hr; cases r <;> first | rfl | exact absurd (by decide +kernel) hr)

theorem writes_appendRun (v : Byte) (n : Nat) : Writes [.blk, .blkLen, .presence] (appendRun v n) := by
  unfold appendRun
  repeat' first
    | with_reducible exact writes_mono (writes_blkAppend _) (by decide +kernel)
    | with_reducible refine rel_bind (composes_frame _) ?_ fun _ => ?_
    | with_reducible refine rel_repeatCmd (composes_frame _) ?_ _
    | split

theorem writes_flushRun : Writes flushRegs (flushRun) := by
  unfold flushRun
  repeat' first
    | with_reducible exact writes_mono (writes_appendRun _ _) (by decide +kernel)
    | with_reducible exact rel_pure (composes_frame _) _
    | with_reducible exact rel_get (composes_frame _)
    | with_reducible refine rel_bind (composes_frame _) ?_ fun _ => ?_
    | split
    | dsimp only
    | ((with_reducible refine rel_modBlock ?_); intro e r hr; cases r <;> first | rfl | exact absurd (by decide +kernel) hr)

theorem writes_rle1Accept (b : Byte) : Writes putRegs (rle1Accept b) := by
  unfold rle1Accept
  repeat' first
    | with_reducible exact writes_mono (writes_flushRun) (by decide +kernel)
    | with_reducible exact rel_get (composes_frame _)
    | with_reducible refine rel_bind (composes_frame _) ?_ fun _ => ?_
    | split
    | ((with_reducible refine rel_modBlock ?_); intro e r hr; cases r <;> first | rfl | exact absurd (by decide +kernel) hr)

theorem writes_rle1Put (b : Byte) : Writes putRegs (rle1Put b) := by
  unfold rle1Put
  repeat' first
    | with_reducible exact writes_mono (writes_rle1Accept _) (by decide +kernel)
    | with_reducible exact rel_pure (composes_frame _) _
    | with_reducible exact rel_get (composes_frame _)
    | with_reducible refine rel_bind (composes_frame _) ?_ fun _ => ?_
    | split
    | ((with_reducible refine rel_modBlock ?_); intro e r hr; cases r <;> first | rfl | exact absurd (by decide +kernel) hr)

theorem writes_rle1Data (b : Byte) : Writes nextRegs (rle1Data b) := by
  unfold rle1Data
  repeat' first
    | with_reducible exact rel_pure (composes_frame _) _
    | with_reducible refine rel_bind (composes_frame _) ?_ fun _ => ?_
    | ((with_reducible refine rel_modBlock ?_); intro e r hr; cases r <;> first | rfl | exact absurd (by decide +kernel) hr)

theorem writes_rle1Pass {go : Byte → Cmd (Option Byte)} (h : ∀ b, Writes nextRegs (go b)) : Writes nextRegs (rle1Pass go) := by
  unfold rle1Pass
  refine rel_bind (composes_frame _) (rel_get (composes_frame _)) fun e => ?_
  split
  · refine rel_bind (composes_frame _) ?_ fun _ => rel_pure (composes_frame _) _
    intro e r hr; cases r <;> first | rfl | exact absurd (by decide +kernel) hr
  · split
    · exact rel_pure (composes_frame _) _
    · exact rel_bind (composes_frame _) (writes_mono writes_fetchByte (by decide +kernel)) h

theorem writes_rle1Next : Writes nextRegs (rle1Next) := by
  refine writes_rle1Pass fun b => ?_
  refine rel_bind (composes_frame _) (rel_get (composes_frame _)) fun e => ?_
  split
  · refine rel_bind (composes_frame _) ?_ fun _ => writes_rle1Pass writes_rle1Data
    intro e r hr; cases r <;> first | rfl | exact absurd (by decide +kernel) hr
  · exact writes_rle1Data _

theorem writes_mtfStreamGet (i : Nat) : Writes [] (mtfStreamGet i) := by
  unfold mtfStreamGet
  repeat' first
    | with_reducible exact rel_get (composes_frame _)
    | with_reducible exact rel_storeGet (composes_frame _) _ _ _
    | with_reducible refine rel_bind (composes_frame _) ?_ fun _ => ?_

theorem writes_mtfInit (decoding : Bool) :
    Writes (mtfInitRegs ++ if decoding then [.bwtLen, .decEob] else []) (mtfInit decoding) := by
  intro e r hr
  cases decoding <;> cases r <;> first | rfl | exact absurd (by decide +kernel) hr

theorem writes_emitSym (s : Nat) : Writes [.mtfStream, .mtfLen, .mtfFreq] (emitSym s) := by
  unfold emitSym
  repeat' first
    | with_reducible exact rel_get (composes_frame _)
    | with_reducible exact rel_tableGet (composes_frame _) _ _ _
    | with_reducible exact rel_tableSet (composes_frame _) _ _ _ _
    | with_reducible exact rel_storeSet (composes_frame _) _ _ _ _ _
    | with_reducible refine rel_bind (composes_frame _) ?_ fun _ => ?_
    | ((with_reducible refine rel_modMtf ?_); intro e r hr; cases r <;> first | rfl | exact absurd (by decide +kernel) hr)

theorem writes_emitRun (z : Nat) : Writes [.mtfStream, .mtfLen, .mtfFreq] (emitRun z) := by
  unfold emitRun
  repeat' first
    | with_reducible exact writes_mono (writes_emitSym _) (by decide +kernel)
    | with_reducible refine rel_forEach (composes_frame _) fun _ => ?_

theorem writes_flushZeros : Writes emitRegs (flushZeros) := by
  unfold flushZeros
  repeat' first
    | with_reducible exact writes_mono (writes_emitRun _) (by decide +kernel)
    | with_reducible exact rel_pure (composes_frame _) _
    | with_reducible exact rel_get (composes_frame _)
    | with_reducible refine rel_bind (composes_frame _) ?_ fun _ => ?_
    | split
    | ((with_reducible refine rel_modMtf ?_); intro e r hr; cases r <;> first | rfl | exact absurd (by decide +kernel) hr)

theorem writes_findRank (r : Byte) : Writes [.freeCount] (findRank r) := by
  unfold findRank
  repeat' first
    | with_reducible exact writes_mono (writes_drawFree _) (by decide +kernel)
    | with_reducible exact rel_pure (composes_frame _) _
    | with_reducible exact rel_get (composes_frame _)
    | with_reducible refine rel_bind (composes_frame _) ?_ fun _ => ?_
    | split

theorem writes_moveToFront (j : Nat) : Writes [.mtfList] (moveToFront j) := by
  unfold moveToFront
  repeat' first
    | with_reducible exact rel_pure (composes_frame _) _
    | with_reducible exact rel_get (composes_frame _)
    | with_reducible exact rel_tableGet (composes_frame _) _ _ _
    | with_reducible refine rel_bind (composes_frame _) ?_ fun _ => ?_
    | ((with_reducible refine rel_modMtf ?_); intro e r hr; cases r <;> first | rfl | exact absurd (by decide +kernel) hr)

theorem writes_requirePresent (v : Byte) : Writes [] (requirePresent v) :=
  rel_bind (composes_frame _) (rel_get (composes_frame _)) fun _ => rel_requireOk (composes_frame _) _

theorem writes_encodeRank (v : Byte) : Writes (emitRegs ++ [.mtfList, .freeCount]) (encodeRank v) := by
  unfold encodeRank
  repeat' first
    | with_reducible exact writes_mono (writes_findRank _) (by decide +kernel)
    | with_reducible exact writes_mono (writes_flushZeros) (by decide +kernel)
    | with_reducible exact writes_mono (writes_moveToFront _) (by decide +kernel)
    | with_reducible exact writes_mono (writes_emitSym _) (by decide +kernel)
    | with_reducible exact rel_get (composes_frame _)
    | with_reducible refine rel_bind (composes_frame _) ?_ fun _ => ?_
    | split
    | ((with_reducible refine rel_modMtf ?_); intro e r hr; cases r <;> first | rfl | exact absurd (by decide +kernel) hr)

theorem writes_mtfEncByte (v : Byte) : Writes (emitRegs ++ [.mtfList, .freeCount]) (mtfEncByte v) :=
  rel_bind (composes_frame _) (writes_mono (writes_requirePresent v) (by decide +kernel)) fun _ => writes_encodeRank v

theorem writes_mtfEncEnd : Writes emitRegs (mtfEncEnd) := by
  unfold mtfEncEnd
  repeat' first
    | with_reducible exact writes_mono (writes_flushZeros) (by decide +kernel)
    | with_reducible exact writes_mono (writes_emitSym _) (by decide +kernel)
    | with_reducible exact rel_get (composes_frame _)
    | with_reducible refine rel_bind (composes_frame _) ?_ fun _ => ?_

theorem writes_bwtAppend (v : Byte) : Writes [.bwtArr, .bwtLen] (bwtAppend v) := by
  unfold bwtAppend
  repeat' first
    | with_reducible exact writes_mono (writes_bwtArrSet _ _) (by decide +kernel)
    | with_reducible exact rel_get (composes_frame _)
    | with_reducible refine rel_bind (composes_frame _) ?_ fun _ => ?_
    | ((with_reducible refine rel_modBwt ?_); intro e r hr; cases r <;> first | rfl | exact absurd (by decide +kernel) hr)

theorem writes_mtfRunDigit (s : Nat) : Writes [.runAcc, .runW] (mtfRunDigit s) := by
  unfold mtfRunDigit
  repeat' first
    | with_reducible exact rel_get (composes_frame _)
    | with_reducible exact rel_raise (composes_frame _) _
    | with_reducible refine rel_bind (composes_frame _) ?_ fun _ => ?_
    | split
    | dsimp only
    | ((with_reducible refine rel_modMtf ?_); intro e r hr; cases r <;> first | rfl | exact absurd (by decide +kernel) hr)

theorem writes_mtfFlushRun : Writes [.runAcc, .runW, .bwtArr, .bwtLen] (mtfFlushRun) := by
  unfold mtfFlushRun
  repeat' first
    | with_reducible exact writes_mono (writes_bwtAppend _) (by decide +kernel)
    | with_reducible exact rel_pure (composes_frame _) _
    | with_reducible exact rel_get (composes_frame _)
    | with_reducible exact rel_tableGet (composes_frame _) _ _ _
    | with_reducible refine rel_bind (composes_frame _) ?_ fun _ => ?_
    | with_reducible refine rel_repeatCmd (composes_frame _) ?_ _
    | split
    | ((with_reducible refine rel_modMtf ?_); intro e r hr; cases r <;> first | rfl | exact absurd (by decide +kernel) hr)

theorem writes_mtfLiteral (s : Nat) : Writes [.bwtArr, .bwtLen, .mtfList] (mtfLiteral s) := by
  unfold mtfLiteral
  repeat' first
    | with_reducible exact writes_mono (writes_bwtAppend _) (by decide +kernel)
    | with_reducible exact writes_mono (writes_moveToFront _) (by decide +kernel)
    | with_reducible exact rel_get (composes_frame _)
    | with_reducible exact rel_raise (composes_frame _) _
    | with_reducible refine rel_bind (composes_frame _) ?_ fun _ => ?_
    | split

theorem writes_mtfDecSym (s : Nat) : Writes applyRegs (mtfDecSym s) := by
  unfold mtfDecSym
  repeat' first
    | with_reducible exact writes_mono (writes_mtfRunDigit _) (by decide +kernel)
    | with_reducible exact writes_mono (writes_mtfFlushRun) (by decide +kernel)
    | with_reducible exact writes_mono (writes_mtfLiteral _) (by decide +kernel)
    | with_reducible exact rel_pure (composes_frame _) _
    | with_reducible exact rel_get (composes_frame _)
    | with_reducible refine rel_bind (composes_frame _) ?_ fun _ => ?_
    | split
    | ((with_reducible refine rel_modHuf ?_); intro e r hr; cases r <;> first | rfl | exact absurd (by decide +kernel) hr)

theorem writes_writeFlags (bs : List Bool) : Writes writerRegs (writeFlags bs) := by
  unfold writeFlags
  repeat' first
    | with_reducible exact writes_mono (writes_writeBits _ _) (by decide +kernel)
    | with_reducible refine rel_forEach (composes_frame _) fun _ => ?_

theorem writes_mtfWriteMap : Writes writerRegs (mtfWriteMap) := by
  unfold mtfWriteMap
  repeat' first
    | with_reducible exact writes_mono (writes_writeFlags _) (by decide +kernel)
    | with_reducible exact rel_pure (composes_frame _) _
    | with_reducible exact rel_get (composes_frame _)
    | with_reducible refine rel_bind (composes_frame _) ?_ fun _ => ?_
    | with_reducible refine rel_forEach (composes_frame _) fun _ => ?_
    | split

theorem writes_readPresence (v : Nat) : Writes (readerRegs ++ [.presence]) (readPresence v) := by
  unfold readPresence
  repeat' first
    | with_reducible exact writes_mono (writes_readBits _) (by decide +kernel)
    | with_reducible refine rel_bind (composes_frame _) ?_ fun _ => ?_
    | ((with_reducible refine rel_modBlock ?_); intro e r hr; cases r <;> first | rfl | exact absurd (by decide +kernel) hr)

theorem writes_mtfReadMap : Writes (readerRegs ++ [.presence]) (mtfReadMap) := by
  unfold mtfReadMap
  repeat' first
    | with_reducible exact writes_mono (writes_readBits _) (by decide +kernel)
    | with_reducible exact writes_mono (writes_readPresence _) (by decide +kernel)
    | with_reducible exact rel_pure (composes_frame _) _
    | with_reducible refine rel_bind (composes_frame _) ?_ fun _ => ?_
    | with_reducible refine rel_forEach (composes_frame _) fun _ => ?_
    | with_reducible refine rel_collect (composes_frame _) fun _ => ?_
    | split
    | ((with_reducible refine rel_modBlock ?_); intro e r hr; cases r <;> first | rfl | exact absurd (by decide +kernel) hr)

theorem writes_lenRow (t n : Nat) : Writes [] (lenRow t n) := by
  unfold lenRow
  repeat' first
    | with_reducible exact rel_pure (composes_frame _) _
    | with_reducible exact rel_get (composes_frame _)
    | with_reducible exact rel_fail (composes_frame _) _
    | with_reducible exact rel_tableGet (composes_frame _) _ _ _
    | with_reducible refine rel_bind (composes_frame _) ?_ fun _ => ?_
    | split

theorem writes_rfreqRow (t n : Nat) : Writes [] (rfreqRow t n) := by
  unfold rfreqRow
  repeat' first
    | with_reducible exact rel_pure (composes_frame _) _
    | with_reducible exact rel_get (composes_frame _)
    | with_reducible exact rel_fail (composes_frame _) _
    | with_reducible exact rel_tableGet (composes_frame _) _ _ _
    | with_reducible refine rel_bind (composes_frame _) ?_ fun _ => ?_
    | split

theorem writes_setLenRow (t : Nat) (xs : List Nat) : Writes [.len] (setLenRow t xs) := by
  unfold setLenRow
  repeat' first
    | with_reducible exact rel_get (composes_frame _)
    | with_reducible exact rel_tableGet (composes_frame _) _ _ _
    | with_reducible exact rel_tableSet (composes_frame _) _ _ _ _
    | with_reducible refine rel_bind (composes_frame _) ?_ fun _ => ?_
    | ((with_reducible refine rel_modHuf ?_); intro e r hr; cases r <;> first | rfl | exact absurd (by decide +kernel) hr)

theorem writes_setRfreqRow (t : Nat) (xs : List Nat) : Writes [.rfreq] (setRfreqRow t xs) := by
  unfold setRfreqRow
  repeat' first
    | with_reducible exact rel_get (composes_frame _)
    | with_reducible exact rel_tableGet (composes_frame _) _ _ _
    | with_reducible exact rel_tableSet (composes_frame _) _ _ _ _
    | with_reducible refine rel_bind (composes_frame _) ?_ fun _ => ?_
    | ((with_reducible refine rel_modHuf ?_); intro e r hr; cases r <;> first | rfl | exact absurd (by decide +kernel) hr)

theorem writes_selectorGet (g : Nat) : Writes [] (selectorGet g) := by
  unfold selectorGet
  repeat' first
    | with_reducible exact rel_get (composes_frame _)
    | with_reducible exact rel_storeGet (composes_frame _) _ _ _
    | with_reducible refine rel_bind (composes_frame _) ?_ fun _ => ?_

theorem writes_selectorSet (g t : Nat) : Writes [.selectors] (selectorSet g t) := by
  unfold selectorSet
  repeat' first
    | with_reducible exact rel_get (composes_frame _)
    | with_reducible exact rel_storeSet (composes_frame _) _ _ _ _ _
    | with_reducible refine rel_bind (composes_frame _) ?_ fun _ => ?_
    | ((with_reducible refine rel_modHuf ?_); intro e r hr; cases r <;> first | rfl | exact absurd (by decide +kernel) hr)

theorem writes_requireStream : Writes [] (requireStream) :=
  rel_bind (composes_frame _) (rel_get (composes_frame _)) fun _ => rel_requireOk (composes_frame _) _

theorem writes_setGroups : Writes [.nGroups, .nSelectors] (setGroups) := by
  unfold setGroups
  repeat' first
    | with_reducible exact rel_get (composes_frame _)
    | with_reducible refine rel_bind (composes_frame _) ?_ fun _ => ?_
    | ((with_reducible refine rel_modHuf ?_); intro e r hr; cases r <;> first | rfl | exact absurd (by decide +kernel) hr)

theorem writes_hufSetGroups : Writes [.nGroups, .nSelectors] (hufSetGroups) :=
  rel_bind (composes_frame _) (writes_mono writes_requireStream (by decide +kernel)) fun _ => writes_setGroups

theorem writes_seedTables (freqs : List Nat) (nGroups : Nat) (ts : List Nat) (rem gs : Nat) : Writes [.len] (seedTables freqs nGroups ts rem gs) := by
  induction ts generalizing rem gs with
  | nil => exact rel_pure (composes_frame _) _
  | cons t ts ih => exact rel_bind (composes_frame _) (writes_setLenRow _ _) fun _ => ih _ _

theorem writes_mtfFreqs : Writes [] (mtfFreqs) := by
  unfold mtfFreqs
  repeat' first
    | with_reducible exact rel_pure (composes_frame _) _
    | with_reducible exact rel_get (composes_frame _)
    | with_reducible exact rel_fail (composes_frame _) _
    | with_reducible refine rel_bind (composes_frame _) ?_ fun _ => ?_
    | split
    | dsimp only

theorem writes_seed : Writes [.len] (seed) := by
  unfold seed
  repeat' first
    | with_reducible exact writes_mono (writes_mtfFreqs) (by decide +kernel)
    | with_reducible exact writes_mono (writes_seedTables _ _ _ _ _) (by decide +kernel)
    | with_reducible exact rel_get (composes_frame _)
    | with_reducible refine rel_bind (composes_frame _) ?_ fun _ => ?_

theorem writes_groupSyms (g : Nat) : Writes [] (groupSyms g) := by
  unfold groupSyms
  repeat' first
    | with_reducible exact writes_mono (writes_mtfStreamGet _) (by decide +kernel)
    | with_reducible exact rel_pure (composes_frame _) _
    | with_reducible exact rel_get (composes_frame _)
    | with_reducible refine rel_bind (composes_frame _) ?_ fun _ => ?_
    | with_reducible refine rel_collect (composes_frame _) fun _ => ?_

theorem writes_groupCost (grp : List Nat) (t : Nat) : Writes [] (groupCost grp t) := by
  unfold groupCost
  repeat' first
    | with_reducible exact rel_pure (composes_frame _) _
    | with_reducible exact rel_get (composes_frame _)
    | with_reducible exact rel_tableGet2 (composes_frame _) _ _ _ _
    | with_reducible refine rel_bind (composes_frame _) ?_ fun _ => ?_
    | with_reducible refine rel_collect (composes_frame _) fun _ => ?_

theorem writes_rfreqBump (t s : Nat) : Writes [.rfreq] (rfreqBump t s) := by
  unfold rfreqBump
  repeat' first
    | with_reducible exact rel_get (composes_frame _)
    | with_reducible exact rel_tableGet2 (composes_frame _) _ _ _ _
    | with_reducible exact rel_tableSet2 (composes_frame _) _ _ _ _ _
    | with_reducible refine rel_bind (composes_frame _) ?_ fun _ => ?_
    | ((with_reducible refine rel_modHuf ?_); intro e r hr; cases r <;> first | rfl | exact absurd (by decide +kernel) hr)

theorem writes_selectGroups (nGroups : Nat) (gs : List Nat) (total : Nat) : Writes [.rfreq, .selectors] (selectGroups nGroups gs total) := by
  induction gs generalizing total with
  | nil => exact rel_pure (composes_frame _) _
  | cons g gs ih =>
    unfold selectGroups
    refine rel_bind (composes_frame _) (writes_mono (writes_groupSyms _) (by decide +kernel)) fun grp => ?_
    refine rel_bind (composes_frame _) (rel_collect (composes_frame _) fun t => writes_mono (writes_groupCost _ _) (by decide +kernel)) fun costs => ?_
    refine rel_bind (composes_frame _) (writes_mono (writes_selectorSet _ _) (by decide +kernel)) fun _ => ?_
    refine rel_bind (composes_frame _) (rel_forEach (composes_frame _) fun s => writes_mono (writes_rfreqBump _ _) (by decide +kernel)) fun _ => ?_
    exact ih _

theorem writes_reallocate (alpha t : Nat) : Writes [.len] (reallocate alpha t) := by
  unfold reallocate
  repeat' first
    | with_reducible exact writes_mono (writes_rfreqRow _ _) (by decide +kernel)
    | with_reducible exact writes_mono (writes_setLenRow _ _) (by decide +kernel)
    | with_reducible refine rel_bind (composes_frame _) ?_ fun _ => ?_

theorem writes_selectPass : Writes passRegs (selectPass) := by
  unfold selectPass
  repeat' first
    | with_reducible exact writes_mono (writes_setRfreqRow _ _) (by decide +kernel)
    | with_reducible exact writes_mono (writes_selectGroups _ _ _) (by decide +kernel)
    | with_reducible exact writes_mono (writes_reallocate _ _) (by decide +kernel)
    | with_reducible exact rel_pure (composes_frame _) _
    | with_reducible exact rel_get (composes_frame _)
    | with_reducible refine rel_bind (composes_frame _) ?_ fun _ => ?_
    | with_reducible refine rel_forEach (composes_frame _) fun _ => ?_

theorem writes_selectChecks : Writes [] (selectChecks) := by
  unfold selectChecks
  repeat' first
    | with_reducible exact rel_get (composes_frame _)
    | with_reducible exact rel_requireOk (composes_frame _) _
    | with_reducible refine rel_bind (composes_frame _) ?_ fun _ => ?_

theorem writes_selectPasses (n c : Nat) : Writes passRegs (selectPasses n c) := by
  induction n generalizing c with
  | zero => exact rel_pure (composes_frame _) _
  | succ n ih => exact rel_bind (composes_frame _) writes_selectPass fun _ => ih _

theorem writes_seedAndSelect : Writes passRegs (seedAndSelect) :=
  rel_bind (composes_frame _) (writes_mono writes_seed (by decide +kernel)) fun _ => writes_selectPasses _ _

theorem writes_hufOptimize : Writes passRegs (hufOptimize) :=
  rel_bind (composes_frame _) (writes_mono writes_selectChecks (by decide +kernel)) fun _ => writes_seedAndSelect

theorem writes_assignCodes (t : Nat) : Writes [.code] (assignCodes t) := by
  unfold assignCodes
  repeat' first
    | with_reducible exact writes_mono (writes_lenRow _ _) (by decide +kernel)
    | with_reducible exact rel_get (composes_frame _)
    | with_reducible exact rel_tableGet (composes_frame _) _ _ _
    | with_reducible exact rel_tableSet (composes_frame _) _ _ _ _
    | with_reducible refine rel_bind (composes_frame _) ?_ fun _ => ?_
    | ((with_reducible refine rel_modHuf ?_); intro e r hr; cases r <;> first | rfl | exact absurd (by decide +kernel) hr)

theorem writes_selectorPosition (list : List Nat) (sel : Nat) : Writes [.freeCount] (selectorPosition list sel) := by
  unfold selectorPosition
  repeat' first
    | with_reducible exact writes_mono (writes_drawFree _) (by decide +kernel)
    | with_reducible exact rel_pure (composes_frame _) _
    | split

theorem writes_writeSelectors (gs list : List Nat) : Writes (writerRegs ++ [.freeCount]) (writeSelectors gs list) := by
  induction gs generalizing list with
  | nil => exact rel_pure (composes_frame _) _
  | cons g gs ih =>
    unfold writeSelectors
    refine rel_bind (composes_frame _) (writes_mono (writes_selectorGet _) (by decide +kernel)) fun sel => ?_
    refine rel_bind (composes_frame _) (writes_mono (writes_selectorPosition _ _) (by decide +kernel)) fun j => ?_
    exact rel_bind (composes_frame _) (writes_mono (writes_writeUnary _) (by decide +kernel)) fun _ => ih _

theorem writes_writeDeltas (lens : List Nat) (cur : Nat) : Writes writerRegs (writeDeltas lens cur) := by
  induction lens generalizing cur with
  | nil => exact rel_pure (composes_frame _) _
  | cons l ls ih =>
    unfold writeDeltas
    refine rel_bind (composes_frame _) (rel_repeatCmd (composes_frame _) (writes_writeBits _ _) _) fun _ => ?_
    refine rel_bind (composes_frame _) (rel_repeatCmd (composes_frame _) (writes_writeBits _ _) _) fun _ => ?_
    exact rel_bind (composes_frame _) (writes_writeBits _ _) fun _ => ih _

theorem writes_writeTables : Writes (writerRegs ++ [.freeCount]) (writeTables) := by
  unfold writeTables
  repeat' first
    | with_reducible exact writes_mono (writes_writeBits _ _) (by decide +kernel)
    | with_reducible exact writes_mono (writes_writeSelectors _ _) (by decide +kernel)
    | with_reducible exact writes_mono (writes_lenRow _ _) (by decide +kernel)
    | with_reducible exact writes_mono (writes_writeDeltas _ _) (by decide +kernel)
    | with_reducible exact rel_get (composes_frame _)
    | with_reducible refine rel_bind (composes_frame _) ?_ fun _ => ?_
    | with_reducible refine rel_forEach (composes_frame _) fun _ => ?_

theorem writes_codeOfSymbol (i : Nat) : Writes [] (codeOfSymbol i) := by
  unfold codeOfSymbol
  repeat' first
    | with_reducible exact writes_mono (writes_selectorGet _) (by decide +kernel)
    | with_reducible exact writes_mono (writes_mtfStreamGet _) (by decide +kernel)
    | with_reducible exact rel_get (composes_frame _)
    | with_reducible exact rel_tableGet2 (composes_frame _) _ _ _ _
    | with_reducible refine rel_bind (composes_frame _) ?_ fun _ => ?_

theorem writes_writeCode (c : Word) : Writes writerRegs (writeCode c) := by
  unfold writeCode
  repeat' first
    | with_reducible exact writes_mono (writes_writeBits _ _) (by decide +kernel)

theorem writes_requireCode (i : Nat) : Writes [] (requireCode i) :=
  rel_bind (composes_frame _) (writes_codeOfSymbol i) fun _ => rel_requireOk (composes_frame _) _

theorem writes_encodeChecks : Writes [] (encodeChecks) :=
  rel_bind (composes_frame _) (rel_get (composes_frame _)) fun _ =>
    rel_bind (composes_frame _) (rel_requireOk (composes_frame _) _) fun _ => rel_forEach (composes_frame _) writes_requireCode

theorem writes_writeSymbol (i : Nat) : Writes writerRegs (writeSymbol i) :=
  rel_bind (composes_frame _) (writes_mono (writes_codeOfSymbol i) (by decide +kernel)) writes_writeCode

theorem writes_encodeCodes : Writes writerRegs (encodeCodes) :=
  rel_bind (composes_frame _) (rel_get (composes_frame _)) fun _ => rel_forEach (composes_frame _) writes_writeSymbol

theorem writes_hufEncodeData : Writes writerRegs (hufEncodeData) :=
  rel_bind (composes_frame _) (writes_mono writes_encodeChecks (by decide +kernel)) fun _ => writes_encodeCodes

theorem writes_buildDecode (t : Nat) : Writes lookupRegs (buildDecode t) := by
  unfold buildDecode
  repeat' first
    | with_reducible exact writes_mono (writes_lenRow _ _) (by decide +kernel)
    | with_reducible exact rel_get (composes_frame _)
    | with_reducible exact rel_tableGet (composes_frame _) _ _ _
    | with_reducible exact rel_tableSet (composes_frame _) _ _ _ _
    | with_reducible refine rel_bind (composes_frame _) ?_ fun _ => ?_
    | ((with_reducible refine rel_modHuf ?_); intro e r hr; cases r <;> first | rfl | exact absurd (by decide +kernel) hr)

theorem writes_readDelta (fuel cur : Nat) : Writes readerRegs (readDelta fuel cur) := by
  induction fuel generalizing cur with
  | zero =>
    unfold readDelta
    repeat' first
      | with_reducible exact writes_mono (writes_readBits _) (by decide +kernel)
      | with_reducible exact rel_pure (composes_frame _) _
      | with_reducible exact rel_raiseWhen (composes_frame _) _ _
      | with_reducible refine rel_bind (composes_frame _) ?_ fun _ => ?_
  | succ k ih =>
    unfold readDelta
    repeat' first
      | with_reducible exact ih _
      | with_reducible exact writes_mono (writes_readBits _) (by decide +kernel)
      | with_reducible exact rel_pure (composes_frame _) _
      | with_reducible exact rel_raiseWhen (composes_frame _) _ _
      | with_reducible refine rel_bind (composes_frame _) ?_ fun _ => ?_
      | split

theorem writes_readLens (t : Nat) (ss : List Nat) (cur : Nat) : Writes (readerRegs ++ [.len]) (readLens t ss cur) := by
  induction ss generalizing cur with
  | nil => exact rel_pure (composes_frame _) _
  | cons s ss ih =>
    unfold readLens
    repeat' first
      | with_reducible exact ih _
      | with_reducible exact writes_mono (writes_readDelta _ _) (by decide +kernel)
      | with_reducible exact rel_get (composes_frame _)
      | with_reducible exact rel_tableSet2 (composes_frame _) _ _ _ _ _
      | with_reducible refine rel_bind (composes_frame _) ?_ fun _ => ?_
      | ((with_reducible refine rel_modHuf ?_); intro e r hr; cases r <;> first | rfl | exact absurd (by decide +kernel) hr)

theorem writes_readSelectors (nG : Nat) (gs list : List Nat) : Writes (readerRegs ++ [.selectors]) (readSelectors nG gs list) := by
  induction gs generalizing list with
  | nil => exact rel_pure (composes_frame _) _
  | cons g gs ih =>
    unfold readSelectors
    refine rel_bind (composes_frame _) (writes_mono (writes_readUnary _) (by decide +kernel)) fun j => ?_
    exact rel_bind (composes_frame _) (writes_mono (writes_selectorSet _ _) (by decide +kernel)) fun _ => ih _

theorem writes_readTables : Writes readTablesRegs (readTables) := by
  unfold readTables
  repeat' first
    | with_reducible exact writes_mono (writes_readBits _) (by decide +kernel)
    | with_reducible exact writes_mono (writes_readSelectors _ _ _) (by decide +kernel)
    | with_reducible exact writes_mono (writes_readLens _ _ _) (by decide +kernel)
    | with_reducible exact writes_mono (writes_buildDecode _) (by decide +kernel)
    | with_reducible exact rel_get (composes_frame _)
    | with_reducible exact rel_raiseWhen (composes_frame _) _ _
    | with_reducible refine rel_bind (composes_frame _) ?_ fun _ => ?_
    | with_reducible refine rel_forEach (composes_frame _) fun _ => ?_
    | ((with_reducible refine rel_modHuf ?_); intro e r hr; cases r <;> first | rfl | exact absurd (by decide +kernel) hr)

theorem writes_resolveCode (t left len code : Nat) : Writes readerRegs (resolveCode t left len code) := by
  induction left generalizing len code with
  | zero =>
    unfold resolveCode
    repeat' first
      | exact rel_pure (composes_frame _) _
      | exact rel_get (composes_frame _)
      | exact rel_tableGet2 (composes_frame _) _ _ _ _
      | refine rel_bind (composes_frame _) ?_ fun _ => ?_
      | split
  | succ k ih =>
    unfold resolveCode
    repeat' first
      | exact ih _ _
      | exact writes_readBits _
      | exact rel_pure (composes_frame _) _
      | exact rel_get (composes_frame _)
      | exact rel_tableGet2 (composes_frame _) _ _ _ _
      | refine rel_bind (composes_frame _) ?_ fun _ => ?_
      | split

theorem writes_decodeSym (t : Nat) : Writes readerRegs (decodeSym t) := by
  unfold decodeSym
  repeat' first
    | with_reducible exact writes_mono (writes_readBits _) (by decide +kernel)
    | with_reducible exact writes_mono (writes_resolveCode _ _ _ _) (by decide +kernel)
    | with_reducible exact rel_get (composes_frame _)
    | with_reducible exact rel_tableGet (composes_frame _) _ _ _
    | with_reducible refine rel_bind (composes_frame _) ?_ fun _ => ?_

theorem writes_hufDecodeSym : Writes (readerRegs ++ [.symCount]) (hufDecodeSym) := by
  unfold hufDecodeSym
  repeat' first
    | with_reducible exact writes_mono (writes_selectorGet _) (by decide +kernel)
    | with_reducible exact writes_mono (writes_decodeSym _) (by decide +kernel)
    | with_reducible exact rel_pure (composes_frame _) _
    | with_reducible exact rel_get (composes_frame _)
    | with_reducible exact rel_raiseWhen (composes_frame _) _ _
    | with_reducible refine rel_bind (composes_frame _) ?_ fun _ => ?_
    | ((with_reducible refine rel_modHuf ?_); intro e r hr; cases r <;> first | rfl | exact absurd (by decide +kernel) hr)

theorem writes_feedBlockCrc (b : Byte) : Writes [.blockCrc] (feedBlockCrc b) := by
  unfold feedBlockCrc
  repeat' first
    | ((with_reducible refine rel_modCrc ?_); intro e r hr; cases r <;> first | rfl | exact absurd (by decide +kernel) hr)

theorem writes_combineCrc (v : Word) : Writes [.streamCrc] (combineCrc v) := by
  unfold combineCrc
  repeat' first
    | ((with_reducible refine rel_modCrc ?_); intro e r hr; cases r <;> first | rfl | exact absurd (by decide +kernel) hr)

theorem writes_blkEncOpen (k : BitVec 4) : Writes blkOpenRegs (blkEncOpen k) := by
  unfold blkEncOpen
  repeat' first
    | with_reducible refine rel_bind (composes_frame _) ?_ fun _ => ?_
    | ((with_reducible refine rel_modBlock ?_); intro e r hr; cases r <;> first | rfl | exact absurd (by decide +kernel) hr)
    | ((with_reducible refine rel_modCrc ?_); intro e r hr; cases r <;> first | rfl | exact absurd (by decide +kernel) hr)

theorem writes_writeBlockHeader (crc start : Nat) : Writes writerRegs (writeBlockHeader crc start) := by
  refine rel_bind (composes_frame _) (writes_write48 _) fun _ => ?_
  refine rel_bind (composes_frame _) (writes_write32 _) fun _ => ?_
  exact rel_bind (composes_frame _) (writes_writeBits _ _) fun _ => writes_writeBits _ _

theorem writes_encodeSymbols : Writes (writerRegs ++ mtfInitRegs ++ emitRegs ++ [.freeCount]) (encodeSymbols) := by
  unfold encodeSymbols
  repeat' first
    | with_reducible exact writes_mono (writes_mtfInit false) (by decide +kernel)
    | with_reducible exact writes_mono (writes_mtfWriteMap) (by decide +kernel)
    | with_reducible exact writes_mono (writes_bwtArrGet _) (by decide +kernel)
    | with_reducible exact writes_mono (writes_mtfEncByte _) (by decide +kernel)
    | with_reducible exact writes_mono (writes_mtfEncEnd) (by decide +kernel)
    | with_reducible exact rel_get (composes_frame _)
    | with_reducible refine rel_bind (composes_frame _) ?_ fun _ => ?_
    | with_reducible refine rel_forEach (composes_frame _) fun _ => ?_

theorem writes_encodeHuffman : Writes (writerRegs ++ passRegs ++ [.nGroups, .nSelectors, .code, .freeCount]) (encodeHuffman) := by
  unfold encodeHuffman
  repeat' first
    | with_reducible exact writes_mono (writes_hufSetGroups) (by decide +kernel)
    | with_reducible exact writes_mono (writes_hufOptimize) (by decide +kernel)
    | with_reducible exact writes_mono (writes_assignCodes _) (by decide +kernel)
    | with_reducible exact writes_mono (writes_writeTables) (by decide +kernel)
    | with_reducible exact writes_mono (writes_hufEncodeData) (by decide +kernel)
    | with_reducible exact rel_get (composes_frame _)
    | with_reducible refine rel_bind (composes_frame _) ?_ fun _ => ?_
    | with_reducible refine rel_forEach (composes_frame _) fun _ => ?_

theorem writes_blkEncClose : Writes blkCloseRegs (blkEncClose) := by
  unfold blkEncClose
  repeat' first
    | with_reducible exact writes_mono (writes_flushRun) (by decide +kernel)
    | with_reducible exact writes_mono (writes_bwtForward) (by decide +kernel)
    | with_reducible exact writes_mono (writes_writeBlockHeader _ _) (by decide +kernel)
    | with_reducible exact writes_mono (writes_encodeSymbols) (by decide +kernel)
    | with_reducible exact writes_mono (writes_encodeHuffman) (by decide +kernel)
    | with_reducible exact rel_pure (composes_frame _) _
    | with_reducible exact rel_get (composes_frame _)
    | with_reducible refine rel_bind (composes_frame _) ?_ fun _ => ?_
    | ((with_reducible refine rel_modBlock ?_); intro e r hr; cases r <;> first | rfl | exact absurd (by decide +kernel) hr)

theorem writes_decodeSymbols (left : Nat) : Writes (readerRegs ++ applyRegs ++ [.symCount]) (decodeSymbols left) := by
  induction left with
  | zero => exact rel_raise (composes_frame _) _
  | succ k ih =>
    unfold decodeSymbols
    refine rel_bind (composes_frame _) (writes_mono writes_hufDecodeSym (by decide +kernel)) fun s => ?_
    refine rel_bind (composes_frame _) (writes_mono (writes_mtfDecSym _) (by decide +kernel)) fun eob => ?_
    split
    · exact rel_pure (composes_frame _) _
    · exact ih

theorem writes_readBlockHeader : Writes (readerRegs ++ [.storedBcrc, .randFlag, .startPtr]) (readBlockHeader) := by
  unfold readBlockHeader
  repeat' first
    | with_reducible exact writes_mono (writes_read32) (by decide +kernel)
    | with_reducible exact writes_mono (writes_readBits _) (by decide +kernel)
    | with_reducible refine rel_bind (composes_frame _) ?_ fun _ => ?_
    | ((with_reducible refine rel_modBlock ?_); intro e r hr; cases r <;> first | rfl | exact absurd (by decide +kernel) hr)
    | ((with_reducible refine rel_modBwt ?_); intro e r hr; cases r <;> first | rfl | exact absurd (by decide +kernel) hr)
    | ((with_reducible refine rel_modCrc ?_); intro e r hr; cases r <;> first | rfl | exact absurd (by decide +kernel) hr)

theorem writes_blkDecStart : Writes blkStartRegs (blkDecStart) := by
  unfold blkDecStart
  repeat' first
    | with_reducible exact writes_mono (writes_readBlockHeader) (by decide +kernel)
    | with_reducible exact writes_mono (writes_mtfReadMap) (by decide +kernel)
    | with_reducible exact writes_mono (writes_mtfInit true) (by decide +kernel)
    | with_reducible exact writes_mono (writes_readTables) (by decide +kernel)
    | with_reducible exact writes_mono (writes_decodeSymbols _) (by decide +kernel)
    | with_reducible exact writes_mono (writes_bwtInvSetup) (by decide +kernel)
    | with_reducible exact rel_pure (composes_frame _) _
    | with_reducible exact rel_get (composes_frame _)
    | with_reducible refine rel_bind (composes_frame _) ?_ fun _ => ?_
    | ((with_reducible refine rel_modBlock ?_); intro e r hr; cases r <;> first | rfl | exact absurd (by decide +kernel) hr)
    | ((with_reducible refine rel_modCrc ?_); intro e r hr; cases r <;> first | rfl | exact absurd (by decide +kernel) hr)

theorem writes_closeAndCombine : Writes (blkCloseRegs ++ [.streamCrc]) (closeAndCombine) := by
  unfold closeAndCombine
  repeat' first
    | with_reducible exact writes_mono (writes_blkEncClose) (by decide +kernel)
    | with_reducible exact writes_mono (writes_combineCrc _) (by decide +kernel)
    | with_reducible refine rel_bind (composes_frame _) ?_ fun _ => ?_

theorem writes_feedOrRefuse (ok : Bool) (b : Byte) : Writes [.blockCrc, .full] (feedOrRefuse ok b) := by
  cases ok
  · exact writes_mono writes_setFull (by decide +kernel)
  · exact writes_mono (writes_feedBlockCrc b) (by decide +kernel)

theorem writes_nextBlockWith (b : Byte) : Writes (blkCloseRegs ++ blkOpenRegs ++ putRegs ++ [.streamCrc]) (nextBlockWith b) :=
  rel_bind (composes_frame _) (writes_mono writes_closeAndCombine (by decide +kernel)) fun _ =>
    rel_bind (composes_frame _) (rel_get (composes_frame _)) fun _ =>
      rel_bind (composes_frame _) (writes_mono (writes_blkEncOpen _) (by decide +kernel)) fun _ =>
        rel_bind (composes_frame _) (writes_mono (writes_rle1Put b) (by decide +kernel)) fun _ => rel_pure (composes_frame _) _

theorem writes_expectByte (v : Nat) : Writes readerRegs (expectByte v) := by
  unfold expectByte
  repeat' first
    | with_reducible exact writes_mono (writes_readBits _) (by decide +kernel)
    | with_reducible exact rel_raiseWhen (composes_frame _) _ _
    | with_reducible refine rel_bind (composes_frame _) ?_ fun _ => ?_

theorem writes_expectMagic : Writes readerRegs (expectMagic) := by
  unfold expectMagic
  repeat' first
    | with_reducible exact writes_mono (writes_expectByte _) (by decide +kernel)
    | with_reducible refine rel_bind (composes_frame _) ?_ fun _ => ?_

theorem writes_readHeader : Writes (readerRegs ++ [.blockK, .phase]) (readHeader) := by
  unfold readHeader
  repeat' first
    | with_reducible exact writes_mono (writes_expectByte _) (by decide +kernel)
    | with_reducible exact writes_mono (writes_expectMagic) (by decide +kernel)
    | with_reducible exact writes_mono (writes_readBits _) (by decide +kernel)
    | with_reducible exact writes_mono (writes_setPhase _) (by decide +kernel)
    | with_reducible exact rel_get (composes_frame _)
    | with_reducible exact rel_raiseWhen (composes_frame _) _ _
    | with_reducible refine rel_bind (composes_frame _) ?_ fun _ => ?_
    | with_reducible refine rel_doWhen (composes_frame _) ?_
    | ((with_reducible refine rel_modBlock ?_); intro e r hr; cases r <;> first | rfl | exact absurd (by decide +kernel) hr)

theorem writes_boundaryStep : Writes (blkStartRegs ++ [.storedScrc, .phase]) (boundaryStep) := by
  unfold boundaryStep
  repeat' first
    | with_reducible exact writes_mono (writes_read48) (by decide +kernel)
    | with_reducible exact writes_mono (writes_read32) (by decide +kernel)
    | with_reducible exact writes_mono (writes_blkDecStart) (by decide +kernel)
    | with_reducible exact writes_mono (writes_setPhase _) (by decide +kernel)
    | with_reducible exact rel_get (composes_frame _)
    | with_reducible exact rel_raise (composes_frame _) _
    | with_reducible exact rel_raiseWhen (composes_frame _) _ _
    | with_reducible refine rel_bind (composes_frame _) ?_ fun _ => ?_
    | split
    | ((with_reducible refine rel_modCrc ?_); intro e r hr; cases r <;> first | rfl | exact absurd (by decide +kernel) hr)

theorem writes_endBlock : Writes [.streamCrc, .phase] (endBlock) := by
  unfold endBlock
  repeat' first
    | with_reducible exact writes_mono (writes_combineCrc _) (by decide +kernel)
    | with_reducible exact writes_mono (writes_setPhase _) (by decide +kernel)
    | with_reducible exact rel_get (composes_frame _)
    | with_reducible exact rel_raiseWhen (composes_frame _) _ _
    | with_reducible refine rel_bind (composes_frame _) ?_ fun _ => ?_

theorem writes_strDecLoop (passes : Nat) : Writes (nextRegs ++ blkStartRegs ++ [.blockK, .streamCrc, .storedScrc, .result, .nodata, .phase]) (strDecLoop passes) := by
  induction passes with
  | zero => exact rel_fail (composes_frame _) _
  | succ k ih =>
    unfold strDecLoop
    repeat' first
      | exact ih
      | exact writes_mono writes_readHeader (by decide +kernel)
      | exact writes_mono writes_boundaryStep (by decide +kernel)
      | exact writes_mono writes_rle1Next (by decide +kernel)
      | exact writes_mono writes_endBlock (by decide +kernel)
      | exact writes_mono writes_endWithNodata (by decide +kernel)
      | exact writes_mono (writes_feedBlockCrc _) (by decide +kernel)
      | exact writes_mono (writes_setResult _) (by decide +kernel)
      | exact rel_get (composes_frame _)
      | refine rel_bind (composes_frame _) ?_ fun _ => ?_
      | split

/-- The frame of a command run by `runCommand`: the registers of its body and those of the status word (rules R33, R311). -/
theorem runCommand_frame {i : Instr} {checks body : Cmd Unit} {W : List Reg} (hb : Writes W body) (hs : ∀ r ∈ statusRegs, r ∈ W)
    {s t : State} (h : runCommand i checks body s = .next t) :
    (∀ r : Reg, r ∉ W → r.same s.toEngine t.toEngine) ∧ t.script = s.script ∧ t.seen = s.seen := by
  have hclear : ∀ r : Reg, r ∉ W → r.same s.toEngine s.begun := by
    intro r hr
    cases r <;> first | rfl | exact absurd (hs _ (by decide +kernel)) hr
  have hraise : ∀ k (e : Engine) (r : Reg), r ∉ W → r.same e (e.raiseError k) := by
    intro k e r hr
    cases r <;> first | rfl | exact absurd (hs _ (by decide +kernel)) hr
  have hend : ∀ x, (∀ r : Reg, r ∉ W → r.same s.toEngine (match x with | .ok _ e => e | .error _ e => e)) → finish i s x = .next t →
      (∀ r : Reg, r ∉ W → r.same s.toEngine t.toEngine) ∧ t.script = s.script ∧ t.seen = s.seen := by
    intro x hx hf
    unfold finish at hf
    cases x with
    | ok a e =>
      cases hf
      exact ⟨hx, rfl, rfl⟩
    | error st e =>
      cases st with
      | raised k =>
        cases hf
        exact ⟨fun r hr => Reg.same_trans (hx r hr) (hraise k e r hr), rfl, rfl⟩
      | hold w =>
        cases hf
        exact ⟨hx, rfl, rfl⟩
      | fault f => cases hf
  rcases runCommand_cases i checks body s with ⟨-, h'⟩ | ⟨-, h'⟩ | ⟨-, r₀, e₀, -, h'⟩ | ⟨-, e₀, -, h'⟩
  · rw [h'] at h
    cases h
    exact ⟨fun r _ => r.same_refl _, rfl, rfl⟩
  · rw [h'] at h
    cases h
    exact ⟨hraise _ _, rfl, rfl⟩
  · rw [h'] at h
    exact hend _ (fun r _ => r.same_refl _) h
  · rw [h'] at h
    refine hend (body s.begun) (fun r hr => Reg.same_trans (hclear r hr) ?_) h
    have := hb s.begun r hr
    unfold Cmd.after at this
    cases hx : body s.begun <;> rw [hx] at this <;> exact this

end Sys2Proof.Machine
end

