-- ==== Sys2Proof/Laws/Mtf.lean ====
section
/-! SUPPORT. How the pieces of the move-to-front coder run (spec/43_mtf_rle2.md). -/

namespace Sys2Proof.Machine

set_option Elab.async false

variable {e : Engine}

theorem tableGet_run {α : Type} {n : Nat} {a : ArrayName} {v : Vector α n} {i : Nat} (h : i < n) :
    tableGet a v i e = .ok v[i] e := by simp [tableGet, h]

theorem tableSet_run {α : Type} {n : Nat} {a : ArrayName} {v : Vector α n} {i : Nat} {x : α} (h : i < n) :
    tableSet a v i x e = .ok (v.set i x) e := by simp [tableSet, h]

theorem setIfInBounds_eq {α : Type} {n : Nat} (v : Vector α n) {i : Nat} (x : α) (h : i < n) : v.setIfInBounds i x = v.set i x := by
  apply Vector.ext
  intro j hj
  simp [Vector.getElem_setIfInBounds, Vector.getElem_set]

/-! ### The stream -/

/-- `EmitSym(s)` (rule R194). -/
theorem emitSym_run {s : Nat} (h : e.mtf.len.toNat < 900001) (hs : s < 258) : emitSym s e = .ok () (e.emitOne s) := by
  unfold emitSym
  rw [get_bind_run, bind_ok (storeSet_run (show e.mtf.len.toNat < mtfStreamSize from h)), bind_ok (tableGet_run hs),
    bind_ok (tableSet_run hs), modMtf_run]
  have h1 : e.mtf.freq.toList.getD s 0 = e.mtf.freq[s] := by simp [List.getD_eq_getElem?_getD, hs]
  unfold Engine.emitOne
  rw [h1, setIfInBounds_eq _ _ hs]

theorem emitOne_len {s : Nat} (h : e.mtf.len.toNat < 900001) : (e.emitOne s).mtf.len.toNat = e.mtf.len.toNat + 1 := by
  simp only [Engine.emitOne, BitVec.toNat_ofNat]
  omega

@[simp] theorem emit_nil : e.emit [] = e := rfl
@[simp] theorem emit_cons (s : Nat) (syms : List Nat) : e.emit (s :: syms) = (e.emitOne s).emit syms := rfl

theorem emit_append (a b : List Nat) : e.emit (a ++ b) = (e.emit a).emit b := by simp [Engine.emit]

theorem emit_len {syms : List Nat} (h : e.mtf.len.toNat + syms.length ≤ 900001) :
    (e.emit syms).mtf.len.toNat = e.mtf.len.toNat + syms.length := by
  induction syms generalizing e with
  | nil => rfl
  | cons s syms ih =>
    simp only [List.length_cons] at h ⊢
    have h1 := emitOne_len (e := e) (s := s) (by omega)
    rw [emit_cons, ih (by omega)]
    omega

/-- Emitting symbols one after the other (rule R194). -/
theorem emitSyms_run {syms : List Nat} (h : e.mtf.len.toNat + syms.length ≤ 900001) (hs : ∀ s ∈ syms, s < 258) :
    forEach syms emitSym e = .ok () (e.emit syms) := by
  induction syms generalizing e with
  | nil => rfl
  | cons s syms ih =>
    simp only [List.length_cons] at h
    have h1 := emitOne_len (e := e) (s := s) (by omega)
    rw [forEach_cons, bind_ok (emitSym_run (by omega) (hs s (by simp))), ih (by omega) fun t ht => hs t (by simp [ht])]
    rfl

/-! ### Runs -/

/-- The number that run digits stand for, least significant first (rule R200). -/
def digitsValue : List Nat → Nat
  | [] => 0
  | d :: ds => d + 1 + 2 * digitsValue ds

theorem digitsValue_sum (ds : List Nat) : (ds.zipIdx.map fun q => (q.1 + 1) * 2 ^ q.2).sum = digitsValue ds := by
  suffices h : ∀ k, ((ds.zipIdx k).map fun q => (q.1 + 1) * 2 ^ q.2).sum = 2 ^ k * digitsValue ds by simpa using h 0
  induction ds with
  | nil => intro k; rfl
  | cons d ds ih =>
    intro k
    rw [List.zipIdx_cons, List.map_cons, List.sum_cons, ih, digitsValue]
    ring

theorem runSyms_small {z : Nat} (h1 : 1 ≤ z) (h2 : z ≤ 2) : runSyms z = [z - 1] := by
  obtain rfl | rfl : z = 1 ∨ z = 2 := by omega
  all_goals decide

/-- A run of three or more: the first digit, and the digits of what remains. -/
theorem runSyms_step {z : Nat} (h : 3 ≤ z) : runSyms z = (z - 1) % 2 :: runSyms ((z - 1) / 2) := by
  have hl : Nat.log2 (z + 1) = Nat.log2 ((z - 1) / 2 + 1) + 1 := by
    rw [Nat.log2_def, if_pos (by omega)]
    congr 2
    omega
  unfold runSyms
  rw [hl, List.range_succ_eq_map, List.map_cons, List.map_map]
  congr 1
  · simp
    omega
  · refine List.map_congr_left fun p _ => ?_
    simp only [Function.comp, Nat.pow_succ]
    have : (z - 1) / 2 + 1 = (z + 1) / 2 := by omega
    rw [this, Nat.div_div_eq_div_mul, Nat.mul_comm 2]

/-- The digits of the encoder (rule R195) are those of the run law. -/
theorem runDigits_eq {fuel z : Nat} (h : 1 ≤ z) (hf : z ≤ fuel) : runDigits fuel (z - 1) = runSyms z := by
  induction fuel generalizing z with
  | zero => omega
  | succ fuel ih =>
    unfold runDigits
    by_cases hz : z - 1 < 2
    · rw [if_pos hz, runSyms_small h (by omega)]
      congr 1
      omega
    · rw [if_neg hz, runSyms_step (by omega)]
      congr 1
      have : (z - 1 - 2) / 2 = (z - 1) / 2 - 1 := by omega
      rw [this, ih (by omega) (by omega)]

theorem runSyms_value {z : Nat} (h : 1 ≤ z) : digitsValue (runSyms z) = z := by
  induction z using Nat.strong_induction_on with
  | _ z ih =>
    by_cases hz : z ≤ 2
    · rw [runSyms_small h hz]
      simp [digitsValue]
      omega
    · rw [runSyms_step (by omega), digitsValue, ih _ (by omega) (by omega)]
      omega

theorem digitsValue_pos {ds : List Nat} (h : ds ≠ []) : 1 ≤ digitsValue ds := by
  cases ds with
  | nil => exact absurd rfl h
  | cons d ds => rw [digitsValue]; omega

/-- No other digits have the value (rule R200). -/
theorem runSyms_unique {ds : List Nat} (hd : ∀ d ∈ ds, d ≤ 1) {z : Nat} (h : 1 ≤ z) (hv : digitsValue ds = z) : ds = runSyms z := by
  induction ds generalizing z with
  | nil => simp [digitsValue] at hv; omega
  | cons d ds ih =>
    have hd0 := hd d (by simp)
    rw [digitsValue] at hv
    by_cases hds : ds = []
    · subst hds
      simp [digitsValue] at hv
      rw [runSyms_small h (by omega), ← hv]
      rfl
    · have := digitsValue_pos hds
      rw [runSyms_step (by omega), ih (fun x hx => hd x (by simp [hx])) (by omega) (by omega : digitsValue ds = (z - 1) / 2)]
      congr 1
      omega

theorem runSyms_digits {z d : Nat} (h : d ∈ runSyms z) : d ≤ 1 := by
  unfold runSyms at h
  obtain ⟨p, -, rfl⟩ := List.mem_map.mp h
  omega

@[simp] theorem runSyms_length (z : Nat) : (runSyms z).length = Nat.log2 (z + 1) := by simp [runSyms]

theorem runSyms_length_le {z : Nat} (h : z < 2 ^ 20) : (runSyms z).length ≤ 20 := by
  rw [runSyms_length]
  have := (Nat.log2_lt (n := z + 1) (k := 21) (by omega)).mpr (by omega)
  omega

/-- `EmitRun(z)` (rule R195). -/
theorem emitRun_run {z : Nat} (h : 1 ≤ z) (hroom : e.mtf.len.toNat + (runSyms z).length ≤ 900001) :
    emitRun z e = .ok () (e.emit (runSyms z)) := by
  unfold emitRun
  rw [runDigits_eq h le_rfl]
  exact emitSyms_run hroom fun s hs => by have := runSyms_digits hs; omega

theorem set_zpend {n : BitVec 20} (h : e.mtf.zpend = n) : { e with mtf.zpend := n } = e := by rw [← h]

/-- The pending run is emitted (rules R196, R197). -/
theorem flushZeros_run (hroom : e.mtf.len.toNat + e.zeroSyms.length ≤ 900001) :
    flushZeros e = .ok () { e.emit e.zeroSyms with mtf.zpend := 0 } := by
  unfold flushZeros
  rw [get_bind_run]
  by_cases h : e.mtf.zpend = 0
  · rw [if_neg (by simp [h])]
    have hz : e.zeroSyms = [] := by simp [Engine.zeroSyms, h]
    rw [hz, emit_nil, set_zpend h]
    rfl
  · have hpos : 0 < e.mtf.zpend.toNat := by
      rcases Nat.eq_zero_or_pos e.mtf.zpend.toNat with h' | h'
      · exact absurd (BitVec.eq_of_toNat_eq (by simpa using h')) h
      · exact h'
    have hz : e.zeroSyms = runSyms e.mtf.zpend.toNat := by rw [Engine.zeroSyms, if_neg h]
    rw [hz] at hroom ⊢
    rw [if_pos hpos, bind_ok (emitRun_run hpos hroom)]
    rfl

theorem zeroSyms_length_le : e.zeroSyms.length ≤ 20 := by
  unfold Engine.zeroSyms
  split
  · simp
  · exact runSyms_length_le e.mtf.zpend.isLt

/-! ### The decoder -/

theorem mtfRunDigit_run {s : Nat} (h : e.bwt.len.toNat + (e.mtf.runAcc.toNat + e.mtf.runW.toNat * (s + 1)) ≤ e.block.k.toNat * 100000) :
    mtfRunDigit s e = .ok ()
      { e with
        mtf.runAcc := BitVec.ofNat 20 (e.mtf.runAcc.toNat + e.mtf.runW.toNat * (s + 1))
        mtf.runW := BitVec.ofNat 20 (e.mtf.runW.toNat * 2) } := by
  unfold mtfRunDigit
  rw [get_bind_run, if_neg (by unfold capacity; omega)]
  rfl

theorem mtfRunDigit_over {s : Nat} (h : e.block.k.toNat * 100000 < e.bwt.len.toNat + (e.mtf.runAcc.toNat + e.mtf.runW.toNat * (s + 1))) :
    mtfRunDigit s e = .error (.raised .blockSizeExceeded) e := by
  unfold mtfRunDigit
  rw [get_bind_run, if_pos (by unfold capacity; omega)]
  rfl

/-- Run digits add up (rule R200). -/
theorem runDigits_apply {ds : List Nat} (hk : e.KOk) (hw : 1 ≤ e.mtf.runW.toNat)
    (h : e.bwt.len.toNat + (e.mtf.runAcc.toNat + e.mtf.runW.toNat * digitsValue ds) ≤ e.block.k.toNat * 100000)
    (hwb : e.mtf.runW.toNat * 2 ^ ds.length < 2 ^ 20) :
    forEach ds mtfRunDigit e = .ok ()
      { e with
        mtf.runAcc := BitVec.ofNat 20 (e.mtf.runAcc.toNat + e.mtf.runW.toNat * digitsValue ds)
        mtf.runW := BitVec.ofNat 20 (e.mtf.runW.toNat * 2 ^ ds.length) } := by
  induction ds generalizing e with
  | nil => simp [digitsValue]
  | cons d ds ih =>
    have hk2 := hk.2
    have hmul : e.mtf.runW.toNat * digitsValue (d :: ds) =
        e.mtf.runW.toNat * (d + 1) + e.mtf.runW.toNat * 2 * digitsValue ds := by rw [digitsValue]; ring
    have hpow : e.mtf.runW.toNat * 2 ^ (d :: ds).length = e.mtf.runW.toNat * 2 * 2 ^ ds.length := by
      rw [List.length_cons, Nat.pow_succ]
      ring
    rw [hmul] at h
    rw [hpow] at hwb
    have hp : 1 ≤ 2 ^ ds.length := Nat.one_le_two_pow
    have hw2 : e.mtf.runW.toNat * 2 < 2 ^ 20 := by nlinarith
    have hmod : e.mtf.runW.toNat * 2 % 2 ^ 20 = e.mtf.runW.toNat * 2 := Nat.mod_eq_of_lt hw2
    have hacc : (e.mtf.runAcc.toNat + e.mtf.runW.toNat * (d + 1)) % 2 ^ 20 = e.mtf.runAcc.toNat + e.mtf.runW.toNat * (d + 1) :=
      Nat.mod_eq_of_lt (by omega)
    rw [forEach_cons]
    refine (bind_ok (mtfRunDigit_run (by omega))).trans ?_
    refine (ih (e := { e with
      mtf.runAcc := BitVec.ofNat 20 (e.mtf.runAcc.toNat + e.mtf.runW.toNat * (d + 1))
      mtf.runW := BitVec.ofNat 20 (e.mtf.runW.toNat * 2) }) hk ?_ ?_ ?_).trans ?_
    · simp only [BitVec.toNat_ofNat, hmod]
      omega
    · simp only [BitVec.toNat_ofNat, hmod, hacc]
      omega
    · simp only [BitVec.toNat_ofNat, hmod]
      exact hwb
    simp only [BitVec.toNat_ofNat, hmod, hacc, hmul, hpow, Nat.add_assoc]

/-! ### The dense map -/

/-- What a row holds after a list has been written into it. -/
theorem rowWrite_get {α : Type} {n : Nat} (row : Vector α n) (i : Nat) (xs : List α) (j : Nat) :
    (rowWrite row i xs).toList[j]? = if i ≤ j ∧ j < i + xs.length ∧ j < n then xs[j - i]? else row.toList[j]? := by
  induction xs generalizing row i with
  | nil =>
    rw [if_neg (by simp only [List.length_nil]; omega)]
    rfl
  | cons x xs ih =>
    show (rowWrite (row.setIfInBounds i x) (i + 1) xs).toList[j]? = _
    rw [ih]
    have hlen : row.toList.length = n := by simp
    simp only [List.length_cons, Vector.toList_setIfInBounds, List.getElem?_set, hlen]
    by_cases hij : j = i
    · subst hij
      rw [if_neg (by omega), if_pos rfl]
      by_cases hn : j < n
      · rw [if_pos hn, if_pos (by omega), Nat.sub_self]
        rfl
      · rw [if_neg hn, if_neg (by omega), List.getElem?_eq_none (by omega)]
    · rw [if_neg (Ne.symm hij)]
      by_cases h : i + 1 ≤ j ∧ j < i + 1 + xs.length ∧ j < n
      · rw [if_pos h, if_pos (by omega)]
        have : j - i = (j - (i + 1)) + 1 := by omega
        rw [this, List.getElem?_cons_succ]
      · rw [if_neg h, if_neg (by omega)]

theorem byteGet_eq {α : Type} (v : Vector α 256) (b : Byte) : v.toList[b.toNat]? = some (byteGet v b) := by
  have := b.isLt
  simp [byteGet, this]

theorem take_eq_map_range {α : Type} (l : List α) (d : α) {n : Nat} (h : n ≤ l.length) :
    l.take n = (List.range n).map fun i => l.getD i d := by
  apply List.ext_getElem
  · simp; omega
  · intro i h1 h2
    have : i < l.length := by simp at h1; omega
    simp [this]

/-- In the list of the elements that pass a test, an element's place is how many smaller ones pass. -/
theorem filter_range_get (f : Nat → Bool) {n v : Nat} (hv : v < n) (hf : f v = true) :
    ((List.range n).filter f)[(List.range v).countP f]? = some v := by
  have hr : List.range n = List.range v ++ v :: (List.range (n - v - 1)).map (v + 1 + ·) := by
    have h1 : List.range n = List.range (v + (n - v)) := by congr 1; omega
    have h2 : List.range (n - v) = 0 :: (List.range (n - v - 1)).map (1 + ·) := by
      have : n - v = (n - v - 1) + 1 := by omega
      rw [this, List.range_succ_eq_map]
      simp [Nat.add_comm]
    rw [h1, List.range_add, h2]
    simp [Nat.add_assoc]
  rw [hr, List.filter_append, List.filter_cons_of_pos hf, List.countP_eq_length_filter]
  simp

theorem presentValues_length (p : Vector Bool 256) : (presentValues p).length = countPresent p := by
  unfold presentValues countPresent
  rw [← List.countP_eq_length_filter]
  have h := take_eq_map_range p.toList false (n := 256) (by simp)
  rw [List.take_of_length_le (by simp)] at h
  conv_rhs => rw [h]
  rw [List.countP_map]
  rfl

theorem rankOf_eq (p : Vector Bool 256) (v : Byte) :
    rankOf p v = (List.range v.toNat).countP fun u => p.toList.getD u false := by
  have hv := v.isLt
  unfold rankOf
  rw [take_eq_map_range p.toList false (by simp; omega), List.countP_map]
  rfl

theorem presentValues_nodup (p : Vector Bool 256) : (presentValues p).Nodup := List.nodup_range.filter _

theorem countPresent_le (p : Vector Bool 256) : countPresent p ≤ 256 :=
  le_trans List.countP_le_length (by simp)

theorem mem_presentValues (p : Vector Bool 256) (v : Byte) : v.toNat ∈ presentValues p ↔ byteGet p v = true := by
  have hv := v.isLt
  unfold presentValues
  rw [List.mem_filter, List.mem_range]
  have := byteGet_eq p v
  rw [List.getD_eq_getElem?_getD, this]
  exact ⟨fun h => h.2, fun h => ⟨by omega, h⟩⟩

/-- The value of dense rank `rankOf v` is `v` (rule R190). -/
theorem presentValues_rank {p : Vector Bool 256} {v : Byte} (h : byteGet p v = true) :
    (presentValues p)[rankOf p v]? = some v.toNat := by
  rw [rankOf_eq]
  have := byteGet_eq p v
  exact filter_range_get _ v.isLt (by simp [List.getD_eq_getElem?_getD, this, h])

theorem rankOf_lt {p : Vector Bool 256} {v : Byte} (h : byteGet p v = true) : rankOf p v < countPresent p := by
  have := presentValues_rank h
  rw [← presentValues_length]
  exact (List.getElem?_eq_some_iff.mp this).1

/-- Numbering the elements of a list in a table leaves every other element alone. -/
theorem numbered_other {n : Nat} {vs : List Nat} {k : Nat} {t : Vector Byte n} {v : Nat} (hv : v ∉ vs) :
    ((vs.zipIdx k).foldl (fun t q => t.setIfInBounds q.1 (BitVec.ofNat 8 q.2)) t).toList[v]? = t.toList[v]? := by
  induction vs generalizing k t with
  | nil => rfl
  | cons u vs ih =>
    simp only [List.mem_cons, not_or] at hv
    rw [List.zipIdx_cons, List.foldl_cons, ih hv.2]
    simp [Ne.symm hv.1]

/-- Numbering the elements of a list in a table. -/
theorem numbered_get {n : Nat} {vs : List Nat} {k : Nat} {t : Vector Byte n} {v r : Nat} (hn : vs.Nodup) (hr : vs[r]? = some v)
    (hv : v < n) :
    ((vs.zipIdx k).foldl (fun t q => t.setIfInBounds q.1 (BitVec.ofNat 8 q.2)) t).toList[v]? = some (BitVec.ofNat 8 (k + r)) := by
  induction vs generalizing k t r with
  | nil => simp at hr
  | cons u vs ih =>
    obtain ⟨hu, hn⟩ := List.nodup_cons.mp hn
    rw [List.zipIdx_cons, List.foldl_cons]
    cases r with
    | zero =>
      simp only [List.getElem?_cons_zero, Option.some.injEq] at hr
      subst hr
      rw [numbered_other hu]
      simp [hv]
    | succ r =>
      rw [List.getElem?_cons_succ] at hr
      rw [ih hn hr]
      congr 2
      omega

/-- The engine after MTF_INIT, less RESULT: `MtfInit(d)` always ends normally (rule R191). -/
def Engine.mtfStarted (decoding : Bool) (e : Engine) : Engine :=
  let m := buildMap e.block.presence e.mtf
  { e with
    mtf :=
      { m with
        list := rowWrite m.list 0 ((List.range m.nInUse.toNat).map fun j => BitVec.ofNat 8 j)
        zpend := 0
        len := 0
        freq := Vector.replicate 258 0
        runAcc := 0
        runW := 1 }
    bwt.len := if decoding then 0 else e.bwt.len
    huf.decEob := if decoding then false else e.huf.decEob }

theorem mtfInit_run (decoding : Bool) : mtfInit decoding e = .ok () (e.mtfStarted decoding) := by
  cases decoding <;> rfl

theorem mtfStarted_nInUse (decoding : Bool) : (e.mtfStarted decoding).mtf.nInUse.toNat = countPresent e.block.presence := by
  show (BitVec.ofNat 9 (presentValues e.block.presence).length).toNat = _
  rw [presentValues_length, BitVec.toNat_ofNat]
  have := countPresent_le e.block.presence
  omega

/-- MTF_INIT starts the list with the ranks in order (rule R191). -/
theorem mtfStarted_list (decoding : Bool) (j : Nat) :
    (e.mtfStarted decoding).mtf.list.toList[j]? =
      if j < countPresent e.block.presence then some (BitVec.ofNat 8 j) else e.mtf.list.toList[j]? := by
  have hn := mtfStarted_nInUse (e := e) decoding
  have hle := countPresent_le e.block.presence
  show (rowWrite e.mtf.list 0 ((List.range (e.mtfStarted decoding).mtf.nInUse.toNat).map fun j => BitVec.ofNat 8 j)).toList[j]? = _
  rw [hn, rowWrite_get]
  simp only [List.length_map, List.length_range]
  by_cases h : j < countPresent e.block.presence
  · rw [if_pos (by omega), if_pos h]
    simp [h]
  · rw [if_neg (by omega), if_neg h]

theorem mtfStarted_seqToUnseq (decoding : Bool) (j : Nat) :
    (e.mtfStarted decoding).mtf.seqToUnseq.toList[j]? =
      if j < countPresent e.block.presence then (presentValues e.block.presence)[j]?.map (BitVec.ofNat 8) else e.mtf.seqToUnseq.toList[j]? := by
  have hle := countPresent_le e.block.presence
  show (rowWrite e.mtf.seqToUnseq 0 ((presentValues e.block.presence).map fun v => BitVec.ofNat 8 v)).toList[j]? = _
  rw [rowWrite_get]
  simp only [List.length_map, presentValues_length]
  by_cases h : j < countPresent e.block.presence
  · rw [if_pos (by omega), if_pos h]
    simp
  · rw [if_neg (by omega), if_neg h]

theorem mtfStarted_unseqToSeq {decoding : Bool} {v : Byte} (h : byteGet e.block.presence v = true) :
    byteGet (e.mtfStarted decoding).mtf.unseqToSeq v = BitVec.ofNat 8 (rankOf e.block.presence v) := by
  have h1 := numbered_get (n := 256) (k := 0) (t := e.mtf.unseqToSeq) (presentValues_nodup e.block.presence) (presentValues_rank h) v.isLt
  have h2 := byteGet_eq (e.mtfStarted decoding).mtf.unseqToSeq v
  rw [Nat.zero_add] at h1
  exact Option.some.inj (h2.symm.trans h1)

theorem mtfStarted_absent {decoding : Bool} {v : Byte} (h : byteGet e.block.presence v = false) :
    byteGet (e.mtfStarted decoding).mtf.unseqToSeq v = byteGet e.mtf.unseqToSeq v := by
  have hv : v.toNat ∉ presentValues e.block.presence := fun h' => by
    rw [mem_presentValues, h] at h'
    exact absurd h' (by simp)
  have h1 := numbered_other (n := 256) (k := 0) (t := e.mtf.unseqToSeq) hv
  have h2 := byteGet_eq (e.mtfStarted decoding).mtf.unseqToSeq v
  have h3 := byteGet_eq e.mtf.unseqToSeq v
  exact Option.some.inj (h2.symm.trans (h1.trans h3))

/-- MTF_INIT sets up the move-to-front state (rules R190, R191). -/
theorem mtfStarted_ok (decoding : Bool) : (e.mtfStarted decoding).MtfOk where
  count := mtfStarted_nInUse decoding
  list := by
    have hle := countPresent_le e.block.presence
    rw [mtfStarted_nInUse]
    have : ((e.mtfStarted decoding).mtf.list.toList.take (countPresent e.block.presence)).map BitVec.toNat =
        List.range (countPresent e.block.presence) := by
      apply List.ext_getElem?
      intro j
      rw [List.getElem?_map, List.getElem?_take]
      by_cases h : j < countPresent e.block.presence
      · rw [if_pos h, mtfStarted_list, if_pos h]
        simp [h]
        omega
      · rw [if_neg h]
        simp
        omega
    rw [this]
  rank := by
    intro v hv
    have hv : byteGet e.block.presence v = true := hv
    have hlt := rankOf_lt hv
    have hle := countPresent_le e.block.presence
    rw [mtfStarted_unseqToSeq hv, BitVec.toNat_ofNat]
    show rankOf e.block.presence v % 2 ^ 8 = rankOf e.block.presence v
    omega
  value := by
    intro v hv
    have hv : byteGet e.block.presence v = true := hv
    have hlt := rankOf_lt hv
    have hle := countPresent_le e.block.presence
    have h1 := mtfStarted_seqToUnseq (e := e) decoding (rankOf e.block.presence v)
    rw [if_pos hlt, presentValues_rank hv] at h1
    have hr : (BitVec.ofNat 8 (rankOf e.block.presence v)).toNat = rankOf e.block.presence v := by
      rw [BitVec.toNat_ofNat]
      omega
    have h2 := byteGet_eq (e.mtfStarted decoding).mtf.seqToUnseq (BitVec.ofNat 8 (rankOf e.block.presence v))
    rw [hr, h1] at h2
    have h3 := Option.some.inj h2
    show byteGet (e.mtfStarted decoding).mtf.seqToUnseq (BitVec.ofNat 8 (rankOf e.block.presence v)) = v
    rw [← h3]
    simp

end Sys2Proof.Machine
end

