-- ==== Sys2Proof/Laws/PerInstr.lean ====
section
/-! SUPPORT. Statements made per command: the family EncodedFields, one lemma per constructor (rules R100, R103, R104). -/

namespace Sys2Proof.Laws.EncodedFields

set_option Elab.async false

open Sys2Proof

/-- The word that a command is written as has its opcode in bits 7:0, all of which the command uses, and zeros in every bit that the
command does not use (rules R100, R103). -/
def Statement (i : Instr) : Prop :=
  i.usedBits.setWidth 8 = 0xFF#8 ∧ encode i &&& ~~~ i.usedBits = 0

/-- A word put together from its fields has no bit outside a mask that covers them. -/
theorem masked (imm : BitVec 16) (t : BitVec 3) (n : BitVec 5) (opc : BitVec 8) (mi : BitVec 16) (mt : BitVec 3) (mn : BitVec 5)
    (mo : BitVec 8) (h1 : imm &&& ~~~ mi = 0) (h2 : t &&& ~~~ mt = 0) (h3 : n &&& ~~~ mn = 0) (h4 : opc &&& ~~~ mo = 0) :
    commandWord imm t n opc &&& ~~~ commandWord mi mt mn mo = 0 := by
  unfold commandWord
  rw [BitVec.not_append, BitVec.not_append, BitVec.not_append, BitVec.and_append, BitVec.and_append, BitVec.and_append, h1, h2, h3, h4]
  rfl

theorem nop : Statement .nop := ⟨rfl, by decide⟩

theorem brReadBits (n : BitVec 5) : Statement (.brReadBits n) := 
  ⟨by simp [Instr.usedBits], masked _ _ _ _ 0 0 0x1F 0xFF (by decide +revert) (by decide +revert) (by decide +revert) (by decide)⟩

theorem brReadBool : Statement .brReadBool := ⟨rfl, by decide⟩

theorem brReadUnary (limit : BitVec 16) : Statement (.brReadUnary limit) := 
  ⟨by simp [Instr.usedBits], masked _ _ _ _ 0xFFFF 0 0 0xFF (by simp) (by decide +revert) (by decide +revert) (by decide)⟩

theorem brReadInt32 : Statement .brReadInt32 := ⟨rfl, by decide⟩

theorem bwWriteBits (n : BitVec 5) : Statement (.bwWriteBits n) := 
  ⟨by simp [Instr.usedBits], masked _ _ _ _ 0 0 0x1F 0xFF (by decide +revert) (by decide +revert) (by decide +revert) (by decide)⟩

theorem bwWriteBool : Statement .bwWriteBool := ⟨rfl, by decide⟩

theorem bwWriteUnary : Statement .bwWriteUnary := ⟨rfl, by decide⟩

theorem bwFlush : Statement .bwFlush := ⟨rfl, by decide⟩

theorem bwWriteInt32 : Statement .bwWriteInt32 := ⟨rfl, by decide⟩

theorem rle1Put : Statement .rle1Put := ⟨rfl, by decide⟩

theorem rle1Flush : Statement .rle1Flush := ⟨rfl, by decide⟩

theorem rle1Get : Statement .rle1Get := ⟨rfl, by decide⟩

theorem rle1GetBlk : Statement .rle1GetBlk := ⟨rfl, by decide⟩

theorem bwtForward : Statement .bwtForward := ⟨rfl, by decide⟩

theorem bwtInvSetup : Statement .bwtInvSetup := ⟨rfl, by decide⟩

theorem bwtInvNext : Statement .bwtInvNext := ⟨rfl, by decide⟩

theorem bwtGet : Statement .bwtGet := ⟨rfl, by decide⟩

theorem bwtSetStart : Statement .bwtSetStart := ⟨rfl, by decide⟩

theorem mtfInit (decoding : BitVec 1) : Statement (.mtfInit decoding) := 
  ⟨by simp [Instr.usedBits], masked _ _ _ _ 1 0 0 0xFF (by decide +revert) (by decide +revert) (by decide +revert) (by decide)⟩

theorem mtfEncByte : Statement .mtfEncByte := ⟨rfl, by decide⟩

theorem mtfEncEnd : Statement .mtfEncEnd := ⟨rfl, by decide⟩

theorem mtfDecSym : Statement .mtfDecSym := ⟨rfl, by decide⟩

theorem mtfReadMap : Statement .mtfReadMap := ⟨rfl, by decide⟩

theorem mtfWriteMap : Statement .mtfWriteMap := ⟨rfl, by decide⟩

theorem mtfGet : Statement .mtfGet := ⟨rfl, by decide⟩

theorem hufAlloc (t : BitVec 3) (count : BitVec 9) : Statement (.hufAlloc t count) := 
  ⟨by simp [Instr.usedBits], masked _ _ _ _ 0x1FF 7 0 0xFF (by decide +revert) (by decide +revert) (by decide +revert) (by decide)⟩

theorem hufSetFreq (t : BitVec 3) (sym : BitVec 9) : Statement (.hufSetFreq t sym) := 
  ⟨by simp [Instr.usedBits], masked _ _ _ _ 0x1FF 7 0 0xFF (by decide +revert) (by decide +revert) (by decide +revert) (by decide)⟩

theorem hufSetGroups : Statement .hufSetGroups := ⟨rfl, by decide⟩

theorem hufSeed : Statement .hufSeed := ⟨rfl, by decide⟩

theorem hufSelectPass : Statement .hufSelectPass := ⟨rfl, by decide⟩

theorem hufOptimize : Statement .hufOptimize := ⟨rfl, by decide⟩

theorem hufAssignCodes (t : BitVec 3) : Statement (.hufAssignCodes t) := 
  ⟨by simp [Instr.usedBits], masked _ _ _ _ 0 7 0 0xFF (by decide +revert) (by decide +revert) (by decide +revert) (by decide)⟩

theorem hufWriteTables : Statement .hufWriteTables := ⟨rfl, by decide⟩

theorem hufEncodeData : Statement .hufEncodeData := ⟨rfl, by decide⟩

theorem hufReadTables : Statement .hufReadTables := ⟨rfl, by decide⟩

theorem hufBuildDecode (t : BitVec 3) : Statement (.hufBuildDecode t) := 
  ⟨by simp [Instr.usedBits], masked _ _ _ _ 0 7 0 0xFF (by decide +revert) (by decide +revert) (by decide +revert) (by decide)⟩

theorem hufDecodeSym : Statement .hufDecodeSym := ⟨rfl, by decide⟩

theorem hufEncodeSym (t : BitVec 3) : Statement (.hufEncodeSym t) := 
  ⟨by simp [Instr.usedBits], masked _ _ _ _ 0 7 0 0xFF (by decide +revert) (by decide +revert) (by decide +revert) (by decide)⟩

theorem hufSetLen (t : BitVec 3) (sym : BitVec 9) : Statement (.hufSetLen t sym) := 
  ⟨by simp [Instr.usedBits], masked _ _ _ _ 0x1FF 7 0 0xFF (by decide +revert) (by decide +revert) (by decide +revert) (by decide)⟩

theorem hufGetLen (t : BitVec 3) (sym : BitVec 9) : Statement (.hufGetLen t sym) := 
  ⟨by simp [Instr.usedBits], masked _ _ _ _ 0x1FF 7 0 0xFF (by decide +revert) (by decide +revert) (by decide +revert) (by decide)⟩

theorem hufGetCode (t : BitVec 3) (sym : BitVec 9) : Statement (.hufGetCode t sym) := 
  ⟨by simp [Instr.usedBits], masked _ _ _ _ 0x1FF 7 0 0xFF (by decide +revert) (by decide +revert) (by decide +revert) (by decide)⟩

theorem hufGetSel : Statement .hufGetSel := ⟨rfl, by decide⟩

theorem crcInit : Statement .crcInit := ⟨rfl, by decide⟩

theorem crcUpdate : Statement .crcUpdate := ⟨rfl, by decide⟩

theorem crcFinal : Statement .crcFinal := ⟨rfl, by decide⟩

theorem crcCombine : Statement .crcCombine := ⟨rfl, by decide⟩

theorem crcStreamInit : Statement .crcStreamInit := ⟨rfl, by decide⟩

theorem crcReadStream : Statement .crcReadStream := ⟨rfl, by decide⟩

theorem crcReadStored (which : BitVec 1) : Statement (.crcReadStored which) := 
  ⟨by simp [Instr.usedBits], masked _ _ _ _ 1 0 0 0xFF (by decide +revert) (by decide +revert) (by decide +revert) (by decide)⟩

theorem blkEncOpen (k : BitVec 4) : Statement (.blkEncOpen k) := 
  ⟨by simp [Instr.usedBits], masked _ _ _ _ 0xF 0 0 0xFF (by decide +revert) (by decide +revert) (by decide +revert) (by decide)⟩

theorem blkEncWrite : Statement .blkEncWrite := ⟨rfl, by decide⟩

theorem blkEncClose : Statement .blkEncClose := ⟨rfl, by decide⟩

theorem blkDecStart (k : BitVec 4) : Statement (.blkDecStart k) := 
  ⟨by simp [Instr.usedBits], masked _ _ _ _ 0xF 0 0 0xFF (by decide +revert) (by decide +revert) (by decide +revert) (by decide)⟩

theorem blkDecRead : Statement .blkDecRead := ⟨rfl, by decide⟩

theorem blkCheckCrc : Statement .blkCheckCrc := ⟨rfl, by decide⟩

theorem strEncOpen (k : BitVec 4) : Statement (.strEncOpen k) := 
  ⟨by simp [Instr.usedBits], masked _ _ _ _ 0xF 0 0 0xFF (by decide +revert) (by decide +revert) (by decide +revert) (by decide)⟩

theorem strEncWrite : Statement .strEncWrite := ⟨rfl, by decide⟩

theorem strEncFinish : Statement .strEncFinish := ⟨rfl, by decide⟩

theorem strDecOpen (headerless : BitVec 1) : Statement (.strDecOpen headerless) := 
  ⟨by simp [Instr.usedBits], masked _ _ _ _ 1 0 0 0xFF (by decide +revert) (by decide +revert) (by decide +revert) (by decide)⟩

theorem strDecRead : Statement .strDecRead := ⟨rfl, by decide⟩

theorem strClose : Statement .strClose := ⟨rfl, by decide⟩

theorem coreReset : Statement .coreReset := ⟨rfl, by decide⟩

end Sys2Proof.Laws.EncodedFields
end

