-- ==== Sys2Proof/Laws/State.lean ====
section
/-! SUPPORT. What each update of the state does to each of its fields, one lemma for each, so that no later proof unfolds a record
update. -/

namespace Sys2Proof.Machine

set_option Elab.async false

variable (e : Engine) (s : State)

/-! ### `Engine.raiseError` -/

@[simp] theorem Engine.raiseError_host_cmd (k : ErrorKind) : (e.raiseError k).host.cmd = e.host.cmd := rfl
@[simp] theorem Engine.raiseError_host_arg (k : ErrorKind) : (e.raiseError k).host.arg = e.host.arg := rfl
@[simp] theorem Engine.raiseError_host_result (k : ErrorKind) : (e.raiseError k).host.result = e.host.result := rfl
@[simp] theorem Engine.raiseError_host_err (k : ErrorKind) : (e.raiseError k).host.err = true := rfl
@[simp] theorem Engine.raiseError_host_nodata (k : ErrorKind) : (e.raiseError k).host.nodata = e.host.nodata := rfl
@[simp] theorem Engine.raiseError_host_full (k : ErrorKind) : (e.raiseError k).host.full = e.host.full := rfl
@[simp] theorem Engine.raiseError_host_drop (k : ErrorKind) : (e.raiseError k).host.drop = e.host.drop := rfl
@[simp] theorem Engine.raiseError_host_inFifo (k : ErrorKind) : (e.raiseError k).host.inFifo = e.host.inFifo := rfl
@[simp] theorem Engine.raiseError_host_eoi (k : ErrorKind) : (e.raiseError k).host.eoi = e.host.eoi := rfl
@[simp] theorem Engine.raiseError_host_outFifo (k : ErrorKind) : (e.raiseError k).host.outFifo = e.host.outFifo := rfl
@[simp] theorem Engine.raiseError_bits (k : ErrorKind) : (e.raiseError k).bits = e.bits := rfl
@[simp] theorem Engine.raiseError_block (k : ErrorKind) : (e.raiseError k).block = e.block := rfl
@[simp] theorem Engine.raiseError_bwt (k : ErrorKind) : (e.raiseError k).bwt = e.bwt := rfl
@[simp] theorem Engine.raiseError_mtf (k : ErrorKind) : (e.raiseError k).mtf = e.mtf := rfl
@[simp] theorem Engine.raiseError_huf (k : ErrorKind) : (e.raiseError k).huf = e.huf := rfl
@[simp] theorem Engine.raiseError_crc (k : ErrorKind) : (e.raiseError k).crc = e.crc := rfl
@[simp] theorem Engine.raiseError_frame_phase (k : ErrorKind) : (e.raiseError k).frame.phase = .error := rfl
@[simp] theorem Engine.raiseError_frame_headerless (k : ErrorKind) : (e.raiseError k).frame.headerless = e.frame.headerless := rfl
@[simp] theorem Engine.raiseError_frame_errcode (k : ErrorKind) : (e.raiseError k).frame.errcode = e.frame.errcode.or (some k) := rfl
@[simp] theorem Engine.raiseError_inDepth (k : ErrorKind) : (e.raiseError k).inDepth = e.inDepth := rfl
@[simp] theorem Engine.raiseError_outDepth (k : ErrorKind) : (e.raiseError k).outDepth = e.outDepth := rfl
@[simp] theorem Engine.raiseError_freeCount (k : ErrorKind) : (e.raiseError k).freeCount = e.freeCount := rfl

/-! ### `Engine.clearFlags` -/

@[simp] theorem Engine.clearFlags_host_cmd : (e.clearFlags).host.cmd = e.host.cmd := rfl
@[simp] theorem Engine.clearFlags_host_arg : (e.clearFlags).host.arg = e.host.arg := rfl
@[simp] theorem Engine.clearFlags_host_result : (e.clearFlags).host.result = e.host.result := rfl
@[simp] theorem Engine.clearFlags_host_err : (e.clearFlags).host.err = e.host.err := rfl
@[simp] theorem Engine.clearFlags_host_nodata : (e.clearFlags).host.nodata = false := rfl
@[simp] theorem Engine.clearFlags_host_full : (e.clearFlags).host.full = false := rfl
@[simp] theorem Engine.clearFlags_host_drop : (e.clearFlags).host.drop = e.host.drop := rfl
@[simp] theorem Engine.clearFlags_host_inFifo : (e.clearFlags).host.inFifo = e.host.inFifo := rfl
@[simp] theorem Engine.clearFlags_host_eoi : (e.clearFlags).host.eoi = e.host.eoi := rfl
@[simp] theorem Engine.clearFlags_host_outFifo : (e.clearFlags).host.outFifo = e.host.outFifo := rfl
@[simp] theorem Engine.clearFlags_bits : (e.clearFlags).bits = e.bits := rfl
@[simp] theorem Engine.clearFlags_block : (e.clearFlags).block = e.block := rfl
@[simp] theorem Engine.clearFlags_bwt : (e.clearFlags).bwt = e.bwt := rfl
@[simp] theorem Engine.clearFlags_mtf : (e.clearFlags).mtf = e.mtf := rfl
@[simp] theorem Engine.clearFlags_huf : (e.clearFlags).huf = e.huf := rfl
@[simp] theorem Engine.clearFlags_crc : (e.clearFlags).crc = e.crc := rfl
@[simp] theorem Engine.clearFlags_frame : (e.clearFlags).frame = e.frame := rfl
@[simp] theorem Engine.clearFlags_inDepth : (e.clearFlags).inDepth = e.inDepth := rfl
@[simp] theorem Engine.clearFlags_outDepth : (e.clearFlags).outDepth = e.outDepth := rfl
@[simp] theorem Engine.clearFlags_freeCount : (e.clearFlags).freeCount = e.freeCount := rfl

/-! ### `Engine.setDrop` -/

@[simp] theorem Engine.setDrop_host_cmd : (e.setDrop).host.cmd = e.host.cmd := rfl
@[simp] theorem Engine.setDrop_host_arg : (e.setDrop).host.arg = e.host.arg := rfl
@[simp] theorem Engine.setDrop_host_result : (e.setDrop).host.result = e.host.result := rfl
@[simp] theorem Engine.setDrop_host_err : (e.setDrop).host.err = e.host.err := rfl
@[simp] theorem Engine.setDrop_host_nodata : (e.setDrop).host.nodata = e.host.nodata := rfl
@[simp] theorem Engine.setDrop_host_full : (e.setDrop).host.full = e.host.full := rfl
@[simp] theorem Engine.setDrop_host_drop : (e.setDrop).host.drop = true := rfl
@[simp] theorem Engine.setDrop_host_inFifo : (e.setDrop).host.inFifo = e.host.inFifo := rfl
@[simp] theorem Engine.setDrop_host_eoi : (e.setDrop).host.eoi = e.host.eoi := rfl
@[simp] theorem Engine.setDrop_host_outFifo : (e.setDrop).host.outFifo = e.host.outFifo := rfl
@[simp] theorem Engine.setDrop_bits : (e.setDrop).bits = e.bits := rfl
@[simp] theorem Engine.setDrop_block : (e.setDrop).block = e.block := rfl
@[simp] theorem Engine.setDrop_bwt : (e.setDrop).bwt = e.bwt := rfl
@[simp] theorem Engine.setDrop_mtf : (e.setDrop).mtf = e.mtf := rfl
@[simp] theorem Engine.setDrop_huf : (e.setDrop).huf = e.huf := rfl
@[simp] theorem Engine.setDrop_crc : (e.setDrop).crc = e.crc := rfl
@[simp] theorem Engine.setDrop_frame : (e.setDrop).frame = e.frame := rfl
@[simp] theorem Engine.setDrop_inDepth : (e.setDrop).inDepth = e.inDepth := rfl
@[simp] theorem Engine.setDrop_outDepth : (e.setDrop).outDepth = e.outDepth := rfl
@[simp] theorem Engine.setDrop_freeCount : (e.setDrop).freeCount = e.freeCount := rfl

/-! ### `Engine.setEoi` -/

@[simp] theorem Engine.setEoi_host_cmd : (e.setEoi).host.cmd = e.host.cmd := rfl
@[simp] theorem Engine.setEoi_host_arg : (e.setEoi).host.arg = e.host.arg := rfl
@[simp] theorem Engine.setEoi_host_result : (e.setEoi).host.result = e.host.result := rfl
@[simp] theorem Engine.setEoi_host_err : (e.setEoi).host.err = e.host.err := rfl
@[simp] theorem Engine.setEoi_host_nodata : (e.setEoi).host.nodata = e.host.nodata := rfl
@[simp] theorem Engine.setEoi_host_full : (e.setEoi).host.full = e.host.full := rfl
@[simp] theorem Engine.setEoi_host_drop : (e.setEoi).host.drop = e.host.drop := rfl
@[simp] theorem Engine.setEoi_host_inFifo : (e.setEoi).host.inFifo = e.host.inFifo := rfl
@[simp] theorem Engine.setEoi_host_eoi : (e.setEoi).host.eoi = true := rfl
@[simp] theorem Engine.setEoi_host_outFifo : (e.setEoi).host.outFifo = e.host.outFifo := rfl
@[simp] theorem Engine.setEoi_bits : (e.setEoi).bits = e.bits := rfl
@[simp] theorem Engine.setEoi_block : (e.setEoi).block = e.block := rfl
@[simp] theorem Engine.setEoi_bwt : (e.setEoi).bwt = e.bwt := rfl
@[simp] theorem Engine.setEoi_mtf : (e.setEoi).mtf = e.mtf := rfl
@[simp] theorem Engine.setEoi_huf : (e.setEoi).huf = e.huf := rfl
@[simp] theorem Engine.setEoi_crc : (e.setEoi).crc = e.crc := rfl
@[simp] theorem Engine.setEoi_frame : (e.setEoi).frame = e.frame := rfl
@[simp] theorem Engine.setEoi_inDepth : (e.setEoi).inDepth = e.inDepth := rfl
@[simp] theorem Engine.setEoi_outDepth : (e.setEoi).outDepth = e.outDepth := rfl
@[simp] theorem Engine.setEoi_freeCount : (e.setEoi).freeCount = e.freeCount := rfl

/-! ### `Engine.pushInput` -/

@[simp] theorem Engine.pushInput_host_cmd (b : Byte) : (e.pushInput b).host.cmd = e.host.cmd := rfl
@[simp] theorem Engine.pushInput_host_arg (b : Byte) : (e.pushInput b).host.arg = e.host.arg := rfl
@[simp] theorem Engine.pushInput_host_result (b : Byte) : (e.pushInput b).host.result = e.host.result := rfl
@[simp] theorem Engine.pushInput_host_err (b : Byte) : (e.pushInput b).host.err = e.host.err := rfl
@[simp] theorem Engine.pushInput_host_nodata (b : Byte) : (e.pushInput b).host.nodata = e.host.nodata := rfl
@[simp] theorem Engine.pushInput_host_full (b : Byte) : (e.pushInput b).host.full = e.host.full := rfl
@[simp] theorem Engine.pushInput_host_drop (b : Byte) : (e.pushInput b).host.drop = e.host.drop := rfl
@[simp] theorem Engine.pushInput_host_inFifo (b : Byte) : (e.pushInput b).host.inFifo = e.host.inFifo ++ [b] := rfl
@[simp] theorem Engine.pushInput_host_eoi (b : Byte) : (e.pushInput b).host.eoi = e.host.eoi := rfl
@[simp] theorem Engine.pushInput_host_outFifo (b : Byte) : (e.pushInput b).host.outFifo = e.host.outFifo := rfl
@[simp] theorem Engine.pushInput_bits (b : Byte) : (e.pushInput b).bits = e.bits := rfl
@[simp] theorem Engine.pushInput_block (b : Byte) : (e.pushInput b).block = e.block := rfl
@[simp] theorem Engine.pushInput_bwt (b : Byte) : (e.pushInput b).bwt = e.bwt := rfl
@[simp] theorem Engine.pushInput_mtf (b : Byte) : (e.pushInput b).mtf = e.mtf := rfl
@[simp] theorem Engine.pushInput_huf (b : Byte) : (e.pushInput b).huf = e.huf := rfl
@[simp] theorem Engine.pushInput_crc (b : Byte) : (e.pushInput b).crc = e.crc := rfl
@[simp] theorem Engine.pushInput_frame (b : Byte) : (e.pushInput b).frame = e.frame := rfl
@[simp] theorem Engine.pushInput_inDepth (b : Byte) : (e.pushInput b).inDepth = e.inDepth := rfl
@[simp] theorem Engine.pushInput_outDepth (b : Byte) : (e.pushInput b).outDepth = e.outDepth := rfl
@[simp] theorem Engine.pushInput_freeCount (b : Byte) : (e.pushInput b).freeCount = e.freeCount := rfl

/-! ### `Engine.withResult` -/

@[simp] theorem Engine.withResult_host_cmd (v : Nat) : (e.withResult v).host.cmd = e.host.cmd := rfl
@[simp] theorem Engine.withResult_host_arg (v : Nat) : (e.withResult v).host.arg = e.host.arg := rfl
@[simp] theorem Engine.withResult_host_result (v : Nat) : (e.withResult v).host.result = BitVec.ofNat 32 v := rfl
@[simp] theorem Engine.withResult_host_err (v : Nat) : (e.withResult v).host.err = e.host.err := rfl
@[simp] theorem Engine.withResult_host_nodata (v : Nat) : (e.withResult v).host.nodata = e.host.nodata := rfl
@[simp] theorem Engine.withResult_host_full (v : Nat) : (e.withResult v).host.full = e.host.full := rfl
@[simp] theorem Engine.withResult_host_drop (v : Nat) : (e.withResult v).host.drop = e.host.drop := rfl
@[simp] theorem Engine.withResult_host_inFifo (v : Nat) : (e.withResult v).host.inFifo = e.host.inFifo := rfl
@[simp] theorem Engine.withResult_host_eoi (v : Nat) : (e.withResult v).host.eoi = e.host.eoi := rfl
@[simp] theorem Engine.withResult_host_outFifo (v : Nat) : (e.withResult v).host.outFifo = e.host.outFifo := rfl
@[simp] theorem Engine.withResult_bits (v : Nat) : (e.withResult v).bits = e.bits := rfl
@[simp] theorem Engine.withResult_block (v : Nat) : (e.withResult v).block = e.block := rfl
@[simp] theorem Engine.withResult_bwt (v : Nat) : (e.withResult v).bwt = e.bwt := rfl
@[simp] theorem Engine.withResult_mtf (v : Nat) : (e.withResult v).mtf = e.mtf := rfl
@[simp] theorem Engine.withResult_huf (v : Nat) : (e.withResult v).huf = e.huf := rfl
@[simp] theorem Engine.withResult_crc (v : Nat) : (e.withResult v).crc = e.crc := rfl
@[simp] theorem Engine.withResult_frame (v : Nat) : (e.withResult v).frame = e.frame := rfl
@[simp] theorem Engine.withResult_inDepth (v : Nat) : (e.withResult v).inDepth = e.inDepth := rfl
@[simp] theorem Engine.withResult_outDepth (v : Nat) : (e.withResult v).outDepth = e.outDepth := rfl
@[simp] theorem Engine.withResult_freeCount (v : Nat) : (e.withResult v).freeCount = e.freeCount := rfl

/-! ### `Engine.noData` -/

@[simp] theorem Engine.noData_host_cmd : (e.noData).host.cmd = e.host.cmd := rfl
@[simp] theorem Engine.noData_host_arg : (e.noData).host.arg = e.host.arg := rfl
@[simp] theorem Engine.noData_host_result : (e.noData).host.result = 0 := rfl
@[simp] theorem Engine.noData_host_err : (e.noData).host.err = e.host.err := rfl
@[simp] theorem Engine.noData_host_nodata : (e.noData).host.nodata = true := rfl
@[simp] theorem Engine.noData_host_full : (e.noData).host.full = e.host.full := rfl
@[simp] theorem Engine.noData_host_drop : (e.noData).host.drop = e.host.drop := rfl
@[simp] theorem Engine.noData_host_inFifo : (e.noData).host.inFifo = e.host.inFifo := rfl
@[simp] theorem Engine.noData_host_eoi : (e.noData).host.eoi = e.host.eoi := rfl
@[simp] theorem Engine.noData_host_outFifo : (e.noData).host.outFifo = e.host.outFifo := rfl
@[simp] theorem Engine.noData_bits : (e.noData).bits = e.bits := rfl
@[simp] theorem Engine.noData_block : (e.noData).block = e.block := rfl
@[simp] theorem Engine.noData_bwt : (e.noData).bwt = e.bwt := rfl
@[simp] theorem Engine.noData_mtf : (e.noData).mtf = e.mtf := rfl
@[simp] theorem Engine.noData_huf : (e.noData).huf = e.huf := rfl
@[simp] theorem Engine.noData_crc : (e.noData).crc = e.crc := rfl
@[simp] theorem Engine.noData_frame : (e.noData).frame = e.frame := rfl
@[simp] theorem Engine.noData_inDepth : (e.noData).inDepth = e.inDepth := rfl
@[simp] theorem Engine.noData_outDepth : (e.noData).outDepth = e.outDepth := rfl
@[simp] theorem Engine.noData_freeCount : (e.noData).freeCount = e.freeCount := rfl

/-! ### `Engine.fedCrc` -/

@[simp] theorem Engine.fedCrc_host (b : Byte) : (e.fedCrc b).host = e.host := rfl
@[simp] theorem Engine.fedCrc_bits (b : Byte) : (e.fedCrc b).bits = e.bits := rfl
@[simp] theorem Engine.fedCrc_block (b : Byte) : (e.fedCrc b).block = e.block := rfl
@[simp] theorem Engine.fedCrc_bwt (b : Byte) : (e.fedCrc b).bwt = e.bwt := rfl
@[simp] theorem Engine.fedCrc_mtf (b : Byte) : (e.fedCrc b).mtf = e.mtf := rfl
@[simp] theorem Engine.fedCrc_huf (b : Byte) : (e.fedCrc b).huf = e.huf := rfl
@[simp] theorem Engine.fedCrc_crc_block (b : Byte) : (e.fedCrc b).crc.block = crcUpdate e.crc.block b := rfl
@[simp] theorem Engine.fedCrc_crc_stream (b : Byte) : (e.fedCrc b).crc.stream = e.crc.stream := rfl
@[simp] theorem Engine.fedCrc_crc_storedBlock (b : Byte) : (e.fedCrc b).crc.storedBlock = e.crc.storedBlock := rfl
@[simp] theorem Engine.fedCrc_crc_storedStream (b : Byte) : (e.fedCrc b).crc.storedStream = e.crc.storedStream := rfl
@[simp] theorem Engine.fedCrc_frame (b : Byte) : (e.fedCrc b).frame = e.frame := rfl
@[simp] theorem Engine.fedCrc_inDepth (b : Byte) : (e.fedCrc b).inDepth = e.inDepth := rfl
@[simp] theorem Engine.fedCrc_outDepth (b : Byte) : (e.fedCrc b).outDepth = e.outDepth := rfl
@[simp] theorem Engine.fedCrc_freeCount (b : Byte) : (e.fedCrc b).freeCount = e.freeCount := rfl

/-! ### `Engine.combined` -/

@[simp] theorem Engine.combined_host (c : Word) : (e.combined c).host = e.host := rfl
@[simp] theorem Engine.combined_bits (c : Word) : (e.combined c).bits = e.bits := rfl
@[simp] theorem Engine.combined_block (c : Word) : (e.combined c).block = e.block := rfl
@[simp] theorem Engine.combined_bwt (c : Word) : (e.combined c).bwt = e.bwt := rfl
@[simp] theorem Engine.combined_mtf (c : Word) : (e.combined c).mtf = e.mtf := rfl
@[simp] theorem Engine.combined_huf (c : Word) : (e.combined c).huf = e.huf := rfl
@[simp] theorem Engine.combined_crc_block (c : Word) : (e.combined c).crc.block = e.crc.block := rfl
@[simp] theorem Engine.combined_crc_stream (c : Word) : (e.combined c).crc.stream = e.crc.stream.rotateLeft 1 ^^^ c := rfl
@[simp] theorem Engine.combined_crc_storedBlock (c : Word) : (e.combined c).crc.storedBlock = e.crc.storedBlock := rfl
@[simp] theorem Engine.combined_crc_storedStream (c : Word) : (e.combined c).crc.storedStream = e.crc.storedStream := rfl
@[simp] theorem Engine.combined_frame (c : Word) : (e.combined c).frame = e.frame := rfl
@[simp] theorem Engine.combined_inDepth (c : Word) : (e.combined c).inDepth = e.inDepth := rfl
@[simp] theorem Engine.combined_outDepth (c : Word) : (e.combined c).outDepth = e.outDepth := rfl
@[simp] theorem Engine.combined_freeCount (c : Word) : (e.combined c).freeCount = e.freeCount := rfl

/-! ### `Engine.opened` -/

@[simp] theorem Engine.opened_host (k : BitVec 4) : (e.opened k).host = e.host := rfl
@[simp] theorem Engine.opened_bits (k : BitVec 4) : (e.opened k).bits = e.bits := rfl
@[simp] theorem Engine.opened_block_blk (k : BitVec 4) : (e.opened k).block.blk = e.block.blk := rfl
@[simp] theorem Engine.opened_block_len (k : BitVec 4) : (e.opened k).block.len = 0 := rfl
@[simp] theorem Engine.opened_block_k (k : BitVec 4) : (e.opened k).block.k = k := rfl
@[simp] theorem Engine.opened_block_presence (k : BitVec 4) : (e.opened k).block.presence = Vector.replicate 256 false := rfl
@[simp] theorem Engine.opened_block_nonempty (k : BitVec 4) : (e.opened k).block.nonempty = false := rfl
@[simp] theorem Engine.opened_block_runCh (k : BitVec 4) : (e.opened k).block.runCh = e.block.runCh := rfl
@[simp] theorem Engine.opened_block_runLen (k : BitVec 4) : (e.opened k).block.runLen = 0 := rfl
@[simp] theorem Engine.opened_block_rlLast (k : BitVec 4) : (e.opened k).block.rlLast = e.block.rlLast := rfl
@[simp] theorem Engine.opened_block_rlCnt (k : BitVec 4) : (e.opened k).block.rlCnt = e.block.rlCnt := rfl
@[simp] theorem Engine.opened_block_rlRep (k : BitVec 4) : (e.opened k).block.rlRep = e.block.rlRep := rfl
@[simp] theorem Engine.opened_block_randFlag (k : BitVec 4) : (e.opened k).block.randFlag = e.block.randFlag := rfl
@[simp] theorem Engine.opened_block_randNtogo (k : BitVec 4) : (e.opened k).block.randNtogo = e.block.randNtogo := rfl
@[simp] theorem Engine.opened_block_randTpos (k : BitVec 4) : (e.opened k).block.randTpos = e.block.randTpos := rfl
@[simp] theorem Engine.opened_bwt (k : BitVec 4) : (e.opened k).bwt = e.bwt := rfl
@[simp] theorem Engine.opened_mtf (k : BitVec 4) : (e.opened k).mtf = e.mtf := rfl
@[simp] theorem Engine.opened_huf (k : BitVec 4) : (e.opened k).huf = e.huf := rfl
@[simp] theorem Engine.opened_crc_block (k : BitVec 4) : (e.opened k).crc.block = 0xFFFFFFFF := rfl
@[simp] theorem Engine.opened_crc_stream (k : BitVec 4) : (e.opened k).crc.stream = e.crc.stream := rfl
@[simp] theorem Engine.opened_crc_storedBlock (k : BitVec 4) : (e.opened k).crc.storedBlock = e.crc.storedBlock := rfl
@[simp] theorem Engine.opened_crc_storedStream (k : BitVec 4) : (e.opened k).crc.storedStream = e.crc.storedStream := rfl
@[simp] theorem Engine.opened_frame (k : BitVec 4) : (e.opened k).frame = e.frame := rfl
@[simp] theorem Engine.opened_inDepth (k : BitVec 4) : (e.opened k).inDepth = e.inDepth := rfl
@[simp] theorem Engine.opened_outDepth (k : BitVec 4) : (e.opened k).outDepth = e.outDepth := rfl
@[simp] theorem Engine.opened_freeCount (k : BitVec 4) : (e.opened k).freeCount = e.freeCount := rfl

/-! ### The updates of the machine's own fields -/

@[simp] theorem State.onEngine_toEngine (f : Engine → Engine) : (s.onEngine f).toEngine = f s.toEngine := rfl
@[simp] theorem State.onEngine_script (f : Engine → Engine) : (s.onEngine f).script = s.script := rfl
@[simp] theorem State.onEngine_seen (f : Engine → Engine) : (s.onEngine f).seen = s.seen := rfl
@[simp] theorem State.replay_toEngine (h : Hold) : (s.replay h).toEngine = { h.start with outDepth := s.outDepth + h.popped } := rfl
@[simp] theorem State.replay_hold (h : Hold) : (s.replay h).hold = none := rfl
@[simp] theorem State.replay_script (h : Hold) : (s.replay h).script = s.script := rfl
@[simp] theorem State.replay_seen (h : Hold) : (s.replay h).seen = s.seen := rfl
@[simp] theorem State.settle_toEngine (d : Nat) (h : Hold) : (s.settle d h).toEngine = { s.toEngine with host.outFifo := s.host.outFifo.drop h.popped, outDepth := d } := rfl
@[simp] theorem State.settle_script (d : Nat) (h : Hold) : (s.settle d h).script = s.script := rfl
@[simp] theorem State.settle_seen (d : Nat) (h : Hold) : (s.settle d h).seen = s.seen := rfl
@[simp] theorem State.withFetchWord_toEngine (n w : Nat) : (s.withFetchWord n w).toEngine = s.toEngine := rfl
@[simp] theorem State.withFetchWord_hold (n w : Nat) : (s.withFetchWord n w).hold = none := rfl
@[simp] theorem State.withFetchWord_script (n w : Nat) : (s.withFetchWord n w).script = .write 32 0 (BitVec.ofNat 32 (w % 2 ^ n)) :: s.script := rfl
@[simp] theorem State.withFetchWord_seen (n w : Nat) : (s.withFetchWord n w).seen = s.seen := rfl

@[simp] theorem State.onEngine_isSome (f : Engine → Engine) : (s.onEngine f).hold.isSome = s.hold.isSome := by
  unfold State.onEngine
  cases s.hold <;> rfl

@[simp] theorem State.settle_isSome (d : Nat) (h : Hold) : (s.settle d h).hold.isSome = s.hold.isSome := by
  unfold State.settle
  cases s.hold <;> rfl

theorem State.onEngine_hold_mem {f : Engine → Engine} {h : Hold} (hm : h ∈ (s.onEngine f).hold) :
    ∃ h' ∈ s.hold, h = { h' with start := f h'.start } := by
  unfold State.onEngine at hm
  cases hs : s.hold with
  | none => simp [hs] at hm
  | some h' =>
    simp only [hs, Option.mem_def, Option.some.injEq] at hm
    exact ⟨h', by simp, hm.symm⟩

theorem State.settle_hold_mem {d : Nat} {h k : Hold} (hm : k ∈ (s.settle d h).hold) :
    ∃ h' ∈ s.hold, k = { h' with start := h.start, popped := h.popped } := by
  unfold State.settle at hm
  cases hs : s.hold with
  | none => simp [hs] at hm
  | some h' =>
    simp only [hs, Option.mem_def, Option.some.injEq] at hm
    exact ⟨h', by simp, hm.symm⟩

/-- Popping an empty output FIFO removes nothing (rule R38). -/
theorem State.popOutput_nil (h : s.host.outFifo = []) : s.popOutput = s := by
  unfold State.popOutput
  rw [h]

/-- Popping removes the head of the output FIFO, and a held command counts it (rules R38, R94). -/
theorem State.popOutput_cons {b : Byte} {rest : List Byte} (h : s.host.outFifo = b :: rest) :
    s.popOutput = { s with host.outFifo := rest, hold := s.hold.map fun h => { h with popped := h.popped + 1 } } := by
  unfold State.popOutput
  rw [h]
  cases s.hold <;> rfl

end Sys2Proof.Machine
end

