-- ==== Sys2Proof/Tests/Slice0.lean ====
section
/-! SUPPORT. The model's own tests: ill-formed operands, command words written out from the encoding of rules R100 to R104, one step of
each command against the examples of spec/ and the vectors of spec/95_test_vectors.md, and for each obligation with hypotheses a state
that meets them. -/

open Sys2Proof Sys2Proof.Machine

namespace Sys2Proof.Tests

set_option Elab.async false

/-! ### Operand checks: one refused term for each check of rule R102 -/

theorem test_ill_formed_counts :
    (Instr.brReadBits 25).wellFormed = false ∧ (Instr.bwWriteBits 25).wellFormed = false ∧ (Instr.brReadBits 24).wellFormed = true ∧
      (Instr.hufAlloc 5 1).wellFormed = false ∧ (Instr.hufAlloc 5 259).wellFormed = false ∧ (Instr.hufAlloc 5 258).wellFormed = true ∧
      (Instr.hufAlloc 5 0).wellFormed = true := by decide

theorem test_ill_formed_tables :
    (Instr.hufAlloc 6 2).wellFormed = false ∧ (Instr.hufSetFreq 6 0).wellFormed = false ∧ (Instr.hufAssignCodes 6).wellFormed = false ∧
      (Instr.hufBuildDecode 7).wellFormed = false ∧ (Instr.hufEncodeSym 6).wellFormed = false ∧ (Instr.hufSetLen 6 0).wellFormed = false ∧
      (Instr.hufGetLen 6 0).wellFormed = false ∧ (Instr.hufGetCode 6 0).wellFormed = false := by decide

theorem test_ill_formed_symbols :
    (Instr.hufSetFreq 0 258).wellFormed = false ∧ (Instr.hufSetLen 0 258).wellFormed = false ∧ (Instr.hufGetLen 0 258).wellFormed = false ∧
      (Instr.hufGetCode 0 258).wellFormed = false ∧ (Instr.hufGetCode 5 257).wellFormed = true := by decide

theorem test_ill_formed_multipliers :
    (Instr.blkEncOpen 0).wellFormed = false ∧ (Instr.blkEncOpen 10).wellFormed = false ∧ (Instr.strEncOpen 0).wellFormed = false ∧
      (Instr.strEncOpen 10).wellFormed = false ∧ (Instr.blkDecStart 10).wellFormed = false ∧ (Instr.blkDecStart 0).wellFormed = true := by decide

/-! ### Command words written out bit by bit -/

theorem test_words_system :
    decode 0b00000000000000000000000000000000 = .ok .nop ∧
      decode 0b00000000000000000000000011111111 = .ok .coreReset := by decide

theorem test_words_bit_engine :
    decode 0b00000000000000000001100000000001 = .ok (.brReadBits 24) ∧
      decode 0b00000000000000000000000000000010 = .ok .brReadBool ∧
      decode 0b10100101110000110000000000000011 = .ok (.brReadUnary 0xA5C3) ∧
      decode 0b00000000000000000000000000000100 = .ok .brReadInt32 ∧
      decode 0b00000000000000000000010100001000 = .ok (.bwWriteBits 5) ∧
      decode 0b00000000000000000000000000001001 = .ok .bwWriteBool ∧
      decode 0b00000000000000000000000000001010 = .ok .bwWriteUnary ∧
      decode 0b00000000000000000000000000001011 = .ok .bwFlush ∧
      decode 0b00000000000000000000000000001100 = .ok .bwWriteInt32 := by decide

theorem test_words_rle1 :
    decode 0b00000000000000000000000000010000 = .ok .rle1Put ∧
      decode 0b00000000000000000000000000010001 = .ok .rle1Flush ∧
      decode 0b00000000000000000000000000010010 = .ok .rle1Get ∧
      decode 0b00000000000000000000000000010011 = .ok .rle1GetBlk := by decide

theorem test_words_bwt :
    decode 0b00000000000000000000000000100000 = .ok .bwtForward ∧
      decode 0b00000000000000000000000000100001 = .ok .bwtInvSetup ∧
      decode 0b00000000000000000000000000100010 = .ok .bwtInvNext ∧
      decode 0b00000000000000000000000000100011 = .ok .bwtGet ∧
      decode 0b00000000000000000000000000100100 = .ok .bwtSetStart := by decide

theorem test_words_mtf :
    decode 0b00000000000000010000000000110000 = .ok (.mtfInit 1) ∧
      decode 0b00000000000000000000000000110001 = .ok .mtfEncByte ∧
      decode 0b00000000000000000000000000110010 = .ok .mtfEncEnd ∧
      decode 0b00000000000000000000000000110011 = .ok .mtfDecSym ∧
      decode 0b00000000000000000000000000110100 = .ok .mtfReadMap ∧
      decode 0b00000000000000000000000000110101 = .ok .mtfWriteMap ∧
      decode 0b00000000000000000000000000110110 = .ok .mtfGet := by decide

theorem test_words_allocator :
    decode 0b00000001000000100110000001000000 = .ok (.hufAlloc 3 258) ∧
      decode 0b00000001000000011010000001000001 = .ok (.hufSetFreq 5 257) := by decide

theorem test_words_huffman :
    decode 0b00000000000000000000000001010000 = .ok .hufSetGroups ∧
      decode 0b00000000000000000000000001010001 = .ok .hufSeed ∧
      decode 0b00000000000000000000000001010010 = .ok .hufSelectPass ∧
      decode 0b00000000000000000000000001010011 = .ok .hufOptimize ∧
      decode 0b00000000000000001000000001010100 = .ok (.hufAssignCodes 4) ∧
      decode 0b00000000000000000000000001010101 = .ok .hufWriteTables ∧
      decode 0b00000000000000000000000001010110 = .ok .hufEncodeData ∧
      decode 0b00000000000000000000000001010111 = .ok .hufReadTables ∧
      decode 0b00000000000000001110000001011000 = .ok (.hufBuildDecode 7) ∧
      decode 0b00000000000000000000000001011001 = .ok .hufDecodeSym ∧
      decode 0b00000000000000000010000001011010 = .ok (.hufEncodeSym 1) ∧
      decode 0b00000001000000010100000001011011 = .ok (.hufSetLen 2 257) ∧
      decode 0b00000001000000001100000001011100 = .ok (.hufGetLen 6 256) ∧
      decode 0b00000001111111110000000001011101 = .ok (.hufGetCode 0 511) ∧
      decode 0b00000000000000000000000001011110 = .ok .hufGetSel := by decide

theorem test_words_crc :
    decode 0b00000000000000000000000001100000 = .ok .crcInit ∧
      decode 0b00000000000000000000000001100001 = .ok .crcUpdate ∧
      decode 0b00000000000000000000000001100010 = .ok .crcFinal ∧
      decode 0b00000000000000000000000001100011 = .ok .crcCombine ∧
      decode 0b00000000000000000000000001100100 = .ok .crcStreamInit ∧
      decode 0b00000000000000000000000001100101 = .ok .crcReadStream ∧
      decode 0b00000000000000010000000001100110 = .ok (.crcReadStored 1) := by decide

theorem test_words_block :
    decode 0b00000000000010010000000001110000 = .ok (.blkEncOpen 9) ∧
      decode 0b00000000000000000000000001110001 = .ok .blkEncWrite ∧
      decode 0b00000000000000000000000001110010 = .ok .blkEncClose ∧
      decode 0b00000000000001100000000001110011 = .ok (.blkDecStart 6) ∧
      decode 0b00000000000000000000000001110100 = .ok .blkDecRead ∧
      decode 0b00000000000000000000000001110101 = .ok .blkCheckCrc := by decide

theorem test_words_stream :
    decode 0b00000000000000010000000010000000 = .ok (.strEncOpen 1) ∧
      decode 0b00000000000000000000000010000001 = .ok .strEncWrite ∧
      decode 0b00000000000000000000000010000010 = .ok .strEncFinish ∧
      decode 0b00000000000000010000000010001000 = .ok (.strDecOpen 1) ∧
      decode 0b00000000000000000000000010001001 = .ok .strDecRead ∧
      decode 0b00000000000000000000000010001111 = .ok .strClose := by decide

/-! ### One step of each command -/

/-- The engine after reset, with FIFOs of 64 bytes. -/
def fresh : Engine := Engine.initial 64 64 0

/-- A machine with this engine, no command holding and nothing pending. -/
def machine (e : Engine) : State := { toEngine := e, hold := none, script := [], seen := [] }

/-- ARG written. -/
def withArg (v : Word) (e : Engine) : Engine := { e with host.arg := v }

/-- Bytes pushed into the input FIFO. -/
def fed (bs : List Byte) (e : Engine) : Engine := { e with host.inFifo := bs }

/-- The state of the framing machine. -/
def inPhase (p : Phase) (e : Engine) : Engine := { e with frame.phase := p }

/-- A partial map whose first elements are these. -/
def filled {α : Type} (xs : List α) : Store α := xs.zipIdx.map fun q => (q.2, q.1)

/-- PRESENCE with these values marked. -/
def marked (vs : List Byte) : Vector Bool 256 := vs.foldl (fun p v => byteSet p v true) (Vector.replicate 256 false)

/-- A table whose row `t` begins with these elements. -/
def rowed {w n : Nat} (t : Nat) (xs : List Nat) : Table6 (BitVec w) n := withRow (Vector.replicate 6 (Vector.replicate n 0)) t xs

/-- What one command leaves, seen through `f`; `none` if it answers no next state. -/
def look {α : Type} (i : Instr) (e : Engine) (f : Engine → α) : Option α :=
  match exec i (machine e) with
  | .next t => some (f t.toEngine)
  | _ => none

/-- ERRCODE and STATE, as STATUS shows them. -/
def errorView (e : Engine) : BitVec 4 × BitVec 4 := (errorCode e.frame.errcode, e.frame.phase.code)

-- Bit engine: examples of rules R143 to R152.

/-- Rule R143: input B4 5A FF, N = 3 gives RESULT 5, RD_CNT 5, RD_ACC 0x14, with 1 byte consumed. -/
theorem test_br_read_bits :
    look (.brReadBits 3) (fed [0xB4, 0x5A, 0xFF] fresh) (fun e => (e.host.result, e.bits.rdCnt, e.bits.rdAcc, e.host.inFifo)) =
      some (5, 5, 0x14, [0x5A, 0xFF]) := by decide +kernel

/-- Rule R143: N = 25 raises UnsupportedOperation before any read. -/
theorem test_br_read_bits_too_wide :
    look (.brReadBits 25) (fed [0xB4] fresh) (fun e => (errorView e, e.host.inFifo)) = some ((8, 7), [0xB4]) := by decide +kernel

/-- Rule R144: input 80 gives RESULT 1 and RD_CNT 7. -/
theorem test_br_read_bool :
    look .brReadBool (fed [0x80] fresh) (fun e => (e.host.result, e.bits.rdCnt)) = some (1, 7) := by decide +kernel

/-- Rule R145: input FF FF, limit 6 raises InvalidHuffmanTables after 6 one-bits, 1 byte pulled, RD_CNT 2. -/
theorem test_br_read_unary_limit :
    look (.brReadUnary 6) (fed [0xFF, 0xFF] fresh) (fun e => (errorView e, e.bits.rdCnt, e.host.inFifo)) =
      some ((3, 7), 2, [0xFF]) := by decide +kernel

/-- Rule R145: a leading 0 gives RESULT 0. -/
theorem test_br_read_unary_zero :
    look (.brReadUnary 0) (fed [0x7F] fresh) (fun e => (e.host.result, e.bits.rdCnt)) = some (0, 7) := by decide +kernel

/-- Rule R146: input 12 34 56 78 gives RESULT 0x12345678. -/
theorem test_br_read_int32 :
    look .brReadInt32 (fed [0x12, 0x34, 0x56, 0x78] fresh) (fun e => e.host.result) = some 0x12345678 := by decide +kernel

/-- Rule R141: at end of input the bits of earlier fills stay in the accumulator. -/
theorem test_br_read_int32_short :
    look .brReadInt32 { fed [0x12, 0x34, 0x56] fresh with host.eoi := true }
      (fun e => (errorView e, e.bits.rdAcc, e.bits.rdCnt)) = some ((1, 7), 0x56, 8) := by decide +kernel

/-- Rule R148: N = 3, ARG = 5 leaves WR_ACC 5, WR_CNT 3, and the output empty. -/
theorem test_bw_write_bits :
    look (.bwWriteBits 3) (withArg 5 fresh) (fun e => (e.bits.wrAcc, e.bits.wrCnt, e.host.outFifo)) = some (5, 3, []) := by decide +kernel

/-- Rule R148: N = 5, ARG = 0xFF writes 11111. -/
theorem test_bw_write_bits_masks :
    look (.bwWriteBits 5) (withArg 0xFF fresh) (fun e => (e.bits.wrAcc, e.bits.wrCnt)) = some (0x1F, 5) := by decide +kernel

/-- Rule R149: the eighth of eight ones emits FF. -/
theorem test_bw_write_bool :
    look .bwWriteBool { withArg 1 fresh with bits.wrAcc := 0x7F, bits.wrCnt := 7 } (fun e => (e.bits.wrAcc, e.bits.wrCnt, e.host.outFifo)) =
      some (0, 0, [0xFF]) := by decide +kernel

/-- Rule R150: after 3 bits 101, ARG = 2 leaves WR_ACC 0b101110, WR_CNT 6. -/
theorem test_bw_write_unary :
    look .bwWriteUnary { withArg 2 fresh with bits.wrAcc := 5, bits.wrCnt := 3 } (fun e => (e.bits.wrAcc, e.bits.wrCnt, e.host.outFifo)) =
      some (0b101110, 6, []) := by decide +kernel

/-- Rule R151: WR_ACC 0b101111, WR_CNT 6 gives output byte BC. -/
theorem test_bw_flush :
    look .bwFlush { fresh with bits.wrAcc := 0b101111, bits.wrCnt := 6 } (fun e => (e.bits.wrCnt, e.host.outFifo)) =
      some (0, [0xBC]) := by decide +kernel

/-- Rule R152: ARG = 0x12345678 emits 12 34 56 78. -/
theorem test_bw_write_int32 :
    look .bwWriteInt32 (withArg 0x12345678 fresh) (fun e => e.host.outFifo) = some [0x12, 0x34, 0x56, 0x78] := by decide +kernel

/-- Rule R15: with one byte of room, the second of two bytes waits in the accumulator, and BUSY and OUT_WAIT are 1. -/
theorem test_output_hold :
    (match exec (.bwWriteBits 16) (machine { withArg 0x1234 fresh with outDepth := 1 }) with
      | .next t => some (t.host.outFifo, t.bits.wrAcc, t.bits.wrCnt, t.statusWord)
      | _ => none) = some ([0x12], 0x34, 8, 0x21) := by decide +kernel

-- RLE1: examples of rules R163 to R167.

/-- Rule R163: the fifth 61 of a run is pending: RESULT 1, BLK_LEN 0, RUN_LEN 5. -/
theorem test_rle1_put :
    look .rle1Put { withArg 0x61 fresh with block.runCh := 0x61, block.runLen := 4, block.k := 1 }
      (fun e => (e.host.result, e.block.len, e.block.runLen, e.block.nonempty)) = some (1, 0, 5, true) := by decide +kernel

/-- Rule R162: at BLK_LEN = 99994 with K = 1 the byte is refused with FULL; at 99993 it is accepted. -/
theorem test_rle1_put_full :
    look .rle1Put { withArg 0x61 fresh with block.len := 99994, block.k := 1 } (fun e => (e.host.result, e.host.full, e.block.runLen)) =
        some (0, true, 0) ∧
      look .rle1Put { withArg 0x61 fresh with block.len := 99993, block.k := 1 } (fun e => (e.host.result, e.host.full)) =
        some (1, false) := by decide +kernel

/-- Rule R164: five 61 flush to 61 61 61 61 01, RESULT 5. -/
theorem test_rle1_flush :
    look .rle1Flush { fresh with block.runCh := 0x61, block.runLen := 5 } (fun e => (e.host.result, e.block.blk)) =
      some (5, filled [0x61, 0x61, 0x61, 0x61, 0x01]) := by decide +kernel

/-- Rule R166: after four 61 the byte 00 is a count, and 62 comes next. -/
theorem test_rle1_get :
    look .rle1Get { fresh with
        block.rlCnt := 4, block.rlLast := 0x61, bwt.curEntry := 0x100, bwt.hopsLeft := 2, bwt.merged := filled [0x062, 0x062] }
      (fun e => (e.host.result, e.block.rlCnt, e.block.rlRep, e.bwt.hopsLeft)) = some (0x62, 1, 0, 0) := by decide +kernel

/-- Rule R165: a pending repeat is returned without a hop; at the end there is NODATA. -/
theorem test_rle1_get_repeat :
    look .rle1Get { fresh with block.rlRep := 2, block.rlLast := 0x61 } (fun e => (e.host.result, e.block.rlRep)) = some (0x61, 1) ∧
      look .rle1Get { fresh with host.result := 7 } (fun e => (e.host.result, e.host.nodata)) = some (0, true) := by decide +kernel

/-- Rule R167: the count byte at index 4 is 1. -/
theorem test_rle1_get_blk :
    look .rle1GetBlk { withArg 4 fresh with block.len := 5, block.blk := filled [0x61, 0x61, 0x61, 0x61, 0x01] }
      (fun e => e.host.result) = some 1 := by decide +kernel

-- BWT: examples of rules R177 to R183.

/-- "banana". -/
def banana : List Byte := [0x62, 0x61, 0x6E, 0x61, 0x6E, 0x61]

/-- Rule R177: "banana" gives BWT_ARR "nnbaaa" and START_PTR 3; the wrap byte follows the block. -/
theorem test_bwt_forward :
    look .bwtForward { fresh with block.len := 6, block.blk := filled banana }
      (fun e => (e.bwt.arr, e.block.blk, e.host.result, e.bwt.len)) =
      some (filled [0x6E, 0x6E, 0x62, 0x61, 0x61, 0x61], filled (banana ++ [0x62]), 3, 6) := by decide +kernel

/-- Rule R177: a constant block gives START_PTR 0, by the tie rule. -/
theorem test_bwt_forward_ties :
    look .bwtForward { fresh with block.len := 3, block.blk := filled [5, 5, 5] } (fun e => (e.bwt.arr, e.host.result)) =
      some (filled [5, 5, 5], 0) := by decide +kernel

/-- Rule R179: "nnbaaa" and START_PTR 3 give MERGED (3,a) (4,a) (5,a) (2,b) (0,n) (1,n), and the walk starts at (2,b). -/
theorem test_bwt_inv_setup :
    look .bwtInvSetup { fresh with bwt.len := 6, bwt.startPtr := 3, bwt.arr := filled [0x6E, 0x6E, 0x62, 0x61, 0x61, 0x61] }
      (fun e => (e.bwt.merged, e.bwt.curEntry, e.host.result, e.bwt.hopsLeft)) =
      some (filled [0x361, 0x461, 0x561, 0x262, 0x06E, 0x16E], 0x262, 6, 6) := by decide +kernel

/-- Rule R183: START_PTR 7 with BWT_LEN 6 raises InvalidStartPointer. -/
theorem test_bwt_inv_setup_start :
    look .bwtInvSetup { fresh with bwt.len := 6, bwt.startPtr := 7 } errorView = some (5, 7) := by decide +kernel

/-- Rule R181: the walk of rule R179 gives 'b' first, and goes on at (5,a). -/
theorem test_bwt_inv_next :
    look .bwtInvNext { fresh with
        bwt.merged := filled [0x361, 0x461, 0x561, 0x262, 0x06E, 0x16E], bwt.curEntry := 0x262, bwt.hopsLeft := 6 }
      (fun e => (e.host.result, e.bwt.curEntry, e.bwt.hopsLeft)) = some (0x62, 0x561, 5) := by decide +kernel

/-- Rule R182: index 2 of "nnbaaa" is 62. -/
theorem test_bwt_get :
    look .bwtGet { withArg 2 fresh with bwt.len := 6, bwt.arr := filled [0x6E, 0x6E, 0x62, 0x61, 0x61, 0x61] } (fun e => e.host.result) =
      some 0x62 := by decide +kernel

/-- Rule R183: ARG[31:24] is ignored. -/
theorem test_bwt_set_start :
    look .bwtSetStart (withArg 0xFF000007 fresh) (fun e => e.bwt.startPtr) = some 7 := by decide +kernel

-- MTF: examples of rules R192 to R204.

/-- An engine with the map of "banana" and its list at the start. -/
def abn : Engine :=
  { fresh with
    block.presence := marked [0x61, 0x62, 0x6E]
    mtf.nInUse := 3
    mtf.list := rowWrite (Vector.replicate 256 0) 0 [0, 1, 2]
    mtf.seqToUnseq := rowWrite (Vector.replicate 256 0) 0 [0x61, 0x62, 0x6E]
    mtf.unseqToSeq := byteSet (byteSet (Vector.replicate 256 0) 0x62 1) 0x6E 2 }

/-- Rule R192: the values a, b, n give SEQ_TO_UNSEQ [a, b, n], UNSEQ_TO_SEQ[n] = 2 and RESULT 3. -/
theorem test_mtf_init :
    look (.mtfInit 0) { fresh with block.presence := marked [0x61, 0x62, 0x6E], bwt.len := 6 }
      (fun e => (e.mtf.seqToUnseq.toList.take 3, byteGet e.mtf.unseqToSeq 0x6E, e.host.result, e.bwt.len)) =
      some ([0x61, 0x62, 0x6E], 2, 3, 6) := by decide +kernel

/-- Rule R191: the decoder start empties BWT_ARR and clears DEC_EOB. -/
theorem test_mtf_init_decoder :
    look (.mtfInit 1) { fresh with bwt.len := 6, huf.decEob := true, mtf.runW := 8 }
      (fun e => (e.bwt.len, e.huf.decEob, e.mtf.runW, e.host.result)) = some (0, false, 1, 0) := by decide +kernel

/-- Rule R196: n at position 2 gives the symbol 3 and moves to the front. -/
theorem test_mtf_enc_byte :
    look .mtfEncByte (withArg 0x6E abn) (fun e => (e.mtf.stream, e.mtf.list.toList.take 3, e.host.result)) =
      some (filled [3], [2, 0, 1], 1) := by decide +kernel

/-- Rule R196: a byte with no rank raises UnsupportedOperation; the front byte counts as a zero. -/
theorem test_mtf_enc_byte_front :
    look .mtfEncByte (withArg 0x63 abn) errorView = some (8, 7) ∧
      look .mtfEncByte (withArg 0x61 abn) (fun e => (e.mtf.zpend, e.mtf.len)) = some (1, 0) := by decide +kernel

/-- Rule R197: with map a, four zeros pending end as RUNB RUNA END_OF_BLOCK, RESULT 3. -/
theorem test_mtf_enc_end :
    look .mtfEncEnd { fresh with mtf.nInUse := 1, mtf.zpend := 4 } (fun e => (e.mtf.stream, e.mtf.zpend, e.host.result)) =
      some (filled [1, 0, 2], 0, 3) := by decide +kernel

/-- Rule R199: the symbol 3 appends n; the symbol 4 ends the block, after the pending run of 2. -/
theorem test_mtf_dec_sym :
    look .mtfDecSym (withArg 3 abn) (fun e => (e.bwt.arr, e.host.result)) = some (filled [0x6E], 0) ∧
      look .mtfDecSym { withArg 4 abn with mtf.runAcc := 2 } (fun e => (e.bwt.arr, e.host.result, e.huf.decEob, e.mtf.runAcc)) =
        some (filled [0x61, 0x61], 1, true, 0) := by decide +kernel

/-- Rule R198: the sixteenth RUNB at K = 1 raises BlockSizeExceeded and leaves the run as it was (vector X10). -/
theorem test_mtf_dec_sym_too_long :
    look .mtfDecSym { withArg 1 abn with block.k := 1, mtf.runAcc := 65534, mtf.runW := 32768 } (fun e => (errorView e, e.mtf.runAcc)) =
      some ((4, 7), 65534) := by decide +kernel

/-- Rules R202, R203: the map of 61 is 02 00 40 00. -/
theorem test_mtf_write_map :
    look .mtfWriteMap { fresh with block.presence := marked [0x61] } (fun e => (e.host.outFifo, e.host.result)) =
      some ([0x02, 0x00, 0x40, 0x00], 1) := by decide +kernel

/-- Rule R203: 02 00 40 00 is the map of 61, whatever was present. -/
theorem test_mtf_read_map :
    look .mtfReadMap (fed [0x02, 0x00, 0x40, 0x00] { fresh with block.presence := marked [0x10] })
      (fun e => (e.block.presence, e.host.result)) = some (marked [0x61], 1) := by decide +kernel

/-- Rule R204: index 5 of the stream of "banana" is END_OF_BLOCK, 4. -/
theorem test_mtf_get :
    look .mtfGet { withArg 5 fresh with mtf.len := 6, mtf.stream := filled [3, 0, 3, 3, 1, 4] } (fun e => e.host.result) =
      some 4 := by decide +kernel

-- Huffman allocator and tables: examples of rules R213 to R243.

/-- Rule R213: RFREQ[0] = [1, 1, 1, 1000] gives LEN[0] = [3, 3, 2, 1] and RESULT 3. -/
theorem test_huf_alloc :
    look (.hufAlloc 0 4) { fresh with huf.rfreq := rowed 0 [1, 1, 1, 1000] }
      (fun e => ((List.range 5).map (cell e.huf.len 0), e.host.result)) = some ([3, 3, 2, 1, 0], 3) := by decide +kernel

/-- Rules R215, R216: small cases of the allocator, ties by index among them. -/
theorem test_allocate :
    allocate [1, 1] = [1, 1] ∧ allocate [0, 0, 0] = [2, 2, 1] ∧ allocate [5, 0, 3] = [1, 2, 2] ∧
      allocate [10, 1, 1, 1, 1, 1] = [1, 4, 4, 3, 3, 3] := by decide +kernel

/-- Rule R214: RFREQ[1][3] = 1000; 2^20 is refused. -/
theorem test_huf_set_freq :
    look (.hufSetFreq 1 3) (withArg 1000 fresh) (fun e => cell e.huf.rfreq 1 3) = some 1000 ∧
      look (.hufSetFreq 1 3) (withArg 0x100000 fresh) errorView = some (8, 7) := by decide +kernel

/-- Rule R221: MTF_LEN 6 gives 2 tables and 1 selector; 2399 gives 5 and 2400 gives 6. -/
theorem test_huf_set_groups :
    look .hufSetGroups { fresh with mtf.len := 6 } (fun e => (e.huf.nGroups, e.huf.nSelectors, e.host.result)) = some (2, 1, 2) ∧
      look .hufSetGroups { fresh with mtf.len := 2399 } (fun e => e.host.result) = some 5 ∧
      look .hufSetGroups { fresh with mtf.len := 2400 } (fun e => (e.host.result, e.huf.nSelectors)) = some (6, 48) := by decide +kernel

/-- The engine of the example of rules R222 to R226: the stream [3, 0, 3, 3, 1, 4], ALPHA 5, two tables, one selector. -/
def staged : Engine :=
  { fresh with
    mtf.nInUse := 3, mtf.len := 6, mtf.stream := filled [3, 0, 3, 3, 1, 4], mtf.freq := rowWrite (Vector.replicate 258 0) 0 [1, 1, 0, 3, 1],
    huf.nGroups := 2, huf.nSelectors := 1 }

/-- Rule R222: the bands 0..3 and 4..4. -/
theorem test_huf_seed :
    look .hufSeed staged (fun e => (e.lens 0, e.lens 1)) = some ([0, 0, 0, 0, 15], [15, 15, 15, 15, 0]) := by decide +kernel

/-- Rule R225: one pass after the seed costs 15, chooses table 0 and reallocates both tables. -/
theorem test_huf_select_pass :
    look .hufSelectPass { staged with huf.len := withRow (rowed 0 [0, 0, 0, 0, 15]) 1 [15, 15, 15, 15, 0] }
      (fun e => (e.host.result, e.huf.selectors, e.lens 0, e.lens 1)) =
      some (15, [(0, 0)], [3, 3, 3, 1, 3], [3, 3, 2, 2, 2]) := by decide +kernel

/-- Rule R226: the fourth pass costs 12. -/
theorem test_huf_optimize :
    look .hufOptimize staged (fun e => (e.host.result, e.huf.selectors, e.lens 0, e.lens 1)) =
      some (12, [(0, 0)], [3, 3, 3, 1, 3], [3, 3, 2, 2, 2]) := by decide +kernel

/-- Rule R228: lengths [2, 1, 3, 3] give the codes 2, 0, 6, 7. -/
theorem test_huf_assign_codes :
    look (.hufAssignCodes 0) { fresh with mtf.nInUse := 2, huf.len := rowed 0 [2, 1, 3, 3] }
      (fun e => (List.range 4).map (cell e.huf.code 0)) =
      some [0x02000002, 0x01000000, 0x03000006, 0x03000007] := by decide +kernel

/-- Rule R228: an over-full set of lengths is refused. -/
theorem test_huf_assign_codes_kraft :
    look (.hufAssignCodes 0) { fresh with mtf.nInUse := 1, huf.len := rowed 0 [1, 1, 1] } errorView = some (8, 7) := by decide +kernel

/-- The engine of the example of rules R230 and R231: both tables and the codes of table 0. -/
def tabled : Engine :=
  { staged with
    huf.len := withRow (rowed 0 [3, 3, 3, 1, 3]) 1 [3, 3, 2, 2, 2]
    huf.selectors := filled [0]
    huf.code := rowed 0 [0x03000004, 0x03000005, 0x03000006, 0x01000000, 0x03000007] }

/-- Rules R230, R231: the 49 bits of the tables are 40 00 43 1E A0 CC and the bit 0. -/
theorem test_huf_write_tables :
    look .hufWriteTables tabled (fun e => (e.host.outFifo, e.bits.wrAcc, e.bits.wrCnt, e.host.result)) =
      some ([0x40, 0x00, 0x43, 0x1E, 0xA0, 0xCC], 0, 1, 1) := by decide +kernel

/-- Rule R231: a symbol without a code raises before any bit is written, with NODATA kept (rule R315). -/
theorem test_huf_encode_data_uncoded :
    look .hufEncodeData { tabled with host.nodata := true, huf.code := rowed 0 [0x03000004, 0x03000005, 0x03000006, 0x01000000] }
      (fun e => (errorView e, e.bits.wrCnt, e.host.nodata)) = some ((8, 7), 0, true) := by decide +kernel

/-- Rule R231: the stream is written 0 100 0 0 101 111. -/
theorem test_huf_encode_data :
    look .hufEncodeData tabled (fun e => (e.host.outFifo, e.bits.wrAcc, e.bits.wrCnt, e.host.result)) =
      some ([0b01000010], 0b1111, 4, 6) := by decide +kernel

/-- Rule R234: those 49 bits read back. -/
theorem test_huf_read_tables :
    look .hufReadTables (fed [0x40, 0x00, 0x43, 0x1E, 0xA0, 0xCC, 0x21] { fresh with mtf.nInUse := 3 })
      (fun e => (e.huf.nGroups, e.huf.selectors, e.lens 0, e.lens 1)) =
      some (2, filled [0], [3, 3, 3, 1, 3], [3, 3, 2, 2, 2]) := by decide +kernel

/-- Rule R233: a table count of 7 raises InvalidHuffmanTables after 3 bits. -/
theorem test_huf_read_tables_count :
    look .hufReadTables (fed [0xE0] { fresh with mtf.nInUse := 3 }) (fun e => (errorView e, e.bits.rdCnt)) = some ((3, 7), 5) := by
  decide +kernel

/-- Rule R236: lengths [2, 1, 3, 3] give BASE[1..3] = 0, 1, 4, LIMIT[0..4] = -1, 0, 2, 7, -1 and PERM = [1, 0, 2, 3]. -/
theorem test_huf_build_decode :
    look (.hufBuildDecode 0) { fresh with mtf.nInUse := 2, huf.len := rowed 0 [2, 1, 3, 3] }
      (fun e => ((List.range 4).map (cell e.huf.perm 0), (List.range 5).map (cell e.huf.base 0), (List.range 5).map (cell e.huf.limit 0))) =
      some ([1, 0, 2, 3], [0, 0, 1, 4, 0], [0xFFFFFFFF, 0, 2, 7, 0xFFFFFFFF]) := by decide +kernel

/-- The lookup of the lengths [2, 1, 3, 3] in table 0 (example of rule R236), with one selector 0. -/
def lookedUp : Engine :=
  { fresh with
    huf.minLen := (Vector.replicate 6 0).set 0 1
    huf.maxLen := (Vector.replicate 6 0).set 0 3
    huf.base := rowed 0 [0, 0, 1, 4]
    huf.limit := withRow (Vector.replicate 6 (Vector.replicate 24 (-1))) 0 [0xFFFFFFFF, 0, 2, 7]
    huf.perm := rowed 0 [1, 0, 2, 3]
    huf.nSelectors := 1
    huf.selectors := filled [0] }

/-- Rule R238: the input 5B 80 gives the symbol 1 first, of 1 bit. -/
theorem test_huf_decode_sym :
    look .hufDecodeSym (fed [0x5B, 0x80] lookedUp) (fun e => (e.host.result, e.bits.rdCnt, e.huf.symCount)) = some (1, 7, 1) := by
  decide +kernel

/-- Rule R237: after that bit the next is 10, the symbol 0. -/
theorem test_huf_decode_sym_next :
    look .hufDecodeSym { fed [0x80] lookedUp with bits.rdAcc := 0x5B, bits.rdCnt := 7, huf.symCount := 1 }
      (fun e => (e.host.result, e.bits.rdCnt)) = some (0, 5) := by decide +kernel

/-- Rule R232: with the codes of [2, 1, 3, 3], symbol 2 is written 110. -/
theorem test_huf_encode_sym :
    look (.hufEncodeSym 0)
      { withArg 2 fresh with mtf.nInUse := 2, huf.code := rowed 0 [0x02000002, 0x01000000, 0x03000006, 0x03000007] }
      (fun e => (e.bits.wrAcc, e.bits.wrCnt)) = some (0b110, 3) := by decide +kernel

/-- Rule R240: LEN[0][1] = 1; 24 is refused. -/
theorem test_huf_set_len :
    look (.hufSetLen 0 1) (withArg 1 fresh) (fun e => cell e.huf.len 0 1) = some 1 ∧
      look (.hufSetLen 0 1) (withArg 24 fresh) errorView = some (8, 7) := by decide +kernel

/-- Rule R241: LEN[0][3] of the example of rule R226 is 1. -/
theorem test_huf_get_len : look (.hufGetLen 0 3) tabled (fun e => e.host.result) = some 1 := by decide +kernel

/-- Rule R242: CODE[0][4] of the example of rule R231 is the 3-bit code 7. -/
theorem test_huf_get_code : look (.hufGetCode 0 4) tabled (fun e => e.host.result) = some 0x03000007 := by decide +kernel

/-- Rule R243: selector 0 of the example of rule R225 is 0; index 1 is refused. -/
theorem test_huf_get_sel :
    look .hufGetSel { tabled with host.result := 9 } (fun e => e.host.result) = some 0 ∧
      look .hufGetSel (withArg 1 tabled) errorView = some (8, 7) := by decide +kernel

-- CRC: examples of rules R252 to R259.

/-- Rule R252: BLOCK_CRC is 0xFFFFFFFF. -/
theorem test_crc_init : look .crcInit fresh (fun e => (e.crc.block, e.crc.stream)) = some (0xFFFFFFFF, 0) := by decide +kernel

/-- Rule R254: 61 leaves 0xE66C6494. -/
theorem test_crc_update :
    look .crcUpdate { withArg 0xFFFFFF61 fresh with crc.block := 0xFFFFFFFF } (fun e => e.crc.block) = some 0xE66C6494 := by
  decide +kernel

/-- Rule R255: the CRC of "a" is 0x19939B6B. -/
theorem test_crc_final :
    look .crcFinal { fresh with crc.block := 0xE66C6494 } (fun e => e.host.result) = some 0x19939B6B := by decide +kernel

/-- Rule R256: 0x80000001 combined with 3 gives 0; 0xEFB6EC01 with 0x19939B6B gives 0xC6FE4368. -/
theorem test_crc_combine :
    look .crcCombine { withArg 3 fresh with crc.stream := 0x80000001 } (fun e => (e.crc.stream, e.host.result)) = some (0, 0) ∧
      look .crcCombine { withArg 0x19939B6B fresh with crc.stream := 0xEFB6EC01 } (fun e => e.host.result) = some 0xC6FE4368 := by
  decide +kernel

/-- Rule R257: STREAM_CRC is 0. -/
theorem test_crc_stream_init :
    look .crcStreamInit { fresh with crc.stream := 5 } (fun e => (e.crc.stream, e.host.result)) = some (0, 0) := by decide +kernel

/-- Rule R258: RESULT is STREAM_CRC. -/
theorem test_crc_read_stream :
    look .crcReadStream { fresh with crc.stream := 0xC6FE4368 } (fun e => e.host.result) = some 0xC6FE4368 := by decide +kernel

/-- Rule R259: 0 selects the stored block CRC and 1 the stored stream CRC. -/
theorem test_crc_read_stored :
    look (.crcReadStored 0) { fresh with crc.storedBlock := 0x19939B6B, crc.storedStream := 7 } (fun e => e.host.result) = some 0x19939B6B ∧
      look (.crcReadStored 1) { fresh with crc.storedBlock := 0x19939B6B, crc.storedStream := 7 } (fun e => e.host.result) = some 7 := by
  decide +kernel

-- Blocks: examples of rules R261 to R276.

/-- Rule R261: K = 1; vector Y9: K = 10 is refused. -/
theorem test_blk_enc_open :
    look (.blkEncOpen 1) { fresh with block.len := 3, block.nonempty := true }
        (fun e => (e.block.k, e.block.len, e.block.nonempty, e.crc.block)) = some (1, 0, false, 0xFFFFFFFF) ∧
      look (.blkEncOpen 10) fresh errorView = some (8, 7) := by decide +kernel

/-- An open block that has accepted the byte 61 (examples of rules R262 and R263). -/
def openA : Engine :=
  { fresh with block.k := 1, block.runCh := 0x61, block.runLen := 1, block.nonempty := true, crc.block := 0xE66C6494 }

/-- Rule R262: 61 gives RESULT 1 and BLOCK_CRC 0xE66C6494. -/
theorem test_blk_enc_write :
    look .blkEncWrite { withArg 0x61 fresh with block.k := 1, crc.block := 0xFFFFFFFF }
      (fun e => (e.host.result, e.crc.block, e.block.runLen)) = some (1, 0xE66C6494, 1) := by decide +kernel

/-- Rule R262: a refused byte sets FULL and leaves the CRC. -/
theorem test_blk_enc_write_full :
    look .blkEncWrite { withArg 0x61 fresh with block.k := 1, block.len := 99994, crc.block := 5 }
      (fun e => (e.host.result, e.crc.block, e.host.full)) = some (0, 5, true) := by decide +kernel

/-- Rule R263 and spec/95_test_vectors.md section 2.8: the block of "a" is 179 bits, 22 bytes and the bits 100. -/
theorem test_blk_enc_close :
    look .blkEncClose openA (fun e => (e.host.outFifo, e.bits.wrAcc, e.bits.wrCnt, e.host.result)) =
      some ([0x31, 0x41, 0x59, 0x26, 0x53, 0x59, 0x19, 0x93, 0x9B, 0x6B, 0x00, 0x00, 0x00, 0x01, 0x00, 0x20, 0x00, 0x20, 0x00,
          0x21, 0x18, 0x46], 0b100, 3, 0x19939B6B) := by decide +kernel

/-- Rule R263: an empty block writes nothing and gives NODATA. -/
theorem test_blk_enc_close_empty :
    look .blkEncClose { fresh with host.result := 4 } (fun e => (e.host.nodata, e.host.result, e.host.outFifo)) = some (true, 0, []) := by
  decide +kernel

/-- The block of "a" after its marker, with the pad of a flush (spec/95_test_vectors.md section 2.8). -/
def blockOfA : List Byte := [0x19, 0x93, 0x9B, 0x6B, 0x00, 0x00, 0x00, 0x01, 0x00, 0x20, 0x00, 0x20, 0x00, 0x21, 0x18, 0x46, 0x80]

/-- Rule R270: RESULT 1, STORED_BCRC 0x19939B6B, RAND_FLAG 0, START_PTR 0, N_IN_USE 1. -/
theorem test_blk_dec_start :
    look (.blkDecStart 1) (fed blockOfA fresh) (fun e => (e.host.result, e.crc.storedBlock, e.bwt.startPtr, e.mtf.nInUse)) =
        some (1, 0x19939B6B, 0, 1) ∧
      look (.blkDecStart 1) (fed blockOfA fresh) (fun e => (e.block.randFlag, e.bwt.arr, e.bwt.hopsLeft, e.bits.rdCnt)) =
        some (false, filled [0x61], 1, 5) := by decide +kernel

/-- Rule R275: the byte is 61, and BLOCK_CRC takes it; then NODATA. -/
theorem test_blk_dec_read :
    look .blkDecRead { fresh with
        bwt.curEntry := 0x61, bwt.merged := filled [0x61], bwt.hopsLeft := 1, crc.block := 0xFFFFFFFF }
        (fun e => (e.host.result, e.crc.block, e.bwt.hopsLeft)) = some (0x61, 0xE66C6494, 0) ∧
      look .blkDecRead { fresh with crc.block := 5 } (fun e => (e.host.nodata, e.crc.block)) = some (true, 5) := by decide +kernel

/-- Rule R276: RESULT is the computed CRC; a mismatch raises BlockCrcMismatch, and RESULT is written all the same. -/
theorem test_blk_check_crc :
    look .blkCheckCrc { fresh with crc.block := 0xE66C6494, crc.storedBlock := 0x19939B6B } (fun e => (errorView e, e.host.result)) =
        some ((0, 0), 0x19939B6B) ∧
      look .blkCheckCrc { fresh with crc.block := 0xE66C6494, crc.storedBlock := 0x18939B6B } (fun e => (errorView e, e.host.result)) =
        some ((6, 7), 0x19939B6B) := by decide +kernel

/-- Rule R276: before the block is read it raises UnsupportedOperation. -/
theorem test_blk_check_crc_early :
    look .blkCheckCrc { fresh with bwt.hopsLeft := 1 } errorView = some (8, 7) := by decide +kernel

-- Streams: examples of rules R291 to R300.

/-- Rule R291: K = 1 writes 42 5A 68 31. -/
theorem test_str_enc_open :
    look (.strEncOpen 1) { fresh with bits.wrAcc := 5, bits.wrCnt := 3 } (fun e => (e.host.outFifo, e.bits.wrCnt, errorView e)) =
      some ([0x42, 0x5A, 0x68, 0x31], 0, (0, 1)) := by decide +kernel

/-- Vectors Y5, Y6: K = 0 is refused, and so is a write in IDLE. -/
theorem test_str_refused :
    look (.strEncOpen 0) fresh errorView = some (8, 7) ∧ look .strEncWrite (withArg 0x61 fresh) errorView = some (8, 7) := by decide +kernel

/-- Program P2: RESULT 1, BLK_LEN 0, RUN_LEN 1, BLOCK_CRC 0xE66C6494. -/
theorem test_str_enc_write :
    look .strEncWrite (inPhase .encActive { withArg 0x61 fresh with block.k := 1, crc.block := 0xFFFFFFFF })
      (fun e => (e.host.result, e.block.len, e.block.runLen, e.crc.block)) = some (1, 0, 1, 0xE66C6494) := by decide +kernel

/-- Vector Z1: the end of an empty stream is 17 72 45 38 50 90 00 00 00 00. -/
theorem test_str_enc_finish_empty :
    look .strEncFinish (inPhase .encActive fresh) (fun e => (e.host.outFifo, e.host.result, errorView e)) =
      some ([0x17, 0x72, 0x45, 0x38, 0x50, 0x90, 0x00, 0x00, 0x00, 0x00], 0, (0, 2)) := by decide +kernel

/-- Vector Z2 after its header: the block of "a", the end marker and the combined CRC. -/
def streamOfA : List Byte :=
  [0x31, 0x41, 0x59, 0x26, 0x53, 0x59, 0x19, 0x93, 0x9B, 0x6B, 0x00, 0x00, 0x00, 0x01, 0x00, 0x20, 0x00, 0x20, 0x00, 0x21, 0x18,
    0x46, 0x82, 0xEE, 0x48, 0xA7, 0x0A, 0x12, 0x03, 0x32, 0x73, 0x6D, 0x60]

/-- Vector Z2: finishing the stream of "a". -/
theorem test_str_enc_finish :
    look .strEncFinish (inPhase .encActive openA) (fun e => (e.host.outFifo, e.host.result, e.bits.wrCnt)) =
      some (streamOfA, 0x19939B6B, 0) := by decide +kernel

/-- Rule R294: HEADERLESS 1 and STATE DEC_UNINIT; the reader's bits are discarded. -/
theorem test_str_dec_open :
    look (.strDecOpen 1) (inPhase .decComplete { fresh with bits.rdCnt := 5, crc.stream := 9 })
      (fun e => (e.frame.headerless, e.bits.rdCnt, e.crc.stream, errorView e)) = some (true, 0, 0, (0, 3)) := by decide +kernel

/-- Vector Z2: the first STR_DEC_READ gives 61, pulls 27 of the 37 bytes and leaves RD_CNT 5 and STATE DEC_BLOCK_ACTIVE. -/
theorem test_str_dec_read :
    look .strDecRead (inPhase .decUninit (fed ([0x42, 0x5A, 0x68, 0x31] ++ streamOfA) fresh))
      (fun e => (e.host.result, e.host.inFifo.length, e.bits.rdCnt, errorView e)) = some (0x61, 10, 5, (0, 4)) := by decide +kernel

/-- Vector X4: "BZh0" raises InvalidHeader. -/
theorem test_str_dec_read_header :
    look .strDecRead (inPhase .decUninit (fed [0x42, 0x5A, 0x68, 0x30] fresh)) errorView = some (2, 7) := by decide +kernel

/-- Vector Y7: STR_CLOSE gives STATE 8, and a write then raises UnsupportedOperation. -/
theorem test_str_close :
    look .strClose (inPhase .encActive fresh) errorView = some (0, 8) ∧ look .strEncWrite (inPhase .closed fresh) errorView = some (8, 7) := by
  decide +kernel

-- System commands and the host's side.

/-- Rule R305, vector Y3: NOP clears NODATA and changes no latched bit. -/
theorem test_nop :
    look .nop (inPhase .error { fresh with host.err := true, host.nodata := true, frame.errcode := some .unsupportedOperation })
      (fun e => (e.host.nodata, e.host.err, errorView e)) = some (false, true, (8, 7)) := by decide +kernel

/-- Rule R306, vector Y4: CORE_RESET leaves STATUS 0 and RESULT 0, and keeps the depths of the FIFOs. -/
theorem test_core_reset :
    (match exec .coreReset (machine (inPhase .error { fresh with host.err := true, host.result := 5, host.eoi := true })) with
      | .next t => some (t.statusWord, t.host.result, t.host.eoi, t.outDepth)
      | _ => none) = some (0, 0, false, 64) := by decide +kernel

/-- Vector Y1: the reserved opcode 05 gives STATUS 0x00007802. -/
theorem test_reserved_opcode :
    (match step ({ machine fresh with script := [.write 32 0 5] }) with
      | .next t => some (t.statusWord, t.host.cmd)
      | _ => none) = some (0x00007802, 5) := by decide +kernel

/-- Rules R105, R315: with NODATA and FULL set before it, the reserved opcode 05 changes nothing else: STATUS 0x0000780E. -/
theorem test_reserved_opcode_keeps_flags :
    (match step ({ machine { fresh with host.nodata := true, host.full := true } with script := [.write 32 0 5] }) with
      | .next t => some t.statusWord
      | _ => none) = some 0x0000780E := by decide +kernel

/-- Rules R102, R301, R315: a failed check and a command in CLOSED keep NODATA and FULL; a raise after the checks (rule R276) comes when
they have been cleared (rule R33). -/
theorem test_raises_and_flags :
    let e : Engine := { fresh with host.nodata := true, host.full := true }
    look (.bwWriteBits 25) e (fun e => (e.host.nodata, e.host.full, errorView e)) = some (true, true, 8, 7) ∧
      look .crcInit (inPhase .closed e) (fun e => (e.host.nodata, e.host.full, errorView e)) = some (true, true, 8, 7) ∧
      look .blkCheckCrc e (fun e => (e.host.nodata, e.host.full, errorView e)) = some (false, false, 6, 7) := by decide +kernel

/-- Vector Y8: a CMD write during a hold is dropped, and DROP is set (STATUS: BUSY, IN_WAIT, DROP). -/
theorem test_drop :
    (match exec .brReadBool (machine fresh) with
      | .next t =>
        match step { t with script := [.write 32 0 0xFF] } with
        | .next u => some (u.statusWord, u.host.cmd)
        | _ => none
      | _ => none) = some (0x51, 0) := by decide +kernel

/-- The first step after reset runs the placed word: CRC_INIT. -/
theorem test_fetch_word :
    decodeTableWord 32 0x60 = some .crcInit ∧
      (match step (State.reset.withFetchWord 32 0x60) with
        | .next t => some (t.crc.block, t.host.cmd)
        | _ => none) = some (0xFFFFFFFF, 0x60) := by decide +kernel

/-! ### Witnesses: for each statement with hypotheses, states and operands that meet them, clause by clause -/

/-- The engine a piece of a command leaves when it does not stop. -/
def left {α : Type} (x : Cmd α) (e : Engine) : Engine :=
  match x e with
  | .ok _ e' => e'
  | .error _ e' => e'

/-- A piece of a command yields `a`. -/
def gives {α : Type} [DecidableEq α] (x : Cmd α) (e : Engine) (a : α) : Bool :=
  match x e with
  | .ok b _ => decide (b = a)
  | .error _ _ => false

theorem eq_ok_of_gives {α : Type} [DecidableEq α] {x : Cmd α} {e : Engine} {a : α} (h : gives x e a = true) : x e = .ok a (left x e) := by
  unfold gives at h
  unfold left
  split at h
  · rename_i heq
    rw [heq, of_decide_eq_true h]
  · exact absurd h (by decide)

theorem exists_of_isSome {α : Type} {m : Store α} {n : Nat} (h : ∀ i < n, (m.read i).isSome = true) : ∀ i < n, ∃ v, m.read i = some v :=
  fun i hi => Option.isSome_iff_exists.mp (h i hi)

theorem witness_ReadCommandsComplete :
    (∃ s : State, s.Live ∧ s.bits.ReaderOk ∧ (24#5).toNat ≤ 24 ∧ (24#5).toNat ≤ s.inBits.length ∧ 1 ≤ s.inBits.length) ∧
      (∃ s : State, s.Live ∧ s.bits.ReaderOk ∧ s.inBits.length = 1 ∧ (0#5).toNat ≤ s.inBits.length) ∧
      (∃ s : State, s.Live ∧ s.bits.ReaderOk ∧ s.inBits.length = 32) ∧
      (∃ s : State, s.Live ∧ s.bits.ReaderOk ∧ s.inBits = List.replicate 5 true ++ false :: [false, false] ∧ 5 < (6#16).toNat) ∧
      (∃ s : State, s.Live ∧ s.bits.ReaderOk ∧ s.inBits = List.replicate 0 true ++ false :: List.replicate 7 true ∧ (0#16) = 0) ∧
      ∃ s : State, s.Live ∧ s.bits.ReaderOk ∧ s.inBits = List.replicate (6#16).toNat true ++ [false, false] :=
  ⟨⟨machine (fed [0xB4, 0x5A, 0xFF] fresh), by decide +kernel⟩, ⟨machine { fresh with bits.rdCnt := 1 }, by decide +kernel⟩,
    ⟨machine (fed [1, 2, 3, 4] fresh), by decide +kernel⟩, ⟨machine (fed [0xF8] fresh), by decide +kernel⟩,
    ⟨machine (fed [0x7F] fresh), by decide +kernel⟩, ⟨machine (fed [0xFC] fresh), by decide +kernel⟩⟩

theorem witness_BitCommandsWait :
    (∃ s : State, s.Live ∧ s.bits.ReaderOk ∧ s.inBits.length < (1#5).toNat ∧ s.inBits = [] ∧ s.inBits.length < 16) ∧
      (∃ s : State, s.Live ∧ s.bits.ReaderOk ∧ s.inBits.length = 23 ∧ s.inBits.length < (24#5).toNat ∧ 16 ≤ s.inBits.length) ∧
      (∃ s : State, s.Live ∧ s.bits.ReaderOk ∧ s.inBits.length = 15) ∧ (∃ s : State, s.Live ∧ s.bits.ReaderOk ∧ s.inBits.length = 31) ∧
      (∃ s : State, s.Live ∧ s.bits.ReaderOk ∧ s.inBits = List.replicate 8 true ∧ 8 < (9#16).toNat) ∧
      ∃ s : State, s.Live ∧ s.bits.WriterOk ∧ s.host.outFifo.length ≤ s.outDepth ∧ ¬ s.HasRoom (1#5).toNat ∧ ¬ s.HasRoom 1 ∧
        ¬ s.HasRoom (s.host.arg.toNat % 65536 + 1) ∧ ¬ s.HasRoom 32 :=
  ⟨⟨machine fresh, by decide +kernel⟩, ⟨machine { fed [1, 2] fresh with bits.rdCnt := 7 }, by decide +kernel⟩,
    ⟨machine { fed [1] fresh with bits.rdCnt := 7 }, by decide +kernel⟩, ⟨machine { fed [1, 2, 3] fresh with bits.rdCnt := 7 }, by decide +kernel⟩,
    ⟨machine (fed [0xFF] fresh), by decide +kernel⟩,
    ⟨machine { fresh with outDepth := 1, host.outFifo := [9], bits.wrCnt := 7 }, by decide +kernel⟩⟩

theorem witness_WriteCommandsComplete :
    ∃ s : State, s.Live ∧ s.bits.WriterOk ∧ (24#5).toNat ≤ 24 ∧ s.HasRoom (24#5).toNat ∧ s.HasRoom 1 ∧
      s.HasRoom (s.host.arg.toNat % 65536 + 1) ∧ s.HasRoom 32 ∧ ¬ s.HasRoom 33 :=
  ⟨machine { withArg 31 fresh with outDepth := 4, bits.wrCnt := 7, bits.wrAcc := 0x7F }, by decide +kernel⟩

theorem witness_FlushPadsToAByte :
    (∃ s : State, s.Live ∧ s.bits.WriterOk ∧ s.bits.wrCnt = 0) ∧
      (∃ s : State, s.Live ∧ s.bits.WriterOk ∧ s.bits.wrCnt = 7 ∧ s.host.outFifo.length < s.outDepth ∧
        ∃ t, exec .bwFlush s = .next t) ∧
      ∃ s : State, s.Live ∧ s.bits.WriterOk ∧ s.bits.wrCnt ≠ 0 ∧ s.outDepth ≤ s.host.outFifo.length :=
  ⟨⟨machine fresh, by decide +kernel⟩, ⟨machine { fresh with outDepth := 1, bits.wrCnt := 7, bits.wrAcc := 0x7F }, by decide +kernel, by decide +kernel, by decide +kernel,
      by decide +kernel, _, rfl⟩,
    ⟨machine { fresh with outDepth := 1, host.outFifo := [1], bits.wrCnt := 1, bits.wrAcc := 1 }, by decide +kernel⟩⟩

theorem witness_FieldsRoundTrip :
    ∃ (fields : List (Nat × Nat)) (w r : Engine), (∀ f ∈ fields, f.1 ≤ 24) ∧ w.bits.wrAcc = 0 ∧ w.bits.wrCnt = 0 ∧ w.host.outFifo = [] ∧
      (fields.map Prod.fst).sum = 8 * w.outDepth ∧ r.bits.rdAcc = 0 ∧ r.bits.rdCnt = 0 ∧
      r.host.inFifo = (left (do forEach fields (fun f => writeBits f.1 f.2); flushWriter : Cmd Unit) w).host.outFifo :=
  ⟨[(24, 0x123456), (0, 3), (8, 0x178)], { fresh with outDepth := 4 }, fed [0x12, 0x34, 0x56, 0x78] fresh, by decide +kernel⟩

theorem witness_Rle1EncoderCommands :
    (∃ s : State, s.Live ∧ s.KOk ∧ s.Accepts ∧ s.frame.phase = .encActive ∧ s.block.len = 99993) ∧
      (∃ s : State, s.Live ∧ ¬ s.Accepts ∧ s.block.len = 99994) ∧
      (∃ s : State, s.Live ∧ s.block.len.toNat + (runBytes s.block.runCh s.block.runLen.toNat).length = 900001) ∧
      ∃ s : State, s.Live ∧ s.host.arg.toNat + 1 = s.block.len.toNat ∧ s.block.blk.read s.host.arg.toNat = some 7 :=
  ⟨⟨machine (inPhase .encActive { fresh with block.k := 1, block.len := 99993 }), by decide +kernel⟩,
    ⟨machine { fresh with block.k := 1, block.len := 99994 }, by decide +kernel⟩,
    ⟨machine { fresh with block.len := 899996, block.runLen := 4 }, by decide +kernel⟩,
    ⟨machine { withArg 1 fresh with block.len := 2, block.blk := filled [5, 7] }, by decide +kernel⟩⟩

theorem witness_BlockHeadroom : ∃ e : Engine, e.KOk ∧ e.block.len = 0 ∧ e.block.runLen = 0 := ⟨fresh, by decide +kernel⟩

/-- The inverse walk of the bytes 61 61 (rule R178), at its start. -/
def walkingAA : Engine := { fresh with bwt.merged := filled [0x061, 0x161], bwt.curEntry := 0x061, bwt.hopsLeft := 2 }

theorem walkingAA_ok : walkingAA.WalkOk := fun _ =>
  ⟨2, by decide +kernel, fun k hk => by
    rcases k with _ | _ | k
    · exact ⟨0x061, by decide +kernel⟩
    · exact ⟨0x161, by decide +kernel⟩
    · omega⟩

theorem walkingAA_walks : walkingAA.Walks [0x61, 0x61] :=
  ⟨by decide +kernel, by decide +kernel, 0x061, by decide +kernel, by decide +kernel, by decide +kernel, 0x061, by decide +kernel, rfl⟩

theorem witness_NextByteCommands :
    (∃ s : State, s.Live ∧ s.WalkOk ∧ s.begun.next.1 = some 0x61 ∧ s.frame.phase = .decBlockActive) ∧
      ∃ s : State, s.Live ∧ s.WalkOk ∧ s.begun.next.1 = none :=
  ⟨⟨machine (inPhase .decBlockActive walkingAA), by decide +kernel, walkingAA_ok, by decide +kernel⟩,
    ⟨machine fresh, by decide +kernel, fun h => absurd h (by decide +kernel), by decide +kernel⟩⟩

theorem witness_Rle1RoundTrip :
    (∃ (bs : List Byte) (accepted : List Bool) (e e₁ e₂ d : Engine), e.KOk ∧ e.block.len = 0 ∧ e.block.runLen = 0 ∧
      collect bs rle1Put e = .ok accepted e₁ ∧ (∀ a ∈ accepted, a = true) ∧ flushRun e₁ = .ok () e₂ ∧
      d.block.rlRep = 0 ∧ d.block.rlCnt = 0 ∧ d.block.randFlag = false ∧ d.Walks e₂.blockBytes) ∧
      ∃ (e : Engine) (coded : List Byte), e.KOk ∧ e.block.len = 0 ∧ e.block.runLen = 0 ∧
        (4, coded) ∈ [(3, [(9 : Byte), 9, 9]), (4, [9, 9, 9, 9, 0]), (259, [9, 9, 9, 9, 251, 9, 9, 9, 9, 0])] := by
  refine ⟨⟨[0x61, 0x61], [true, true], fresh, left (collect [0x61, 0x61] rle1Put) fresh,
    left flushRun (left (collect [0x61, 0x61] rle1Put) fresh), walkingAA, by decide +kernel, by decide +kernel, by decide +kernel,
    eq_ok_of_gives (by decide +kernel), by decide +kernel, eq_ok_of_gives (by decide +kernel), by decide +kernel, by decide +kernel,
    by decide +kernel, ?_⟩, fresh, [9, 9, 9, 9, 0], by decide +kernel⟩
  have h : (left flushRun (left (collect [0x61, 0x61] rle1Put) fresh)).blockBytes = [0x61, 0x61] := by decide +kernel
  rw [h]
  exact walkingAA_walks

theorem witness_ForwardSortsRotations :
    (∃ s : State, s.Live ∧ s.BlockFilled ∧ s.block.len.toNat ≤ 900000 ∧ s.block.len.toNat = 0) ∧
      ∃ s : State, s.Live ∧ s.BlockFilled ∧ s.block.len.toNat ≤ 900000 ∧ 0 < s.block.len.toNat :=
  ⟨⟨machine fresh, by decide +kernel, exists_of_isSome (by decide +kernel), by decide +kernel⟩,
    ⟨machine { fresh with block.len := 6, block.blk := filled banana }, by decide +kernel, exists_of_isSome (by decide +kernel),
      by decide +kernel⟩⟩

theorem witness_InverseSetupOrders :
    (∃ s : State, s.Live ∧ s.BwtFilled ∧ s.bwt.len.toNat ≤ 900000 ∧ s.bwt.startPtr.toNat + 1 = s.bwt.len.toNat) ∧
      ∃ s : State, s.Live ∧ s.BwtFilled ∧ s.bwt.len.toNat ≤ 900000 ∧ s.bwt.len.toNat = s.bwt.startPtr.toNat :=
  ⟨⟨machine { fresh with bwt.len := 6, bwt.startPtr := 5, bwt.arr := filled banana }, by decide +kernel, exists_of_isSome (by decide +kernel),
      by decide +kernel⟩,
    ⟨machine { fresh with bwt.len := 6, bwt.startPtr := 6, bwt.arr := filled banana }, by decide +kernel, exists_of_isSome (by decide +kernel),
      by decide +kernel⟩⟩

theorem witness_WalkCommands :
    (∃ s : State, s.Live ∧ s.bwt.hopsLeft = 0) ∧ (∃ s : State, s.Live ∧ s.bwt.hopsLeft ≠ 0 ∧ s.WalkOk) ∧
      ∃ s : State, s.Live ∧ s.host.arg.toNat + 1 = s.bwt.len.toNat ∧ s.bwt.arr.read s.host.arg.toNat = some 0x61 :=
  ⟨⟨machine fresh, by decide +kernel⟩, ⟨machine walkingAA, by decide +kernel, by decide +kernel, walkingAA_ok⟩,
    ⟨machine { withArg 5 fresh with bwt.len := 6, bwt.arr := filled banana }, by decide +kernel⟩⟩

theorem witness_InverseUndoesForward : ∃ e : Engine, e.BlockFilled ∧ 0 < e.block.len.toNat ∧ e.block.len.toNat ≤ 900000 :=
  ⟨{ fresh with block.len := 6, block.blk := filled banana }, exists_of_isSome (by decide +kernel), by decide +kernel⟩

theorem witness_MtfInitMapsValues : ∃ s : State, s.Live ∧ byteGet s.block.presence 0x10 = false ∧ 255 ≥ s.mtf.nInUse.toNat :=
  ⟨machine abn, by decide +kernel⟩

theorem witness_RunLaw :
    ∃ (z : Nat) (ds : List Nat) (e : Engine), 1 ≤ z ∧ (∀ d ∈ ds, d ≤ 1) ∧ (ds.zipIdx.map fun q => (q.1 + 1) * 2 ^ q.2).sum = z ∧ e.KOk ∧
      e.mtf.runAcc = 0 ∧ e.mtf.runW = 1 ∧ e.bwt.len.toNat + z = e.block.k.toNat * 100000 :=
  ⟨4, [1, 0], { fresh with block.k := 1, bwt.len := 99996 }, by decide +kernel⟩

theorem abn_ok : abn.MtfOk :=
  ⟨by decide +kernel, by decide +kernel, by decide +kernel, by decide +kernel⟩

theorem witness_EncodeSymbolCommands :
    (∃ s : State, s.Live ∧ s.MtfOk ∧ s.mtf.len.toNat + 21 = 900001 ∧ 0 < s.mtf.nInUse.toNat ∧
      byteGet s.block.presence (s.host.arg.setWidth 8) = true ∧
      s.mtf.list.toList[0]? = some (byteGet s.mtf.unseqToSeq (s.host.arg.setWidth 8))) ∧
      ∃ s : State, s.Live ∧ s.MtfOk ∧ s.mtf.len.toNat + 21 ≤ 900001 ∧ 2 < s.mtf.nInUse.toNat ∧
        byteGet s.block.presence (s.host.arg.setWidth 8) = true ∧
        s.mtf.list.toList[2]? = some (byteGet s.mtf.unseqToSeq (s.host.arg.setWidth 8)) :=
  ⟨⟨machine { withArg 0x61 abn with mtf.len := 899980 }, by decide +kernel, ⟨abn_ok.1, abn_ok.2, abn_ok.3, abn_ok.4⟩, by decide +kernel⟩,
    ⟨machine (withArg 0x6E abn), by decide +kernel, ⟨abn_ok.1, abn_ok.2, abn_ok.3, abn_ok.4⟩, by decide +kernel⟩⟩

/-- The premises of the decoder's symbol command. -/
abbrev decodes (s : State) : Prop :=
  s.Live ∧ s.KOk ∧ s.mtf.nInUse.toNat ≤ 256 ∧ s.huf.decEob = false ∧ s.mtf.nInUse ≠ 0 ∧ s.bwt.len.toNat + s.mtf.runAcc.toNat ≤ 900000

theorem witness_DecodeSymbolCommand :
    (∃ s : State, decodes s ∧ s.host.arg.toNat % 512 = 1 ∧
      s.bwt.len.toNat + (s.mtf.runAcc.toNat + s.mtf.runW.toNat * 2) = s.block.k.toNat * 100000) ∧
      (∃ s : State, decodes s ∧ s.host.arg.toNat % 512 = 0 ∧
        s.block.k.toNat * 100000 + 1 = s.bwt.len.toNat + (s.mtf.runAcc.toNat + s.mtf.runW.toNat)) ∧
      (∃ s : State, decodes s ∧ s.host.arg.toNat % 512 = s.mtf.nInUse.toNat ∧ 2 ≤ s.host.arg.toNat % 512 ∧
        s.bwt.len.toNat + s.mtf.runAcc.toNat + 1 = s.block.k.toNat * 100000) ∧
      (∃ s : State, decodes s ∧ s.host.arg.toNat % 512 = 2 ∧ 2 ≤ s.mtf.nInUse.toNat ∧
        s.block.k.toNat * 100000 = s.bwt.len.toNat + s.mtf.runAcc.toNat) ∧
      ∃ s : State, decodes s ∧ s.host.arg.toNat % 512 = s.mtf.nInUse.toNat + 1 :=
  ⟨⟨machine { withArg 1 abn with block.k := 1, bwt.len := 99998 }, by decide +kernel⟩,
    ⟨machine { withArg 0 abn with block.k := 1, bwt.len := 100000 }, by decide +kernel⟩,
    ⟨machine { withArg 3 abn with block.k := 1, bwt.len := 99998, mtf.runAcc := 1 }, by decide +kernel⟩,
    ⟨machine { withArg 2 abn with block.k := 1, bwt.len := 99999, mtf.runAcc := 1 }, by decide +kernel⟩,
    ⟨machine (withArg 4 abn), by decide +kernel⟩⟩

theorem witness_SymbolMapCommands :
    (∃ s : State, s.Live ∧ s.bits.WriterOk ∧ s.HasRoom (mapBits s.block.presence).length) ∧
      (∃ (s : State) (ranges : List Bool) (values : List (List Bool)), s.Live ∧ s.bits.ReaderOk ∧ ranges.length = 16 ∧
        values.length = 16 ∧ (∀ vs ∈ values, vs.length = 16) ∧
        s.inBits = (ranges ++ (ranges.zip values).flatMap fun q => if q.1 then q.2 else []) ++ []) ∧
      ∃ s : State, s.Live ∧ s.host.arg.toNat + 1 = s.mtf.len.toNat ∧ s.mtf.stream.read s.host.arg.toNat = some 4 :=
  ⟨⟨machine abn, by decide +kernel⟩,
    ⟨machine (fed [0x02, 0x00, 0x40, 0x00] fresh), List.replicate 6 false ++ true :: List.replicate 9 false,
      List.replicate 16 (false :: true :: List.replicate 14 false), by decide +kernel⟩,
    ⟨machine { withArg 5 fresh with mtf.len := 6, mtf.stream := filled [3, 0, 3, 3, 1, 4] }, by decide +kernel⟩⟩

theorem witness_MtfRoundTrip :
    ∃ (q : List Byte) (e d : Engine), (∀ v ∈ q, byteGet e.block.presence v = true) ∧ d.block.presence = e.block.presence ∧ d.KOk ∧
      countPresent e.block.presence ≠ 0 ∧ q.length ≤ d.block.k.toNat * 100000 ∧ q ≠ [] :=
  ⟨banana, abn, abn, by decide +kernel⟩

theorem witness_TableAccessCommands :
    (∃ s : State, s.Live ∧ (5#3).toNat ≤ 5 ∧ (if (0#9) = 0 then s.alpha else (0#9).toNat) = 2) ∧
      (∃ s : State, s.Live ∧ (if (258#9) = 0 then s.alpha else (258#9).toNat) = 258 ∧ (257#9).toNat ≤ 257 ∧ s.host.arg.toNat + 1 = 2 ^ 20) ∧
      (∃ s : State, s.Live ∧ s.host.arg.toNat = 1) ∧ (∃ s : State, s.Live ∧ s.host.arg.toNat = 23) ∧
      (∃ s : State, s.Live ∧ s.host.arg.toNat + 1 = s.huf.nSelectors.toNat ∧ s.huf.selectors.read s.host.arg.toNat = some 5) ∧
      ∃ s : State, s.Live ∧ s.mtf.len ≠ 0 :=
  ⟨⟨machine fresh, by decide +kernel⟩, ⟨machine (withArg 0xFFFFF fresh), by decide +kernel⟩, ⟨machine (withArg 1 fresh), by decide +kernel⟩,
    ⟨machine (withArg 23 fresh), by decide +kernel⟩,
    ⟨machine { withArg 1 fresh with huf.nSelectors := 2, huf.selectors := filled [0, 5] }, by decide +kernel⟩,
    ⟨machine staged, by decide +kernel⟩⟩

theorem witness_AllocatorGivesACode :
    (2 ≤ (List.replicate 2 0).length ∧ (List.replicate 2 0).length ≤ 258) ∧
      (2 ≤ (List.replicate 258 0).length ∧ (List.replicate 258 0).length ≤ 258) := by decide +kernel

theorem witness_SeedCutsBands :
    (∃ s : State, s.Live ∧ s.huf.nGroups.toNat = 2 ∧ s.mtf.len ≠ 0 ∧ s.AlphaOk) ∧
      ∃ s : State, s.Live ∧ s.huf.nGroups.toNat = 6 ∧ s.mtf.len ≠ 0 ∧ s.mtf.nInUse.toNat = 256 :=
  ⟨⟨machine staged, by decide +kernel⟩, ⟨machine { staged with huf.nGroups := 6, mtf.nInUse := 256 }, by decide +kernel⟩⟩

theorem staged_pass : staged.PassOk :=
  ⟨by decide +kernel, by decide +kernel, by decide +kernel, by decide +kernel, by decide +kernel, exists_of_isSome (by decide +kernel),
    by decide +kernel⟩

theorem witness_SelectionPasses : ∃ s : State, s.Live ∧ s.PassOk := ⟨machine staged, by decide +kernel, staged_pass⟩

theorem witness_CanonicalCodes :
    ∃ s : State, s.Live ∧ s.AlphaOk ∧ (5#3).toNat ≤ 5 ∧ LensOk 20 (s.lens (5#3).toNat) ∧ kraft 20 (s.lens (5#3).toNat) = 2 ^ 20 :=
  ⟨machine { fresh with mtf.nInUse := 2, huf.len := rowed 5 [2, 1, 3, 3] }, by decide +kernel⟩

theorem tabled_selectors (n : Nat) (h : 0 < n) : tabled.SelectorsOk n := fun g hg =>
  ⟨0, by
    have h1 : tabled.huf.nSelectors.toNat = 1 := by decide +kernel
    obtain rfl : g = 0 := by omega
    decide +kernel, h⟩

theorem witness_TablesAndDataWritten :
    (∃ s : State, s.Live ∧ s.AlphaOk ∧ s.bits.WriterOk ∧ s.huf.nGroups.toNat = 2 ∧ s.huf.nSelectors.toNat = 1 ∧
      s.SelectorsOk s.huf.nGroups.toNat ∧ (∀ t < s.huf.nGroups.toNat, LensOk 20 (s.lens t)) ∧ s.HasRoom s.tableBits.length) ∧
      (∃ s : State, s.Live ∧ s.AlphaOk ∧ s.bits.WriterOk ∧ s.mtf.len.toNat ≤ s.huf.nSelectors.toNat * 50 ∧ s.StreamFilled ∧ s.SelectorsOk 6 ∧
        (∀ x ∈ s.symbols, x < 258) ∧ (∀ i < s.mtf.len.toNat, 1 ≤ s.codeAt i / 2 ^ 24 ∧ s.codeAt i / 2 ^ 24 ≤ 24) ∧
        s.HasRoom ((List.range s.mtf.len.toNat).flatMap fun i => codeBits (s.codeAt i)).length) ∧
      ∃ s : State, s.Live ∧ s.AlphaOk ∧ s.bits.WriterOk ∧ s.host.arg.toNat % 512 < s.alpha ∧
        1 ≤ cell s.huf.code (0#3).toNat (s.host.arg.toNat % 512) / 2 ^ 24 ∧
        cell s.huf.code (0#3).toNat (s.host.arg.toNat % 512) / 2 ^ 24 ≤ 24 ∧
        s.HasRoom (cell s.huf.code (0#3).toNat (s.host.arg.toNat % 512) / 2 ^ 24) :=
  ⟨⟨machine tabled, by decide +kernel, by decide +kernel, by decide +kernel, by decide +kernel, by decide +kernel,
      tabled_selectors _ (by decide +kernel), by decide +kernel, by decide +kernel⟩,
    ⟨machine tabled, by decide +kernel, by decide +kernel, by decide +kernel, by decide +kernel, staged_pass.2.2.2.2.2.1,
      tabled_selectors _ (by decide +kernel), by decide +kernel, by decide +kernel, by decide +kernel⟩,
    ⟨machine (withArg 4 tabled), by decide +kernel⟩⟩

theorem witness_TablesRead :
    ∃ (s : State) (nG : Nat) (js : List Nat) (tables : List (Nat × List (List Bool))) (rest : List Bool),
      s.Live ∧ s.bits.ReaderOk ∧ s.AlphaOk ∧ s.mtf.nInUse ≠ 0 ∧ 2 ≤ nG ∧ nG ≤ 6 ∧ 1 ≤ js.length ∧ js.length ≤ 18001 ∧ (∀ j ∈ js, j < nG) ∧
      tables.length = nG ∧ (∀ q ∈ tables, q.1 < 32 ∧ q.2.length = s.alpha ∧ TableStepsOk q.1 q.2) ∧
      s.inBits = (bitsOf 3 nG ++ bitsOf 15 js.length ++ js.flatMap unaryBits ++ tables.flatMap fun q => bitsOf 5 q.1 ++ stepBits q.2) ++ rest :=
  have steps : ∀ q ∈ [(3, [[], [], [], [true, true], [false, false]]), (3, [[], [], [true], [], []])], TableStepsOk q.1 q.2 := by
    simp [TableStepsOk, StepsOk, stepTo]
  have meets : (machine (fed [0x40, 0x00, 0x43, 0x1E, 0xA0, 0xCC, 0x21] { fresh with mtf.nInUse := 3 })).inBits =
      (bitsOf 3 2 ++ bitsOf 15 1 ++ [0].flatMap unaryBits ++
        [(3, [[], [], [], [true, true], [false, false]]), (3, [[], [], [true], [], []])].flatMap fun q => bitsOf 5 q.1 ++ stepBits q.2) ++
        [false, true, false, false, false, false, true] := by decide +kernel
  ⟨_, 2, [0], _, _, by decide +kernel, by decide +kernel, by decide +kernel, by decide +kernel, Nat.le_refl 2, by omega, Nat.le_refl 1,
    by simp, by simp, rfl, fun q hq => ⟨by revert q; decide, by revert q; decide, steps q hq⟩, meets⟩

/-- The first table of the example of rule R230: lengths 3, 3, 3, 1, 3. -/
def firstTable : Nat × List (List Bool) := (3, [[], [], [], [true, true], [false, false]])

theorem witness_TablesRefused :
    (∃ s : State, s.Live ∧ s.bits.ReaderOk ∧ s.mtf.nInUse = 0) ∧
      (∃ s : State, s.Live ∧ s.bits.ReaderOk ∧ s.mtf.nInUse ≠ 0 ∧ ¬ (2 ≤ 7 ∧ 7 ≤ 6) ∧ s.inBits = bitsOf 3 7 ++ List.replicate 5 false) ∧
      (∃ s : State, s.Live ∧ s.bits.ReaderOk ∧ s.mtf.nInUse ≠ 0 ∧ ¬ (2 ≤ 1 ∧ 1 ≤ 6) ∧ s.inBits = bitsOf 3 1 ++ List.replicate 5 false) ∧
      (∃ s : State, s.Live ∧ s.bits.ReaderOk ∧ s.mtf.nInUse ≠ 0 ∧ ¬ (1 ≤ 18002 ∧ 18002 ≤ 18001) ∧
        s.inBits = bitsOf 3 2 ++ bitsOf 15 18002 ++ List.replicate 6 false) ∧
      (∃ s : State, s.Live ∧ s.bits.ReaderOk ∧ s.mtf.nInUse ≠ 0 ∧
        s.inBits = bitsOf 3 2 ++ bitsOf 15 1 ++ List.replicate 2 true ++ List.replicate 4 false) ∧
      (∃ s : State, s.Live ∧ s.bits.ReaderOk ∧ s.mtf.nInUse ≠ 0 ∧
        s.inBits = bitsOf 3 2 ++ bitsOf 15 2 ++ [0].flatMap unaryBits ++ List.replicate 2 true ++ List.replicate 3 false) ∧
      (∃ s : State, s.Live ∧ s.bits.ReaderOk ∧ s.mtf.nInUse ≠ 0 ∧ s.AlphaOk ∧ (∀ q ∈ [firstTable], q.2.length = s.alpha ∧ TableStepsOk q.1 q.2) ∧
        TableStepsOk 23 [[]] ∧ StepsLeave ((steppedLens 23 [[]]).getLastD 23) [false] ∧
        s.inBits = bitsOf 3 2 ++ bitsOf 15 1 ++ [0].flatMap unaryBits ++ [firstTable].flatMap tableStepBits ++ tableStepBits (23, [[]]) ++
          [false].flatMap (fun d => [true, d]) ++ List.replicate 3 false) ∧
      ∃ s : State, s.Live ∧ s.bits.ReaderOk ∧ s.mtf.nInUse ≠ 0 ∧ s.AlphaOk ∧ StepsLeave ((steppedLens 0 []).getLastD 0) [] ∧
        s.inBits = bitsOf 3 2 ++ bitsOf 15 1 ++ [0].flatMap unaryBits ++ tableStepBits (0, []) :=
  ⟨⟨machine fresh, by decide +kernel⟩, ⟨machine (fed [0xE0] abn), by decide +kernel⟩, ⟨machine (fed [0x20] abn), by decide +kernel⟩,
    ⟨machine (fed [0x51, 0x94, 0x80] abn), by decide +kernel⟩, ⟨machine (fed [0x40, 0x00, 0x70] abn), by decide +kernel⟩,
    ⟨machine (fed [0x40, 0x00, 0x98] abn), by decide +kernel⟩,
    ⟨machine (fed [0x40, 0x00, 0x43, 0x1E, 0xA5, 0xD0] abn), by decide +kernel, by decide +kernel, by decide +kernel, by decide +kernel,
      fun q hq => by
        obtain rfl := List.mem_singleton.mp hq
        exact ⟨by decide +kernel, by simp [TableStepsOk, StepsOk, stepTo, firstTable]⟩, by simp [TableStepsOk, StepsOk],
      by simp [StepsLeave, stepTo, steppedLens], by decide +kernel⟩,
    ⟨machine (fed [0x40, 0x00, 0x40] abn), by decide +kernel, by decide +kernel, by decide +kernel, by decide +kernel, by simp [StepsLeave, steppedLens],
      by decide +kernel⟩⟩

theorem witness_LookupBuilt : ∃ s : State, s.Live ∧ s.AlphaOk ∧ (5#3).toNat ≤ 5 ∧ LensOk 23 (s.lens (5#3).toNat) ∧ 23 ∈ s.lens (5#3).toNat :=
  ⟨machine { fresh with mtf.nInUse := 2, huf.len := rowed 5 [2, 1, 23, 3] }, by decide +kernel⟩

theorem lookedUp_lookup : lookedUp.LookupOf 0 [2, 1, 3, 3] where
  minLen := by decide +kernel
  maxLen := by decide +kernel
  perm := by decide +kernel
  inside := by
    have h : ∀ n < 4, ([2, 1, 3, 3].foldr min 31) ≤ n →
        cell lookedUp.huf.base 0 n + [2, 1, 3, 3].countP (fun m => m < n) =
            (([2, 1, 3, 3].filter fun m => m < n).map fun m => 2 ^ (n - m)).sum ∧
          cell lookedUp.huf.limit 0 n + 1 = (([2, 1, 3, 3].filter fun m => m < n).map fun m => 2 ^ (n - m)).sum + [2, 1, 3, 3].count n := by
      decide +kernel
    have h' : greatest [2, 1, 3, 3] = 3 := by decide
    exact fun n h₁ h₂ => h n (by omega) h₁
  outside := by decide +kernel

theorem witness_DecodeInvertsCodes :
    (∃ s : State, s.Live ∧ s.bits.ReaderOk ∧ s.huf.nSelectors.toNat = s.huf.symCount.toNat / 50) ∧
      (∃ s : State, s.Live ∧ s.bits.ReaderOk ∧ s.huf.symCount.toNat / 50 < s.huf.nSelectors.toNat ∧
        s.huf.selectors.read (s.huf.symCount.toNat / 50) = some 0 ∧ s.LookupOf 0 [2, 1, 3, 3] ∧ LensOk 23 [2, 1, 3, 3] ∧
        kraft 23 [2, 1, 3, 3] = 2 ^ 23 ∧ s.inBits = bitsOf 3 (canonicalCode [2, 1, 3, 3] 3) ++ List.replicate 5 false) ∧
      ∃ s : State, s.Live ∧ s.bits.ReaderOk ∧ s.huf.symCount.toNat / 50 < s.huf.nSelectors.toNat ∧
        s.huf.selectors.read (s.huf.symCount.toNat / 50) = some 0 ∧ s.LookupOf 0 [2, 2] ∧ LensOk 23 [2, 2] ∧ kraft 23 [2, 2] ≤ 2 ^ 23 ∧
        23 ≤ s.inBits.length ∧ kraft 23 [2, 2] ≤ bitsVal (s.inBits.take 23) := by
  refine ⟨⟨machine { lookedUp with huf.symCount := 50 }, by decide +kernel⟩,
    ⟨machine (fed [0xE0] { lookedUp with huf.symCount := 49 }), by decide +kernel, by decide +kernel, by decide +kernel, by decide +kernel,
      ⟨lookedUp_lookup.1, lookedUp_lookup.2, lookedUp_lookup.3, lookedUp_lookup.4, lookedUp_lookup.5⟩, by decide +kernel, by decide +kernel,
      by decide +kernel⟩,
    ⟨machine (fed [0xFF, 0xFF, 0xFF]
        { lookedUp with
          huf.minLen := (Vector.replicate 6 0).set 0 2
          huf.maxLen := (Vector.replicate 6 0).set 0 2
          huf.base := rowed 0 []
          huf.limit := withRow (Vector.replicate 6 (Vector.replicate 24 (-1))) 0 [0xFFFFFFFF, 0xFFFFFFFF, 1]
          huf.perm := rowed 0 [0, 1] }), by decide +kernel, by decide +kernel, by decide +kernel, by decide +kernel,
      ⟨by decide +kernel, by decide +kernel, by decide +kernel, fun n h₁ h₂ => ?_, by decide +kernel⟩, by decide +kernel, by decide +kernel,
      by decide +kernel, by decide +kernel⟩⟩
  have h₁' : 2 ≤ n := h₁
  have h₂' : n ≤ 2 := h₂
  obtain rfl : n = 2 := by omega
  decide +kernel

theorem witness_DecodeStaysInTable :
    ∃ (e : Engine) (lens : List Nat), e.bits.ReaderOk ∧ e.LookupOf 0 lens ∧ 2 ≤ lens.length ∧ lens.length ≤ 258 ∧ LensOk 23 lens :=
  ⟨lookedUp, [2, 1, 3, 3], by decide +kernel, lookedUp_lookup, by decide +kernel⟩

theorem witness_CrcCommands : ∃ s : State, s.Live := ⟨machine (inPhase .decComplete fresh), by decide +kernel⟩

theorem witness_CrcLaws : ∃ e : Engine, e.crc.stream = 0 := ⟨fresh, by decide +kernel⟩

theorem witness_BlockCommands :
    (∃ s : State, s.Live ∧ 1 ≤ (9#4).toNat ∧ (9#4).toNat ≤ 9 ∧ s.block.nonempty = false) ∧
      (∃ s : State, s.Live ∧ s.block.nonempty = true ∧ s.block.len = 0 ∧ s.block.runLen = 1 ∧ (∀ p ∈ s.block.presence.toList, p = false) ∧
        s.bits.WriterOk ∧ s.HasRoom 179) ∧
      (∃ s : State, s.Live ∧ s.block.rlRep = 0 ∧ s.bwt.hopsLeft = 0 ∧ s.crc.block ^^^ 0xFFFFFFFF = s.crc.storedBlock) ∧
      ∃ s : State, s.Live ∧ s.block.rlRep = 0 ∧ s.bwt.hopsLeft = 0 ∧ s.crc.block ^^^ 0xFFFFFFFF ≠ s.crc.storedBlock :=
  ⟨⟨machine fresh, by decide +kernel⟩, ⟨machine { openA with outDepth := 22 }, by decide +kernel⟩,
    ⟨machine { fresh with crc.block := 0xE66C6494, crc.storedBlock := 0x19939B6B }, by decide +kernel⟩, ⟨machine fresh, by decide +kernel⟩⟩

theorem witness_BlockStartReadsAByte :
    ∃ s : State, s.Live ∧ s.bits.ReaderOk ∧ s.KOk ∧ (0#4).toNat ≤ 9 ∧ (9#4).toNat ≤ 9 ∧
      s.inBits = oneByteBlock 0x61 0x19939B6B ++ List.replicate 5 false :=
  ⟨machine (fed blockOfA fresh), by decide +kernel⟩

theorem witness_DerandomFlips :
    ∃ (bs : List Byte) (e : Engine), e.block.randFlag = true ∧ e.block.randNtogo = 0 ∧ e.block.randTpos = 0 ∧ e.Walks bs ∧
      bs.length = 2 ∧ 617 + 2 = ((List.range 0).map fun m => randEntry (m % 512)).sum + randEntry (0 % 512) :=
  ⟨[0x61, 0x61], { walkingAA with block.randFlag := true }, by decide +kernel, by decide +kernel, by decide +kernel,
    ⟨by decide +kernel, by decide +kernel, 0x061, by decide +kernel, by decide +kernel, by decide +kernel, 0x061, by decide +kernel, rfl⟩,
    by decide +kernel⟩

theorem witness_StreamEncoderCommands :
    (∃ s : State, s.Live ∧ 1 ≤ (1#4).toNat ∧ (9#4).toNat ≤ 9 ∧ s.frame.phase = .encDone ∧ s.host.outFifo.length + 4 = s.outDepth) ∧
      (∃ s : State, s.Live ∧ s.frame.phase = .encActive ∧ s.KOk ∧ ¬ s.Accepts ∧ s.block.len = 99994) ∧
      (∃ s : State, s.Live ∧ s.frame.phase = .encActive ∧ s.block.nonempty = false ∧ s.begun.bits.WriterOk ∧
        s.begun.host.outFifo.length + (s.begun.bits.wrCnt.toNat + 87) / 8 = s.begun.outDepth) ∧
      ∃ (s : State) (e₀ : Engine), s.Live ∧ s.frame.phase = .encActive ∧ s.block.nonempty = true ∧
        blkEncClose s.begun = .ok 0x19939B6B e₀ ∧ (e₀.combined 0x19939B6B).bits.WriterOk ∧
        (e₀.combined 0x19939B6B).host.outFifo.length + ((e₀.combined 0x19939B6B).bits.wrCnt.toNat + 87) / 8 ≤
          (e₀.combined 0x19939B6B).outDepth :=
  ⟨⟨machine (inPhase .encDone { fresh with outDepth := 4 }), by decide +kernel⟩,
    ⟨machine (inPhase .encActive { fresh with block.k := 1, block.len := 99994 }), by decide +kernel⟩,
    ⟨machine (inPhase .encActive { fresh with outDepth := 10 }), by decide +kernel⟩,
    ⟨machine (inPhase .encActive openA), left blkEncClose (machine (inPhase .encActive openA)).begun, by decide +kernel, by decide +kernel,
      by decide +kernel, eq_ok_of_gives (by decide +kernel), by decide +kernel⟩⟩

theorem witness_StreamDecoderEnds :
    (∃ s : State, s.Live ∧ s.bits.ReaderOk ∧ s.frame.phase = .idle) ∧ (∃ s : State, s.Live ∧ s.bits.ReaderOk ∧ s.frame.phase = .decComplete) ∧
      (∃ s : State, s.Live ∧ s.bits.ReaderOk ∧ s.frame.phase = .decBlockBoundary ∧ s.inBits = trailerBits 0 ++ [] ∧ 0 = s.crc.stream) ∧
      (∃ s : State, s.Live ∧ s.bits.ReaderOk ∧ s.frame.phase = .decBlockBoundary ∧ s.inBits = trailerBits 0 ++ [] ∧ 0 ≠ s.crc.stream) ∧
      (∃ s : State, s.Live ∧ s.bits.ReaderOk ∧ s.frame.phase = .decUninit ∧ 0 = s.crc.stream ∧
        s.inBits = bytesBits (headerBytes s.frame.headerless 9) ++ trailerBits 0 ++ []) ∧
      (∃ s : State, s.Live ∧ s.bits.ReaderOk ∧ s.frame.phase = .decUninit ∧ 0 = s.crc.stream ∧ s.frame.headerless = true ∧
        s.inBits = bytesBits (headerBytes s.frame.headerless 1) ++ trailerBits 0 ++ []) ∧
      (∃ s : State, s.Live ∧ s.bits.ReaderOk ∧ s.frame.phase = .decBlockBoundary ∧ 0x304159265359 ≠ Config.blockMagic ∧
        0x304159265359 ≠ Config.endMagic ∧ 0x304159265359 < 2 ^ 48 ∧ s.inBits = bitsOf 48 0x304159265359 ++ []) ∧
      (∃ s : State, s.Live ∧ s.bits.ReaderOk ∧ s.frame.phase = .decUninit ∧ s.frame.headerless = false ∧ (0x43 : Byte) ≠ 0x42 ∧
        s.inBits = bytesBits ([] ++ [0x43]) ++ []) ∧
      (∃ s : State, s.Live ∧ s.bits.ReaderOk ∧ s.frame.phase = .decUninit ∧ s.frame.headerless = false ∧ (0x5B : Byte) ≠ 0x5A ∧
        s.inBits = bytesBits ([0x42] ++ [0x5B]) ++ []) ∧
      (∃ s : State, s.Live ∧ s.bits.ReaderOk ∧ s.frame.phase = .decUninit ∧ s.frame.headerless = true ∧ (0x43 : Byte) ≠ 0x68 ∧
        s.inBits = bytesBits ([] ++ [0x43]) ++ []) ∧
      ∃ s : State, s.Live ∧ s.bits.ReaderOk ∧ s.frame.phase = .decUninit ∧ s.frame.headerless = false ∧
        ((0x30 : Byte).toNat < 0x31 ∨ 0x39 < (0x30 : Byte).toNat) ∧ s.inBits = bytesBits ([0x42, 0x5A] ++ [0x68] ++ [0x30]) ++ [] :=
  ⟨⟨machine fresh, by decide +kernel⟩, ⟨machine (inPhase .decComplete fresh), by decide +kernel⟩,
    ⟨machine (inPhase .decBlockBoundary (fed [0x17, 0x72, 0x45, 0x38, 0x50, 0x90, 0, 0, 0, 0] fresh)), by decide +kernel⟩,
    ⟨machine (inPhase .decBlockBoundary { fed [0x17, 0x72, 0x45, 0x38, 0x50, 0x90, 0, 0, 0, 0] fresh with crc.stream := 1 }), by decide +kernel⟩,
    ⟨machine (inPhase .decUninit (fed [0x42, 0x5A, 0x68, 0x39, 0x17, 0x72, 0x45, 0x38, 0x50, 0x90, 0, 0, 0, 0] fresh)), by decide +kernel⟩,
    ⟨machine (inPhase .decUninit { fed [0x68, 0x31, 0x17, 0x72, 0x45, 0x38, 0x50, 0x90, 0, 0, 0, 0] fresh with frame.headerless := true }),
      by decide +kernel⟩,
    ⟨machine (inPhase .decBlockBoundary (fed [0x30, 0x41, 0x59, 0x26, 0x53, 0x59] fresh)), by decide +kernel⟩,
    ⟨machine (inPhase .decUninit (fed [0x43] fresh)), by decide +kernel⟩, ⟨machine (inPhase .decUninit (fed [0x42, 0x5B] fresh)), by decide +kernel⟩,
    ⟨machine (inPhase .decUninit { fed [0x43] fresh with frame.headerless := true }), by decide +kernel⟩,
    ⟨machine (inPhase .decUninit (fed [0x42, 0x5A, 0x68, 0x30] fresh)), by decide +kernel⟩⟩

/-- A decoder at the marker of the block of "a". -/
def atMarker : State := machine (inPhase .decBlockBoundary (fed ([0x31, 0x41, 0x59, 0x26, 0x53, 0x59] ++ blockOfA) fresh))

/-- A decoder whose block has ended, at the trailer. -/
def atTrailer : State :=
  machine (inPhase .decBlockActive
    { fed [0x17, 0x72, 0x45, 0x38, 0x50, 0x90, 0, 0, 0, 0] fresh with
      crc.block := 0xE66C6494, crc.storedBlock := 0x19939B6B, crc.stream := 0x8CC9CDB5 })

theorem next_pair {e : Engine} {o : Option Byte} (h : e.next.1 = o) : e.next = (o, e.next.2) := by rw [← h]

theorem witness_StreamDecoderBlocks :
    (∃ (s : State) (e e' : Engine), s.Live ∧ s.bits.ReaderOk ∧ s.frame.phase = .decBlockBoundary ∧
      s.inBits = bitsOf 48 Config.blockMagic ++ (s.inBits.drop 48) ∧ blkDecStart (s.begun.consume 48) = .ok 1 e ∧ e.WalkOk ∧
      ({ e with frame.phase := .decBlockActive } : Engine).next = (some 0x61, e')) ∧
      (∃ (s : State) (e : Engine), s.Live ∧ s.bits.ReaderOk ∧ s.frame.phase = .decBlockActive ∧ s.WalkOk ∧ s.begun.next = (none, e) ∧
        s.crc.block ^^^ 0xFFFFFFFF ≠ s.crc.storedBlock) ∧
      ∃ (s : State) (e : Engine), s.Live ∧ s.bits.ReaderOk ∧ s.frame.phase = .decBlockActive ∧ s.WalkOk ∧ s.begun.next = (none, e) ∧
        s.crc.block ^^^ 0xFFFFFFFF = s.crc.storedBlock ∧
        s.inBits = trailerBits (s.crc.stream.rotateLeft 1 ^^^ s.crc.block ^^^ 0xFFFFFFFF) ++ [] := by
  refine ⟨⟨atMarker, left blkDecStart (atMarker.begun.consume 48),
      ({ left blkDecStart (atMarker.begun.consume 48) with frame.phase := .decBlockActive } : Engine).next.2,
      by decide +kernel, by decide +kernel, by decide +kernel, by decide +kernel, eq_ok_of_gives (by decide +kernel), fun _ => ⟨1, by decide +kernel, fun k hk => ?_⟩, ?_⟩,
    ⟨machine (inPhase .decBlockActive fresh), (machine (inPhase .decBlockActive fresh)).begun.next.2, by decide +kernel, by decide +kernel, by decide +kernel,
      fun h => absurd h (by decide +kernel), next_pair (by decide +kernel), by decide +kernel⟩,
    ⟨atTrailer, atTrailer.begun.next.2, by decide +kernel, by decide +kernel, by decide +kernel, fun h => absurd h (by decide +kernel),
      next_pair (by decide +kernel), by decide +kernel, by decide +kernel⟩⟩
  · obtain rfl : k = 0 := by omega
    exact ⟨0x061, by decide +kernel⟩
  · exact next_pair (by decide +kernel)

theorem witness_EmptyStreamRoundTrip :
    ∃ s u : State, s.Live ∧ u.Live ∧ s.frame.phase = .encDone ∧ u.frame.phase = .decComplete ∧ s.host.outFifo = [] ∧ s.outDepth = 14 ∧
      u.host.inFifo = headerBytes false 9 ++ [0x17, 0x72, 0x45, 0x38, 0x50, 0x90, 0, 0, 0, 0] :=
  ⟨machine (inPhase .encDone { fresh with outDepth := 14 }),
    machine (inPhase .decComplete (fed [0x42, 0x5A, 0x68, 0x39, 0x17, 0x72, 0x45, 0x38, 0x50, 0x90, 0, 0, 0, 0] fresh)), by decide +kernel⟩

/-- The state exec answers, where it answers one. -/
def after (i : Instr) (s : State) : State :=
  match exec i s with
  | .next t => t
  | _ => s

/-- exec answers a next state. -/
def answers (i : Instr) (s : State) : Bool :=
  match exec i s with
  | .next _ => true
  | _ => false

theorem exec_after {i : Instr} {s : State} (h : answers i s = true) : exec i s = .next (after i s) := by
  unfold answers at h
  unfold after
  split at h
  · rw [‹exec i s = _›]
  · exact absurd h (by decide)

/-- The state step answers, where it answers one. -/
def stepped (s : State) : State :=
  match step s with
  | .next t => t
  | _ => s

/-- step answers a next state. -/
def goesOn (s : State) : Bool :=
  match step s with
  | .next _ => true
  | _ => false

theorem step_stepped {s : State} (h : goesOn s = true) : step s = .next (stepped s) := by
  unfold goesOn at h
  unfold stepped
  split at h
  · rw [‹step s = _›]
  · exact absurd h (by decide)

/-- A machine whose BR_READ_BOOL waits for input. -/
def waitingIn : State :=
  { machine fresh with hold := some { instr := .brReadBool, wait := .input, start := fresh, popped := 0 } }

/-- A machine whose BW_WRITE_BITS of 16 bits waits for room, one of its two bytes written. -/
def fullOut : Engine := { withArg 0x1234 fresh with outDepth := 1 }

theorem witness_SystemCommands : ∃ (s : State) (h : Hold), s.script = .powerOnReset :: [] ∧ s.hold = some h ∧ s.canResume h = false :=
  ⟨{ waitingIn with script := [.powerOnReset] }, waitingIn.hold.get (by decide +kernel), by decide +kernel, (Option.some_get _).symm, by decide +kernel⟩

theorem witness_OpcodeMap : decode 0xFFFFFF60 = .ok .crcInit ∧ decode 0xFE = .error (.reservedOpcode 0xFE) := by decide

theorem witness_StepRunsTheCommand :
    (∃ s : State, s.hold = none ∧ s.script = [.write 32 0 0x1801] ∧ decode 0x1801 = .ok (.brReadBits 24)) ∧
      (∃ s : State, s.hold = none ∧ s.script = [.write 32 0 5] ∧ decode 5 = .error (.reservedOpcode 5) ∧ s.Live) ∧
      decode (BitVec.ofNat 32 (0x1801 % 2 ^ 32)) = .ok (.brReadBits 24) :=
  ⟨⟨{ machine fresh with script := [.write 32 0 0x1801] }, by decide +kernel⟩, ⟨{ machine fresh with script := [.write 32 0 5] }, by decide +kernel⟩,
    by decide⟩

theorem witness_HostWrites :
    (∃ s : State, s.busy = true) ∧ (∃ s : State, s.busy = false) ∧
      (∃ s : State, s.host.inFifo.length + 1 = s.inDepth ∧ s.host.eoi = false) ∧
      (∃ s : State, s.host.inFifo.length = s.inDepth) ∧ 0x3C ≤ 0x3C ∧ 0x3C % 4 = 0 ∧ 0x3C ∉ [0, 4, 0x10, 0x14] ∧ (16 ≠ 32 ∨ 2 % 4 ≠ 0 ∨ 0x3C < 0x40) :=
  ⟨⟨waitingIn, by decide +kernel⟩, ⟨machine fresh, by decide +kernel⟩, ⟨machine { fed [1] fresh with inDepth := 2 }, by decide +kernel⟩,
    ⟨machine { fed [1] fresh with inDepth := 1 }, by decide +kernel⟩, by decide⟩

theorem witness_HostReads :
    (∃ s : State, s.host.outFifo = []) ∧ (∃ s : State, s.host.outFifo = 7 :: [8]) ∧ 0x1C ≤ 0x3C ∧ 0x1C % 4 = 0 ∧ 0x28 ≤ 0x3C :=
  ⟨⟨machine fresh, by decide +kernel⟩, ⟨machine { fresh with host.outFifo := [7, 8] }, by decide +kernel⟩, by decide⟩

theorem witness_HoldsOnlyDelay :
    (∃ (i : Instr) (s t : State) (h : Hold), s.hold = none ∧ exec i s = .next t ∧ t.hold = some h ∧ h.wait = .input) ∧
      ∃ (i : Instr) (s t u : State) (h : Hold), s.hold = none ∧ exec i s = .next t ∧ t.hold = some h ∧ h.wait = .output ∧
        t.host.outFifo ≠ [] ∧ t.host.outFifo.length ≤ t.outDepth ∧ exec i { s with outDepth := s.outDepth + 1 } = .next u :=
  ⟨⟨.brReadBool, machine fresh, after .brReadBool (machine fresh), (after .brReadBool (machine fresh)).hold.get (by decide +kernel),
      by decide +kernel, exec_after (by decide +kernel), (Option.some_get _).symm, by decide +kernel⟩,
    ⟨.bwWriteBits 16, machine fullOut, after (.bwWriteBits 16) (machine fullOut), after (.bwWriteBits 16) (machine { fullOut with outDepth := 2 }),
      (after (.bwWriteBits 16) (machine fullOut)).hold.get (by decide +kernel), by decide +kernel, exec_after (by decide +kernel),
      (Option.some_get _).symm, by decide +kernel, by decide +kernel, by decide +kernel, exec_after (by decide +kernel)⟩⟩

theorem witness_UnusableStates :
    (∃ (s : State) (i : Instr), i ≠ .nop ∧ i ≠ .coreReset ∧ s.frame.phase = .error) ∧
      (∃ (s : State) (i : Instr), i ≠ .nop ∧ i ≠ .coreReset ∧ s.frame.phase = .closed) ∧ decode 5 = .error (.reservedOpcode 5) :=
  ⟨⟨machine (inPhase .error fresh), .strClose, by decide +kernel⟩, ⟨machine (inPhase .closed fresh), .crcInit, by decide +kernel⟩, by decide⟩

theorem witness_FailedChecksRaise :
    (∃ s : State, s.Live ∧ s.AlphaOk ∧ s.mtf.nInUse.toNat = 256 ∧ checksOk s.toEngine .blkCheckCrc = false ∧
      checksOk s.toEngine (.brReadBits 25) = false ∧ checksOk s.toEngine (.hufSetLen 5 258) = false) ∧
      (∃ s : State, s.Live ∧ s.AlphaOk ∧ s.mtf.len.toNat ≤ s.huf.nSelectors.toNat * 50 ∧ checksOk s.toEngine .hufEncodeData = false) ∧
      ∃ s : State, s.Live ∧ (Instr.hufAlloc 6 2).wellFormed = false ∧ (Instr.strEncOpen 10).wellFormed = false :=
  ⟨⟨machine { fresh with bwt.hopsLeft := 1, mtf.nInUse := 256 }, by decide +kernel⟩,
    ⟨machine { tabled with huf.code := rowed 0 [0x03000004, 0x03000005, 0x03000006, 0x01000000] }, by decide +kernel⟩, ⟨machine fresh, by decide +kernel⟩⟩

theorem witness_ErrorsAndTransitions :
    (∃ t, exec (.strEncOpen 1) (machine fresh) = .next t) ∧ (∃ t, exec .strEncWrite (machine fresh) = .next t) ∧
      ∃ t, exec .coreReset (machine (inPhase .error { fresh with host.err := true })) = .next t :=
  ⟨⟨_, exec_after (by decide +kernel)⟩, ⟨_, exec_after (by decide +kernel)⟩, _, exec_after (by decide +kernel)⟩

/-- The machine after a byte has been pushed for the waiting command. -/
def pushedIn : State := { waitingIn with script := [.write 32 0x10 0x80] }

theorem waitingIn_latch : waitingIn.LatchOk := by
  refine ⟨by decide +kernel, ?_⟩
  intro h hh
  obtain rfl := Option.mem_some.mp hh
  decide +kernel

theorem waitingIn_bits : waitingIn.BitsOk := by
  refine ⟨fun h => absurd h (by decide +kernel), ?_⟩
  intro h hh
  obtain rfl := Option.mem_some.mp hh
  decide +kernel

theorem witness_StepKeepsLatchAndBits :
    ∃ s t : State, step s = .next t ∧ s.LatchOk ∧ s.BitsOk ∧ s.OutFifoOk ∧ s.BlockKOk := by
  refine ⟨pushedIn, stepped pushedIn, step_stepped (by decide +kernel), ⟨waitingIn_latch.1, waitingIn_latch.2⟩, ⟨waitingIn_bits.1, waitingIn_bits.2⟩, ⟨by decide +kernel, ?_⟩,
    by decide +kernel, ?_⟩ <;>
  · intro h hh
    obtain rfl := Option.mem_some.mp hh
    decide +kernel

theorem fresh_ranges : fresh.RangesOk := by constructor <;> decide +kernel

theorem pushedIn_ranges : pushedIn.RangesOk := ⟨fresh_ranges, fun h hh => by obtain rfl := Option.mem_some.mp hh; exact fresh_ranges⟩

theorem fresh_codes : fresh.CodesOk := by
  intro row hr c hc
  obtain ⟨-, rfl⟩ := Vector.mem_replicate.mp (Vector.mem_toList_iff.mp hr)
  obtain ⟨-, rfl⟩ := Vector.mem_replicate.mp (Vector.mem_toList_iff.mp hc)
  decide

theorem witness_StepKeepsWriterClean :
    ∃ s t : State, step s = .next t ∧ s.LatchOk ∧ s.BitsOk ∧ s.RangesOk ∧ s.WriterClean :=
  ⟨pushedIn, stepped pushedIn, step_stepped (by decide +kernel), ⟨waitingIn_latch.1, waitingIn_latch.2⟩, ⟨waitingIn_bits.1, waitingIn_bits.2⟩, pushedIn_ranges,
    ⟨fresh_codes, fun h => absurd h (by decide +kernel)⟩, fun h hh => by obtain rfl := Option.mem_some.mp hh; exact ⟨fresh_codes, by decide +kernel⟩⟩

theorem witness_StepKeepsRanges : ∃ s t : State, step s = .next t ∧ s.RangesOk := ⟨pushedIn, stepped pushedIn, step_stepped (by decide +kernel), pushedIn_ranges⟩

theorem fresh_filled : fresh.FilledOk :=
  ⟨exists_of_isSome (by decide +kernel), exists_of_isSome (by decide +kernel), exists_of_isSome (by decide +kernel),
    fun h => absurd h (by decide +kernel)⟩

theorem witness_StepKeepsArrays : ∃ s t : State, step s = .next t ∧ s.StoresWf ∧ s.FilledOk :=
  ⟨pushedIn, stepped pushedIn, step_stepped (by decide +kernel), ⟨by decide +kernel, fun h hh => by obtain rfl := Option.mem_some.mp hh; decide +kernel⟩,
    fresh_filled, fun h hh => by obtain rfl := Option.mem_some.mp hh; exact fresh_filled⟩

/-- A command answers a next state with no error and no hold. -/
def completes (i : Instr) (e : Engine) : Bool :=
  match exec i (machine e) with
  | .next t => !t.host.err && t.hold.isNone
  | _ => false

theorem next_of_completes {i : Instr} {e : Engine} (h : completes i e = true) : ∃ t, exec i (machine e) = .next t := by
  unfold completes at h
  split at h
  · exact ⟨_, ‹_›⟩
  · exact absurd h (by decide)

theorem witness_FrameBitsAndCrc :
    ∀ q ∈ [(Instr.nop, fresh), (.brReadBits 3, fed [1] fresh), (.brReadBool, fed [1] fresh), (.brReadUnary 9, fed [1] fresh),
        (.brReadInt32, fed [1, 2, 3, 4] fresh), (.bwWriteBits 24, fresh), (.bwWriteBool, fresh), (.bwWriteUnary, fresh), (.bwFlush, fresh),
        (.bwWriteInt32, fresh), (.crcInit, fresh), (.crcUpdate, fresh), (.crcFinal, fresh), (.crcCombine, fresh), (.crcStreamInit, fresh),
        (.crcReadStream, fresh), (.crcReadStored 1, fresh)],
      ∃ t, exec q.1 (machine q.2) = .next t :=
  fun q hq => next_of_completes ((by decide +kernel : ∀ q ∈ [(Instr.nop, fresh), (.brReadBits 3, fed [1] fresh), (.brReadBool, fed [1] fresh),
      (.brReadUnary 9, fed [1] fresh), (.brReadInt32, fed [1, 2, 3, 4] fresh), (.bwWriteBits 24, fresh), (.bwWriteBool, fresh),
      (.bwWriteUnary, fresh), (.bwFlush, fresh), (.bwWriteInt32, fresh), (.crcInit, fresh), (.crcUpdate, fresh), (.crcFinal, fresh),
      (.crcCombine, fresh), (.crcStreamInit, fresh), (.crcReadStream, fresh), (.crcReadStored 1, fresh)], completes q.1 q.2 = true) q hq)

theorem witness_FrameRle1BwtMtf :
    (∀ q ∈ [(Instr.rle1Put, { fresh with block.k := 1 }), (.rle1Flush, fresh), (.rle1Get, fresh), (.bwtForward, { fresh with block.len := 6, block.blk := filled banana }),
        (.bwtInvSetup, { fresh with bwt.len := 2, bwt.arr := filled [7, 8] }),
        (.bwtInvNext, fresh), (.bwtSetStart, fresh), (.mtfInit 0, fresh), (.mtfInit 1, fresh),
        (.mtfReadMap, fed [0x02, 0x00, 0x40, 0x00] fresh),
        (.mtfWriteMap, fresh)], completes q.1 q.2 = true) ∧
      ∀ q ∈ [(Instr.rle1GetBlk, { fresh with block.len := 1, block.blk := filled [7] }),
        (.bwtGet, { fresh with bwt.len := 1, bwt.arr := filled [7] }), (.mtfEncByte, withArg 0x6E abn), (.mtfEncEnd, abn),
        (.mtfDecSym, withArg 3 abn), (.mtfGet, { fresh with mtf.len := 1, mtf.stream := filled [7] })], completes q.1 q.2 = true := by
  decide +kernel

theorem witness_FrameHuffman :
    (∀ q ∈ [(Instr.hufAlloc 5 258, fresh), (.hufSetFreq 5 257, fresh), (.hufSetGroups, { fresh with mtf.len := 6 }), (.hufSeed, staged),
        (.hufSelectPass, staged), (.hufOptimize, staged), (.hufAssignCodes 1, tabled), (.hufWriteTables, tabled), (.hufEncodeData, tabled)],
        completes q.1 q.2 = true) ∧
      ∀ q ∈ [(Instr.hufReadTables, fed [0x40, 0x00, 0x43, 0x1E, 0xA0, 0xCC, 0x21] { fresh with mtf.nInUse := 3 }), (.hufBuildDecode 0, tabled),
        (.hufDecodeSym, fed [0x5B, 0x80] lookedUp), (.hufEncodeSym 0, withArg 2 tabled), (.hufSetLen 5 257, withArg 1 fresh),
        (.hufGetLen 5 257, fresh), (.hufGetCode 5 257, fresh), (.hufGetSel, tabled)], completes q.1 q.2 = true := by
  decide +kernel

theorem witness_FrameBlockAndStream :
    (∀ q ∈ [(Instr.blkEncOpen 9, fresh), (.blkEncWrite, withArg 0x61 openA), (.blkEncClose, openA), (.blkDecStart 0, fed blockOfA fresh),
        (.blkDecRead, fresh), (.blkCheckCrc, { fresh with crc.block := 0xE66C6494, crc.storedBlock := 0x19939B6B })],
        completes q.1 q.2 = true) ∧
      ∀ q ∈ [(Instr.strEncOpen 9, fresh), (.strEncWrite, inPhase .encActive (withArg 0x61 openA)), (.strEncFinish, inPhase .encActive openA),
        (.strDecOpen 0, fresh), (.strDecRead, inPhase .decUninit (fed ([0x42, 0x5A, 0x68, 0x31] ++ streamOfA) fresh)), (.strClose, fresh),
        (.coreReset, fresh)], completes q.1 q.2 = true := by
  decide +kernel

theorem witness_ArrayFrames :
    ∀ q ∈ [(Instr.rle1Put, { fresh with block.k := 1 }), (.rle1Flush, { fresh with block.runCh := 0x61, block.runLen := 5 }),
        (.blkEncWrite, withArg 0x61 openA), (.bwtForward, { fresh with block.len := 6, block.blk := filled banana }),
        (.bwtInvSetup, { fresh with bwt.len := 2, bwt.arr := filled [7, 8] }), (.mtfEncByte, withArg 0x6E abn), (.mtfEncEnd, abn),
        (.mtfDecSym, withArg 3 abn), (.hufSelectPass, staged), (.hufOptimize, staged), (.blkEncClose, openA),
        (.strEncWrite, inPhase .encActive (withArg 0x61 openA)), (.strEncFinish, inPhase .encActive openA),
        (.hufReadTables, fed [0x40, 0x00, 0x43, 0x1E, 0xA0, 0xCC, 0x21] abn), (.blkDecStart 0, fed blockOfA fresh),
        (.strDecRead, inPhase .decUninit (fed ([0x42, 0x5A, 0x68, 0x31] ++ streamOfA) fresh))], completes q.1 q.2 = true := by
  decide +kernel

end Sys2Proof.Tests
end

section
/-! SUPPORT. Every command as its checks and its body: `exec` runs them by `runCommand`, and what the body writes is what the rule of
the command lists (`writesOf`). -/

namespace Sys2Proof.Machine

variable {α : Type}

/-- The checks that `exec` makes before a command (rule R314, checks 4 and 5). -/
def checksOf : Instr → Cmd Unit
  | .brReadBits n => requireCount n
  | .bwWriteBits n => requireCount n
  | .rle1GetBlk => checkRle1GetBlk
  | .bwtGet => checkBwtGet
  | .mtfEncByte => checkMtfEncByte
  | .mtfDecSym => checkMtfDecSym
  | .mtfGet => checkMtfGet
  | .hufAlloc t count => checkHufAlloc t count
  | .hufSetFreq t sym => checkHufSetFreq t sym
  | .hufSetGroups => requireStream
  | .hufSeed => checkHufSeed
  | .hufSelectPass => selectChecks
  | .hufOptimize => selectChecks
  | .hufAssignCodes t => checkHufAssignCodes t
  | .hufWriteTables => checkHufWriteTables
  | .hufEncodeData => encodeChecks
  | .hufBuildDecode t => checkHufBuildDecode t
  | .hufEncodeSym t => checkHufEncodeSym t
  | .hufSetLen t sym => checkHufSetLen t sym
  | .hufGetLen t sym => requireCell t sym
  | .hufGetCode t sym => requireCell t sym
  | .hufGetSel => checkHufGetSel
  | .blkEncOpen k => requireMultiplier k
  | .blkDecStart k => checkBlkDecStart k
  | .blkCheckCrc => checkBlkCheckCrc
  | .strEncOpen k => checkStrEncOpen k
  | .strEncWrite => requireEncoding
  | .strEncFinish => requireEncoding
  | .strDecOpen _ => requireQuiet
  | .strDecRead => requireDecoding
  | _ => noChecks

/-- What `exec` runs of a command once its checks have passed; nothing for NOP and CORE_RESET, which `runCommand` does not run. -/
def bodyOf : Instr → Cmd Unit
  | .nop => pure ()
  | .brReadBits n => cmdBrReadBits n
  | .brReadBool => cmdBrReadBool
  | .brReadUnary limit => cmdBrReadUnary limit
  | .brReadInt32 => cmdBrReadInt32
  | .bwWriteBits n => cmdBwWriteBits n
  | .bwWriteBool => cmdBwWriteBool
  | .bwWriteUnary => cmdBwWriteUnary
  | .bwFlush => flushWriter
  | .bwWriteInt32 => cmdBwWriteInt32
  | .rle1Put => cmdRle1Put
  | .rle1Flush => cmdRle1Flush
  | .rle1Get => cmdRle1Get
  | .rle1GetBlk => cmdRle1GetBlk
  | .bwtForward => cmdBwtForward
  | .bwtInvSetup => cmdBwtInvSetup
  | .bwtInvNext => cmdBwtInvNext
  | .bwtGet => cmdBwtGet
  | .bwtSetStart => cmdBwtSetStart
  | .mtfInit decoding => cmdMtfInit decoding
  | .mtfEncByte => cmdMtfEncByte
  | .mtfEncEnd => cmdMtfEncEnd
  | .mtfDecSym => cmdMtfDecSym
  | .mtfReadMap => cmdMtfReadMap
  | .mtfWriteMap => cmdMtfWriteMap
  | .mtfGet => cmdMtfGet
  | .hufAlloc t count => cmdHufAlloc t count
  | .hufSetFreq t sym => cmdHufSetFreq t sym
  | .hufSetGroups => cmdHufSetGroups
  | .hufSeed => cmdHufSeed
  | .hufSelectPass => cmdHufSelectPass
  | .hufOptimize => cmdHufOptimize
  | .hufAssignCodes t => cmdHufAssignCodes t
  | .hufWriteTables => cmdHufWriteTables
  | .hufEncodeData => cmdHufEncodeData
  | .hufReadTables => cmdHufReadTables
  | .hufBuildDecode t => cmdHufBuildDecode t
  | .hufDecodeSym => cmdHufDecodeSym
  | .hufEncodeSym t => cmdHufEncodeSym t
  | .hufSetLen t sym => cmdHufSetLen t sym
  | .hufGetLen t sym => cmdHufGetLen t sym
  | .hufGetCode t sym => cmdHufGetCode t sym
  | .hufGetSel => cmdHufGetSel
  | .crcInit => cmdCrcInit
  | .crcUpdate => cmdCrcUpdate
  | .crcFinal => cmdCrcFinal
  | .crcCombine => cmdCrcCombine
  | .crcStreamInit => cmdCrcStreamInit
  | .crcReadStream => cmdCrcReadStream
  | .crcReadStored which => cmdCrcReadStored which
  | .blkEncOpen k => cmdBlkEncOpen k
  | .blkEncWrite => cmdBlkEncWrite
  | .blkEncClose => cmdBlkEncClose
  | .blkDecStart k => cmdBlkDecStart k
  | .blkDecRead => cmdBlkDecRead
  | .blkCheckCrc => cmdBlkCheckCrc
  | .strEncOpen k => cmdStrEncOpen k
  | .strEncWrite => cmdStrEncWrite
  | .strEncFinish => cmdStrEncFinish
  | .strDecOpen headerless => cmdStrDecOpen headerless
  | .strDecRead => cmdStrDecRead
  | .strClose => cmdStrClose
  | .coreReset => pure ()

/-- Every command but NOP and CORE_RESET is its checks and its body, run by `runCommand`, which names it in a hold. -/
theorem exec_eq_runCommand {i : Instr} (hn : i ≠ .nop) (hr : i ≠ .coreReset) (s : State) :
    exec i s = runCommand i (checksOf i) (bodyOf i) s := by
  cases i with
  | nop => exact absurd rfl hn
  | coreReset => exact absurd rfl hr
  | _ => rfl

/-! ### What each body writes -/

/-- A piece and then another. -/
theorem writes_bind {β : Type} {W : List Reg} {x : Cmd α} {f : α → Cmd β} (hx : Writes W x) (hf : ∀ a, Writes W (f a)) :
    Writes W (x >>= f) := rel_bind (composes_frame W) hx hf

/-- A piece that writes less and then another. -/
theorem writes_mono_bind {β : Type} {V W : List Reg} {x : Cmd α} {f : α → Cmd β} (hx : Writes V x) (hs : ∀ r ∈ V, r ∈ W)
    (hf : ∀ a, Writes W (f a)) : Writes W (x >>= f) := writes_bind (writes_mono hx hs) hf

/-- A piece that only reads and then another. -/
theorem writes_read_bind {β : Type} {W : List Reg} {x : Cmd α} {f : α → Cmd β} (hx : Writes [] x) (hf : ∀ a, Writes W (f a)) :
    Writes W (x >>= f) := writes_bind (writes_mono hx (by simp)) hf

theorem writes_readArg : Writes [] readArg := rel_readArg (composes_frame _)
theorem writes_argLow (n : Nat) : Writes [] (argLow n) := rel_argLow (composes_frame _) n
theorem writes_argByte : Writes [] argByte := rel_argByte (composes_frame _)
theorem writes_get : Writes [] (get : Cmd Engine) := rel_get (composes_frame _)

/-- The status registers may be written besides. -/
theorem writes_status {W : List Reg} {c : Cmd α} (h : Writes W c) : Writes (statusRegs ++ W) c :=
  writes_mono h fun _ hr => List.mem_append_right _ hr

/-- A piece whose value goes to RESULT. -/
theorem writes_valueResult {W : List Reg} {c : Cmd α} {g : α → Nat} (h : Writes W c) :
    Writes (statusRegs ++ W ++ [.result]) (do let a ← c; setResult (g a)) :=
  writes_mono_bind h (by simp +contextual) fun _ => writes_mono (writes_setResult _) (by simp)

/-- A piece after which a register goes to RESULT. -/
theorem writes_thenResult {W : List Reg} {c : Cmd Unit} {g : Engine → Nat} (h : Writes W c) :
    Writes (statusRegs ++ W ++ [.result]) (do c; let e ← get; setResult (g e)) :=
  writes_mono_bind h (by simp +contextual) fun _ => writes_read_bind writes_get fun _ =>
    writes_mono (writes_setResult _) (by simp)

/-- A piece that only reads and whose value goes to RESULT. -/
theorem writes_readResult {c : Cmd α} {g : α → Nat} (h : Writes [] c) :
    Writes (statusRegs ++ [.result]) (do let a ← c; setResult (g a)) :=
  writes_read_bind h fun _ => writes_mono (writes_setResult _) (by simp)

theorem writes_cmdRle1Put : Writes (statusRegs ++ putRegs ++ [.result]) cmdRle1Put := by
  refine writes_read_bind writes_argByte fun b => ?_
  refine writes_mono_bind (writes_rle1Put b) (by decide) fun ok => ?_
  refine writes_mono_bind (writes_setResult _) (by decide) fun _ => ?_
  cases ok
  · exact writes_mono writes_setFull (by decide)
  · exact rel_pure (composes_frame _) _

theorem writes_cmdBwtInvNext : Writes (statusRegs ++ [.curEntry, .hopsLeft, .result]) cmdBwtInvNext := by
  refine writes_read_bind writes_get fun e => ?_
  split
  · exact writes_mono writes_endWithNodata (by decide)
  · exact writes_mono_bind writes_bwtHop (by decide) fun b => writes_mono (writes_setResult _) (by decide)

theorem writes_cmdBwtSetStart : Writes (statusRegs ++ [.startPtr]) cmdBwtSetStart := by
  refine writes_read_bind (writes_argLow 24) fun p => writes_status ?_
  intro e r
  cases r <;> simp [Reg.same, Cmd.after]

theorem writes_cmdMtfInit (decoding : BitVec 1) : Writes (writesOf (.mtfInit decoding)) (cmdMtfInit decoding) := by
  have h := writes_thenResult (g := fun e => e.mtf.nInUse.toNat) (writes_mtfInit (decoding = 1))
  refine writes_mono h fun r => ?_
  simp only [writesOf, decide_eq_true_eq, List.mem_append]
  tauto

theorem writes_cmdMtfEncByte : Writes (statusRegs ++ emitRegs ++ [.mtfList, .freeCount, .result]) cmdMtfEncByte :=
  writes_read_bind writes_argByte fun v => writes_mono (writes_thenResult (writes_encodeRank v)) (by decide)

theorem writes_cmdHufAlloc (t : BitVec 3) (count : BitVec 9) : Writes (statusRegs ++ [.len, .result]) (cmdHufAlloc t count) := by
  refine writes_read_bind (writes_read_bind writes_get fun _ => rel_pure (composes_frame _) _) fun n => ?_
  refine writes_read_bind (writes_rfreqRow _ n) fun f => ?_
  exact writes_mono_bind (writes_setLenRow _ _) (by decide) fun _ => writes_mono (writes_setResult _) (by decide)

theorem writes_modRfreq (m : Table6 (BitVec 20) 258) : Writes [.rfreq] (modHuf fun h => { h with rfreq := m }) := by
  intro e r
  cases r <;> simp [Reg.same, Cmd.after]

theorem writes_modLen (m : Table6 (BitVec 5) 258) : Writes [.len] (modHuf fun h => { h with len := m }) := by
  intro e r
  cases r <;> simp [Reg.same, Cmd.after]

/-- A cell of a table set to ARG (rules R214, R240). -/
theorem writes_setCell {w n : Nat} {W : List Reg} {a : ArrayName} {v : Engine → Table6 (BitVec w) n} {i j : Nat} {x : Word → BitVec w}
    {f : Table6 (BitVec w) n → Cmd Unit} (hf : ∀ m, Writes W (f m)) :
    Writes (statusRegs ++ W) (do let y ← readArg; let e ← get; let m ← tableSet2 a (v e) i j (x y); f m) :=
  writes_read_bind writes_readArg fun _ => writes_read_bind writes_get fun _ =>
    writes_read_bind (rel_tableSet2 (composes_frame _) _ _ _ _ _) fun m => writes_status (hf m)

theorem writes_cmdHufEncodeSym (t : BitVec 3) : Writes (statusRegs ++ writerRegs) (cmdHufEncodeSym t) := by
  refine writes_read_bind (writes_argLow 9) fun s => writes_read_bind writes_get fun e => ?_
  exact writes_bind (rel_tableGet2 (composes_frame _) _ _ _ _) fun c => writes_status (writes_writeCode c)

theorem writes_cmdCrcInit : Writes [.blockCrc] cmdCrcInit := by
  intro e r
  cases r <;> simp [Reg.same, Cmd.after, cmdCrcInit]

theorem writes_cmdCrcStreamInit : Writes [.streamCrc] cmdCrcStreamInit := by
  intro e r
  cases r <;> simp [Reg.same, Cmd.after, cmdCrcStreamInit]

theorem writes_cmdBlkEncWrite : Writes (statusRegs ++ putRegs ++ [.blockCrc, .result]) cmdBlkEncWrite := by
  refine writes_read_bind writes_argByte fun b => ?_
  refine writes_mono_bind (writes_rle1Put b) (by decide) fun ok => ?_
  refine writes_mono_bind (writes_feedOrRefuse ok b) (by decide) fun _ => ?_
  exact writes_mono (writes_setResult _) (by decide)

theorem writes_cmdBlkEncClose : Writes (statusRegs ++ blkCloseRegs ++ [.result]) cmdBlkEncClose := by
  refine writes_read_bind writes_get fun e => ?_
  split
  · exact writes_valueResult writes_blkEncClose
  · exact writes_mono writes_endWithNodata (by decide)

theorem writes_modBlockK (k : BitVec 4) : Writes [.blockK] (modBlock fun b => { b with k := k }) := by
  intro e r
  cases r <;> simp [Reg.same, Cmd.after]

theorem writes_cmdBlkDecStart (k : BitVec 4) : Writes (statusRegs ++ blkStartRegs ++ [.blockK, .result]) (cmdBlkDecStart k) := by
  refine writes_bind (rel_doWhen (composes_frame _) (writes_mono (writes_modBlockK k) (by decide))) fun _ => ?_
  exact writes_mono (writes_valueResult writes_blkDecStart) (by decide)

theorem writes_cmdBlkDecRead : Writes (statusRegs ++ nextRegs ++ [.blockCrc, .result]) cmdBlkDecRead := by
  refine writes_mono_bind writes_rle1Next (by decide) fun b => ?_
  cases b with
  | none => exact writes_mono writes_endWithNodata (by decide)
  | some v =>
    exact writes_mono_bind (writes_feedBlockCrc v) (by decide) fun _ => writes_mono (writes_setResult _) (by decide)

theorem writes_cmdBlkCheckCrc : Writes (statusRegs ++ [.result]) cmdBlkCheckCrc := by
  refine writes_read_bind writes_get fun e => ?_
  exact writes_bind (writes_status (writes_setResult _)) fun _ => rel_raiseWhen (composes_frame _) _ _

theorem writes_resetWriter : Writes [.wrAcc, .wrCnt] (modBits fun r => { r with wrAcc := 0, wrCnt := 0 }) := by
  intro e r
  cases r <;> simp [Reg.same, Cmd.after]

theorem writes_cmdStrEncOpen (k : BitVec 4) :
    Writes (statusRegs ++ writerRegs ++ blkOpenRegs ++ [.streamCrc]) (cmdStrEncOpen k) := by
  refine writes_mono_bind writes_resetWriter (by decide) fun _ => ?_
  refine writes_mono_bind (writes_writeBits _ _) (by decide) fun _ => ?_
  refine writes_mono_bind (writes_writeBits _ _) (by decide) fun _ => ?_
  refine writes_mono_bind (writes_writeBits _ _) (by decide) fun _ => ?_
  refine writes_mono_bind (writes_writeBits _ _) (by decide) fun _ => ?_
  refine writes_mono_bind writes_cmdCrcStreamInit (by decide) fun _ => ?_
  refine writes_mono_bind (writes_blkEncOpen k) (by decide) fun _ => ?_
  exact writes_mono (writes_setPhase _) (by decide)

theorem writes_cmdStrEncWrite :
    Writes (statusRegs ++ putRegs ++ blkCloseRegs ++ blkOpenRegs ++ [.streamCrc, .result]) cmdStrEncWrite := by
  refine writes_read_bind writes_argByte fun b => ?_
  refine writes_mono_bind (writes_rle1Put b) (by decide) fun ok => ?_
  refine writes_bind (rel_doWhen (composes_frame _) (writes_mono (writes_nextBlockWith b) (by decide))) fun _ => ?_
  refine writes_mono_bind (writes_feedBlockCrc b) (by decide) fun _ => ?_
  exact writes_mono (writes_setResult _) (by decide)

theorem writes_cmdStrEncFinish : Writes (statusRegs ++ blkCloseRegs ++ [.streamCrc, .result]) cmdStrEncFinish := by
  refine writes_read_bind writes_get fun e => ?_
  refine writes_bind (rel_doWhen (composes_frame _) (writes_mono writes_closeAndCombine (by decide))) fun _ => ?_
  refine writes_mono_bind (writes_write48 _) (by decide) fun _ => writes_read_bind writes_get fun e => ?_
  refine writes_mono_bind (writes_write32 _) (by decide) fun _ => ?_
  refine writes_mono_bind writes_flushWriter (by decide) fun _ => ?_
  refine writes_mono_bind (writes_setPhase _) (by decide) fun _ => ?_
  exact writes_mono (writes_setResult _) (by decide)

theorem writes_cmdStrDecOpen (headerless : BitVec 1) :
    Writes (statusRegs ++ [.rdAcc, .rdCnt, .headerless, .streamCrc]) (cmdStrDecOpen headerless) := by
  intro e r
  cases r <;> simp [Reg.same, Cmd.after, cmdStrDecOpen, statusRegs]

/-- However the body of a command ends, it has written only what the rule of the command lists. -/
theorem writes_bodyOf (i : Instr) : Writes (writesOf i) (bodyOf i) := by
  cases i with
  | nop => exact rel_pure (composes_frame _) _
  | brReadBits n => exact writes_valueResult (writes_readBits _)
  | brReadBool => exact writes_valueResult (writes_readBits _)
  | brReadUnary limit => exact writes_valueResult (writes_readUnary _)
  | brReadInt32 => exact writes_valueResult writes_read32
  | bwWriteBits n => exact writes_read_bind writes_readArg fun _ => writes_status (writes_writeBits _ _)
  | bwWriteBool => exact writes_read_bind (writes_argLow 1) fun _ => writes_status (writes_writeBits _ _)
  | bwWriteUnary => exact writes_read_bind (writes_argLow 16) fun _ => writes_status (writes_writeUnary _)
  | bwFlush => exact writes_status writes_flushWriter
  | bwWriteInt32 => exact writes_read_bind writes_readArg fun _ => writes_status (writes_write32 _)
  | rle1Put => exact writes_cmdRle1Put
  | rle1Flush => exact writes_thenResult writes_flushRun
  | rle1Get =>
    exact writes_mono_bind writes_rle1Next (by decide) fun b => writes_mono (writes_resultOrNodata b) (by decide)
  | rle1GetBlk => exact writes_read_bind writes_readArg fun _ => writes_readResult (writes_blkGet _)
  | bwtForward => exact writes_valueResult writes_bwtForward
  | bwtInvSetup => exact writes_valueResult writes_bwtInvSetup
  | bwtInvNext => exact writes_cmdBwtInvNext
  | bwtGet => exact writes_read_bind writes_readArg fun _ => writes_readResult (writes_bwtArrGet _)
  | bwtSetStart => exact writes_cmdBwtSetStart
  | mtfInit decoding => exact writes_cmdMtfInit decoding
  | mtfEncByte => exact writes_cmdMtfEncByte
  | mtfEncEnd => exact writes_thenResult writes_mtfEncEnd
  | mtfDecSym => exact writes_read_bind (writes_argLow 9) fun _ => writes_valueResult (writes_mtfDecSym _)
  | mtfReadMap => exact writes_mono (writes_thenResult writes_mtfReadMap) (by decide)
  | mtfWriteMap => exact writes_thenResult writes_mtfWriteMap
  | mtfGet => exact writes_read_bind writes_readArg fun _ => writes_readResult (writes_mtfStreamGet _)
  | hufAlloc t count => exact writes_cmdHufAlloc t count
  | hufSetFreq t sym => exact writes_setCell writes_modRfreq
  | hufSetGroups => exact writes_mono (writes_thenResult writes_setGroups) (by decide)
  | hufSeed => exact writes_status writes_seed
  | hufSelectPass => exact writes_valueResult writes_selectPass
  | hufOptimize => exact writes_valueResult writes_seedAndSelect
  | hufAssignCodes t => exact writes_status (writes_assignCodes _)
  | hufWriteTables => exact writes_mono (writes_thenResult writes_writeTables) (by decide)
  | hufEncodeData => exact writes_thenResult writes_encodeCodes
  | hufReadTables => exact writes_thenResult writes_readTables
  | hufBuildDecode t => exact writes_status (writes_buildDecode _)
  | hufDecodeSym => exact writes_mono (writes_valueResult writes_hufDecodeSym) (by decide)
  | hufEncodeSym t => exact writes_cmdHufEncodeSym t
  | hufSetLen t sym => exact writes_setCell writes_modLen
  | hufGetLen t sym =>
    exact writes_read_bind writes_get fun _ => writes_readResult (rel_tableGet2 (composes_frame _) _ _ _ _)
  | hufGetCode t sym =>
    exact writes_read_bind writes_get fun _ => writes_readResult (rel_tableGet2 (composes_frame _) _ _ _ _)
  | hufGetSel => exact writes_read_bind writes_readArg fun _ => writes_readResult (writes_selectorGet _)
  | crcInit => exact writes_status writes_cmdCrcInit
  | crcUpdate => exact writes_read_bind writes_argByte fun b => writes_status (writes_feedBlockCrc b)
  | crcFinal => exact writes_readResult writes_get
  | crcCombine =>
    exact writes_read_bind writes_readArg fun a => writes_mono (writes_thenResult (writes_combineCrc a)) (by decide)
  | crcStreamInit => exact writes_status writes_cmdCrcStreamInit
  | crcReadStream => exact writes_readResult writes_get
  | crcReadStored which => exact writes_readResult writes_get
  | blkEncOpen k => exact writes_status (writes_blkEncOpen k)
  | blkEncWrite => exact writes_cmdBlkEncWrite
  | blkEncClose => exact writes_cmdBlkEncClose
  | blkDecStart k => exact writes_cmdBlkDecStart k
  | blkDecRead => exact writes_cmdBlkDecRead
  | blkCheckCrc => exact writes_cmdBlkCheckCrc
  | strEncOpen k => exact writes_cmdStrEncOpen k
  | strEncWrite => exact writes_cmdStrEncWrite
  | strEncFinish => exact writes_cmdStrEncFinish
  | strDecOpen headerless => exact writes_cmdStrDecOpen headerless
  | strDecRead => exact writes_mono (writes_strDecLoop 4) (by decide)
  | strClose => exact writes_mono (writes_setPhase _) (by decide)
  | coreReset => exact rel_pure (composes_frame _) _

/-! ### The frame of every command -/

/-- Every command that `runCommand` runs may write the status registers (rules R33, R311). -/
theorem statusRegs_subset_writesOf {i : Instr} (hn : i ≠ .nop) (hr : i ≠ .coreReset) : ∀ r ∈ statusRegs, r ∈ writesOf i := by
  intro r hm
  cases i with
  | nop => exact absurd rfl hn
  | coreReset => exact absurd rfl hr
  | _ => simp [writesOf, hm]

/-- Every command keeps what its rule does not write (rules R30 to R51). -/
theorem exec_framed (i : Instr) : Framed i := by
  intro s t h
  by_cases hn : i = .nop
  · subst hn
    cases h
    refine ⟨fun r => ?_, rfl, rfl⟩
    cases r <;> simp [Reg.same, writesOf]
  by_cases hr : i = .coreReset
  · subst hr
    cases h
    refine ⟨fun r => ?_, rfl, rfl⟩
    cases r <;> simp [Reg.same, writesOf, Engine.resetEngine, Engine.initial]
  rw [exec_eq_runCommand hn hr] at h
  exact runCommand_frame (writes_bodyOf i) (statusRegs_subset_writesOf hn hr) h

/-- No rule writes the depth of the output FIFO, a parameter of the implementation (rule R9, log entry 1). -/
theorem outDepth_notMem_writesOf (i : Instr) : Reg.outDepth ∉ writesOf i := by
  cases i with
  | mtfInit decoding =>
    by_cases hd : decoding = 1 <;> simp [writesOf, hd, statusRegs, mtfInitRegs]
  | _ =>
    simp [writesOf, statusRegs, readerRegs, writerRegs, putRegs, flushRegs, nextRegs, forwardRegs, inverseRegs, mtfInitRegs,
      emitRegs, applyRegs, passRegs, lookupRegs, readTablesRegs, blkOpenRegs, blkCloseRegs, blkStartRegs]

theorem exec_outDepth {i : Instr} {s t : State} (h : exec i s = .next t) : t.outDepth = s.outDepth :=
  ((exec_framed i s t h).1 .outDepth (outDepth_notMem_writesOf i)).symm

/-! ### What a hold keeps -/

/-- A command that comes to hold keeps its own name and the engine it started with, and counts no byte popped yet (rules R15, R94); the
host's side is as before. -/
theorem exec_hold {i : Instr} {s t : State} {h : Hold} (hs : s.hold = none) (hx : exec i s = .next t) (ht : t.hold = some h) :
    (h.instr = i ∧ h.start = s.toEngine ∧ h.popped = 0) ∧ ∃ e, t = { s with toEngine := e, hold := some h } := by
  have hfin : ∀ x, finish i s x = .next t →
      (h.instr = i ∧ h.start = s.toEngine ∧ h.popped = 0) ∧ ∃ e, t = { s with toEngine := e, hold := some h } := by
    intro x hf
    rcases x with _ | ⟨k | w | f, e⟩ <;> cases hf <;> cases ht
    exact ⟨⟨rfl, rfl, rfl⟩, e, rfl⟩
  by_cases hn : i = .nop
  · subst hn
    cases hx
    cases ht
  by_cases hr : i = .coreReset
  · subst hr
    cases hx
    cases ht
  rw [exec_eq_runCommand hn hr] at hx
  rcases runCommand_cases i (checksOf i) (bodyOf i) s with ⟨-, h'⟩ | ⟨-, h'⟩ | ⟨-, r₀, e₀, -, h'⟩ | ⟨-, e₀, -, h'⟩
  · rw [h'] at hx
    cases hx
    rw [hs] at ht
    cases ht
  · rw [h'] at hx
    cases hx
    cases ht
  · exact hfin _ (h' ▸ hx)
  · exact hfin _ (h' ▸ hx)

end Sys2Proof.Machine
end

section
/-! SUPPORT. A hold only delays (rules R15, R94; log entry 2): a held command is run again from the engine it started with, so what it
then does is what it would have done with the later input or room from the start. -/

namespace Sys2Proof.Machine

/-- A held command that can go on does so before the host acts (rule R94). -/
theorem step_resume {t : State} {h : Hold} (ht : t.hold = some h) (hc : t.canResume h = true) : step t = resumeCommand t h := by
  simp [step, stepState, ht, hc]

/-- Settling with no byte popped changes nothing: the depth is the one the command ran with, and a new hold starts where the old one
did. -/
theorem settle_unpopped {i : Instr} {s u : State} {h : Hold} (hs : s.hold = none) (hstart : h.start = s.toEngine)
    (hpop : h.popped = 0) (hx : exec i s = .next u) : u.settle s.outDepth h = u := by
  have hd := exec_outDepth hx
  cases hu : u.hold with
  | none =>
    obtain ⟨e, hold, script, seen⟩ := u
    cases hu
    simp [State.settle, hpop, ← hd]
  | some k =>
    obtain ⟨⟨-, hstart', hpop'⟩, e, rfl⟩ := exec_hold hs hx hu
    obtain ⟨instr, wait, start, popped⟩ := k
    simp_all [State.settle, ← hd]

/-- Settling changes nothing of the engine but the output FIFO and its depth. -/
theorem settle_same {d : Nat} {h : Hold} {u : State} {r : Reg} (hr : r ≠ .outFifo) (hr' : r ≠ .outDepth) :
    r.same u.toEngine (u.settle d h).toEngine := by
  cases r <;> simp_all [Reg.same]

/-- A held command of which no byte was popped goes on as it would have begun from its start image: `s` is the machine with that
image. -/
theorem resumeCommand_unpopped {s : State} {h : Hold} {e : Engine} (hs : s.hold = none) (hstart : h.start = s.toEngine)
    (hpop : h.popped = 0) (he : e.outDepth = s.outDepth) :
    resumeCommand { s with toEngine := e, hold := some h } h = exec h.instr s := by
  have hreplay : State.replay { s with toEngine := e, hold := some h } h = s := by
    obtain ⟨s', hold, script, seen⟩ := s
    cases hs
    simp [State.replay, hstart, hpop, he]
  unfold resumeCommand
  rw [hreplay]
  cases hx : exec h.instr s with
  | next u => exact congrArg _ (he ▸ settle_unpopped hs hstart hpop hx)
  | fault f => rfl
  | refused r => rfl

/-- A held command that is given what it waits for does what it would have done with that from the start (rules R15, R94); `f` is what
the host does to the engine. -/
theorem step_onEngine_of_hold {i : Instr} {s t : State} {h : Hold} {f : Engine → Engine} (hs : s.hold = none)
    (hx : exec i s = .next t) (ht : t.hold = some h) (hf : ∀ e, (f e).outDepth = e.outDepth)
    (hc : (t.onEngine f).canResume h = true) : step (t.onEngine f) = exec i { s with toEngine := f s.toEngine } := by
  obtain ⟨⟨rfl, hstart, hpop⟩, e, rfl⟩ := exec_hold hs hx ht
  have he : (f e).outDepth = (f s.toEngine).outDepth := by
    rw [hf, hf]
    exact exec_outDepth hx
  rw [step_resume (h := { h with start := f h.start }) rfl hc]
  exact resumeCommand_unpopped (s := { s with toEngine := f s.toEngine }) (h := { h with start := f h.start }) hs
    (congrArg f hstart) hpop he

/-- A byte given to a command that waits for input. -/
theorem canResume_pushInput {t : State} {h : Hold} (hw : h.wait = .input) (b : Byte) :
    (t.onEngine (Engine.pushInput b)).canResume h = true := by simp [State.canResume, hw]

/-- The end of input given to a command that waits for input. -/
theorem canResume_setEoi {t : State} {h : Hold} (hw : h.wait = .input) : (t.onEngine Engine.setEoi).canResume h = true := by
  simp [State.canResume, hw]

/-- A command that waits for room and from whose FIFO a byte is popped goes on as from a FIFO one byte deeper, and then the popped byte
leaves the FIFO (rules R15, R94). -/
theorem step_popOutput_of_hold {i : Instr} {s t u : State} {h : Hold} (hs : s.hold = none) (hx : exec i s = .next t)
    (ht : t.hold = some h) (hw : h.wait = .output) (hne : t.host.outFifo ≠ []) (hle : t.host.outFifo.length ≤ t.outDepth)
    (hu : exec i { s with outDepth := s.outDepth + 1 } = .next u) :
    step t.popOutput = .next (u.settle t.outDepth { h with popped := 1 }) := by
  obtain ⟨⟨rfl, hstart, hpop⟩, e, rfl⟩ := exec_hold hs hx ht
  obtain ⟨b, rest, hb⟩ := List.exists_cons_of_ne_nil hne
  have hd : e.outDepth = s.outDepth := exec_outDepth hx
  have hroom : rest.length < e.outDepth := by
    rw [hb] at hle
    exact hle
  rw [State.popOutput_cons _ hb, step_resume (h := { h with popped := 1 }) (by simp [hpop]) (by simpa [State.canResume, hw] using hroom)]
  obtain ⟨s', hold, script, seen⟩ := s
  cases hs
  simp only [resumeCommand, State.replay, hstart, hd, hu]

/-- Settles O48: a held command resumes by running again from its start image, and a hold keeps that image, the depth of the FIFO and
the host's side (`exec_hold`, `exec_outDepth`). -/
theorem holdsOnlyDelay : Obligations.HoldsOnlyDelay := by
  intro i s t h hs hx ht
  refine ⟨fun hw => ⟨fun b => ?_, ?_⟩, fun hw hne hle u hu => ?_⟩
  · exact step_onEngine_of_hold hs hx ht (fun _ => rfl) (canResume_pushInput hw b)
  · exact step_onEngine_of_hold hs hx ht (fun _ => rfl) (canResume_setEoi hw)
  · exact ⟨_, step_popOutput_of_hold hs hx ht hw hne hle hu, rfl, by simp, fun _ => settle_same⟩

end Sys2Proof.Machine
end

section
/-! SUPPORT. The bit commands that find bits or room missing (rules R15, R141, R145 to R147, R315). -/

namespace Sys2Proof.Machine

variable {e : Engine}

/-! ### Reads that run out of input -/

/-- With no bit at hand there is nothing to pull. -/
theorem drainInput_of_inBits_nil (hok : e.bits.ReaderOk) (h : e.inBits = []) : e.drainInput = e := by
  have hlen := inBits_length (e := e)
  have hin : e.host.inFifo.length = 0 := by
    rw [h, List.length_nil] at hlen
    omega
  rw [drainInput_eq_pull, hin, pull_zero hok.2]

/-- A read of one bit with none at hand. -/
theorem readBits_one_empty (hok : e.bits.ReaderOk) (h : e.inBits = []) :
    readBits 1 e = .error (if e.host.eoi then .raised .insufficientData else .hold .input) e := by
  rw [readBits_short (by norm_num) hok (by simp [h]), drainInput_of_inBits_nil hok h]

/-- `Read32()` that runs out in its high half (rule R146). -/
theorem read32_short_high (hok : e.bits.ReaderOk) (hlen : e.inBits.length < 16) :
    read32 e = .error (if e.host.eoi then .raised .insufficientData else .hold .input) e.drainInput :=
  bind_error (readBits_short (by norm_num) hok hlen)

/-- `Read32()` that runs out in its low half: the high half is lost (rules R146, R315). -/
theorem read32_short_low (hok : e.bits.ReaderOk) (h16 : 16 ≤ e.inBits.length) (hlen : e.inBits.length < 32) :
    read32 e = .error (if e.host.eoi then .raised .insufficientData else .hold .input) (e.consume 16).drainInput := by
  have hlow : (e.consume 16).inBits.length < 16 := by
    rw [consume_inBits hok h16, List.length_drop]
    omega
  unfold read32
  rw [bind_ok (readBits_run (by norm_num) hok h16), bind_error (readBits_short (by norm_num) (consume_readerOk hok h16) hlow)]
  rfl

/-- `ReadUnary(M)` with only one-bits ahead, fewer than `M` (rule R145): all of them are read, and the next bit is missing. -/
theorem readUnary_short {m c : Nat} (hok : e.bits.ReaderOk) (hc : c < m) (h : e.inBits = List.replicate c true) :
    readUnary m e = .error (if e.host.eoi then .raised .insufficientData else .hold .input) (e.consume c) := by
  suffices hs : ∀ c left k (e : Engine), e.bits.ReaderOk → c < left → e.inBits = List.replicate c true →
      readUnaryFrom left k e = .error (if e.host.eoi then .raised .insufficientData else .hold .input) (e.consume c) from
    hs c m 0 e hok hc h
  clear h hc hok
  intro c
  induction c with
  | zero =>
    intro left k e hok hc h
    obtain ⟨left, rfl⟩ : ∃ l, left = l + 1 := ⟨left - 1, by omega⟩
    rw [consume_zero hok]
    exact bind_error (readBits_one_empty hok h)
  | succ c ih =>
    intro left k e hok hc h
    obtain ⟨left, rfl⟩ : ∃ l, left = l + 1 := ⟨left - 1, by omega⟩
    have h1 : 1 ≤ e.inBits.length := by simp [h]
    have hrest : (e.consume 1).inBits = List.replicate c true := by rw [consume_inBits hok h1, h]; rfl
    unfold readUnaryFrom
    rw [bind_ok (readBits_one hok (h.trans List.replicate_succ)), if_neg (by simp),
      ih left (k + 1) (e.consume 1) (consume_readerOk hok h1) (by omega) hrest, consume_consume hok (by simp [h]; omega), Nat.add_comm 1 c]
    rfl

/-! ### Writes that find the FIFO full -/

/-- A command whose body writes the bits `bs` waits without room for them, with the FIFO filled (rules R15, R147). -/
theorem waits_of_emits {i : Instr} {checks body c : Cmd Unit} {s : State} {bs : List Bool}
    (hex : exec i s = runCommand i checks body s) (hl : s.Live) (hc : checks s.toEngine = .ok () s.toEngine)
    (hemits : Cmd.Emits bs c) (hb : body s.begun = c s.begun) (hok : s.bits.WriterOk) (hdep : s.host.outFifo.length ≤ s.outDepth)
    (hroom : ¬ s.HasRoom bs.length) : ∃ e, Waits i s .output e ∧ s.begun.StuckWriting bs e := by
  rcases hemits s.begun hok hdep with ⟨hyes, -⟩ | ⟨-, e, hrun, hstuck⟩
  · exact absurd hyes hroom
  · exact ⟨e, waits_of hex hl hc (hb.trans hrun), hstuck⟩

/-- The operand of BW_WRITE_BOOL is one bit of ARG (rule R149). -/
theorem emits_argBit (a : Word) : Cmd.Emits [a.getLsbD 0] (writeBits 1 (a.toNat % 2 ^ 1)) := by
  have h := emits_writeBits (n := 1) (by norm_num) (a.toNat % 2 ^ 1)
  rwa [bitsOf_mod] at h

theorem requireCount_run {n : BitVec 5} (hn : n.toNat ≤ 24) (e : Engine) : requireCount n e = .ok () e :=
  requireOk_true (decide_eq_true hn)

/-- The limit of BR_READ_UNARY (rule R145). -/
theorem unaryLimit_eq (limit : BitVec 16) :
    (if limit.toNat = 0 then 65536 else limit.toNat) = if limit = 0 then 65536 else limit.toNat := by
  simp [BitVec.toNat_eq]

/-- Settles O2: the reads from what `ReadBits`, `Read32` and `ReadUnary` do when bits are missing, the writes from `Cmd.Emits`. -/
theorem bitCommandsWait : Obligations.BitCommandsWait := by
  intro s hl
  refine ⟨fun hok => ⟨fun n hn hlen => ?_, fun h => ?_, fun hlen => ?_, fun h16 hlen => ?_, fun limit c hc h => ?_⟩,
    fun hok hdep => ⟨fun n hn hroom => ?_, fun hroom => ?_, fun hroom => ?_, fun hroom => ?_⟩⟩
  · exact runsOut_of rfl hl (requireCount_run hn _) (bind_error (readBits_short (e := s.begun) hn hok hlen))
  · exact runsOut_of rfl hl (noChecks_run _) (bind_error (readBits_one_empty (e := s.begun) hok h))
  · exact runsOut_of rfl hl (noChecks_run _) (bind_error (read32_short_high (e := s.begun) hok hlen))
  · exact runsOut_of rfl hl (noChecks_run _) (bind_error (read32_short_low (e := s.begun) hok h16 hlen))
  · rw [← unaryLimit_eq] at hc
    exact runsOut_of rfl hl (noChecks_run _) (bind_error (readUnary_short (e := s.begun) hok hc h))
  · exact waits_of_emits rfl hl (requireCount_run hn _) (emits_writeBits hn s.host.arg.toNat) rfl hok hdep (by rwa [bitsOf_length])
  · exact waits_of_emits rfl hl (noChecks_run _) (emits_argBit s.host.arg) rfl hok hdep hroom
  · exact waits_of_emits rfl hl (noChecks_run _) (emits_writeUnary (s.host.arg.toNat % 65536)) rfl hok hdep (by simpa using hroom)
  · exact waits_of_emits rfl hl (noChecks_run _) (emits_write32 s.host.arg.toNat) rfl hok hdep (by rwa [bitsOf_length])

end Sys2Proof.Machine
end

section
/-! SUPPORT. What every command is built of: the pieces that write a register some invariant of the machine is about, each with the
registers it may write, and the rules by which a body composed of such pieces keeps an invariant. A command may stop in the middle, by a
raise or a hold, so an invariant that holds there too is stated apart (`S`) from the one that holds where a piece ends normally (`I`). -/

namespace Sys2Proof.Machine

variable {α β : Type}

/-! ### Conditions before and after a piece -/

/-- What a result meets: `Q` of the value and the engine when the piece ends normally, `S` of the engine when it raises or holds, and
nothing when the machine stops with a fault. -/
def Meets (Q : α → Engine → Prop) (S : Engine → Prop) : EStateM.Result Stop Engine α → Prop
  | .ok a e => Q a e
  | .error (.fault _) _ => True
  | .error (.raised _) e => S e
  | .error (.hold _) e => S e

/-- From an engine that meets `P`, the piece has a result that meets `Q` and `S`. -/
def Cmd.Sat (P : Engine → Prop) (c : Cmd α) (Q : α → Engine → Prop) (S : Engine → Prop) : Prop := ∀ e, P e → Meets Q S (c e)

/-- The piece keeps `I` where it ends normally, and `S` holds where it raises or holds. -/
abbrev Cmd.Keeps (I S : Engine → Prop) (c : Cmd α) : Prop := Cmd.Sat I c (fun _ => I) S

section
variable {P P' : Engine → Prop} {Q Q' : α → Engine → Prop} {R : β → Engine → Prop} {S S' : Engine → Prop} {c : Cmd α}

theorem Meets.mono {x : EStateM.Result Stop Engine α} (h : Meets Q S x) (hQ : ∀ a e, Q a e → Q' a e) (hS : ∀ e, S e → S' e) :
    Meets Q' S' x := by
  rcases x with ⟨a, e⟩ | ⟨k | w | f, e⟩
  · exact hQ a e h
  · exact hS e h
  · exact hS e h
  · trivial

theorem Meets.and {x : EStateM.Result Stop Engine α} (h : Meets Q S x) (h' : Meets Q' S' x) :
    Meets (fun a e => Q a e ∧ Q' a e) (fun e => S e ∧ S' e) x := by
  rcases x with ⟨a, e⟩ | ⟨k | w | f, e⟩
  · exact ⟨h, h'⟩
  · exact ⟨h, h'⟩
  · exact ⟨h, h'⟩
  · trivial

theorem sat_mono (h : Cmd.Sat P c Q S) (hP : ∀ e, P' e → P e) (hQ : ∀ a e, Q a e → Q' a e) (hS : ∀ e, S e → S' e) :
    Cmd.Sat P' c Q' S' := fun e he => (h e (hP e he)).mono hQ hS

theorem sat_and (h : Cmd.Sat P c Q S) (h' : Cmd.Sat P' c Q' S') :
    Cmd.Sat (fun e => P e ∧ P' e) c (fun a e => Q a e ∧ Q' a e) (fun e => S e ∧ S' e) :=
  fun e he => (h e he.1).and (h' e he.2)

theorem sat_pure {a : α} (h : ∀ e, P e → Q a e) : Cmd.Sat P (pure a : Cmd α) Q S := h

theorem sat_raise {k : ErrorKind} (h : ∀ e, P e → S e) : Cmd.Sat P (Cmd.raise k : Cmd α) Q S := h

theorem sat_fail (f : Fault) : Cmd.Sat P (Cmd.fail f : Cmd α) Q S := fun _ _ => trivial

theorem sat_bind {x : Cmd α} {f : α → Cmd β} (hx : Cmd.Sat P x Q S) (hf : ∀ a, Cmd.Sat (Q a) (f a) R S) :
    Cmd.Sat P (x >>= f) R S := by
  intro e he
  have h := hx e he
  rw [bind_run]
  cases hr : x e with
  | ok a e' =>
    rw [hr] at h
    exact hf a e' h
  | error r e' =>
    rw [hr] at h
    cases r <;> exact h

/-- After a `get` the rest runs from the engine it was given. -/
theorem sat_get_bind {f : Engine → Cmd β} (hf : ∀ e₀, P e₀ → Cmd.Sat (fun e => e = e₀) (f e₀) R S) : Cmd.Sat P (get >>= f) R S :=
  fun e he => hf e he e rfl

/-- After a `get` whose value is forgotten but for the condition it meets. -/
theorem sat_get_bind' {f : Engine → Cmd β} (hf : ∀ e₀, P e₀ → Cmd.Sat P (f e₀) R S) : Cmd.Sat P (get >>= f) R S :=
  fun e he => hf e he e he

theorem sat_ite {p : Prop} [Decidable p] {x y : Cmd α} (hx : p → Cmd.Sat P x Q S) (hy : ¬ p → Cmd.Sat P y Q S) :
    Cmd.Sat P (if p then x else y) Q S := by
  split
  · exact hx ‹_›
  · exact hy ‹_›

theorem sat_raiseWhen_bind {b : Bool} {k : ErrorKind} {f : Unit → Cmd β} (hS : ∀ e, P e → S e)
    (hf : b = false → Cmd.Sat P (f ()) R S) : Cmd.Sat P (raiseWhen b k >>= f) R S := by
  cases b
  · exact hf rfl
  · exact hS

theorem sat_storeGet {γ : Type} {Q : γ → Engine → Prop} {a : ArrayName} {m : Store γ} {i : Nat}
    (h : ∀ x, m.read i = some x → ∀ e, P e → Q x e) : Cmd.Sat P (storeGet a m i) Q S := by
  unfold storeGet
  split
  · exact sat_pure (h _ ‹_›)
  · exact sat_fail _

theorem sat_storeSet {γ : Type} {Q : Store γ → Engine → Prop} {a : ArrayName} {size : Nat} {m : Store γ} {i : Nat} {x : γ}
    (h : i < size → ∀ e, P e → Q (m.write i x) e) : Cmd.Sat P (storeSet a size m i x) Q S := by
  unfold storeSet
  split
  · exact sat_pure (h ‹_›)
  · exact sat_fail _

theorem sat_tableGet {γ : Type} {Q : γ → Engine → Prop} {n : Nat} {a : ArrayName} {v : Vector γ n} {i : Nat}
    (h : ∀ hi : i < n, ∀ e, P e → Q v[i] e) : Cmd.Sat P (tableGet a v i) Q S := by
  unfold tableGet
  split
  · exact sat_pure (h ‹_›)
  · exact sat_fail _

theorem sat_tableSet {γ : Type} {n : Nat} {Q : Vector γ n → Engine → Prop} {a : ArrayName} {v : Vector γ n} {i : Nat} {x : γ}
    (h : ∀ hi : i < n, ∀ e, P e → Q (v.set i x) e) : Cmd.Sat P (tableSet a v i x) Q S := by
  unfold tableSet
  split
  · exact sat_pure (h ‹_›)
  · exact sat_fail _

/-- A loop: `I k` holds before pass `k`. -/
theorem sat_forEach {xs : List α} {c : α → Cmd Unit} (I : Nat → Engine → Prop)
    (step : ∀ k (hk : k < xs.length), Cmd.Sat (I k) (c xs[k]) (fun _ => I (k + 1)) S) :
    Cmd.Sat (I 0) (forEach xs c) (fun _ => I xs.length) S := by
  induction xs generalizing I with
  | nil => exact sat_pure fun _ h => h
  | cons x xs ih =>
    refine sat_bind (step 0 (by simp)) fun _ => ?_
    exact ih (fun k => I (k + 1)) fun k hk => step (k + 1) (by simpa using hk)

theorem keeps_forEach {I : Engine → Prop} {xs : List α} {c : α → Cmd Unit} (h : ∀ x ∈ xs, Cmd.Keeps I S (c x)) :
    Cmd.Keeps I S (forEach xs c) := sat_forEach (fun _ => I) fun _ _ => h _ (List.getElem_mem _)

theorem keeps_repeatCmd {I : Engine → Prop} {c : Cmd Unit} (h : Cmd.Keeps I S c) (n : Nat) : Cmd.Keeps I S (repeatCmd n c) := by
  induction n with
  | zero => exact sat_pure fun _ h => h
  | succ n ih => exact sat_bind h fun _ => ih

/-- A loop that collects values yields as many as it has passes. -/
theorem sat_collect {I : Engine → Prop} {xs : List α} {c : α → Cmd β} (h : ∀ x, Cmd.Keeps I S (c x)) :
    Cmd.Sat I (collect xs c) (fun ys e => ys.length = xs.length ∧ I e) S := by
  induction xs with
  | nil => exact sat_pure fun _ h => ⟨rfl, h⟩
  | cons x xs ih =>
    refine sat_bind (h x) fun y => sat_bind ih fun ys => sat_pure fun e he => ?_
    exact ⟨by simp [he.1], he.2⟩

end

/-! ### Conditions on some of the registers -/

/-- The condition is about the registers of the list only. -/
def DependsOn (D : List Reg) (I : Engine → Prop) : Prop := ∀ e e' : Engine, (∀ r ∈ D, r.same e e') → I e → I e'

theorem DependsOn.and {D D' : List Reg} {I J : Engine → Prop} (hI : DependsOn D I) (hJ : DependsOn D' J) :
    DependsOn (D ++ D') fun e => I e ∧ J e := fun e e' h he =>
  ⟨hI e e' (fun r hr => h r (List.mem_append_left _ hr)) he.1, hJ e e' (fun r hr => h r (List.mem_append_right _ hr)) he.2⟩

/-- A piece that writes none of the registers of a condition keeps it. -/
theorem keeps_of_writes {D W : List Reg} {I S : Engine → Prop} {c : Cmd α} (hI : DependsOn D I) (hS : ∀ e, I e → S e)
    (hw : Writes W c) (hd : ∀ r ∈ W, r ∉ D) : Cmd.Keeps I S c := by
  intro e he
  have h : I (c.after e) := hI e _ (fun r hr => hw e r fun hm => hd r hm hr) he
  unfold Cmd.after at h
  rcases hx : c e with ⟨a, e'⟩ | ⟨k | w | f, e'⟩ <;> rw [hx] at h
  · exact h
  · exact hS _ h
  · exact hS _ h
  · trivial

/-! ### The pieces -/

/-- The registers that the invariants of the machine are about. -/
def trackedRegs : List Reg :=
  [.err, .errcode, .phase, .outFifo, .outDepth, .rdAcc, .rdCnt, .wrAcc, .wrCnt, .code, .blockK, .blk, .blkLen, .runLen, .rlCnt,
    .randNtogo, .bwtArr, .bwtLen, .merged, .curEntry, .hopsLeft, .nInUse, .mtfStream, .mtfLen, .nGroups, .nSelectors, .selectors,
    .symCount]

/-- The piece reads a packed code out of the table CODE and changes nothing. -/
def ReadsCode (c : Cmd Word) : Prop :=
  ∀ e w e', c e = .ok w e' → e' = e ∧ ∃ row ∈ e.huf.code.toList, w ∈ row.toList

/-- The table selection of `BlkEncClose()` with the codes of the tables it ends with (rules R224 to R227, R264). -/
def prepareCodes : Cmd Unit := do
  let _ ← hufOptimize
  let e ← get
  forEach (List.range e.huf.nGroups.toNat) assignCodes

/-- `BlkEncOpen(BLOCK_K)`, with which STR_ENC_WRITE begins the next block (rule R292). -/
def reopenBlock : Cmd Unit := do
  let e ← get
  blkEncOpen e.block.k

/-- The pieces that write a tracked register, each with what it may write. -/
inductive Piece : {α : Type} → List Reg → Cmd α → Prop
  | readBits {n : Nat} (h : n ≤ 31) : Piece readerRegs (readBits n)
  | clearReader : Piece [.rdAcc, .rdCnt] (modBits fun r => { r with rdAcc := 0, rdCnt := 0 })
  | writeBits {n : Nat} (h : n ≤ 31) (v : Nat) : Piece writerRegs (writeBits n v)
  | writeCode {c : Cmd Word} (hw : Writes [] c) (h : ReadsCode c) : Piece writerRegs (c >>= writeCode)
  | flushWriter : Piece writerRegs flushWriter
  | clearWriter : Piece [.wrAcc, .wrCnt] (modBits fun r => { r with wrAcc := 0, wrCnt := 0 })
  | setPhase {p : Phase} (h : p ≠ .error) : Piece [.phase] (setPhase p)
  | flushRun : Piece flushRegs flushRun
  | rle1Put (b : Byte) : Piece putRegs (rle1Put b)
  | rle1Next : Piece nextRegs rle1Next
  | blkEncOpen {k : BitVec 4} (h : 1 ≤ k.toNat ∧ k.toNat ≤ 9) : Piece blkOpenRegs (blkEncOpen k)
  | reopenBlock : Piece blkOpenRegs reopenBlock
  | setMultiplier {k : BitVec 4} (h : 1 ≤ k.toNat ∧ k.toNat ≤ 9) : Piece [.blockK] (modBlock fun b => { b with k := k })
  | restartRuns : Piece [.rlLast, .rlCnt, .rlRep, .randNtogo, .randTpos]
    (modBlock fun b => { b with rlLast := 0, rlCnt := 0, rlRep := 0, randNtogo := 0, randTpos := 0 })
  | bwtForward : Piece forwardRegs bwtForward
  | bwtInvSetup : Piece inverseRegs bwtInvSetup
  | bwtHop : Piece [.curEntry, .hopsLeft] bwtHop
  | mtfInit (d : Bool) : Piece (mtfInitRegs ++ [.bwtLen, .decEob]) (mtfInit d)
  | emitSym (s : Nat) : Piece [.mtfStream, .mtfLen, .mtfFreq] (emitSym s)
  | bwtAppend (v : Byte) : Piece [.bwtArr, .bwtLen] (bwtAppend v)
  | setGroups : Piece [.nGroups, .nSelectors] setGroups
  | setTables {nG nS : Nat} (hG : nG ≤ 6) (hS : nS ≤ Config.maxSelectors) :
    Piece [.nGroups, .nSelectors] (modHuf fun h => { h with nGroups := BitVec.ofNat 3 nG, nSelectors := BitVec.ofNat 15 nS })
  | restartDecoder : Piece [.symCount, .decEob] (modHuf fun h => { h with symCount := 0, decEob := false })
  | hufDecodeSym : Piece (readerRegs ++ [.symCount]) hufDecodeSym
  | selectorSet (g t : Nat) : Piece [.selectors] (selectorSet g t)
  | prepareCodes : Piece (passRegs ++ [.code]) prepareCodes

theorem writes_writeCode' {c : Cmd Word} (hw : Writes [] c) : Writes writerRegs (c >>= writeCode) :=
  writes_read_bind hw fun w => writes_writeCode w

theorem writes_prepareCodes : Writes (passRegs ++ [.code]) prepareCodes := by
  refine writes_mono_bind writes_hufOptimize (by decide) fun _ => writes_read_bind writes_get fun e => ?_
  exact rel_forEach (composes_frame _) fun t => writes_mono (writes_assignCodes t) (by decide)

theorem Piece.writes {W : List Reg} {c : Cmd α} (h : Piece W c) : Writes W c := by
  cases h with
  | readBits => exact writes_readBits _
  | clearReader => intro e r; cases r <;> simp [Reg.same, Cmd.after]
  | writeBits => exact writes_writeBits _ _
  | writeCode hw => exact writes_writeCode' hw
  | flushWriter => exact writes_flushWriter
  | clearWriter => exact writes_resetWriter
  | setPhase => exact writes_setPhase _
  | flushRun => exact writes_flushRun
  | rle1Put => exact writes_rle1Put _
  | rle1Next => exact writes_rle1Next
  | blkEncOpen => exact writes_blkEncOpen _
  | reopenBlock => exact writes_read_bind writes_get fun e => writes_blkEncOpen _
  | setMultiplier => exact writes_modBlockK _
  | restartRuns => intro e r; cases r <;> simp [Reg.same, Cmd.after]
  | bwtForward => exact writes_bwtForward
  | bwtInvSetup => exact writes_bwtInvSetup
  | bwtHop => exact writes_bwtHop
  | mtfInit d => exact writes_mono (writes_mtfInit d) (by cases d <;> decide)
  | emitSym => exact writes_emitSym _
  | bwtAppend => exact writes_bwtAppend _
  | setGroups => exact writes_setGroups
  | setTables => intro e r; cases r <;> simp [Reg.same, Cmd.after]
  | restartDecoder => intro e r; cases r <;> simp [Reg.same, Cmd.after]
  | hufDecodeSym => exact writes_hufDecodeSym
  | selectorSet => exact writes_selectorSet _ _
  | prepareCodes => exact writes_prepareCodes

/-- The command is composed of pieces and of parts that write no tracked register. -/
inductive Cmd.Built : {α : Type} → Cmd α → Prop
  | quiet {α : Type} {W : List Reg} {c : Cmd α} (hw : Writes W c) (hq : ∀ r ∈ W, r ∉ trackedRegs) : Cmd.Built c
  | piece {α : Type} {W : List Reg} {c : Cmd α} (h : Piece W c) : Cmd.Built c
  | bind {α β : Type} {x : Cmd α} {f : α → Cmd β} (hx : Cmd.Built x) (hf : ∀ a, Cmd.Built (f a)) : Cmd.Built (x >>= f)
  | raiseWhen {β : Type} {b : Bool} {k : ErrorKind} {f : Unit → Cmd β} (hf : b = false → Cmd.Built (f ())) :
    Cmd.Built (raiseWhen b k >>= f)

/-- What is built of pieces keeps a condition on tracked registers that every piece keeps which may write one of them. -/
theorem Cmd.Built.keeps {D : List Reg} {I S : Engine → Prop} {c : Cmd α} (h : Cmd.Built c) (hD : ∀ r ∈ D, r ∈ trackedRegs)
    (hI : DependsOn D I) (hS : ∀ e, I e → S e)
    (hp : ∀ {γ : Type} {W : List Reg} {x : Cmd γ}, Piece W x → (∃ r ∈ W, r ∈ D) → Cmd.Keeps I S x) : Cmd.Keeps I S c := by
  induction h with
  | quiet hw hq => exact keeps_of_writes hI hS hw fun r hr hd => hq r hr (hD r hd)
  | @piece γ W x hx =>
    by_cases ho : ∃ r ∈ W, r ∈ D
    · exact hp hx ho
    · exact keeps_of_writes hI hS hx.writes fun r hr hd => ho ⟨r, hr, hd⟩
  | bind hx hf ihx ihf => exact sat_bind ihx ihf
  | raiseWhen hf ihf => exact sat_raiseWhen_bind hS ihf

end Sys2Proof.Machine
end

section
/-! SUPPORT. Every command body is built of the pieces, one lemma per shared piece of pseudocode. -/

namespace Sys2Proof.Machine

variable {α β : Type}

/-! ### Parts that write no tracked register -/

theorem built_read {c : Cmd α} (h : Writes [] c) : Cmd.Built c := .quiet h (by simp)

theorem built_pure (a : α) : Cmd.Built (pure a : Cmd α) := built_read (rel_pure (composes_frame _) a)

theorem built_raise (k : ErrorKind) : Cmd.Built (Cmd.raise k : Cmd α) := built_read (rel_raise (composes_frame _) k)

theorem built_fail (f : Fault) : Cmd.Built (Cmd.fail f : Cmd α) := built_read (rel_fail (composes_frame _) f)

theorem built_setResult (v : Nat) : Cmd.Built (setResult v) := .quiet (writes_setResult v) (by decide)

theorem built_endWithNodata : Cmd.Built endWithNodata := .quiet writes_endWithNodata (by decide)

theorem built_requireOk (ok : Bool) : Cmd.Built (requireOk ok) := built_read (rel_requireOk (composes_frame _) ok)

theorem built_raiseWhen (b : Bool) (k : ErrorKind) : Cmd.Built (raiseWhen b k) := built_read (rel_raiseWhen (composes_frame _) b k)

theorem built_feedBlockCrc (b : Byte) : Cmd.Built (feedBlockCrc b) := .quiet (writes_feedBlockCrc b) (by decide)

theorem built_combineCrc (v : Word) : Cmd.Built (combineCrc v) := .quiet (writes_combineCrc v) (by decide)

theorem built_modCrc (f : CrcUnit → CrcUnit) : Cmd.Built (modCrc f) := by
  refine .quiet (W := [.blockCrc, .streamCrc, .storedBcrc, .storedScrc]) ?_ (by decide)
  intro e r
  cases r <;> simp [Reg.same, Cmd.after]

theorem built_bwtArrGet (i : Nat) : Cmd.Built (bwtArrGet i) := built_read (writes_bwtArrGet i)

theorem built_lenRow (t n : Nat) : Cmd.Built (lenRow t n) := built_read (writes_lenRow t n)

/-! ### Composition -/

theorem built_read_bind {x : Cmd α} {f : α → Cmd β} (hx : Writes [] x) (hf : ∀ a, Cmd.Built (f a)) : Cmd.Built (x >>= f) :=
  .bind (built_read hx) hf

theorem built_get_bind {f : Engine → Cmd β} (hf : ∀ e, Cmd.Built (f e)) : Cmd.Built (get >>= f) := built_read_bind writes_get hf

theorem built_ite {p : Prop} [Decidable p] {x y : Cmd α} (hx : p → Cmd.Built x) (hy : ¬ p → Cmd.Built y) :
    Cmd.Built (if p then x else y) := by
  split
  · exact hx ‹_›
  · exact hy ‹_›

theorem built_doWhen {b : Bool} {x : Cmd Unit} (hx : b = true → Cmd.Built x) : Cmd.Built (doWhen b x) := by
  cases b
  · exact built_pure ()
  · exact hx rfl

theorem built_repeatCmd {c : Cmd Unit} (hc : Cmd.Built c) (n : Nat) : Cmd.Built (repeatCmd n c) := by
  induction n with
  | zero => exact built_pure ()
  | succ n ih => exact .bind hc fun _ => ih

theorem built_forEach {xs : List α} {c : α → Cmd Unit} (hc : ∀ x, Cmd.Built (c x)) : Cmd.Built (forEach xs c) := by
  induction xs with
  | nil => exact built_pure ()
  | cons x xs ih => exact .bind (hc x) fun _ => ih

theorem built_collect {xs : List α} {c : α → Cmd β} (hc : ∀ x, Cmd.Built (c x)) : Cmd.Built (collect xs c) := by
  induction xs with
  | nil => exact built_pure _
  | cons x xs ih => exact .bind (hc x) fun _ => .bind ih fun _ => built_pure _

/-- A piece whose value goes to RESULT. -/
theorem built_valueResult {c : Cmd α} {g : α → Nat} (h : Cmd.Built c) : Cmd.Built (do let a ← c; setResult (g a)) :=
  .bind h fun _ => built_setResult _

/-- A piece after which a register goes to RESULT. -/
theorem built_thenResult {c : Cmd Unit} {g : Engine → Nat} (h : Cmd.Built c) :
    Cmd.Built (do c; let e ← get; setResult (g e)) := .bind h fun _ => built_get_bind fun _ => built_setResult _

/-! ### Reading -/

theorem built_readBits {n : Nat} (h : n ≤ 31) : Cmd.Built (readBits n) := .piece (.readBits h)

theorem built_readUnaryFrom (left c : Nat) : Cmd.Built (readUnaryFrom left c) := by
  induction left generalizing c with
  | zero => exact built_raise _
  | succ left ih => exact .bind (built_readBits (by norm_num)) fun b => built_ite (fun _ => built_pure c) fun _ => ih _

theorem built_readUnary (m : Nat) : Cmd.Built (readUnary m) := built_readUnaryFrom m 0

theorem built_read32 : Cmd.Built read32 :=
  .bind (built_readBits (by norm_num)) fun _ => .bind (built_readBits (by norm_num)) fun _ => built_pure _

theorem built_read48 : Cmd.Built read48 :=
  .bind (built_readBits (by norm_num)) fun _ => .bind (built_readBits (by norm_num)) fun _ => built_pure _

theorem built_readPresence (v : Nat) : Cmd.Built (readPresence v) := by
  refine .bind (built_readBits (by norm_num)) fun b => .quiet (W := [.presence]) ?_ (by decide)
  intro e r
  cases r <;> simp [Reg.same, Cmd.after]

theorem built_clearPresence : Cmd.Built (modBlock fun u => { u with presence := Vector.replicate 256 false }) := by
  refine .quiet (W := [.presence]) ?_ (by decide)
  intro e r
  cases r <;> simp [Reg.same, Cmd.after]

theorem built_mtfReadMap : Cmd.Built mtfReadMap := by
  refine .bind (built_collect fun _ => built_readBits (by norm_num)) fun ranges => .bind built_clearPresence fun _ => ?_
  refine built_forEach fun q => built_ite (fun _ => built_forEach fun j => built_readPresence _) fun _ => built_pure ()

theorem built_readDelta (fuel cur : Nat) : Cmd.Built (readDelta fuel cur) := by
  induction fuel generalizing cur with
  | zero => exact .raiseWhen fun _ => .bind (built_readBits (by norm_num)) fun _ => built_pure cur
  | succ fuel ih =>
    refine .raiseWhen fun _ => .bind (built_readBits (by norm_num)) fun more => built_ite (fun _ => built_pure cur) fun _ => ?_
    exact .bind (built_readBits (by norm_num)) fun down => ih _

theorem built_readLens (t : Nat) (ss : List Nat) (cur : Nat) : Cmd.Built (readLens t ss cur) := by
  induction ss generalizing cur with
  | nil => exact built_pure ()
  | cons s ss ih =>
    refine built_get_bind fun e => .bind (built_readDelta _ cur) fun cur => built_get_bind fun e => ?_
    refine built_read_bind (rel_tableSet2 (composes_frame _) _ _ _ _ _) fun m => ?_
    exact .bind (.quiet (writes_modLen m) (by decide)) fun _ => ih cur

theorem built_readSelectors (nG : Nat) (gs list : List Nat) : Cmd.Built (readSelectors nG gs list) := by
  induction gs generalizing list with
  | nil => exact built_pure ()
  | cons g gs ih => exact .bind (built_readUnary nG) fun j => .bind (.piece (.selectorSet _ _)) fun _ => ih _

theorem built_buildDecode (t : Nat) : Cmd.Built (buildDecode t) := .quiet (writes_buildDecode t) (by decide)

theorem built_readTables : Cmd.Built readTables := by
  refine built_get_bind fun e => .raiseWhen fun _ => .bind (built_readBits (by norm_num)) fun nG => .raiseWhen fun hG => ?_
  refine .bind (built_readBits (by norm_num)) fun nS => .raiseWhen fun hS => ?_
  simp only [decide_eq_false_iff_not, not_or, not_lt] at hG hS
  refine .bind (.piece (.setTables hG.2 hS.2)) fun _ => .bind (built_readSelectors _ _ _) fun _ => ?_
  refine .bind (built_forEach fun t => .bind (built_readBits (by norm_num)) fun cur => built_readLens _ _ _) fun _ => ?_
  exact .bind (built_forEach fun t => built_buildDecode t) fun _ => .piece .restartDecoder

/-! ### Decoding a block -/

theorem built_bwtAppend (v : Byte) : Cmd.Built (bwtAppend v) := .piece (.bwtAppend v)

theorem built_mtfFlushRun : Cmd.Built mtfFlushRun := by
  refine built_get_bind fun e => built_ite (fun _ => ?_) fun _ => built_pure ()
  refine built_read_bind (rel_tableGet (composes_frame _) _ _ _) fun r => .bind (built_repeatCmd (built_bwtAppend _) _) fun _ => ?_
  refine .quiet (W := [.runAcc, .runW]) ?_ (by decide)
  intro e r
  cases r <;> simp [Reg.same, Cmd.after]

theorem built_moveToFront (j : Nat) : Cmd.Built (moveToFront j) := .quiet (writes_moveToFront j) (by decide)

theorem built_mtfLiteral (s : Nat) : Cmd.Built (mtfLiteral s) :=
  built_get_bind fun _ => built_ite (fun _ => built_raise _) fun _ => .bind (built_moveToFront _) fun _ => built_bwtAppend _

theorem built_mtfDecSym (s : Nat) : Cmd.Built (mtfDecSym s) := by
  refine built_ite (fun _ => .bind (.quiet (writes_mtfRunDigit s) (by decide)) fun _ => built_pure _) fun _ => ?_
  refine .bind built_mtfFlushRun fun _ => built_get_bind fun e => built_ite (fun _ => ?_) fun _ => ?_
  · refine .bind (.quiet (W := [.decEob]) ?_ (by decide)) fun _ => built_pure _
    intro e r
    cases r <;> simp [Reg.same, Cmd.after]
  · exact .bind (built_mtfLiteral s) fun _ => built_pure _

theorem built_decodeSymbols (left : Nat) : Cmd.Built (decodeSymbols left) := by
  induction left with
  | zero => exact built_raise _
  | succ left ih =>
    refine .bind (.piece .hufDecodeSym) fun s => .bind (built_mtfDecSym s) fun eob => ?_
    exact built_ite (fun _ => built_pure ()) fun _ => ih

theorem built_readBlockHeader : Cmd.Built readBlockHeader := by
  refine .bind built_read32 fun stored => .bind (built_modCrc _) fun _ => .bind (built_readBits (by norm_num)) fun flag => ?_
  refine .bind (.quiet (W := [.randFlag]) ?_ (by decide)) fun _ => .bind (built_readBits (by norm_num)) fun start => ?_
  · intro e r
    cases r <;> simp [Reg.same, Cmd.after]
  · refine .quiet (W := [.startPtr]) ?_ (by decide)
    intro e r
    cases r <;> simp [Reg.same, Cmd.after]

theorem built_blkDecStart : Cmd.Built blkDecStart := by
  refine .bind built_readBlockHeader fun _ => .bind built_mtfReadMap fun _ => .bind (.piece (.mtfInit true)) fun _ => ?_
  refine .bind built_readTables fun _ => built_get_bind fun e => .bind (built_decodeSymbols _) fun _ => ?_
  exact .bind (.piece .bwtInvSetup) fun n => .bind (.piece .restartRuns) fun _ => .bind (built_modCrc _) fun _ => built_pure n

theorem built_expectByte (v : Nat) : Cmd.Built (expectByte v) :=
  .bind (built_readBits (by norm_num)) fun _ => built_raiseWhen _ _

theorem built_setPhase {p : Phase} (h : p ≠ .error) : Cmd.Built (setPhase p) := .piece (.setPhase h)

/-- The digit of a stream header that passes its check is a multiplier (rule R296). -/
theorem multiplier_of_digit {d : Nat} (h : ¬ (d < 0x31 ∨ d > 0x39)) :
    1 ≤ (BitVec.ofNat 4 (d - 0x30)).toNat ∧ (BitVec.ofNat 4 (d - 0x30)).toNat ≤ 9 := by
  rw [BitVec.toNat_ofNat]
  omega

theorem built_readHeader : Cmd.Built readHeader := by
  refine built_get_bind fun e => .bind (built_doWhen fun _ => .bind (built_expectByte _) fun _ => built_expectByte _) fun _ => ?_
  refine .bind (built_expectByte _) fun _ => .bind (built_readBits (by norm_num)) fun d => .raiseWhen fun hd => ?_
  exact .bind (.piece (.setMultiplier (multiplier_of_digit (of_decide_eq_false hd)))) fun _ => built_setPhase (by decide)

theorem built_boundaryStep : Cmd.Built boundaryStep := by
  refine .bind built_read48 fun m => built_ite (fun _ => ?_) fun _ => built_ite (fun _ => ?_) fun _ => built_raise _
  · exact .bind built_blkDecStart fun _ => built_setPhase (by decide)
  · refine .bind built_read32 fun v => .bind (built_modCrc _) fun _ => built_get_bind fun e => .raiseWhen fun _ => ?_
    exact built_setPhase (by decide)

theorem built_endBlock : Cmd.Built endBlock :=
  built_get_bind fun _ => .raiseWhen fun _ => .bind (built_combineCrc _) fun _ => built_setPhase (by decide)

theorem built_rle1Next : Cmd.Built rle1Next := .piece .rle1Next

theorem built_strDecLoop (passes : Nat) : Cmd.Built (strDecLoop passes) := by
  induction passes with
  | zero => exact built_fail _
  | succ passes ih =>
    refine built_get_bind fun e => ?_
    cases e.frame.phase with
    | decUninit => exact .bind built_readHeader fun _ => ih
    | decBlockBoundary => exact .bind built_boundaryStep fun _ => ih
    | decBlockActive =>
      refine .bind built_rle1Next fun b => ?_
      cases b with
      | none => exact .bind built_endBlock fun _ => ih
      | some v => exact .bind (built_feedBlockCrc v) fun _ => built_setResult _
    | _ => exact built_endWithNodata

/-! ### Writing -/

theorem built_writeBits {n : Nat} (h : n ≤ 31) (v : Nat) : Cmd.Built (writeBits n v) := .piece (.writeBits h v)

theorem built_writeUnary (c : Nat) : Cmd.Built (writeUnary c) :=
  .bind (built_repeatCmd (built_writeBits (by norm_num) _) c) fun _ => built_writeBits (by norm_num) _

theorem built_write32 (v : Nat) : Cmd.Built (write32 v) :=
  .bind (built_writeBits (by norm_num) _) fun _ => built_writeBits (by norm_num) _

theorem built_write48 (v : Nat) : Cmd.Built (write48 v) :=
  .bind (built_writeBits (by norm_num) _) fun _ => built_writeBits (by norm_num) _

theorem built_writeFlags (bs : List Bool) : Cmd.Built (writeFlags bs) := built_forEach fun _ => built_writeBits (by norm_num) _

theorem built_mtfWriteMap : Cmd.Built mtfWriteMap :=
  built_get_bind fun _ => .bind (built_writeFlags _) fun _ =>
    built_forEach fun _ => built_ite (fun _ => built_writeFlags _) fun _ => built_pure ()

theorem built_selectorPosition (list : List Nat) (sel : Nat) : Cmd.Built (selectorPosition list sel) :=
  .quiet (writes_selectorPosition list sel) (by decide)

theorem built_writeSelectors (gs list : List Nat) : Cmd.Built (writeSelectors gs list) := by
  induction gs generalizing list with
  | nil => exact built_pure ()
  | cons g gs ih =>
    refine built_read_bind (writes_selectorGet g) fun sel => .bind (built_selectorPosition _ _) fun j => ?_
    exact .bind (built_writeUnary j) fun _ => ih _

theorem built_writeDeltas (lens : List Nat) (cur : Nat) : Cmd.Built (writeDeltas lens cur) := by
  induction lens generalizing cur with
  | nil => exact built_pure ()
  | cons len lens ih =>
    refine .bind (built_repeatCmd (built_writeBits (by norm_num) _) _) fun _ => ?_
    refine .bind (built_repeatCmd (built_writeBits (by norm_num) _) _) fun _ => ?_
    exact .bind (built_writeBits (by norm_num) _) fun _ => ih len

theorem built_writeTables : Cmd.Built writeTables := by
  refine built_get_bind fun e => .bind (built_writeBits (by norm_num) _) fun _ => .bind (built_writeBits (by norm_num) _) fun _ => ?_
  refine .bind (built_writeSelectors _ _) fun _ => built_forEach fun t => .bind (built_lenRow t _) fun lens => ?_
  exact .bind (built_writeBits (by norm_num) _) fun _ => built_writeDeltas _ _

/-- A read of a cell of CODE yields a code of the table. -/
theorem tableGet2_ok {γ : Type} {n : Nat} {a : ArrayName} {v : Table6 γ n} {t s : Nat} {e e' : Engine} {x : γ}
    (h : tableGet2 a v t s e = .ok x e') : e' = e ∧ ∃ row ∈ v.toList, x ∈ row.toList := by
  by_cases ht : t < 6
  · rw [tableGet2, bind_ok (tableGet_run ht)] at h
    by_cases hs : s < n
    · rw [tableGet_run hs] at h
      cases h
      exact ⟨rfl, _, Vector.mem_toList_iff.mpr (Vector.getElem_mem _), Vector.mem_toList_iff.mpr (Vector.getElem_mem _)⟩
    · simp [tableGet, hs] at h
  · simp [tableGet2, tableGet, ht] at h

theorem readsCode_get (t s : Nat) : ReadsCode (do let e ← get; tableGet2 .code e.huf.code t s) := fun _ _ _ h => tableGet2_ok h

theorem readsCode_bind {c : Cmd α} {f : α → Cmd Word} (hc : ∀ e a e', c e = .ok a e' → e' = e) (hf : ∀ a, ReadsCode (f a)) :
    ReadsCode (c >>= f) := by
  intro e w e' h
  rw [bind_run] at h
  cases hx : c e with
  | ok a e₁ =>
    rw [hx] at h
    obtain rfl := hc e a e₁ hx
    exact hf a e₁ w e' h
  | error r e₁ =>
    rw [hx] at h
    cases h

theorem storeGet_ok {γ : Type} {a : ArrayName} {m : Store γ} {i : Nat} {e e' : Engine} {x : γ} (h : storeGet a m i e = .ok x e') :
    m.read i = some x ∧ e' = e := by
  cases hr : m.read i with
  | none =>
    simp only [storeGet, hr] at h
    cases h
  | some y =>
    rw [storeGet_run hr] at h
    cases h
    exact ⟨rfl, rfl⟩

theorem readsCode_codeOfSymbol (i : Nat) : ReadsCode (codeOfSymbol i) :=
  readsCode_bind (fun _ _ _ h => (storeGet_ok h).2) fun _ => readsCode_bind (fun _ _ _ h => (storeGet_ok h).2) fun _ => readsCode_get _ _

theorem built_writeSymbol (i : Nat) : Cmd.Built (writeSymbol i) := .piece (.writeCode (writes_codeOfSymbol i) (readsCode_codeOfSymbol i))

theorem built_encodeCodes : Cmd.Built encodeCodes := built_get_bind fun _ => built_forEach built_writeSymbol

theorem built_hufEncodeData : Cmd.Built hufEncodeData := .bind (built_read writes_encodeChecks) fun _ => built_encodeCodes

/-! ### Encoding a block -/

theorem built_emitSym (s : Nat) : Cmd.Built (emitSym s) := .piece (.emitSym s)

theorem built_modZpend (f : MtfUnit → BitVec 20) : Cmd.Built (modMtf fun m => { m with zpend := f m }) := by
  refine .quiet (W := [.zpend]) ?_ (by decide)
  intro e r
  cases r <;> simp [Reg.same, Cmd.after]

theorem built_flushZeros : Cmd.Built flushZeros :=
  built_get_bind fun _ => built_ite (fun _ => .bind (built_forEach built_emitSym) fun _ => built_modZpend _) fun _ => built_pure ()

theorem built_encodeRank (v : Byte) : Cmd.Built (encodeRank v) := by
  refine built_get_bind fun e => .bind (.quiet (writes_findRank _) (by decide)) fun j => built_ite (fun _ => built_modZpend _) fun _ => ?_
  exact .bind built_flushZeros fun _ => .bind (built_moveToFront j) fun _ => built_emitSym _

theorem built_mtfEncEnd : Cmd.Built mtfEncEnd := .bind built_flushZeros fun _ => built_get_bind fun _ => built_emitSym _

theorem built_encodeSymbols : Cmd.Built encodeSymbols := by
  refine .bind (.piece (.mtfInit false)) fun _ => .bind built_mtfWriteMap fun _ => built_get_bind fun e => ?_
  refine .bind (built_forEach fun i => .bind (built_bwtArrGet i) fun v => ?_) fun _ => built_mtfEncEnd
  exact built_read_bind (writes_requirePresent v) fun _ => built_encodeRank v

theorem built_encodeHuffman : Cmd.Built encodeHuffman := by
  have h : Cmd.Built (do hufSetGroups; prepareCodes; writeTables; hufEncodeData) :=
    .bind (built_read_bind writes_requireStream fun _ => .piece .setGroups) fun _ => .bind (.piece .prepareCodes) fun _ =>
      .bind built_writeTables fun _ => built_hufEncodeData
  have heq : encodeHuffman = (do hufSetGroups; prepareCodes; writeTables; hufEncodeData) := by
    simp [encodeHuffman, prepareCodes]
  exact heq ▸ h

theorem built_flushRun : Cmd.Built flushRun := .piece .flushRun

theorem built_writeBlockHeader (crc start : Nat) : Cmd.Built (writeBlockHeader crc start) :=
  .bind (built_write48 _) fun _ => .bind (built_write32 _) fun _ => .bind (built_writeBits (by norm_num) _) fun _ =>
    built_writeBits (by norm_num) _

theorem built_blkEncClose : Cmd.Built blkEncClose := by
  refine .bind built_flushRun fun _ => built_get_bind fun e => .bind (.piece .bwtForward) fun start => ?_
  refine .bind (built_writeBlockHeader _ _) fun _ => .bind built_encodeSymbols fun _ => .bind built_encodeHuffman fun _ => ?_
  refine .bind (.quiet (W := [.blkNonempty]) ?_ (by decide)) fun _ => built_pure _
  intro e r
  cases r <;> simp [Reg.same, Cmd.after]

theorem built_closeAndCombine : Cmd.Built closeAndCombine := .bind built_blkEncClose fun c => built_combineCrc c

theorem built_rle1Put (b : Byte) : Cmd.Built (rle1Put b) := .piece (.rle1Put b)

theorem built_nextBlockWith (b : Byte) : Cmd.Built (nextBlockWith b) := by
  have h : Cmd.Built (do closeAndCombine; reopenBlock; let _ ← rle1Put b; pure ()) :=
    .bind built_closeAndCombine fun _ => .bind (.piece .reopenBlock) fun _ => .bind (built_rle1Put b) fun _ => built_pure ()
  exact h

/-! ### Choosing tables -/

theorem built_selectGroups (nGroups : Nat) (gs : List Nat) (total : Nat) : Cmd.Built (selectGroups nGroups gs total) := by
  induction gs generalizing total with
  | nil => exact built_pure total
  | cons g gs ih =>
    refine built_read_bind (writes_groupSyms g) fun grp => ?_
    refine built_read_bind (rel_collect (composes_frame _) fun t => writes_groupCost grp t) fun costs => ?_
    refine .bind (.piece (.selectorSet _ _)) fun _ => .bind (built_forEach fun s => ?_) fun _ => ih _
    exact .quiet (writes_rfreqBump _ s) (by decide)

theorem built_selectPass : Cmd.Built selectPass := by
  refine built_get_bind fun e => .bind (built_forEach fun t => .quiet (writes_setRfreqRow t _) (by decide)) fun _ => ?_
  refine .bind (built_selectGroups _ _ _) fun total => .bind (built_forEach fun t => ?_) fun _ => built_pure total
  exact .quiet (writes_reallocate _ t) (by decide)

theorem built_selectPasses (n c : Nat) : Cmd.Built (selectPasses n c) := by
  induction n generalizing c with
  | zero => exact built_pure c
  | succ n ih => exact .bind built_selectPass fun c => ih c

theorem built_seedAndSelect : Cmd.Built seedAndSelect :=
  .bind (.quiet writes_seed (by decide)) fun _ => built_selectPasses _ _

/-! ### The bodies -/

/-- A multiplier in a command word that passes its check (rules R261, R291). -/
theorem multiplier_of_check {k : BitVec 4} {e e' : Engine} (h : requireMultiplier k e = .ok () e') : 1 ≤ k.toNat ∧ k.toNat ≤ 9 := by
  by_contra hk
  rw [show requireMultiplier k e = _ from requireOk_false (decide_eq_false hk)] at h
  cases h

/-- The multiplier of BLK_DEC_START that passes its check (rule R270). -/
theorem multiplier_of_checkBlkDecStart {k : BitVec 4} {e e' : Engine} (h : checkBlkDecStart k e = .ok () e') : k.toNat ≤ 9 := by
  by_contra hk
  rw [show checkBlkDecStart k e = _ from requireOk_false (decide_eq_false hk)] at h
  cases h

/-- The multiplier of STR_ENC_OPEN that passes its checks (rule R291). -/
theorem multiplier_of_checkStrEncOpen {k : BitVec 4} {e e' : Engine} (h : checkStrEncOpen k e = .ok () e') :
    1 ≤ k.toNat ∧ k.toNat ≤ 9 := by
  unfold checkStrEncOpen at h
  rw [bind_run] at h
  cases hk : requireMultiplier k e with
  | ok u e₁ => exact multiplier_of_check hk
  | error r e₁ =>
    rw [hk] at h
    cases h

theorem built_cmdRle1Put : Cmd.Built cmdRle1Put := by
  refine built_read_bind writes_argByte fun b => .bind (built_rle1Put b) fun ok => .bind (built_setResult _) fun _ => ?_
  exact built_ite (fun _ => built_pure ()) fun _ => .quiet writes_setFull (by decide)

theorem built_cmdRle1Get : Cmd.Built cmdRle1Get := .bind built_rle1Next fun b => .quiet (writes_resultOrNodata b) (by decide)

theorem built_cmdBwtInvNext : Cmd.Built cmdBwtInvNext :=
  built_get_bind fun _ => built_ite (fun _ => built_endWithNodata) fun _ => built_valueResult (.piece .bwtHop)

theorem built_cmdBwtSetStart : Cmd.Built cmdBwtSetStart := by
  refine built_read_bind (writes_argLow 24) fun p => .quiet (W := [.startPtr]) ?_ (by decide)
  intro e r
  cases r <;> simp [Reg.same, Cmd.after]

theorem built_cmdHufAlloc (t : BitVec 3) (count : BitVec 9) : Cmd.Built (cmdHufAlloc t count) := by
  refine built_read_bind (writes_read_bind writes_get fun _ => rel_pure (composes_frame _) _) fun n => ?_
  refine built_read_bind (writes_rfreqRow _ n) fun f => .bind (.quiet (writes_setLenRow _ _) (by decide)) fun _ => built_setResult _

/-- A cell of a table set to ARG (rules R214, R240). -/
theorem built_setCell {w n : Nat} {a : ArrayName} {v : Engine → Table6 (BitVec w) n} {i j : Nat} {x : Word → BitVec w}
    {f : Table6 (BitVec w) n → Cmd Unit} (hf : ∀ m, Cmd.Built (f m)) :
    Cmd.Built (do let y ← readArg; let e ← get; let m ← tableSet2 a (v e) i j (x y); f m) :=
  built_read_bind writes_readArg fun _ => built_get_bind fun _ => built_read_bind (rel_tableSet2 (composes_frame _) _ _ _ _ _) hf

theorem built_cmdHufEncodeSym (t : BitVec 3) : Cmd.Built (cmdHufEncodeSym t) := by
  refine built_read_bind (writes_argLow 9) fun s => ?_
  have h : Cmd.Built ((do let e ← get; tableGet2 .code e.huf.code t.toNat s) >>= writeCode) :=
    .piece (.writeCode (writes_read_bind writes_get fun _ => rel_tableGet2 (composes_frame _) _ _ _ _) (readsCode_get _ s))
  exact h

theorem built_cmdBlkEncWrite : Cmd.Built cmdBlkEncWrite := by
  refine built_read_bind writes_argByte fun b => .bind (built_rle1Put b) fun ok => ?_
  exact .bind (.quiet (writes_feedOrRefuse ok b) (by decide)) fun _ => built_setResult _

theorem built_cmdBlkEncClose : Cmd.Built cmdBlkEncClose :=
  built_get_bind fun _ => built_ite (fun _ => built_valueResult built_blkEncClose) fun _ => built_endWithNodata

theorem built_cmdBlkDecStart {k : BitVec 4} (hk : k.toNat ≤ 9) : Cmd.Built (cmdBlkDecStart k) := by
  refine .bind (built_doWhen fun h => ?_) fun _ => built_valueResult built_blkDecStart
  exact .piece (.setMultiplier ⟨of_decide_eq_true h, hk⟩)

theorem built_cmdBlkDecRead : Cmd.Built cmdBlkDecRead := by
  refine .bind built_rle1Next fun b => ?_
  cases b with
  | none => exact built_endWithNodata
  | some v => exact .bind (built_feedBlockCrc v) fun _ => built_setResult _

theorem built_cmdStrEncOpen {k : BitVec 4} (hk : 1 ≤ k.toNat ∧ k.toNat ≤ 9) : Cmd.Built (cmdStrEncOpen k) := by
  refine .bind (.piece .clearWriter) fun _ => .bind (built_writeBits (by norm_num) _) fun _ => ?_
  refine .bind (built_writeBits (by norm_num) _) fun _ => .bind (built_writeBits (by norm_num) _) fun _ => ?_
  refine .bind (built_writeBits (by norm_num) _) fun _ => .bind (built_modCrc _) fun _ => ?_
  exact .bind (.piece (.blkEncOpen hk)) fun _ => built_setPhase (by decide)

theorem built_cmdStrEncWrite : Cmd.Built cmdStrEncWrite := by
  refine built_read_bind writes_argByte fun b => .bind (built_rle1Put b) fun ok => ?_
  refine .bind (built_doWhen fun _ => built_nextBlockWith b) fun _ => .bind (built_feedBlockCrc b) fun _ => built_setResult _

theorem built_cmdStrEncFinish : Cmd.Built cmdStrEncFinish := by
  refine built_get_bind fun e => .bind (built_doWhen fun _ => built_closeAndCombine) fun _ => .bind (built_write48 _) fun _ => ?_
  refine built_get_bind fun e => .bind (built_write32 _) fun _ => .bind (.piece .flushWriter) fun _ => ?_
  exact .bind (built_setPhase (by decide)) fun _ => built_setResult _

theorem built_cmdStrDecOpen (headerless : BitVec 1) : Cmd.Built (cmdStrDecOpen headerless) := by
  refine .bind (.piece .clearReader) fun _ => .bind (.quiet (W := [.headerless]) ?_ (by decide)) fun _ =>
    .bind (built_modCrc _) fun _ => built_setPhase (by decide)
  intro e r
  cases r <;> simp [Reg.same, Cmd.after]

/-- Every command whose checks have passed is built of the pieces, but for HUF_ASSIGN_CODES, whose codes depend on what its checks
have seen in the table. -/
theorem built_bodyOf {i : Instr} {e e' : Engine} (hc : checksOf i e = .ok () e') (hi : ∀ t, i ≠ .hufAssignCodes t) :
    Cmd.Built (bodyOf i) := by
  cases i with
  | nop => exact built_pure ()
  | brReadBits n => exact built_valueResult (built_readBits (by omega))
  | brReadBool => exact built_valueResult (built_readBits (by norm_num))
  | brReadUnary limit => exact built_valueResult (built_readUnary _)
  | brReadInt32 => exact built_valueResult built_read32
  | bwWriteBits n => exact built_read_bind writes_readArg fun _ => built_writeBits (by omega) _
  | bwWriteBool => exact built_read_bind (writes_argLow 1) fun _ => built_writeBits (by norm_num) _
  | bwWriteUnary => exact built_read_bind (writes_argLow 16) fun _ => built_writeUnary _
  | bwFlush => exact .piece .flushWriter
  | bwWriteInt32 => exact built_read_bind writes_readArg fun _ => built_write32 _
  | rle1Put => exact built_cmdRle1Put
  | rle1Flush => exact built_thenResult built_flushRun
  | rle1Get => exact built_cmdRle1Get
  | rle1GetBlk => exact built_read_bind writes_readArg fun _ => built_valueResult (built_read (writes_blkGet _))
  | bwtForward => exact built_valueResult (.piece .bwtForward)
  | bwtInvSetup => exact built_valueResult (.piece .bwtInvSetup)
  | bwtInvNext => exact built_cmdBwtInvNext
  | bwtGet => exact built_read_bind writes_readArg fun _ => built_valueResult (built_bwtArrGet _)
  | bwtSetStart => exact built_cmdBwtSetStart
  | mtfInit decoding => exact built_thenResult (.piece (.mtfInit _))
  | mtfEncByte => exact built_read_bind writes_argByte fun _ => built_thenResult (built_encodeRank _)
  | mtfEncEnd => exact built_thenResult built_mtfEncEnd
  | mtfDecSym => exact built_read_bind (writes_argLow 9) fun _ => built_valueResult (built_mtfDecSym _)
  | mtfReadMap => exact built_thenResult built_mtfReadMap
  | mtfWriteMap => exact built_thenResult built_mtfWriteMap
  | mtfGet => exact built_read_bind writes_readArg fun _ => built_valueResult (built_read (writes_mtfStreamGet _))
  | hufAlloc t count => exact built_cmdHufAlloc t count
  | hufSetFreq t sym => exact built_setCell fun m => .quiet (writes_modRfreq m) (by decide)
  | hufSetGroups => exact built_thenResult (.piece .setGroups)
  | hufSeed => exact .quiet writes_seed (by decide)
  | hufSelectPass => exact built_valueResult built_selectPass
  | hufOptimize => exact built_valueResult built_seedAndSelect
  | hufAssignCodes t => exact absurd rfl (hi t)
  | hufWriteTables => exact built_thenResult built_writeTables
  | hufEncodeData => exact built_thenResult built_encodeCodes
  | hufReadTables => exact built_thenResult built_readTables
  | hufBuildDecode t => exact built_buildDecode _
  | hufDecodeSym => exact built_valueResult (.piece .hufDecodeSym)
  | hufEncodeSym t => exact built_cmdHufEncodeSym t
  | hufSetLen t sym => exact built_setCell fun m => .quiet (writes_modLen m) (by decide)
  | hufGetLen t sym => exact built_get_bind fun _ => built_valueResult (built_read (rel_tableGet2 (composes_frame _) _ _ _ _))
  | hufGetCode t sym => exact built_get_bind fun _ => built_valueResult (built_read (rel_tableGet2 (composes_frame _) _ _ _ _))
  | hufGetSel => exact built_read_bind writes_readArg fun _ => built_valueResult (built_read (writes_selectorGet _))
  | crcInit => exact .quiet writes_cmdCrcInit (by decide)
  | crcUpdate => exact built_read_bind writes_argByte fun b => built_feedBlockCrc b
  | crcFinal => exact built_get_bind fun _ => built_setResult _
  | crcCombine => exact built_read_bind writes_readArg fun a => built_thenResult (built_combineCrc a)
  | crcStreamInit => exact .quiet writes_cmdCrcStreamInit (by decide)
  | crcReadStream => exact built_get_bind fun _ => built_setResult _
  | crcReadStored which => exact built_get_bind fun _ => built_setResult _
  | blkEncOpen k => exact .piece (.blkEncOpen (multiplier_of_check hc))
  | blkEncWrite => exact built_cmdBlkEncWrite
  | blkEncClose => exact built_cmdBlkEncClose
  | blkDecStart k => exact built_cmdBlkDecStart (multiplier_of_checkBlkDecStart hc)
  | blkDecRead => exact built_cmdBlkDecRead
  | blkCheckCrc => exact built_get_bind fun _ => .bind (built_setResult _) fun _ => built_raiseWhen _ _
  | strEncOpen k => exact built_cmdStrEncOpen (multiplier_of_checkStrEncOpen hc)
  | strEncWrite => exact built_cmdStrEncWrite
  | strEncFinish => exact built_cmdStrEncFinish
  | strDecOpen headerless => exact built_cmdStrDecOpen headerless
  | strDecRead => exact built_strDecLoop 4
  | strClose => exact built_setPhase (by decide)
  | coreReset => exact built_pure ()

end Sys2Proof.Machine
end

section
/-! SUPPORT. Everything a step can do, said once: a command begins or goes on, or the host's action edits its own registers, pops the
output FIFO or resets the engine. An invariant of the engine that every body keeps is then one of the machine. -/

namespace Sys2Proof.Machine

/-! ### What a command can do -/

/-- What a command answers (rules R313, R314), from the machine it is run on: refused in ERROR, NOP, CORE_RESET, stopped with nothing
done, or ended as its body does. -/
inductive Ran : State → State → Prop
  | refused {s : State} (h : s.frame.phase = .error) : Ran s s
  | cleared {s : State} : Ran s { s with toEngine := s.toEngine.clearFlags, hold := none }
  | reset {s : State} : Ran s { s with toEngine := s.toEngine.resetEngine, hold := none }
  | stopped {s t : State} {i : Instr} {r : Stop} (h : s.frame.phase ≠ .error) (hf : finish i s (.error r s.toEngine) = .next t) :
    Ran s t
  | ended {s t : State} {i : Instr} {e₀ : Engine} (h : s.Live) (hc : checksOf i s.toEngine = .ok () e₀)
    (hf : finish i s (bodyOf i s.begun) = .next t) : Ran s t

theorem State.Live.ne_error {s : State} (h : s.Live) : s.frame.phase ≠ .error := by
  intro he
  rw [State.Live, he] at h
  cases h

/-- A command is answered in one of the ways of `Ran`. -/
theorem ran_of_exec {i : Instr} {s t : State} (h : exec i s = .next t) : Ran s t := by
  by_cases hn : i = .nop
  · subst hn
    cases h
    exact .cleared
  by_cases hr : i = .coreReset
  · subst hr
    cases h
    exact .reset
  rw [exec_eq_runCommand hn hr] at h
  rcases runCommand_cases i (checksOf i) (bodyOf i) s with ⟨he, h'⟩ | ⟨he, h'⟩ | ⟨hl, r, e₀, -, h'⟩ | ⟨hl, e₀, hc, h'⟩ <;> rw [h'] at h
  · cases h
    exact .refused he
  · exact .stopped (i := i) (r := .raised .unsupportedOperation) (by rw [he]; decide) h
  · exact .stopped hl.ne_error h
  · exact .ended hl hc h

/-- A reserved opcode is answered in one of the ways of `Ran` (rule R105). -/
theorem ran_of_execReserved {s t : State} (h : execReserved s = .next t) : Ran s t := by
  unfold execReserved at h
  rcases runCommand_cases .nop (Cmd.raise .unsupportedOperation) noChecks s with ⟨he, h'⟩ | ⟨he, h'⟩ | ⟨hl, r, e₀, -, h'⟩ | ⟨hl, e₀, hc, -⟩
  · rw [h'] at h
    cases h
    exact .refused he
  · rw [h'] at h
    exact .stopped (i := .nop) (r := .raised .unsupportedOperation) (by rw [he]; decide) h
  · rw [h'] at h
    exact .stopped hl.ne_error h
  · cases hc

theorem ran_of_startCommand {w : Word} {s t : State} (h : startCommand w s = .next t) : Ran { s with host.cmd := w } t := by
  unfold startCommand at h
  split at h
  · exact ran_of_exec h
  · exact ran_of_execReserved h

/-- How a command that is answered a next state has ended: normally, with an error taken, or in a hold. -/
theorem finish_cases {Q S : Engine → Prop} {i : Instr} {s t : State} {x : EStateM.Result Stop Engine Unit} (hx : Meets (fun _ => Q) S x)
    (h : finish i s x = .next t) :
    (∃ e, Q e ∧ t = { s with toEngine := e, hold := none }) ∨
    (∃ k e, S e ∧ t = { s with toEngine := e.raiseError k, hold := none }) ∨
    ∃ w e, S e ∧ t = { s with toEngine := e, hold := some { instr := i, wait := w, start := s.toEngine, popped := 0 } } := by
  rcases x with ⟨a, e⟩ | ⟨k | w | f, e⟩ <;> cases h
  · exact .inl ⟨e, hx, rfl⟩
  · exact .inr (.inl ⟨k, e, hx, rfl⟩)
  · exact .inr (.inr ⟨w, e, hx, rfl⟩)

/-- A stop with nothing done meets whatever held before. -/
theorem meets_stop {Q S : Engine → Prop} {r : Stop} {e : Engine} (h : S e) :
    Meets (fun _ => Q) S (.error r e : EStateM.Result Stop Engine Unit) := by
  cases r
  · exact h
  · exact h
  · trivial

/-! ### What a step can do -/

/-- The host's edits of its own registers: ARG, DROP, EOI and the input FIFO (rules R35 to R37, R346). -/
def HostEdit (f : Engine → Engine) : Prop :=
  ∀ e, ∃ arg drop fifo eoi, f e = { e with host.arg := arg, host.drop := drop, host.inFifo := fifo, host.eoi := eoi }

theorem hostEdit_id : HostEdit id := fun e => ⟨e.host.arg, e.host.drop, e.host.inFifo, e.host.eoi, rfl⟩
theorem hostEdit_setDrop : HostEdit Engine.setDrop := fun e => ⟨e.host.arg, true, e.host.inFifo, e.host.eoi, rfl⟩
theorem hostEdit_setEoi : HostEdit Engine.setEoi := fun e => ⟨e.host.arg, e.host.drop, e.host.inFifo, true, rfl⟩
theorem hostEdit_pushInput (b : Byte) : HostEdit (Engine.pushInput b) :=
  fun e => ⟨e.host.arg, e.host.drop, e.host.inFifo ++ [b], e.host.eoi, rfl⟩
theorem hostEdit_setArg (v : Word) : HostEdit fun e => { e with host.arg := v } :=
  fun e => ⟨v, e.host.drop, e.host.inFifo, e.host.eoi, rfl⟩

/-- What a step does (rules R93 to R97, R342): a command is begun by a CMD write or a held one goes on, or the host edits its
registers, pops the output FIFO or resets the engine. -/
inductive Stepped : State → State → Prop
  | begun {s t : State} {w : Word} {script : List HostAction} (hs : s.hold = none)
    (h : Ran { s with host.cmd := w, script := script } t) : Stepped s t
  | resumed {s u : State} {h : Hold} (hs : s.hold = some h) (hr : Ran (s.replay h) u) : Stepped s (u.settle s.outDepth h)
  | edited {s : State} {f : Engine → Engine} (hf : HostEdit f) (script : List HostAction) (seen : List Word) :
    Stepped s { s.onEngine f with script := script, seen := seen }
  | popped {s : State} (script : List HostAction) (seen : List Word) : Stepped s (State.popOutput { s with script := script, seen := seen })
  | reset {s : State} (script : List HostAction) : Stepped s { s with toEngine := s.toEngine.resetEngine, hold := none, script := script }

theorem State.onEngine_id (s : State) : s.onEngine id = s := by
  obtain ⟨e, hold, script, seen⟩ := s
  cases hold <;> rfl

/-- With no command in progress only the engine changes. -/
theorem State.onEngine_idle {s : State} (h : s.hold = none) (f : Engine → Engine) : s.onEngine f = { s with toEngine := f s.toEngine } := by
  obtain ⟨e, hold, script, seen⟩ := s
  cases h
  rfl

/-- The host's side changes and nothing else. -/
theorem stepped_same (s : State) (script : List HostAction) (seen : List Word) : Stepped s { s with script := script, seen := seen } := by
  have h := Stepped.edited (s := s) hostEdit_id script seen
  rwa [State.onEngine_id] at h

/-- An edit by the host, with the machine past the action. -/
theorem stepped_edit {s : State} {f : Engine → Engine} (hf : HostEdit f) (script : List HostAction) :
    Stepped s (State.onEngine f { s with script := script }) := .edited hf script s.seen

theorem State.hold_eq_none_of_not_busy {s : State} (h : ¬ s.busy = true) : s.hold = none := by
  unfold State.busy at h
  cases hs : s.hold with
  | none => rfl
  | some k => simp [hs] at h

theorem hold_eq_none_of_isSome_eq {s t : State} (h : t.hold.isSome = s.hold.isSome) (hn : t.hold = none) : s.hold = none := by
  simpa [hn] using h.symm

theorem stepped_of_writeRegister {s t : State} {offset : Nat} {v : Word} {script : List HostAction}
    (h : writeRegister offset v { s with script := script } = .next t) : Stepped s t := by
  unfold writeRegister at h
  split at h
  · split at h
    · cases h
      exact stepped_edit hostEdit_setDrop script
    · exact .begun (State.hold_eq_none_of_not_busy ‹_›) (ran_of_startCommand (s := { s with script := script }) h)
  · split at h
    · cases h
      exact stepped_same s script s.seen
    · cases h
      have hs : s.hold = none := State.hold_eq_none_of_not_busy (s := { s with script := script }) ‹_›
      have he := stepped_edit (s := s) (hostEdit_setArg v) script
      rwa [State.onEngine_idle (s := { s with script := script }) hs] at he
  · split at h
    · cases h
      exact stepped_edit (hostEdit_pushInput _) script
    · cases h
      exact stepped_edit hostEdit_setDrop script
  · split at h
    · cases h
      exact stepped_edit hostEdit_setEoi script
    · cases h
      exact stepped_same s script s.seen
  · cases h
    exact stepped_same s script s.seen

theorem stepped_of_readRegister (s : State) (offset : Nat) (script : List HostAction) :
    Stepped s (readRegister offset { s with script := script }) := by
  unfold readRegister
  dsimp only
  split
  · exact .popped script _
  · exact stepped_same s script _

theorem stepped_of_hostTurn {s t : State} (h : hostTurn s = .next t) : Stepped s t := by
  unfold hostTurn at h
  split at h
  · cases h
    exact stepped_same s s.script s.seen
  · split at h
    · cases h
      exact stepped_same s s.script s.seen
    · cases h
      exact stepped_same s _ s.seen
  · rename_i a rest _ _
    cases a with
    | write width offset v =>
      simp only [hostAct] at h
      split at h
      · exact stepped_of_writeRegister h
      · cases h
    | read width offset =>
      simp only [hostAct] at h
      split at h
      · cases h
        exact stepped_of_readRegister s offset rest
      · cases h
    | awaitDone =>
      cases h
      exact stepped_same s rest s.seen
    | powerOnReset =>
      cases h
      exact .reset rest

theorem stepped_of_resumeCommand {s t : State} {h : Hold} (hs : s.hold = some h) (ht : resumeCommand s h = .next t) : Stepped s t := by
  unfold resumeCommand at ht
  split at ht
  · cases ht
    exact .resumed hs (ran_of_exec ‹_›)
  · cases ht
  · cases ht

/-- Every step that answers a next state is one of `Stepped`. -/
theorem stepped_of_step {s t : State} (h : step s = .next t) : Stepped s t := by
  unfold step stepState at h
  split at h
  · split at h
    · exact stepped_of_resumeCommand ‹_› h
    · exact stepped_of_hostTurn h
  · exact stepped_of_hostTurn h

/-! ### Invariants of the engine -/

/-- Two engines agree on everything but the host block, the framing state and the fields of the model's own. -/
structure SameUnits (a b : Engine) : Prop where
  bits : a.bits = b.bits
  block : a.block = b.block
  bwt : a.bwt = b.bwt
  mtf : a.mtf = b.mtf
  huf : a.huf = b.huf

/-- `I` is an invariant between commands and `S` wherever one stops: they are about the units of the engine, hold after reset, and every
body whose checks have passed keeps them. -/
structure Invariant (I S : Engine → Prop) : Prop where
  weaken : ∀ e, I e → S e
  ofUnits : ∀ {a b}, SameUnits a b → I a → I b
  ofUnitsStop : ∀ {a b}, SameUnits a b → S a → S b
  initial : ∀ inDepth outDepth freeCount, I (Engine.initial inDepth outDepth freeCount)
  body : ∀ {i e e₀}, checksOf i e = .ok () e₀ → I e → Meets (fun _ => I) S (bodyOf i e.clearFlags)

/-- The machine keeps the invariant: `S` in the engine, `I` too while no command holds and no error is latched, and `I` in the start
image of a held command. -/
def Kept (I S : Engine → Prop) (s : State) : Prop :=
  S s.toEngine ∧ (s.hold = none → s.host.err = false → I s.toEngine) ∧ ∀ h ∈ s.hold, I h.start

section
variable {I S : Engine → Prop} (hI : Invariant I S)
include hI

/-- A machine with no command in progress whose engine keeps the invariant. -/
theorem Invariant.kept_idle {s : State} {e : Engine} (h : I e) : Kept I S { s with toEngine := e, hold := none } :=
  ⟨hI.weaken e h, fun _ _ => h, by simp⟩

/-- However a command ends, the invariant is kept, if it held where the command was accepted. -/
theorem Invariant.kept_finish {i : Instr} {s t : State} {x : EStateM.Result Stop Engine Unit} (hs : I s.toEngine)
    (hx : Meets (fun _ => I) S x) (h : finish i s x = .next t) : Kept I S t := by
  rcases finish_cases hx h with ⟨e, he, rfl⟩ | ⟨k, e, he, rfl⟩ | ⟨w, e, he, rfl⟩
  · exact hI.kept_idle he
  · exact ⟨hI.ofUnitsStop (a := e) ⟨rfl, rfl, rfl, rfl, rfl⟩ he, fun _ h => by simp at h, by simp⟩
  · exact ⟨he, by simp, by simpa using hs⟩

theorem Invariant.kept_ran {s t : State} (hs : s.hold = none) (hready : s.frame.phase ≠ .error → I s.toEngine) (hk : Kept I S s)
    (h : Ran s t) : Kept I S t := by
  obtain ⟨hS, hidle, hstart⟩ := hk
  cases h with
  | refused h => exact ⟨hS, hidle, hstart⟩
  | cleared =>
    have hu : SameUnits s.toEngine s.toEngine.clearFlags := ⟨rfl, rfl, rfl, rfl, rfl⟩
    exact ⟨hI.ofUnitsStop hu hS, fun _ he => hI.ofUnits hu (hidle hs he), by simp⟩
  | reset => exact hI.kept_idle (hI.initial _ _ _)
  | stopped h hf => exact hI.kept_finish (hready h) (meets_stop (hI.weaken _ (hready h))) hf
  | ended h hc hf => exact hI.kept_finish (hready h.ne_error) (hI.body hc (hready h.ne_error)) hf

/-- A condition on an edited or popped machine is that of the machine before. -/
theorem Invariant.kept_of_sameUnits {s t : State} (hu : SameUnits s.toEngine t.toEngine) (he : t.host.err = s.host.err)
    (hh : t.hold = none → s.hold = none) (hstart : ∀ k ∈ t.hold, ∃ k' ∈ s.hold, SameUnits k'.start k.start) (hk : Kept I S s) :
    Kept I S t := by
  obtain ⟨hS, hidle, hk⟩ := hk
  refine ⟨hI.ofUnitsStop hu hS, fun hn h => hI.ofUnits hu (hidle (hh hn) (he ▸ h)), fun k hm => ?_⟩
  obtain ⟨k', hm', hu'⟩ := hstart k hm
  exact hI.ofUnits hu' (hk k' hm')

/-- Every step keeps an invariant of the engine, if it holds wherever a command can be accepted. -/
theorem Invariant.kept_step {s t : State} (hready : s.hold = none → s.frame.phase ≠ .error → I s.toEngine) (hk : Kept I S s)
    (h : step s = .next t) : Kept I S t := by
  cases stepped_of_step h with
  | @begun _ w script hs hr =>
    have hu : SameUnits s.toEngine { s.toEngine with host.cmd := w } := ⟨rfl, rfl, rfl, rfl, rfl⟩
    refine hI.kept_ran (s := { s with host.cmd := w, script := script }) hs (fun hp => hI.ofUnits hu (hready hs hp)) ?_ hr
    exact hI.kept_of_sameUnits hu rfl (fun _ => hs) (fun k hm => ⟨k, hm, rfl, rfl, rfl, rfl, rfl⟩) hk
  | @resumed u k hs hr =>
    have hstart : I k.start := hk.2.2 k (by simp [hs])
    have hrep : I (s.replay k).toEngine := hI.ofUnits (a := k.start) ⟨rfl, rfl, rfl, rfl, rfl⟩ hstart
    obtain ⟨hS, hidle, -⟩ := hI.kept_ran rfl (fun _ => hrep) ⟨hI.weaken _ hrep, fun _ _ => hrep, by simp⟩ hr
    have hu : SameUnits u.toEngine (u.settle s.outDepth k).toEngine := ⟨rfl, rfl, rfl, rfl, rfl⟩
    refine ⟨hI.ofUnitsStop hu hS, fun hn he => hI.ofUnits hu (hidle (hold_eq_none_of_isSome_eq (by simp) hn) he), fun k' hm => ?_⟩
    · obtain ⟨h', -, rfl⟩ := State.settle_hold_mem _ hm
      exact hstart
  | @edited f hf script seen =>
    have hu : ∀ e, SameUnits e (f e) := by
      intro e
      obtain ⟨arg, drop, fifo, eoi, he⟩ := hf e
      rw [he]
      exact ⟨rfl, rfl, rfl, rfl, rfl⟩
    refine hI.kept_of_sameUnits (hu s.toEngine) ?_ (hold_eq_none_of_isSome_eq (s.onEngine_isSome f)) (fun k hm => ?_) hk
    · obtain ⟨arg, drop, fifo, eoi, he⟩ := hf s.toEngine
      rw [State.onEngine_toEngine, he]
    · obtain ⟨k', hm', rfl⟩ := State.onEngine_hold_mem _ hm
      exact ⟨k', hm', hu _⟩
  | popped script seen =>
    rcases hb : s.host.outFifo with _ | ⟨b, rest⟩
    · rw [State.popOutput_nil { s with script := script, seen := seen } hb]
      exact hk
    · rw [State.popOutput_cons { s with script := script, seen := seen } hb]
      refine hI.kept_of_sameUnits (s := s) ⟨rfl, rfl, rfl, rfl, rfl⟩ rfl (fun hn => ?_) (fun k hm => ?_) hk
      · simpa using hn
      · obtain ⟨k', hm', rfl⟩ := Option.mem_map.mp hm
        exact ⟨k', hm', rfl, rfl, rfl, rfl, rfl⟩
  | reset script => exact hI.kept_idle (s := { s with script := script }) (hI.initial _ _ _)

end

/-- Every step keeps an invariant that holds in all engines, the stopped ones too, in the engine and in the start image of a held
command. -/
theorem Invariant.step {I : Engine → Prop} (hI : Invariant I I) {s t : State} (h : step s = .next t)
    (hs : I s.toEngine ∧ ∀ k ∈ s.hold, I k.start) : I t.toEngine ∧ ∀ k ∈ t.hold, I k.start :=
  have hk := hI.kept_step (fun _ _ => hs.1) ⟨hs.1, fun _ _ => hs.1, hs.2⟩ h
  ⟨hk.1, hk.2.2⟩

/-- The registers of the host block, the CRC unit and the framing state, and the fields of the model's own. -/
def hostSideRegs : List Reg :=
  [.arg, .cmd, .result, .err, .nodata, .full, .drop, .inFifo, .eoi, .outFifo, .blockCrc, .streamCrc, .storedBcrc, .storedScrc, .phase,
    .headerless, .errcode, .inDepth, .outDepth, .freeCount]

theorem SameUnits.same {a b : Engine} (h : SameUnits a b) {r : Reg} (hr : r ∉ hostSideRegs) : r.same a b := by
  cases r <;> simp_all [Reg.same, hostSideRegs, h.bits, h.block, h.bwt, h.mtf, h.huf]

theorem DependsOn.ofUnits {D : List Reg} {I : Engine → Prop} (hI : DependsOn D I) (hD : ∀ r ∈ D, r ∉ hostSideRegs) {a b : Engine}
    (h : SameUnits a b) (ha : I a) : I b := hI a b (fun r hr => h.same (hD r hr)) ha

/-- What a body keeps of a condition on tracked registers, from what the pieces keep; the codes of HUF_ASSIGN_CODES are not among its
registers. -/
theorem meets_bodyOf {D : List Reg} {I S : Engine → Prop} (hD : ∀ r ∈ D, r ∈ trackedRegs) (hcode : Reg.code ∉ D) (hI : DependsOn D I)
    (hS : ∀ e, I e → S e) (hp : ∀ {γ : Type} {W : List Reg} {x : Cmd γ}, Piece W x → (∃ r ∈ W, r ∈ D) → Cmd.Keeps I S x)
    {i : Instr} {e e₀ : Engine} (hc : checksOf i e = .ok () e₀) (h : I e.clearFlags) : Meets (fun _ => I) S (bodyOf i e.clearFlags) := by
  by_cases hi : ∃ t, i = .hufAssignCodes t
  · obtain ⟨t, rfl⟩ := hi
    refine keeps_of_writes hI hS (writes_assignCodes t.toNat) (fun r hr hd => ?_) _ h
    obtain rfl := List.mem_singleton.mp hr
    exact hcode hd
  · exact (built_bodyOf hc fun t ht => hi ⟨t, ht⟩).keeps hD hI hS hp _ h

/-- A condition on registers of the units that the pieces keep is an invariant. -/
theorem invariant_of_pieces {D : List Reg} {I S : Engine → Prop} (hD : ∀ r ∈ D, r ∈ trackedRegs ∧ r ∉ hostSideRegs)
    (hcode : Reg.code ∉ D) (hI : DependsOn D I) (hIS : DependsOn D S) (hS : ∀ e, I e → S e)
    (hinit : ∀ inDepth outDepth freeCount, I (Engine.initial inDepth outDepth freeCount))
    (hp : ∀ {γ : Type} {W : List Reg} {x : Cmd γ}, Piece W x → (∃ r ∈ W, r ∈ D) → Cmd.Keeps I S x) : Invariant I S where
  weaken := hS
  ofUnits := hI.ofUnits fun r hr => (hD r hr).2
  ofUnitsStop := hIS.ofUnits fun r hr => (hD r hr).2
  initial := hinit
  body {_ e _} hc h := meets_bodyOf (fun r hr => (hD r hr).1) hcode hI hS hp hc
    (hI.ofUnits (fun r hr => (hD r hr).2) (a := e) ⟨rfl, rfl, rfl, rfl, rfl⟩ h)

end Sys2Proof.Machine
end

section
/-! SUPPORT. The form of the bit engine between commands: what reading and writing bits keeps when it ends normally, whatever the FIFOs
hold (rules R40, R41, R140 to R153). -/

namespace Sys2Proof.Machine

variable {α : Type}

/-! ### The reader -/

theorem sat_fillByte {m : Nat} (hm : m + 8 < 64) :
    Cmd.Sat (fun e => e.bits.rdCnt.toNat = m) fillByte (fun _ e => e.bits.rdCnt.toNat = m + 8) fun _ => True := by
  have hdep : DependsOn [.rdCnt] fun e => e.bits.rdCnt.toNat = m := by
    intro e e' h he
    have h1 : e.bits.rdCnt = e'.bits.rdCnt := h .rdCnt (by simp)
    rwa [h1] at he
  refine sat_bind (keeps_of_writes hdep (fun _ _ => trivial) writes_inByte (by decide)) fun b e he => ?_
  show (BitVec.ofNat 6 (e.bits.rdCnt.toNat + 8)).toNat = m + 8
  rw [BitVec.toNat_ofNat, he]
  omega

/-- Enough bytes are pulled for `n` bits, and no more (rule R140). -/
theorem sat_fillTo {n : Nat} (hn : n ≤ 31) (fuel : Nat) :
    Cmd.Sat (fun e => e.bits.rdCnt.toNat ≤ n + 7 ∧ n ≤ e.bits.rdCnt.toNat + 8 * fuel) (fillTo n fuel)
      (fun _ e => n ≤ e.bits.rdCnt.toNat ∧ e.bits.rdCnt.toNat ≤ n + 7) fun _ => True := by
  induction fuel with
  | zero => exact sat_pure fun e he => ⟨by omega, he.1⟩
  | succ fuel ih =>
    refine sat_get_bind fun e₀ he₀ => sat_ite (fun hlt => ?_) fun hge => sat_pure ?_
    · refine sat_bind (sat_mono (sat_fillByte (m := e₀.bits.rdCnt.toNat) (by omega)) ?_ (fun _ _ h => h) fun _ h => h) fun _ => ?_
      · rintro e rfl
        rfl
      · exact sat_mono ih (fun e he => by omega) (fun _ _ h => h) fun _ h => h
    · rintro e rfl
      omega

/-- What is left after `n` bits have been taken, if fewer than a byte, is clean above its valid bits (rule R142). -/
theorem sat_takeBits (n : Nat) :
    Cmd.Sat (fun e => e.bits.rdCnt.toNat ≤ n + 7) (takeBits n) (fun _ e => e.bits.ReaderOk) fun _ => True := by
  intro e he
  show (BitVec.ofNat 6 (e.bits.rdCnt.toNat - n)).toNat ≤ 7 ∧
    (BitVec.ofNat 32 (e.bits.rdAcc.toNat % 2 ^ (e.bits.rdCnt.toNat - n))).toNat < 2 ^ (BitVec.ofNat 6 (e.bits.rdCnt.toNat - n)).toNat
  rw [BitVec.toNat_ofNat, BitVec.toNat_ofNat, Nat.mod_eq_of_lt (a := e.bits.rdCnt.toNat - n) (by omega)]
  exact ⟨by omega, lt_of_le_of_lt (Nat.mod_le _ _) (Nat.mod_lt _ (Nat.two_pow_pos _))⟩

/-- A read of at most 31 bits that ends normally leaves the reader in its form (rules R140, R142). -/
theorem keeps_readBits {n : Nat} (hn : n ≤ 31) : Cmd.Keeps (fun e => e.bits.ReaderOk) (fun _ => True) (readBits n) := by
  refine sat_ite (fun _ => sat_pure fun _ h => h) fun h0 => sat_bind (sat_mono (sat_fillTo hn n) ?_ (fun _ _ h => h) fun _ h => h) ?_
  · intro e he
    have := he.1
    omega
  · exact fun _ => sat_mono (sat_takeBits n) (fun _ h => h.2) (fun _ _ h => h) fun _ h => h

/-! ### Decoding a symbol reads bits -/

section
variable {D : List Reg} {I S : Engine → Prop} (hI : DependsOn D I) (hS : ∀ e, I e → S e)
include hI hS

theorem keeps_read {c : Cmd α} (hw : Writes [] c) : Cmd.Keeps I S c := keeps_of_writes hI hS hw (by simp)

theorem keeps_resolveCode (hread : ∀ n ≤ 31, Cmd.Keeps I S (readBits n)) (t left len code : Nat) :
    Cmd.Keeps I S (resolveCode t left len code) := by
  have hfound : ∀ (e : Engine) (len code : Nat), Cmd.Keeps I S (do
      let base ← tableGet2 .base e.huf.base t len
      if code < base.toNat then Cmd.fail (.outOfArray .perm code)
      else do
        let s ← tableGet2 .perm e.huf.perm t (code - base.toNat)
        pure s.toNat) := fun e len code =>
    keeps_read hI hS (rel_bind (composes_frame _) (rel_tableGet2 (composes_frame _) _ _ _ _) fun _ =>
      rel_ite (rel_fail (composes_frame _) _)
        (rel_bind (composes_frame _) (rel_tableGet2 (composes_frame _) _ _ _ _) fun _ => rel_pure (composes_frame _) _))
  induction left generalizing len code with
  | zero =>
    refine sat_get_bind' fun e _ => sat_bind (keeps_read hI hS (rel_tableGet2 (composes_frame _) _ _ _ _)) fun limit => ?_
    exact sat_ite (fun _ => sat_raise hS) fun _ => hfound e len code
  | succ left ih =>
    refine sat_get_bind' fun e _ => sat_bind (keeps_read hI hS (rel_tableGet2 (composes_frame _) _ _ _ _)) fun limit => ?_
    exact sat_ite (fun _ => sat_bind (hread 1 (by norm_num)) fun b => ih _ _) fun _ => hfound e len code

theorem keeps_decodeSym (hread : ∀ n ≤ 31, Cmd.Keeps I S (readBits n)) (t : Nat) : Cmd.Keeps I S (decodeSym t) := by
  refine sat_get_bind' fun e _ => sat_bind (keeps_read hI hS (rel_tableGet (composes_frame _) _ _ _)) fun mn => ?_
  exact sat_bind (hread _ (by omega)) fun code => keeps_resolveCode hI hS hread _ _ _ _

/-- Decoding a symbol keeps what reading bits keeps, and counts the symbol (rule R238). -/
theorem keeps_hufDecodeSym (hread : ∀ n ≤ 31, Cmd.Keeps I S (readBits n)) (hD : Reg.symCount ∉ D) : Cmd.Keeps I S hufDecodeSym := by
  refine sat_get_bind' fun e _ => sat_raiseWhen_bind hS fun _ => sat_bind (keeps_read hI hS (writes_selectorGet _)) fun t => ?_
  refine sat_bind (keeps_decodeSym hI hS hread _) fun s => sat_bind (keeps_of_writes (W := [.symCount]) hI hS ?_ ?_) fun _ => sat_pure fun _ h => h
  · intro e r
    cases r <;> simp [Reg.same, Cmd.after]
  · simpa using hD

end

/-! ### The writer -/

/-- At most 7 bits wait, and, as far as `c` says, no bit above them is set (rules R41, R153). -/
def Engine.WriterForm (c : Prop) (e : Engine) : Prop := e.bits.wrCnt.toNat ≤ 7 ∧ (c → e.bits.wrAcc.toNat < 2 ^ e.bits.wrCnt.toNat)

theorem dependsOn_writer (p : BitVec 32 → BitVec 6 → Prop) : DependsOn [.wrAcc, .wrCnt] fun e => p e.bits.wrAcc e.bits.wrCnt := by
  intro e e' h he
  have h1 : e.bits.wrAcc = e'.bits.wrAcc := h .wrAcc (by simp)
  have h2 : e.bits.wrCnt = e'.bits.wrCnt := h .wrCnt (by simp)
  rwa [h1, h2] at he

/-- Emitting the full bytes leaves the rest of the bits (rule R147). -/
theorem sat_emitBytes {c : Prop} {m : Nat} (k : Nat) :
    Cmd.Sat (fun e => e.bits.wrCnt.toNat = 8 * k + m ∧ (k = 0 → c → e.bits.wrAcc.toNat < 2 ^ m)) (emitBytes k)
      (fun _ e => e.bits.wrCnt.toNat = m ∧ (c → e.bits.wrAcc.toNat < 2 ^ m)) fun _ => True := by
  induction k with
  | zero => exact sat_pure fun e he => ⟨by omega, he.2 rfl⟩
  | succ k ih =>
    refine sat_get_bind fun e₀ he₀ => sat_bind (Q := fun _ e => e.bits.wrCnt = e₀.bits.wrCnt) ?_ fun _ => ?_
    · refine sat_mono (keeps_of_writes (dependsOn_writer fun _ n => n = e₀.bits.wrCnt) (fun _ _ => trivial) (writes_outByte _)
        (by decide)) ?_ (fun _ _ h => h) fun _ h => h
      rintro e rfl
      rfl
    · refine sat_bind (fun e _ => ?_) fun _ => ih
      have hlt := e₀.bits.wrCnt.isLt
      show (BitVec.ofNat 6 (e₀.bits.wrCnt.toNat - 8)).toNat = 8 * k + m ∧
        (k = 0 → c → (BitVec.ofNat 32 (e₀.bits.wrAcc.toNat % 2 ^ (e₀.bits.wrCnt.toNat - 8))).toNat < 2 ^ m)
      rw [BitVec.toNat_ofNat, BitVec.toNat_ofNat]
      refine ⟨by omega, fun hk _ => lt_of_le_of_lt (Nat.mod_le _ _) ?_⟩
      rw [show e₀.bits.wrCnt.toNat - 8 = m by omega]
      exact Nat.mod_lt _ (Nat.two_pow_pos _)

/-- A write of any count of bits leaves at most 7 of them waiting, and one of at most 31 bits leaves no bit set above them. -/
theorem keeps_writeBits {c : Prop} {n : Nat} (hn : c → n ≤ 31) (v : Nat) :
    Cmd.Keeps (Engine.WriterForm c) (fun _ => True) (writeBits n v) := by
  refine sat_ite (fun _ => sat_pure fun _ h => h) fun _ e he => ?_
  obtain ⟨hcnt, hacc⟩ := he
  have hrun := sat_emitBytes (c := c) (m := (e.bits.wrCnt.toNat + n) % 64 % 8) ((e.bits.wrCnt.toNat + n) % 64 / 8)
    { e with bits.wrAcc := BitVec.ofNat 32 (e.bits.wrAcc.toNat <<< n ||| v % 2 ^ n), bits.wrCnt := BitVec.ofNat 6 (e.bits.wrCnt.toNat + n) }
    ⟨by simp only [BitVec.toNat_ofNat]; omega, fun hk hc => ?_⟩
  · refine hrun.mono (fun _ e' h => ⟨by omega, fun hc => ?_⟩) fun _ h => h
    rw [h.1]
    exact h.2 hc
  · have hn := hn hc
    have hm : (e.bits.wrCnt.toNat + n) % 64 % 8 = e.bits.wrCnt.toNat + n := by omega
    rw [hm]
    simp only [BitVec.toNat_ofNat]
    refine lt_of_le_of_lt (Nat.mod_le _ _) (Nat.or_lt_two_pow ?_ ?_)
    · rw [Nat.shiftLeft_eq, Nat.pow_add]
      exact Nat.mul_lt_mul_of_pos_right (hacc hc) (Nat.two_pow_pos _)
    · exact lt_of_lt_of_le (Nat.mod_lt _ (Nat.two_pow_pos _)) (Nat.pow_le_pow_right (by norm_num) (by omega))

/-- A flush leaves no bit waiting (rule R151). -/
theorem keeps_flushWriter {c : Prop} : Cmd.Keeps (Engine.WriterForm c) (fun _ => True) flushWriter := by
  refine sat_get_bind fun e₀ _ => sat_bind (Q := fun _ _ => True) (fun e _ => ?_) fun _ e _ => ⟨Nat.zero_le _, fun _ => Nat.one_pos⟩
  rcases doWhen _ _ e with ⟨a, e'⟩ | ⟨k | w | f, e'⟩ <;> trivial

theorem writerForm_initial {c : Prop} {e : Engine} (h1 : e.bits.wrAcc = 0) (h2 : e.bits.wrCnt = 0) : e.WriterForm c := by
  rw [Engine.WriterForm, h1, h2]
  exact ⟨Nat.zero_le _, fun _ => Nat.one_pos⟩

/-! ### The form of the bit engine is an invariant -/

theorem dependsOn_bitsOk : DependsOn [.rdAcc, .rdCnt, .wrCnt] Engine.BitsOk := by
  intro e e' h he
  have h1 : e.bits.rdAcc = e'.bits.rdAcc := h .rdAcc (by simp)
  have h2 : e.bits.rdCnt = e'.bits.rdCnt := h .rdCnt (by simp)
  have h3 : e.bits.wrCnt = e'.bits.wrCnt := h .wrCnt (by simp)
  unfold Engine.BitsOk BitEngine.ReaderOk at he ⊢
  rwa [h1, h2, h3] at he

theorem dependsOn_readerOk : DependsOn [.rdAcc, .rdCnt] fun e => e.bits.ReaderOk := by
  intro e e' h he
  have h1 : e.bits.rdAcc = e'.bits.rdAcc := h .rdAcc (by simp)
  have h2 : e.bits.rdCnt = e'.bits.rdCnt := h .rdCnt (by simp)
  rwa [BitEngine.ReaderOk, h1, h2] at he

/-- A piece that keeps the reader and one that keeps the count of the writer each leave the other alone. -/
theorem keeps_bitsOk {c : Cmd α} (hr : Cmd.Keeps (fun e => e.bits.ReaderOk) (fun _ => True) c)
    (hw : Cmd.Keeps (Engine.WriterForm False) (fun _ => True) c) : Cmd.Keeps Engine.BitsOk (fun _ => True) c :=
  sat_mono (sat_and hr hw) (fun _ h => ⟨h.1, h.2, False.elim⟩) (fun _ _ h => ⟨h.1, h.2.1⟩) fun _ _ => trivial

theorem keeps_reader_of_writes {W : List Reg} {c : Cmd α} (hw : Writes W c) (h : ∀ r ∈ W, r ∉ [Reg.rdAcc, .rdCnt]) :
    Cmd.Keeps (fun e => e.bits.ReaderOk) (fun _ => True) c := keeps_of_writes dependsOn_readerOk (fun _ _ => trivial) hw h

theorem keeps_writer_of_writes {p : Prop} {W : List Reg} {c : Cmd α} (hw : Writes W c) (h : ∀ r ∈ W, r ∉ [Reg.wrAcc, .wrCnt]) :
    Cmd.Keeps (Engine.WriterForm p) (fun _ => True) c :=
  keeps_of_writes (dependsOn_writer fun a n => n.toNat ≤ 7 ∧ (p → a.toNat < 2 ^ n.toNat)) (fun _ _ => trivial) hw h

/-- Every piece keeps the form of the bit engine where it ends normally (rules R142, R153). -/
theorem piece_keeps_bitsOk {W : List Reg} {c : Cmd α} (h : Piece W c) (ho : ∃ r ∈ W, r ∈ [Reg.rdAcc, .rdCnt, .wrCnt]) :
    Cmd.Keeps Engine.BitsOk (fun _ => True) c := by
  have hw := h.writes
  cases h with
  | readBits hn => exact keeps_bitsOk (keeps_readBits hn) (keeps_writer_of_writes hw (by decide))
  | clearReader => exact fun e he => ⟨⟨Nat.zero_le _, Nat.one_pos⟩, he.2⟩
  | hufDecodeSym =>
    refine keeps_bitsOk ?_ (keeps_writer_of_writes hw (by decide))
    exact keeps_hufDecodeSym dependsOn_readerOk (fun _ _ => trivial) (fun n hn => keeps_readBits hn) (by decide)
  | writeBits hn v => exact keeps_bitsOk (keeps_reader_of_writes hw (by decide)) (keeps_writeBits False.elim v)
  | writeCode hc =>
    refine keeps_bitsOk (keeps_reader_of_writes hw (by decide)) (sat_bind (keeps_writer_of_writes hc (by simp)) fun w => ?_)
    exact keeps_writeBits False.elim _
  | flushWriter => exact keeps_bitsOk (keeps_reader_of_writes hw (by decide)) keeps_flushWriter
  | clearWriter => exact fun e he => ⟨he.1, Nat.zero_le _⟩
  | _ => exact absurd ho (by decide)

theorem invariant_bitsOk : Invariant Engine.BitsOk fun _ => True :=
  invariant_of_pieces (by decide) (by decide) dependsOn_bitsOk (fun _ _ _ _ => trivial) (fun _ _ => trivial)
    (fun _ _ _ => ⟨⟨Nat.zero_le _, Nat.one_pos⟩, Nat.zero_le _⟩) piece_keeps_bitsOk

end Sys2Proof.Machine
end

section
/-! SUPPORT. The error latch, the output FIFO and BLOCK_K over a step (rules R38, R42, R311, R312). -/

namespace Sys2Proof.Machine

variable {α : Type}

/-! ### The error latch -/

/-- No error is latched (rules R311, R312). -/
def Engine.Calm (e : Engine) : Prop := e.host.err = false ∧ e.frame.errcode = none ∧ e.frame.phase ≠ .error

theorem calm_iff {e : Engine} : e.Calm ↔ e.LatchOk ∧ e.host.err = false := by
  unfold Engine.Calm Engine.LatchOk
  cases e.host.err <;> simp

theorem Engine.LatchOk.calm {e : Engine} (h : e.LatchOk) (hp : e.frame.phase ≠ .error) : e.Calm := by
  refine calm_iff.mpr ⟨h, ?_⟩
  by_contra herr
  exact hp (h.2.mp (by simpa using herr))

theorem dependsOn_calm : DependsOn [.err, .errcode, .phase] Engine.Calm := by
  intro e e' h he
  have h1 : e.host.err = e'.host.err := h .err (by simp)
  have h2 : e.frame.errcode = e'.frame.errcode := h .errcode (by simp)
  have h3 : e.frame.phase = e'.frame.phase := h .phase (by simp)
  rwa [Engine.Calm, h1, h2, h3] at he

/-- No body latches an error by itself: its pieces move STATE, but not to ERROR. -/
theorem piece_keeps_calm {W : List Reg} {c : Cmd α} (h : Piece W c) (ho : ∃ r ∈ W, r ∈ [Reg.err, .errcode, .phase]) :
    Cmd.Keeps Engine.Calm Engine.Calm c := by
  cases h with
  | setPhase hp => exact fun e he => ⟨he.1, he.2.1, hp⟩
  | _ => exact absurd ho (by decide)

theorem latchOk_raiseError {e : Engine} (h : e.Calm) (k : ErrorKind) : (e.raiseError k).LatchOk := by
  obtain ⟨-, hcode, -⟩ := h
  simp [Engine.LatchOk, hcode]

theorem latchOk_initial (inDepth outDepth freeCount : Nat) : (Engine.initial inDepth outDepth freeCount).LatchOk := by
  simp [Engine.LatchOk, Engine.initial]

/-- A machine with no command in progress and a consistent latch. -/
theorem latchOk_idle {s : State} {e : Engine} (h : e.LatchOk) : State.LatchOk { s with toEngine := e, hold := none } := ⟨h, by simp⟩

/-- However a command ends that was accepted with no error latched, the latch is consistent. -/
theorem latchOk_finish {i : Instr} {s t : State} {x : EStateM.Result Stop Engine Unit} (hs : s.toEngine.Calm)
    (hx : Meets (fun _ => Engine.Calm) Engine.Calm x) (h : finish i s x = .next t) : t.LatchOk := by
  rcases finish_cases hx h with ⟨e, he, rfl⟩ | ⟨k, e, he, rfl⟩ | ⟨w, e, he, rfl⟩
  · exact latchOk_idle (calm_iff.mp he).1
  · exact latchOk_idle (latchOk_raiseError he k)
  · refine ⟨(calm_iff.mp he).1, fun k hk => ?_⟩
    obtain rfl := Option.mem_some.mp hk
    exact ⟨he.1, calm_iff.mp hs⟩

theorem latchOk_ran {s t : State} (hs : s.hold = none) (hl : s.toEngine.LatchOk) (h : Ran s t) : t.LatchOk := by
  cases h with
  | refused h => exact ⟨hl, by simp [hs]⟩
  | cleared => exact latchOk_idle hl
  | reset => exact latchOk_idle (latchOk_initial _ _ _)
  | stopped h hf => exact latchOk_finish (hl.calm h) (meets_stop (hl.calm h)) hf
  | ended h hc hf =>
    have hcalm := hl.calm h.ne_error
    exact latchOk_finish hcalm
      (meets_bodyOf (by decide) (by decide) dependsOn_calm (fun _ h => h) piece_keeps_calm hc hcalm) hf

theorem latchOk_edit {f : Engine → Engine} (hf : HostEdit f) (e : Engine) : (f e).host.err = e.host.err ∧ (f e).frame = e.frame := by
  obtain ⟨arg, drop, fifo, eoi, he⟩ := hf e
  rw [he]
  exact ⟨rfl, rfl⟩

/-- Every step keeps the error latch consistent (rules R311, R312). -/
theorem step_latchOk {s t : State} (h : step s = .next t) (hl : s.LatchOk) : t.LatchOk := by
  cases stepped_of_step h with
  | @begun _ w script hs hr => exact latchOk_ran (s := { s with host.cmd := w, script := script }) hs hl.1 hr
  | @resumed u k hs hr =>
    obtain ⟨-, hk, hkerr⟩ := hl.2 k (by simp [hs])
    obtain ⟨hu, hstart⟩ := latchOk_ran (s := s.replay k) rfl hk hr
    refine ⟨hu, fun k' hm => ?_⟩
    obtain ⟨h', hm', rfl⟩ := State.settle_hold_mem _ hm
    exact ⟨(hstart h' hm').1, hk, hkerr⟩
  | @edited f hf script seen =>
    have hlatch : ∀ e : Engine, e.LatchOk → (f e).LatchOk := by
      intro e he
      obtain ⟨herr, hframe⟩ := latchOk_edit hf e
      rwa [Engine.LatchOk, herr, hframe]
    refine ⟨hlatch _ hl.1, fun k hm => ?_⟩
    obtain ⟨k', hm', rfl⟩ := State.onEngine_hold_mem _ hm
    obtain ⟨herr, hk, hkerr⟩ := hl.2 k' hm'
    exact ⟨(latchOk_edit hf _).1.trans herr, hlatch _ hk, (latchOk_edit hf _).1.trans hkerr⟩
  | popped script seen =>
    rcases hb : s.host.outFifo with _ | ⟨b, rest⟩
    · rw [State.popOutput_nil { s with script := script, seen := seen } hb]
      exact hl
    · rw [State.popOutput_cons { s with script := script, seen := seen } hb]
      refine ⟨hl.1, fun k hm => ?_⟩
      obtain ⟨k', hm', rfl⟩ := Option.mem_map.mp hm
      exact hl.2 k' hm'
  | reset script => exact latchOk_idle (s := { s with script := script }) (latchOk_initial _ _ _)

/-! ### The output FIFO -/

/-- The output FIFO is `d` bytes deep and holds no more (rule R38). -/
def Engine.FifoFits (d : Nat) (e : Engine) : Prop := e.outDepth = d ∧ e.host.outFifo.length ≤ d

theorem dependsOn_fifoFits (d : Nat) : DependsOn [.outFifo, .outDepth] (Engine.FifoFits d) := by
  intro e e' h he
  have h1 : e.host.outFifo = e'.host.outFifo := h .outFifo (by simp)
  have h2 : e.outDepth = e'.outDepth := h .outDepth (by simp)
  rwa [Engine.FifoFits, h1, h2] at he

/-- `OutByte(v)` appends only where there is room (rule R15). -/
theorem keeps_outByte (d : Nat) (v : Byte) : Cmd.Keeps (Engine.FifoFits d) (Engine.FifoFits d) (outByte v) := by
  intro e he
  by_cases h : e.host.outFifo.length < e.outDepth
  · rw [outByte_room h]
    refine ⟨he.1, ?_⟩
    rw [he.1] at h
    simpa using h
  · rw [outByte_full h]
    exact he

theorem writes_modWriter (f : BitEngine → BitVec 32) (g : BitEngine → BitVec 6) :
    Writes [.wrAcc, .wrCnt] (modBits fun r => { r with wrAcc := f r, wrCnt := g r }) := by
  intro e r
  cases r <;> simp [Reg.same, Cmd.after]

theorem keeps_fifoFits_of_writes {d : Nat} {W : List Reg} {c : Cmd α} (hw : Writes W c) (h : ∀ r ∈ W, r ∉ [Reg.outFifo, .outDepth]) :
    Cmd.Keeps (Engine.FifoFits d) (Engine.FifoFits d) c := keeps_of_writes (dependsOn_fifoFits d) (fun _ h => h) hw h

theorem emitBytes_keeps_fifoFits (d k : Nat) : Cmd.Keeps (Engine.FifoFits d) (Engine.FifoFits d) (emitBytes k) := by
  induction k with
  | zero => exact sat_pure fun _ h => h
  | succ k ih =>
    refine sat_get_bind' fun e _ => sat_bind (keeps_outByte d _) fun _ => sat_bind ?_ fun _ => ih
    exact keeps_fifoFits_of_writes (writes_modWriter _ _) (by decide)

theorem writeBits_keeps_fifoFits (d n v : Nat) : Cmd.Keeps (Engine.FifoFits d) (Engine.FifoFits d) (writeBits n v) := by
  refine sat_ite (fun _ => sat_pure fun _ h => h) fun _ => ?_
  refine sat_bind (keeps_fifoFits_of_writes (writes_modWriter _ _) (by decide)) fun _ => ?_
  exact sat_get_bind' fun e _ => emitBytes_keeps_fifoFits d _

/-- Every piece keeps the output FIFO within its depth, wherever it stops (rule R38). -/
theorem piece_keeps_fifoFits {d : Nat} {W : List Reg} {c : Cmd α} (h : Piece W c) (ho : ∃ r ∈ W, r ∈ [Reg.outFifo, .outDepth]) :
    Cmd.Keeps (Engine.FifoFits d) (Engine.FifoFits d) c := by
  cases h with
  | writeBits hn v => exact writeBits_keeps_fifoFits d _ v
  | writeCode hw => exact sat_bind (keeps_fifoFits_of_writes hw (by simp)) fun w => writeBits_keeps_fifoFits d _ _
  | flushWriter =>
    refine sat_get_bind' fun e _ => sat_bind ?_ fun _ => keeps_fifoFits_of_writes (writes_modWriter _ _) (by decide)
    exact sat_ite (fun _ => keeps_outByte d _) fun _ => sat_pure fun _ h => h
  | _ => exact absurd ho (by decide)

/-- However a command ends, the FIFO is within its depth, and the start image of a hold is what it was. -/
theorem fifoFits_ran {s t : State} {d : Nat} (hs : s.hold = none) (hd : s.FifoFits d) (h : Ran s t) :
    t.FifoFits d ∧ ∀ k ∈ t.hold, k.start.host.outFifo.length ≤ d + k.popped := by
  have hfin : ∀ {i x}, Meets (fun _ => Engine.FifoFits d) (Engine.FifoFits d) x → finish i s x = .next t →
      t.FifoFits d ∧ ∀ k ∈ t.hold, k.start.host.outFifo.length ≤ d + k.popped := by
    intro i x hx hf
    rcases finish_cases hx hf with ⟨e, he, rfl⟩ | ⟨k, e, he, rfl⟩ | ⟨w, e, he, rfl⟩
    · exact ⟨he, by simp⟩
    · exact ⟨he, by simp⟩
    · exact ⟨he, by simpa using hd.2⟩
  cases h with
  | refused h => exact ⟨hd, by simp [hs]⟩
  | cleared => exact ⟨hd, by simp⟩
  | reset => exact ⟨⟨hd.1, Nat.zero_le _⟩, by simp⟩
  | stopped h hf => exact hfin (meets_stop hd) hf
  | ended h hc hf =>
    exact hfin (meets_bodyOf (by decide) (by decide) (dependsOn_fifoFits d) (fun _ h => h) piece_keeps_fifoFits hc hd) hf

theorem fifo_edit {f : Engine → Engine} (hf : HostEdit f) (e : Engine) :
    (f e).host.outFifo = e.host.outFifo ∧ (f e).outDepth = e.outDepth := by
  obtain ⟨arg, drop, fifo, eoi, he⟩ := hf e
  rw [he]
  exact ⟨rfl, rfl⟩

/-- Every step keeps the output FIFO within its depth (rule R38). -/
theorem step_outFifoOk {s t : State} (h : step s = .next t) (ho : s.OutFifoOk) : t.OutFifoOk := by
  obtain ⟨hlen, hstart⟩ := ho
  cases stepped_of_step h with
  | @begun _ w script hs hr =>
    obtain ⟨⟨hd, ht⟩, hk⟩ := fifoFits_ran (s := { s with host.cmd := w, script := script }) (d := s.outDepth) hs ⟨rfl, hlen⟩ hr
    rw [State.OutFifoOk, hd]
    exact ⟨ht, hk⟩
  | @resumed u k hs hr =>
    have hk := hstart k (by simp [hs])
    obtain ⟨⟨hd, hu⟩, -⟩ := fifoFits_ran (s := s.replay k) (d := s.outDepth + k.popped) rfl ⟨rfl, hk⟩ hr
    refine ⟨?_, fun k' hm => ?_⟩
    · simp only [State.settle_toEngine, List.length_drop]
      omega
    · obtain ⟨h', -, rfl⟩ := State.settle_hold_mem _ hm
      exact hk
  | @edited f hf script seen =>
    obtain ⟨h1, h2⟩ := fifo_edit hf s.toEngine
    refine ⟨?_, fun k hm => ?_⟩
    · rw [State.onEngine_toEngine, h1, h2]
      exact hlen
    · obtain ⟨k', hm', rfl⟩ := State.onEngine_hold_mem _ hm
      rw [State.onEngine_toEngine, (fifo_edit hf k'.start).1, h2]
      exact hstart k' hm'
  | popped script seen =>
    rcases hb : s.host.outFifo with _ | ⟨b, rest⟩
    · rw [State.popOutput_nil { s with script := script, seen := seen } hb]
      exact ⟨hlen, hstart⟩
    · rw [State.popOutput_cons { s with script := script, seen := seen } hb]
      rw [hb, List.length_cons] at hlen
      refine ⟨Nat.le_of_succ_le hlen, fun k hm => ?_⟩
      obtain ⟨k', hm', rfl⟩ := Option.mem_map.mp hm
      exact Nat.le_succ_of_le (hstart k' hm')
  | reset script => exact ⟨Nat.zero_le _, by simp⟩

/-! ### BLOCK_K -/

theorem dependsOn_kOk : DependsOn [.blockK] Engine.KOk := by
  intro e e' h he
  have h1 : e.block.k = e'.block.k := h .blockK (by simp)
  rwa [Engine.KOk, h1] at he

/-- Every piece keeps BLOCK_K a multiplier (rule R42). -/
theorem piece_keeps_kOk {W : List Reg} {c : Cmd α} (h : Piece W c) (ho : ∃ r ∈ W, r ∈ [Reg.blockK]) :
    Cmd.Keeps Engine.KOk Engine.KOk c := by
  cases h with
  | blkEncOpen hk => exact fun e _ => hk
  | reopenBlock => exact fun e he => he
  | setMultiplier hk => exact fun e _ => hk
  | _ => exact absurd ho (by decide)

theorem invariant_kOk : Invariant Engine.KOk Engine.KOk :=
  invariant_of_pieces (by decide) (by decide) dependsOn_kOk dependsOn_kOk (fun _ h => h)
    (fun _ _ _ => ⟨(by decide : 1 ≤ (9#4).toNat), (by decide : (9#4).toNat ≤ 9)⟩) piece_keeps_kOk

/-! ### Where a command is accepted -/

/-- Where the latch is consistent, a command can be accepted only with no error latched. -/
theorem State.LatchOk.err_of_accepts {s : State} (h : s.LatchOk) (hp : s.frame.phase ≠ .error) : s.host.err = false := (h.1.calm hp).1

/-- Settles O52: each of the four is kept by every piece that a command body is built of (`built_bodyOf`), and by every other way a
step can end (`stepped_of_step`). -/
theorem stepKeepsLatchAndBits : Obligations.StepKeepsLatchAndBits := by
  intro s t h
  refine ⟨step_latchOk h, fun hl hb => ?_, step_outFifoOk h, invariant_kOk.step h⟩
  have hk := invariant_bitsOk.kept_step (fun hs hp => hb.1 hs (hl.err_of_accepts hp)) ⟨trivial, hb.1, hb.2⟩ h
  exact hk.2

end Sys2Proof.Machine
end

section
/-! SUPPORT. The counts and lengths stay in their ranges (rules R42 to R48, R168): what each piece does to the count it writes. -/

namespace Sys2Proof.Machine

variable {α : Type}

/-! ### Writing an element beyond an array is a fault -/

section
variable {e : Engine} {Q : Unit → Engine → Prop} {S : Engine → Prop}

theorem blkSet_fault {i : Nat} {v : Byte} (h : ¬ i < 900001) : blkSet i v e = .error (.fault (.outOfArray .blk i)) e := by
  unfold blkSet
  rw [get_bind_run]
  exact bind_error (by simp [storeSet, blkSize, h])

theorem bwtArrSet_fault {i : Nat} {v : Byte} (h : ¬ i < 900000) : bwtArrSet i v e = .error (.fault (.outOfArray .bwtArr i)) e := by
  unfold bwtArrSet
  rw [get_bind_run]
  exact bind_error (by simp [storeSet, bwtSize, h])

/-- `BLK[i] <- v`, or no such element. -/
theorem meets_blkSet {i : Nat} {v : Byte} (h : i < 900001 → Q () { e with block.blk := e.block.blk.write i v }) :
    Meets Q S (blkSet i v e) := by
  by_cases hi : i < 900001
  · rw [blkSet_run hi]
    exact h hi
  · rw [blkSet_fault hi]
    trivial

/-- `BWT_ARR[i] <- v`, or no such element. -/
theorem meets_bwtArrSet {i : Nat} {v : Byte} (h : i < 900000 → Q () { e with bwt.arr := e.bwt.arr.write i v }) :
    Meets Q S (bwtArrSet i v e) := by
  by_cases hi : i < 900000
  · rw [bwtArrSet_run hi]
    exact h hi
  · rw [bwtArrSet_fault hi]
    trivial

/-- `BlkAppend(v)` stores the byte, or finds BLK full (rules R42, R161). -/
theorem meets_blkAppend {v : Byte} (h : e.block.len.toNat < 900001 → Q () (e.storeByte v)) : Meets Q S (blkAppend v e) := by
  by_cases hlen : e.block.len.toNat < 900001
  · rw [blkAppend_run hlen]
    exact h hlen
  · unfold blkAppend
    rw [get_bind_run, bind_error (blkSet_fault hlen)]
    trivial

/-- The engine after `BWT_ARR[BWT_LEN] <- v; BWT_LEN <- BWT_LEN + 1` (rule R198). -/
def Engine.bwtStored (v : Byte) (e : Engine) : Engine :=
  { e with bwt.arr := e.bwt.arr.write e.bwt.len.toNat v, bwt.len := BitVec.ofNat 20 (e.bwt.len.toNat + 1) }

/-- A decoded byte is stored, or BWT_ARR is full (rules R46, R198). -/
theorem meets_bwtAppend {v : Byte} (h : e.bwt.len.toNat < 900000 → Q () (e.bwtStored v)) : Meets Q S (bwtAppend v e) := by
  unfold bwtAppend
  rw [get_bind_run]
  by_cases hlen : e.bwt.len.toNat < 900000
  · rw [bind_ok (bwtArrSet_run hlen)]
    exact h hlen
  · rw [bind_error (bwtArrSet_fault hlen)]
    trivial

/-- `EmitSym(s)` appends the symbol, or finds MTF_STREAM full or no such symbol (rules R47, R194). -/
theorem meets_emitSym {s : Nat} (h : e.mtf.len.toNat < 900001 → Q () (e.emitOne s)) : Meets Q S (emitSym s e) := by
  by_cases hlen : e.mtf.len.toNat < 900001
  · by_cases hs : s < 258
    · rw [emitSym_run hlen hs]
      exact h hlen
    · have hfault : emitSym s e = .error (.fault (.outOfArray .mtfFreq s)) e := by
        unfold emitSym
        rw [get_bind_run, bind_ok (storeSet_run (show e.mtf.len.toNat < mtfStreamSize from hlen))]
        exact bind_error (by simp [tableGet, hs])
      rw [hfault]
      trivial
  · have hfault : emitSym s e = .error (.fault (.outOfArray .mtfStream e.mtf.len.toNat)) e := by
      unfold emitSym
      rw [get_bind_run]
      exact bind_error (by simp [storeSet, mtfStreamSize, hlen])
    rw [hfault]
    trivial

end

/-! ### The rest of the ranges -/

/-- The registers of the ranges. -/
def rangeRegs : List Reg :=
  [.blockK, .blkLen, .runLen, .rlCnt, .randNtogo, .bwtLen, .hopsLeft, .nInUse, .mtfLen, .nGroups, .nSelectors, .symCount]

theorem dependsOn_rangesOk : DependsOn rangeRegs Engine.RangesOk := by
  intro e e' h he
  have hk : e.block.k = e'.block.k := h .blockK (by decide)
  have hlen : e.block.len = e'.block.len := h .blkLen (by decide)
  have hrun : e.block.runLen = e'.block.runLen := h .runLen (by decide)
  have hcnt : e.block.rlCnt = e'.block.rlCnt := h .rlCnt (by decide)
  have hrand : e.block.randNtogo = e'.block.randNtogo := h .randNtogo (by decide)
  have hbwt : e.bwt.len = e'.bwt.len := h .bwtLen (by decide)
  have hhops : e.bwt.hopsLeft = e'.bwt.hopsLeft := h .hopsLeft (by decide)
  have huse : e.mtf.nInUse = e'.mtf.nInUse := h .nInUse (by decide)
  have hmtf : e.mtf.len = e'.mtf.len := h .mtfLen (by decide)
  have hgroups : e.huf.nGroups = e'.huf.nGroups := h .nGroups (by decide)
  have hsel : e.huf.nSelectors = e'.huf.nSelectors := h .nSelectors (by decide)
  have hsym : e.huf.symCount = e'.huf.symCount := h .symCount (by decide)
  obtain ⟨h1, h2, h3, h4, h5, h6, h7, h8, h9, h10, h11⟩ := he
  rw [hk] at h1
  rw [hlen, hrun] at h2
  rw [hcnt] at h3
  rw [hrand] at h4
  rw [hbwt] at h5
  rw [hhops] at h6
  rw [huse] at h7
  rw [hmtf] at h8
  rw [hgroups] at h9
  rw [hsel] at h10
  rw [hsym] at h11
  exact ⟨h1, h2, h3, h4, h5, h6, h7, h8, h9, h10, h11⟩

theorem keeps_ranges_of_writes {W : List Reg} {c : Cmd α} (hw : Writes W c) (h : ∀ r ∈ W, r ∉ rangeRegs) :
    Cmd.Keeps Engine.RangesOk Engine.RangesOk c := keeps_of_writes dependsOn_rangesOk (fun _ h => h) hw h

/-- A piece that stops by a fault only, from `J` to `J'`, keeps the ranges if they follow from `J'` and what the piece does not write. -/
theorem keeps_ranges {W : List Reg} {c : Cmd α} {J J' : Engine → Prop} (hw : Writes W c)
    (hsat : Cmd.Sat J c (fun _ => J') fun _ => False) (hJ : ∀ e, e.RangesOk → J e)
    (hrest : ∀ e e' : Engine, (∀ r : Reg, r ∉ W → r.same e e') → J' e' → e.RangesOk → e'.RangesOk) :
    Cmd.Keeps Engine.RangesOk Engine.RangesOk c := by
  intro e he
  have hafter := hw e
  have hmeet := hsat e (hJ e he)
  unfold Cmd.after at hafter
  rcases hx : c e with ⟨a, e'⟩ | ⟨k | w | f, e'⟩ <;> rw [hx] at hafter hmeet
  · exact hrest e e' hafter hmeet he
  · exact hmeet.elim
  · exact hmeet.elim
  · trivial

/-! ### The block buffer -/

/-- BLK_LEN and RUN_LEN at given values. -/
def Engine.RunAt (len run : Nat) (e : Engine) : Prop := e.block.len.toNat = len ∧ e.block.runLen.toNat = run

theorem sat_blkAppend {len run : Nat} {S : Engine → Prop} (v : Byte) :
    Cmd.Sat (Engine.RunAt len run) (blkAppend v) (fun _ => Engine.RunAt (len + 1) run) S :=
  fun e he => meets_blkAppend fun hlt => ⟨by rw [storeByte_len hlt, he.1], he.2⟩

theorem sat_repeat_blkAppend {len run : Nat} {S : Engine → Prop} (v : Byte) (n : Nat) :
    Cmd.Sat (Engine.RunAt len run) (repeatCmd n (blkAppend v)) (fun _ => Engine.RunAt (len + n) run) S := by
  induction n generalizing len with
  | zero => exact sat_pure fun _ h => h
  | succ n ih =>
    refine sat_bind (sat_blkAppend v) fun _ => ?_
    rw [show len + (n + 1) = len + 1 + n by omega]
    exact ih

/-- A flush appends at most 5 bytes, and no more than one for a run of one (rules R161, R168). -/
theorem sat_flushRun {len run : Nat} {S : Engine → Prop} :
    Cmd.Sat (Engine.RunAt len run) flushRun
      (fun _ e => e.block.runLen = 0 ∧ e.block.len.toNat ≤ len + 5 ∧ (run ≤ 1 → e.block.len.toNat ≤ len + run)) S := by
  refine sat_get_bind fun e₀ he₀ => sat_ite (fun h0 => sat_pure ?_) fun h0 => ?_
  · rintro e rfl
    exact ⟨BitVec.eq_of_toNat_eq h0, by rw [he₀.1]; omega, fun _ => by rw [he₀.1]; omega⟩
  · have hrun : Cmd.Sat (fun e => e = e₀) (appendRun e₀.block.runCh e₀.block.runLen.toNat)
        (fun _ e => e.block.len.toNat ≤ len + 5 ∧ (run ≤ 1 → e.block.len.toNat ≤ len + run)) S := by
      rw [he₀.2] at h0 ⊢
      refine sat_ite (fun h3 => ?_) fun h3 => sat_bind (Q := fun _ => Engine.RunAt (len + 4) run) ?_ fun _ => ?_
      · refine sat_mono (sat_repeat_blkAppend (len := len) (run := run) _ _) ?_ (fun _ e he => ?_) fun _ h => h
        · rintro e rfl
          exact he₀
        · have := he.1
          omega
      · refine sat_mono (sat_repeat_blkAppend (len := len) (run := run) _ _) ?_ (fun _ _ h => h) fun _ h => h
        rintro e rfl
        exact he₀
      · refine sat_mono (sat_blkAppend _) (fun _ h => h) (fun _ e he => ?_) fun _ h => h
        have := he.1
        omega
    exact sat_bind hrun fun _ e he => ⟨rfl, he⟩

/-- The room that is left for the pending run (rules R162, R168). -/
def Engine.RunFits (e : Engine) : Prop :=
  e.block.len.toNat ≤ 899993 ∨ (e.block.len.toNat ≤ 899998 ∧ e.block.runLen.toNat ≤ 1) ∨ (e.block.len.toNat ≤ 899999 ∧ e.block.runLen = 0)

/-- After a flush there is room for one more byte of a run. -/
theorem flushRun_keeps_runFits {S : Engine → Prop} : Cmd.Keeps Engine.RunFits S flushRun := by
  intro e he
  refine (sat_flushRun (len := e.block.len.toNat) (run := e.block.runLen.toNat) e ⟨rfl, rfl⟩).mono (fun _ e' h => ?_) fun _ h => h
  obtain ⟨h0, h5, h1⟩ := h
  refine .inr (.inr ⟨?_, h0⟩)
  rcases he with he | ⟨he, hr⟩ | ⟨he, hr⟩
  · omega
  · have := h1 hr
    omega
  · have h0' : e.block.runLen.toNat = 0 := by rw [hr]; rfl
    have := h1 (by omega)
    omega

/-- A byte is accepted below the threshold only, which leaves room for the run that it may end (rules R162, R168). -/
theorem rle1Put_keeps_runFits {S : Engine → Prop} (b : Byte) :
    Cmd.Sat (fun e => e.RunFits ∧ e.block.k.toNat ≤ 9) (rle1Put b) (fun _ => Engine.RunFits) S := by
  refine sat_get_bind fun e₀ he₀ => sat_ite (fun _ => sat_pure ?_) fun hfull => ?_
  · rintro e rfl
    exact he₀.1
  have hlen : e₀.block.len.toNat ≤ 899993 := by
    have := he₀.2
    unfold fullThreshold capacity at hfull
    omega
  have haccept : Cmd.Sat (fun e => e = e₀) (rle1Accept b) (fun _ => Engine.RunFits) S := by
    refine sat_get_bind fun e₁ he₁ => sat_ite (fun _ => ?_) fun _ => sat_bind (Q := fun _ e => e.block.len.toNat ≤ 899998) ?_ ?_
    · rintro e rfl
      exact .inl (by rw [he₁]; exact hlen)
    · rintro e rfl
      refine (sat_flushRun (len := e.block.len.toNat) (run := e.block.runLen.toNat) e ⟨rfl, rfl⟩).mono (fun _ e' h => ?_) fun _ h => h
      rw [he₁] at h
      have := h.2.1
      omega
    · exact fun _ e he => .inr (.inl ⟨he, le_refl 1⟩)
  exact sat_bind haccept fun _ => sat_bind (Q := fun _ => Engine.RunFits) (fun e he => he) fun _ => sat_pure fun _ h => h

/-! ### The run decoder and the de-randomiser -/

/-- The counts that reading a byte of the block changes, with RL_CNT at most `c`. -/
def Engine.NextFits (c : Nat) (e : Engine) : Prop :=
  e.block.rlCnt.toNat ≤ c ∧ e.block.randNtogo.toNat ≤ 999 ∧ e.bwt.hopsLeft.toNat ≤ 900000

theorem randEntry_le (i : Nat) : randEntry i ≤ 999 := by
  unfold randEntry
  have hall : ∀ x ∈ randTable, x ≤ 999 := by decide +kernel
  rcases lt_or_ge i randTable.length with h | h
  · rw [List.getD_eq_getElem _ _ h]
    exact hall _ (List.getElem_mem h)
  · rw [List.getD_eq_default _ _ h]
    omega

section
variable {c : Nat} {S : Engine → Prop}

theorem bwtHop_keeps_nextFits : Cmd.Keeps (Engine.NextFits c) S bwtHop := by
  refine sat_get_bind' fun e₀ _ => sat_bind (sat_get_bind' fun e _ => sat_storeGet fun _ _ _ h => h) fun x => ?_
  refine sat_bind (Q := fun _ => Engine.NextFits c) (fun e he => ⟨he.1, he.2.1, ?_⟩) fun _ => sat_pure fun _ h => h
  have := he.2.2
  show (BitVec.ofNat 20 (e.bwt.hopsLeft.toNat - 1)).toNat ≤ 900000
  rw [BitVec.toNat_ofNat]
  omega

theorem randStep_keeps_nextFits : Cmd.Keeps (Engine.NextFits c) S randStep := by
  refine sat_get_bind' fun e₀ _ => sat_bind (Q := fun _ => Engine.NextFits c) ?_ fun _ =>
    sat_bind (Q := fun _ => Engine.NextFits c) ?_ fun _ => sat_get_bind' fun _ _ => sat_pure fun _ h => h
  · refine sat_ite (fun _ e he => ⟨he.1, ?_, he.2.2⟩) fun _ => sat_pure fun _ h => h
    have := randEntry_le e.block.randTpos.toNat
    show (BitVec.ofNat 10 (randEntry e.block.randTpos.toNat)).toNat ≤ 999
    rw [BitVec.toNat_ofNat]
    omega
  · intro e he
    have := he.2.1
    refine ⟨he.1, ?_, he.2.2⟩
    show (BitVec.ofNat 10 (e.block.randNtogo.toNat - 1)).toNat ≤ 999
    rw [BitVec.toNat_ofNat]
    omega

theorem fetchByte_keeps_nextFits : Cmd.Keeps (Engine.NextFits c) S fetchByte := by
  refine sat_bind bwtHop_keeps_nextFits fun b => sat_get_bind' fun e _ => sat_ite (fun _ => ?_) fun _ => sat_pure fun _ h => h
  exact sat_bind randStep_keeps_nextFits fun flip => sat_pure fun _ h => h

theorem sat_rle1Pass {go : Byte → Cmd (Option Byte)} (hc : c ≤ 4)
    (hgo : ∀ b, Cmd.Sat (Engine.NextFits c) (go b) (fun _ => Engine.NextFits 4) S) :
    Cmd.Sat (Engine.NextFits c) (rle1Pass go) (fun _ => Engine.NextFits 4) S := by
  have hle : ∀ e : Engine, e.NextFits c → e.NextFits 4 := fun e he => ⟨he.1.trans hc, he.2⟩
  refine sat_get_bind' fun e₀ _ => sat_ite (fun _ => ?_) fun _ => sat_ite (fun _ => sat_pure hle) fun _ => ?_
  · exact sat_bind (Q := fun _ => Engine.NextFits 4) (fun e he => hle e he) fun _ => sat_pure fun _ h => h
  · exact sat_bind fetchByte_keeps_nextFits hgo

theorem sat_rle1Data (b : Byte) : Cmd.Sat (Engine.NextFits 3) (rle1Data b) (fun _ => Engine.NextFits 4) S := by
  refine sat_bind (Q := fun _ => Engine.NextFits 4) (fun e he => ⟨?_, he.2⟩) fun _ => sat_pure fun _ h => h
  have := he.1
  show (if 0 < e.block.rlCnt.toNat ∧ b = e.block.rlLast then BitVec.ofNat 3 (e.block.rlCnt.toNat + 1) else 1).toNat ≤ 4
  split
  · rw [BitVec.toNat_ofNat]
    omega
  · decide

/-- RL_CNT counts to 4 and is then set to 0 by the count byte (rule R165). -/
theorem rle1Next_keeps_nextFits : Cmd.Keeps (Engine.NextFits 4) S rle1Next := by
  refine sat_rle1Pass le_rfl fun b => sat_get_bind fun e₀ he₀ => sat_ite (fun _ => ?_) fun h4 => ?_
  · refine sat_bind (Q := fun _ => Engine.NextFits 3) ?_ fun _ => sat_rle1Pass (by norm_num) sat_rle1Data
    rintro e rfl
    exact ⟨Nat.zero_le _, he₀.2⟩
  · refine sat_mono (sat_rle1Data b) ?_ (fun _ _ h => h) fun _ h => h
    rintro e rfl
    have := he₀.1
    exact ⟨by omega, he₀.2⟩

end

/-! ### The other pieces -/

theorem tableCount_le (m : Nat) : tableCount m ≤ 6 := by
  unfold tableCount
  repeat' split
  all_goals omega

theorem bwtForward_keeps_ranges : Cmd.Keeps Engine.RangesOk Engine.RangesOk bwtForward := by
  refine sat_get_bind fun e₀ he₀ => ?_
  have hlen : e₀.block.len.toNat ≤ 899999 := by
    rcases he₀.blkLen with h | h | h <;> omega
  refine sat_mono (P := Engine.RangesOk) (Q := fun _ => Engine.RangesOk) (S := Engine.RangesOk) ?_ ?_ (fun _ _ h => h) fun _ h => h
  swap
  · rintro e rfl
    exact he₀
  refine sat_bind (keeps_ranges_of_writes (W := []) (rel_collect (composes_frame _) fun i => writes_blkGet i) (by simp)) fun b => ?_
  refine sat_bind (keeps_ranges_of_writes (writes_writeWrap _ b) (by decide)) fun _ => ?_
  refine sat_bind (keeps_ranges_of_writes (rel_forEach (composes_frame _) fun p => writes_bwtArrSet p.2 p.1) (by decide)) fun _ => ?_
  refine sat_bind (Q := fun _ => Engine.RangesOk) (fun e he => { he with bwtLen := ?_ }) fun _ =>
    sat_get_bind' fun _ _ => sat_pure fun _ h => h
  show (BitVec.ofNat 20 e₀.block.len.toNat).toNat ≤ 900000
  rw [BitVec.toNat_ofNat]
  omega

theorem bwtInvSetup_keeps_ranges : Cmd.Keeps Engine.RangesOk Engine.RangesOk bwtInvSetup := by
  refine sat_get_bind' fun e₀ _ => sat_raiseWhen_bind (fun _ h => h) fun _ => ?_
  refine sat_bind (keeps_ranges_of_writes writes_buildInverse (by decide)) fun _ => ?_
  refine sat_bind (keeps_ranges_of_writes (writes_mergedGet _) (by decide)) fun c => ?_
  exact sat_bind (Q := fun _ => Engine.RangesOk) (fun e he => { he with hopsLeft := he.bwtLen }) fun _ => sat_pure fun _ h => h

theorem mtfInit_keeps_ranges (d : Bool) : Cmd.Keeps Engine.RangesOk Engine.RangesOk (mtfInit d) := by
  have hmap : ∀ e : Engine, (buildMap e.block.presence e.mtf).nInUse.toNat ≤ 256 := by
    intro e
    have := (presentValues_length e.block.presence).trans_le (countPresent_le _)
    show (BitVec.ofNat 9 (presentValues e.block.presence).length).toNat ≤ 256
    rw [BitVec.toNat_ofNat]
    omega
  intro e he
  cases d
  · exact { he with nInUse := hmap e, mtfLen := Nat.zero_le _ }
  · exact { he with nInUse := hmap e, mtfLen := Nat.zero_le _, bwtLen := Nat.zero_le _ }

theorem setGroups_keeps_ranges : Cmd.Keeps Engine.RangesOk Engine.RangesOk setGroups := by
  intro e he
  have hm := he.mtfLen
  refine { he with nGroups := ?_, nSelectors := ?_ }
  · have := tableCount_le e.mtf.len.toNat
    show (BitVec.ofNat 3 (tableCount e.mtf.len.toNat)).toNat ≤ 6
    rw [BitVec.toNat_ofNat]
    omega
  · show (BitVec.ofNat 15 ((e.mtf.len.toNat + 49) / 50)).toNat ≤ 18001
    rw [BitVec.toNat_ofNat]
    omega

/-- A symbol is counted only where its group has a selector (rule R238). -/
theorem hufDecodeSym_keeps_ranges : Cmd.Keeps Engine.RangesOk Engine.RangesOk hufDecodeSym := by
  refine sat_get_bind fun e₀ he₀ => ?_
  have hcount : DependsOn (rangeRegs ++ [.symCount]) fun e => e.RangesOk ∧ e.huf.symCount = e₀.huf.symCount := by
    refine dependsOn_rangesOk.and fun e e' h he => ?_
    have h1 : e.huf.symCount = e'.huf.symCount := h .symCount (by simp)
    rwa [h1] at he
  refine sat_mono (P := fun e => e.RangesOk ∧ e.huf.symCount = e₀.huf.symCount) (Q := fun _ => Engine.RangesOk) (S := Engine.RangesOk)
    (sat_raiseWhen_bind (fun _ h => h.1) fun hg => ?_) ?_ (fun _ _ h => h) fun _ h => h
  · refine sat_bind (keeps_of_writes hcount (fun _ h => h.1) (writes_selectorGet _) (by simp)) fun t => ?_
    refine sat_bind (keeps_of_writes hcount (fun _ h => h.1) (writes_decodeSym _) (by decide)) fun s => ?_
    refine sat_bind (Q := fun _ => Engine.RangesOk) (fun e he => { he.1 with symCount := ?_ }) fun _ => sat_pure fun _ h => h
    have hg := of_decide_eq_false hg
    have hsel := he₀.nSelectors
    show (BitVec.ofNat 20 (e.huf.symCount.toNat + 1)).toNat ≤ 900050
    rw [BitVec.toNat_ofNat, he.2]
    unfold Config.groupSize at hg
    omega
  · rintro e rfl
    exact ⟨he₀, rfl⟩

/-- What writes BLK_LEN and RUN_LEN only, of the ranges, and leaves room for the pending run. -/
theorem rangesOk_of_runFits (e e' : Engine) (hs : ∀ r : Reg, r ∉ putRegs → r.same e e') (hJ : e'.RunFits) (he : e.RangesOk) :
    e'.RangesOk := by
  have hk : e.block.k = e'.block.k := hs .blockK (by decide)
  have hcnt : e.block.rlCnt = e'.block.rlCnt := hs .rlCnt (by decide)
  have hrand : e.block.randNtogo = e'.block.randNtogo := hs .randNtogo (by decide)
  have hbwt : e.bwt.len = e'.bwt.len := hs .bwtLen (by decide)
  have hhops : e.bwt.hopsLeft = e'.bwt.hopsLeft := hs .hopsLeft (by decide)
  have huse : e.mtf.nInUse = e'.mtf.nInUse := hs .nInUse (by decide)
  have hmtf : e.mtf.len = e'.mtf.len := hs .mtfLen (by decide)
  have hgroups : e.huf.nGroups = e'.huf.nGroups := hs .nGroups (by decide)
  have hsel : e.huf.nSelectors = e'.huf.nSelectors := hs .nSelectors (by decide)
  have hsym : e.huf.symCount = e'.huf.symCount := hs .symCount (by decide)
  exact
    { k := hk ▸ he.k, blkLen := hJ, rlCnt := hcnt ▸ he.rlCnt, randNtogo := hrand ▸ he.randNtogo, bwtLen := hbwt ▸ he.bwtLen,
      hopsLeft := hhops ▸ he.hopsLeft, nInUse := huse ▸ he.nInUse, mtfLen := hmtf ▸ he.mtfLen, nGroups := hgroups ▸ he.nGroups,
      nSelectors := hsel ▸ he.nSelectors, symCount := hsym ▸ he.symCount }

/-- What writes the counts of `NextFits` only, of the ranges, and leaves them in their ranges. -/
theorem rangesOk_of_nextFits (e e' : Engine) (hs : ∀ r : Reg, r ∉ nextRegs → r.same e e') (hJ : e'.NextFits 4) (he : e.RangesOk) :
    e'.RangesOk := by
  have hk : e.block.k = e'.block.k := hs .blockK (by decide)
  have hlen : e.block.len = e'.block.len := hs .blkLen (by decide)
  have hrun : e.block.runLen = e'.block.runLen := hs .runLen (by decide)
  have hbwt : e.bwt.len = e'.bwt.len := hs .bwtLen (by decide)
  have huse : e.mtf.nInUse = e'.mtf.nInUse := hs .nInUse (by decide)
  have hmtf : e.mtf.len = e'.mtf.len := hs .mtfLen (by decide)
  have hgroups : e.huf.nGroups = e'.huf.nGroups := hs .nGroups (by decide)
  have hsel : e.huf.nSelectors = e'.huf.nSelectors := hs .nSelectors (by decide)
  have hsym : e.huf.symCount = e'.huf.symCount := hs .symCount (by decide)
  obtain ⟨hcnt, hrand, hhops⟩ := hJ
  exact
    { k := hk ▸ he.k, blkLen := hlen ▸ hrun ▸ he.blkLen, rlCnt := hcnt, randNtogo := hrand, bwtLen := hbwt ▸ he.bwtLen,
      hopsLeft := hhops, nInUse := huse ▸ he.nInUse, mtfLen := hmtf ▸ he.mtfLen, nGroups := hgroups ▸ he.nGroups,
      nSelectors := hsel ▸ he.nSelectors, symCount := hsym ▸ he.symCount }

theorem emptyBlock_keeps_ranges {k : BitVec 4} {e : Engine} (hk : 1 ≤ k.toNat ∧ k.toNat ≤ 9) (he : e.RangesOk) :
    (e.opened k).RangesOk := { he with k := hk, blkLen := .inl (Nat.zero_le _) }

/-- Every piece keeps the counts and lengths in their ranges (rules R42 to R48). -/
theorem piece_keeps_ranges {W : List Reg} {c : Cmd α} (h : Piece W c) (ho : ∃ r ∈ W, r ∈ rangeRegs) :
    Cmd.Keeps Engine.RangesOk Engine.RangesOk c := by
  cases h with
  | flushRun =>
    exact keeps_ranges (writes_mono writes_flushRun (by decide)) flushRun_keeps_runFits (fun e he => he.blkLen) rangesOk_of_runFits
  | rle1Put b =>
    exact keeps_ranges (writes_rle1Put b) (rle1Put_keeps_runFits b) (fun e he => ⟨he.blkLen, he.k.2⟩) rangesOk_of_runFits
  | rle1Next =>
    exact keeps_ranges writes_rle1Next rle1Next_keeps_nextFits (fun e he => ⟨he.rlCnt, he.randNtogo, he.hopsLeft⟩) rangesOk_of_nextFits
  | bwtHop =>
    exact keeps_ranges (writes_mono writes_bwtHop (by decide)) bwtHop_keeps_nextFits
      (fun e he => ⟨he.rlCnt, he.randNtogo, he.hopsLeft⟩) rangesOk_of_nextFits
  | blkEncOpen hk => exact fun e he => emptyBlock_keeps_ranges (e := e) hk he
  | reopenBlock => exact fun e he => emptyBlock_keeps_ranges (e := e) he.k he
  | setMultiplier hk => exact fun e he => { he with k := hk }
  | restartRuns => exact fun e he => { he with rlCnt := Nat.zero_le _, randNtogo := Nat.zero_le _ }
  | bwtForward => exact bwtForward_keeps_ranges
  | bwtInvSetup => exact bwtInvSetup_keeps_ranges
  | mtfInit d => exact mtfInit_keeps_ranges d
  | emitSym s =>
    refine fun e he => meets_emitSym fun hlt => { he with mtfLen := ?_ }
    rw [emitOne_len hlt]
    omega
  | bwtAppend v =>
    refine fun e he => meets_bwtAppend fun hlt => { he with bwtLen := ?_ }
    show (BitVec.ofNat 20 (e.bwt.len.toNat + 1)).toNat ≤ 900000
    rw [BitVec.toNat_ofNat]
    omega
  | setGroups => exact setGroups_keeps_ranges
  | @setTables nG nS hG hS =>
    have hS : nS ≤ 18001 := hS
    refine fun e he => { he with nGroups := ?_, nSelectors := ?_ }
    · show (BitVec.ofNat 3 nG).toNat ≤ 6
      rw [BitVec.toNat_ofNat]
      omega
    · show (BitVec.ofNat 15 nS).toNat ≤ 18001
      rw [BitVec.toNat_ofNat]
      omega
  | restartDecoder => exact fun e he => { he with symCount := Nat.zero_le _ }
  | hufDecodeSym => exact hufDecodeSym_keeps_ranges
  | _ => exact absurd ho (by decide)

theorem rangesOk_initial (inDepth outDepth freeCount : Nat) : (Engine.initial inDepth outDepth freeCount).RangesOk := by
  constructor <;> simp [Engine.initial]

theorem invariant_rangesOk : Invariant Engine.RangesOk Engine.RangesOk :=
  invariant_of_pieces (by decide) (by decide) dependsOn_rangesOk dependsOn_rangesOk (fun _ h => h) rangesOk_initial piece_keeps_ranges

/-- Settles O54: every piece that a command body is built of keeps the ranges (`piece_keeps_ranges`), and the host's actions do not
touch them (`Invariant.step`). -/
theorem stepKeepsRanges : Obligations.StepKeepsRanges := fun _ _ h hs => invariant_rangesOk.step h hs

end Sys2Proof.Machine
end

section
/-! SUPPORT. The reset values, and what a step and a register access of the host do (rules R31 to R39, R81, R82, R87, R97, R346). -/

namespace Sys2Proof.Machine

/-! ### The reset values (rules R340, R341) -/

@[simp] theorem byteGet_replicate {α : Type} (x : α) (b : Byte) : byteGet (Vector.replicate 256 x) b = x := by simp [byteGet]

@[simp] theorem cell_replicate_zero {w n : Nat} (t i : Nat) : cell (Vector.replicate 6 (Vector.replicate n (0#w))) t i = 0 := by
  have hd : ∀ {α : Type} (x : α) (m j : Nat), (List.replicate m x).getD j x = x := fun x m j => by
    rw [List.getD_eq_getElem?_getD, List.getElem?_getD_replicate_default_eq]
  simp only [cell, Vector.toList_replicate, BitVec.ofNat_eq_ofNat, hd]
  rfl

theorem storesWf_initial (inDepth outDepth freeCount : Nat) : (Engine.initial inDepth outDepth freeCount).StoresWf :=
  ⟨Store.wf_nil, Store.wf_nil, Store.wf_nil, Store.wf_nil, Store.wf_nil⟩

theorem filledOk_initial (inDepth outDepth freeCount : Nat) : (Engine.initial inDepth outDepth freeCount).FilledOk := by
  constructor <;> simp [Engine.initial]

theorem codesOk_initial (inDepth outDepth freeCount : Nat) : (Engine.initial inDepth outDepth freeCount).CodesOk := by
  intro row hrow c hc
  have hrow : row = Vector.replicate 258 0 := (Vector.mem_replicate.mp (Vector.mem_toList_iff.mp hrow)).2
  subst hrow
  have hc : c = 0 := (Vector.mem_replicate.mp (Vector.mem_toList_iff.mp hc)).2
  subst hc
  decide

/-- Settles O41: the reset values are the fields of `Engine.initial`; an invariant holds at reset by the lemma about it. -/
theorem resetValues : Obligations.ResetValues := by
  refine ⟨fun inDepth outDepth freeCount => ?_, ?_⟩
  · simp only [Engine.initial, byteGet_replicate, Vector.toList_replicate, List.mem_replicate]
    simp
  · have hnone : ∀ {p : Hold → Prop}, ∀ h ∈ State.reset.hold, p h := fun h hm => by cases hm
    exact ⟨rfl, by decide, ⟨storesWf_initial .., hnone⟩, ⟨latchOk_initial .., hnone⟩,
      ⟨fun _ _ => ⟨⟨by decide, by decide⟩, by decide⟩, hnone⟩, ⟨by decide, hnone⟩, ⟨by decide, hnone⟩,
      ⟨rangesOk_initial .., hnone⟩, ⟨filledOk_initial .., hnone⟩,
      ⟨codesOk_initial _ _ _, fun _ _ => by decide⟩, hnone⟩

/-! ### The step on a CMD write (rules R32, R89, R93) -/

section
variable {s : State} {w : Word} {rest : List HostAction}

/-- A step on the host's CMD write, when no command holds, starts a command. -/
theorem step_cmdWrite (hs : s.hold = none) (hscript : s.script = .write 32 0 w :: rest) :
    step s = startCommand w { s with script := rest } := by
  have hturn : step s = hostTurn s := by simp [step, stepState, hs]
  have hact : hostTurn s = hostAct (.write 32 0 w) { s with script := rest } := by simp [hostTurn, hscript]
  rw [hturn, hact]
  simp [hostAct, accessOk, writeRegister, State.busy, hs]

theorem startCommand_ok {i : Instr} (h : decode w = .ok i) : startCommand w s = exec i { s with host.cmd := w } := by
  simp [startCommand, h]

theorem startCommand_reserved {x : DecodeError} (h : decode w = .error x) :
    startCommand w s = execReserved { s with host.cmd := w } := by simp [startCommand, h]

/-- A reserved opcode in a state that accepts commands: UnsupportedOperation with no other change (rule R105). -/
theorem execReserved_live (h : s.Live) :
    execReserved s = .next { s with toEngine := s.raiseError .unsupportedOperation, hold := none } :=
  runCommand_stopped h rfl

end

/-- Settles O45: a CMD write is a started command (`step_cmdWrite`), and a placed word is a CMD write with no command in progress. -/
theorem stepRunsTheCommand : Obligations.StepRunsTheCommand := by
  intro s w rest hs hscript
  refine ⟨fun i hi => ?_, fun x hx hl => ?_, fun u n i hi => ?_⟩
  · rw [step_cmdWrite hs hscript, startCommand_ok hi]
  · rw [step_cmdWrite hs hscript, startCommand_reserved hx]
    exact execReserved_live hl
  · rw [step_cmdWrite (u.withFetchWord_hold 32 n) (u.withFetchWord_script 32 n), startCommand_ok hi]
    rfl

/-! ### Register accesses (rules R31, R81, R82) -/

section
variable {s : State} {offset : Nat}

theorem accessOk_word (h : offset ≤ 0x3C) (h4 : offset % 4 = 0) : accessOk 32 offset = true := by simp [accessOk, h, h4]

theorem hostAct_write_word (h : offset ≤ 0x3C) (h4 : offset % 4 = 0) (v : Word) :
    hostAct (.write 32 offset v) s = writeRegister offset v s := by simp [hostAct, accessOk_word h h4]

theorem hostAct_read_word (h : offset ≤ 0x3C) (h4 : offset % 4 = 0) :
    hostAct (.read 32 offset) s = .next (readRegister offset s) := by simp [hostAct, accessOk_word h h4]

theorem accessOk_bad {width : Nat} (h : width ≠ 32 ∨ offset % 4 ≠ 0 ∨ 0x3C < offset) : accessOk width offset = false := by
  simp only [accessOk, decide_eq_false_iff_not]
  omega

/-- A write to a register that is read-only or does not exist is ignored (rules R31, R82). -/
theorem writeRegister_ignored (h : offset ∉ [0, 4, 0x10, 0x14]) (v : Word) : writeRegister offset v s = .next s := by
  unfold writeRegister
  split <;> simp_all

/-- A read beyond the named registers returns 0 (rule R82). -/
theorem registerValue_unnamed (h : 0x28 ≤ offset) : registerValue offset s = 0 := by
  unfold registerValue
  split
  case h_10 => rfl
  all_goals omega

end

theorem setDrop_same (e : Engine) {r : Reg} (h : r ≠ .drop) : r.same e e.setDrop := by cases r <;> simp_all [Reg.same]
theorem setEoi_same (e : Engine) {r : Reg} (h : r ≠ .eoi) : r.same e e.setEoi := by cases r <;> simp_all [Reg.same]
theorem pushInput_same (e : Engine) (b : Byte) {r : Reg} (h : r ≠ .inFifo) : r.same e (e.pushInput b) := by
  cases r <;> simp_all [Reg.same]

theorem writeRegister_arg (s : State) (v : Word) :
    writeRegister 4 v s = .next (if s.busy then s else { s with host.arg := v }) := by
  cases hb : s.busy <;> simp [writeRegister, hb]

theorem writeRegister_cmd_busy {s : State} (h : s.busy = true) (v : Word) :
    writeRegister 0 v s = .next (s.onEngine Engine.setDrop) := by simp [writeRegister, h]

theorem writeRegister_inData (s : State) (v : Word) :
    writeRegister 0x10 v s = .next (s.onEngine
      (if s.host.inFifo.length < s.inDepth ∧ s.host.eoi = false then Engine.pushInput (v.setWidth 8) else Engine.setDrop)) := by
  by_cases h : s.host.inFifo.length < s.inDepth ∧ s.host.eoi = false
  · simp only [writeRegister, if_pos h]
  · simp only [writeRegister, if_neg h]

theorem writeRegister_inCtrl (s : State) (v : Word) :
    writeRegister 0x14 v s = .next (if v.getLsbD 0 then s.onEngine Engine.setEoi else s) := by
  by_cases h : v.getLsbD 0 = true
  · simp only [writeRegister, if_pos h]
  · simp only [writeRegister, if_neg h]

theorem busy_onEngine (s : State) (f : Engine → Engine) : (s.onEngine f).busy = s.busy := by
  unfold State.busy State.onEngine
  cases s.hold <;> rfl

/-- Settles O46: one case per register of the window; the edits of the engine change one register each. -/
theorem hostWrites : Obligations.HostWrites := by
  intro s v
  have hact : ∀ offset, offset ≤ 0x3C → offset % 4 = 0 → hostAct (.write 32 offset v) s = writeRegister offset v s :=
    fun offset h h4 => hostAct_write_word h h4 v
  refine ⟨fun hbusy => ?_, ?_, ?_, ?_, fun offset h h4 hn => ?_, fun width offset h => ?_⟩
  · exact ⟨s.onEngine Engine.setDrop, (hact 0 (by decide) rfl).trans (writeRegister_cmd_busy hbusy v), rfl,
      fun r => setDrop_same _, (busy_onEngine s _).trans hbusy⟩
  · exact (hact 4 (by decide) rfl).trans (writeRegister_arg s v)
  · refine ⟨_, (hact 0x10 (by decide) rfl).trans (writeRegister_inData s v), ?_⟩
    split
    · exact ⟨rfl, fun r => pushInput_same _ _⟩
    · exact ⟨rfl, fun r => setDrop_same _⟩
  · refine ⟨_, (hact 0x14 (by decide) rfl).trans (writeRegister_inCtrl s v), ?_⟩
    split
    · exact ⟨by simp_all [State.onEngine], fun r => setEoi_same _⟩
    · exact ⟨by simp_all, fun r _ => Reg.same_refl r _⟩
  · exact (hact offset h h4).trans (writeRegister_ignored hn v)
  · simp [hostAct, accessOk_bad h]

/-! ### Register reads (rules R33 to R39, R87, R310) -/

section
variable {s : State}

/-- Reading OUT_DATA takes the byte it returns out of the output FIFO, when there is one, and changes nothing else of the engine. -/
theorem popOutput_outFifo (s : State) : s.popOutput.host.outFifo = s.host.outFifo.drop 1 := by
  rcases h : s.host.outFifo with _ | ⟨b, rest⟩
  · simp [State.popOutput_nil s h, h]
  · simp [State.popOutput_cons s h]

theorem popOutput_seen (s : State) : s.popOutput.seen = s.seen := by
  rcases h : s.host.outFifo with _ | ⟨b, rest⟩
  · rw [State.popOutput_nil s h]
  · rw [State.popOutput_cons s h]

theorem popOutput_script (s : State) : s.popOutput.script = s.script := by
  rcases h : s.host.outFifo with _ | ⟨b, rest⟩
  · rw [State.popOutput_nil s h]
  · rw [State.popOutput_cons s h]

theorem readRegister_other {offset : Nat} (h : offset ≠ 0x1C) :
    readRegister offset s = { s with seen := s.seen ++ [registerValue offset s] } := if_neg h

theorem popOutput_same (s : State) {r : Reg} (hr : r ≠ .outFifo) : r.same s.toEngine s.popOutput.toEngine := by
  rcases h : s.host.outFifo with _ | ⟨b, rest⟩
  · rw [State.popOutput_nil s h]
    exact Reg.same_refl r _
  · rw [State.popOutput_cons s h]
    cases r <;> simp_all [Reg.same]

theorem inWait_iff : s.inWait = true ↔ ∃ h, s.hold = some h ∧ h.wait = .input := by
  unfold State.inWait
  cases s.hold <;> simp

theorem outWait_iff : s.outWait = true ↔ ∃ h, s.hold = some h ∧ h.wait = .output := by
  unfold State.outWait
  cases s.hold <;> simp

end

/-- What bit `i` of a field placed at bit `n` of a word is. -/
theorem getLsbD_field {w : Nat} (p : BitVec w) (n i : Nat) :
    (p.zeroExtend 32 <<< n).getLsbD i = (decide (i < 32) && (decide (n ≤ i) && p.getLsbD (i - n))) := by
  rw [BitVec.getLsbD_shiftLeft, BitVec.getLsbD_setWidth]
  by_cases hi : i < 32
  · have : i - n < 32 := by omega
    simp [hi, this, ← decide_not]
  · simp [hi]

/-- What bit `i` of STATUS is: the fields that it is put together of do not overlap (rule R33). -/
theorem statusWord_bit (s : State) {i : Nat} (hi : i < 32) :
    s.statusWord.getLsbD i = (
      (decide (12 ≤ i) && s.frame.phase.code.getLsbD (i - 12)) || (decide (8 ≤ i) && (errorCode s.frame.errcode).getLsbD (i - 8)) ||
      (decide (i = 6) && s.host.drop) || (decide (i = 5) && s.outWait) || (decide (i = 4) && s.inWait) ||
      (decide (i = 3) && s.host.full) || (decide (i = 2) && s.host.nodata) || (decide (i = 1) && s.host.err) ||
      (decide (i = 0) && s.busy)) := by
  have hflag : ∀ (b : Bool) (n : Nat), ((BitVec.ofBool b).zeroExtend 32 <<< n).getLsbD i = (decide (i = n) && b) := by
    intro b n
    rw [getLsbD_field]
    by_cases h : i = n
    · simp [h, h ▸ hi]
    · have : n ≤ i → i - n ≠ 0 := by omega
      by_cases hn : n ≤ i <;> simp_all
  have hbusy := hflag s.busy 0
  rw [BitVec.shiftLeft_zero] at hbusy
  simp only [State.statusWord, BitVec.getLsbD_or, hflag, hbusy, getLsbD_field, hi, decide_true, Bool.true_and]

/-- Above the flags of STATUS stand ERRCODE and STATE (rules R34, R310). -/
theorem statusWord_codeBit (s : State) {i : Nat} (hi : i < 32) (h7 : 7 ≤ i) :
    s.statusWord.getLsbD i =
      ((decide (12 ≤ i) && s.frame.phase.code.getLsbD (i - 12)) || (decide (8 ≤ i) && (errorCode s.frame.errcode).getLsbD (i - 8))) := by
  have hflag : i ≠ 6 ∧ i ≠ 5 ∧ i ≠ 4 ∧ i ≠ 3 ∧ i ≠ 2 ∧ i ≠ 1 ∧ i ≠ 0 := by omega
  simp [statusWord_bit s hi, hflag]

theorem statusWord_field (s : State) {n w : Nat} {q : BitVec w} (hn : 7 ≤ n) (hw : n + w ≤ 32)
    (h : ∀ i < w, ((decide (12 ≤ n + i) && s.frame.phase.code.getLsbD (n + i - 12)) ||
      (decide (8 ≤ n + i) && (errorCode s.frame.errcode).getLsbD (n + i - 8))) = q.getLsbD i) : s.statusWord.extractLsb' n w = q := by
  refine BitVec.eq_of_getLsbD_eq fun i hi => ?_
  rw [BitVec.getLsbD_extractLsb', statusWord_codeBit s (by omega) (by omega), h i hi]
  simp [hi]

/-- Settles O47: a register read returns `registerValue` (rules R31, R82), and STATUS is read bit by bit (`statusWord_bit`). -/
theorem hostReads : Obligations.HostReads := by
  intro s
  refine ⟨fun offset h h4 => ⟨readRegister offset s, hostAct_read_word h h4, ?_⟩, ?_, ?_⟩
  · by_cases hdata : offset = 0x1C
    · subst hdata
      exact ⟨popOutput_seen _, popOutput_script _, fun hn => absurd rfl hn,
        fun _ => ⟨popOutput_outFifo _, fun r hr => popOutput_same { s with seen := s.seen ++ [registerValue 0x1C s] } hr⟩⟩
    · rw [readRegister_other hdata]
      exact ⟨rfl, rfl, fun _ => rfl, fun h => absurd h hdata⟩
  · refine ⟨rfl, rfl, rfl, rfl, rfl, fun h => ?_, fun b rest h => ?_, rfl, rfl, ?_, fun offset h => registerValue_unnamed h⟩
    · simp [registerValue, h]
    · simp [registerValue, h]
    · cases h : s.host.eoi <;> simp [registerValue, h]
  · have hbit : ∀ i, i < 32 → (registerValue 0xC s).getLsbD i = _ := fun i => statusWord_bit s
    refine ⟨(hbit 0 (by norm_num)).trans ?_, (hbit 1 (by norm_num)).trans ?_, (hbit 2 (by norm_num)).trans ?_,
      (hbit 3 (by norm_num)).trans ?_, (hbit 6 (by norm_num)).trans ?_, ?_, ?_, ?_, ?_, ?_, ?_⟩
    · simp [State.busy]
    · simp
    · simp
    · simp
    · simp
    · rw [hbit 4 (by norm_num), ← inWait_iff]
      simp
    · rw [hbit 5 (by norm_num), ← outWait_iff]
      simp
    · refine statusWord_field s (by norm_num) (by norm_num) fun i hi => ?_
      obtain rfl : i = 0 := by omega
      simp
    · refine statusWord_field s (by norm_num) (by norm_num) fun i hi => ?_
      rw [BitVec.getLsbD_of_ge _ _ (by omega), BitVec.getLsbD_of_ge _ _ (by omega)]
      simp
    · refine statusWord_field s (q := errorCode s.frame.errcode) (by norm_num) (by norm_num) fun i hi => ?_
      have : ¬ 12 ≤ 8 + i := by omega
      simp [this]
    · refine statusWord_field s (by norm_num) (by norm_num) fun i hi => ?_
      rw [BitVec.getLsbD_of_ge (errorCode _) _ (by omega)]
      simp

end Sys2Proof.Machine
end

section
/-! SUPPORT. The five arrays (rules R51, R84, R178): what each piece does to the one it writes. A write fills one more index and empties
none, so what was written stays written. -/

namespace Sys2Proof.Machine

variable {α : Type}

/-! ### Pieces that write their array through one operation -/

section
variable {I S : Engine → Prop}

/-- The condition is about BLK and BLK_LEN only, of the block state. -/
def BlockBytesOnly (I : Engine → Prop) : Prop :=
  ∀ (e : Engine) (u : BlockUnit), u.blk = e.block.blk → u.len = e.block.len → I e → I { e with block := u }

theorem keeps_appendRun (happ : ∀ v, Cmd.Keeps I S (blkAppend v)) (v : Byte) (n : Nat) : Cmd.Keeps I S (appendRun v n) :=
  sat_ite (fun _ => keeps_repeatCmd (happ v) n) fun _ => sat_bind (keeps_repeatCmd (happ v) 4) fun _ => happ _

theorem keeps_flushRun (hu : BlockBytesOnly I) (happ : ∀ v, Cmd.Keeps I S (blkAppend v)) : Cmd.Keeps I S flushRun := by
  refine sat_get_bind' fun e₀ _ => sat_ite (fun _ => sat_pure fun _ h => h) fun _ => ?_
  exact sat_bind (keeps_appendRun happ _ _) fun _ e he => hu e _ rfl rfl he

theorem keeps_rle1Put (hu : BlockBytesOnly I) (happ : ∀ v, Cmd.Keeps I S (blkAppend v)) (b : Byte) : Cmd.Keeps I S (rle1Put b) := by
  have haccept : Cmd.Keeps I S (rle1Accept b) := by
    refine sat_get_bind' fun e₀ _ => sat_ite (fun _ e he => hu e _ rfl rfl he) fun _ => ?_
    exact sat_bind (keeps_flushRun hu happ) fun _ e he => hu e _ rfl rfl he
  refine sat_get_bind' fun e₀ _ => sat_ite (fun _ => sat_pure fun _ h => h) fun _ => sat_bind haccept fun _ => ?_
  exact sat_bind (Q := fun _ => I) (fun e he => hu e _ rfl rfl he) fun _ => sat_pure fun _ h => h

theorem keeps_fetchByte (hu : BlockBytesOnly I) (hhop : Cmd.Keeps I S bwtHop) : Cmd.Keeps I S fetchByte := by
  have hrand : Cmd.Keeps I S randStep := by
    refine sat_get_bind' fun e₀ _ => sat_bind (Q := fun _ => I) ?_ fun _ =>
      sat_bind (Q := fun _ => I) (fun e he => hu e _ rfl rfl he) fun _ => sat_get_bind' fun _ _ => sat_pure fun _ h => h
    exact sat_ite (fun _ e he => hu e _ rfl rfl he) fun _ => sat_pure fun _ h => h
  refine sat_bind hhop fun b => sat_get_bind' fun e _ => sat_ite (fun _ => ?_) fun _ => sat_pure fun _ h => h
  exact sat_bind hrand fun flip => sat_pure fun _ h => h

theorem keeps_rle1Next (hu : BlockBytesOnly I) (hhop : Cmd.Keeps I S bwtHop) : Cmd.Keeps I S rle1Next := by
  have hdata : ∀ b, Cmd.Keeps I S (rle1Data b) := fun b =>
    sat_bind (Q := fun _ => I) (fun e he => hu e _ rfl rfl he) fun _ => sat_pure fun _ h => h
  have hpass : ∀ {go : Byte → Cmd (Option Byte)}, (∀ b, Cmd.Keeps I S (go b)) → Cmd.Keeps I S (rle1Pass go) := by
    intro go hgo
    refine sat_get_bind' fun e₀ _ => sat_ite (fun _ => ?_) fun _ => sat_ite (fun _ => sat_pure fun _ h => h) fun _ => ?_
    · exact sat_bind (Q := fun _ => I) (fun e he => hu e _ rfl rfl he) fun _ => sat_pure fun _ h => h
    · exact sat_bind (keeps_fetchByte hu hhop) hgo
  refine hpass fun b => sat_get_bind' fun e₀ _ => sat_ite (fun _ => ?_) fun _ => hdata b
  exact sat_bind (Q := fun _ => I) (fun e he => hu e _ rfl rfl he) fun _ => hpass hdata

/-- Choosing the tables writes RFREQ and LEN, and SELECTORS one entry at a time (rules R222 to R226). -/
theorem keeps_hufOptimize {D : List Reg} (hI : DependsOn D I) (hS : ∀ e, I e → S e) (hlen : Reg.len ∉ D) (hrfreq : Reg.rfreq ∉ D)
    (hsel : ∀ g t, Cmd.Keeps I S (selectorSet g t)) : Cmd.Keeps I S hufOptimize := by
  have hread : ∀ {β : Type} {c : Cmd β}, Writes [] c → Cmd.Keeps I S c := fun hw => keeps_of_writes hI hS hw (by simp)
  have hl : ∀ {β : Type} {c : Cmd β}, Writes [.len] c → Cmd.Keeps I S c := fun hw => keeps_of_writes hI hS hw (by simpa using hlen)
  have hr : ∀ {β : Type} {c : Cmd β}, Writes [.rfreq] c → Cmd.Keeps I S c := fun hw => keeps_of_writes hI hS hw (by simpa using hrfreq)
  have hgroups : ∀ nGroups gs total, Cmd.Keeps I S (selectGroups nGroups gs total) := by
    intro nGroups gs
    induction gs with
    | nil => exact fun _ => sat_pure fun _ h => h
    | cons g gs ih =>
      intro total
      refine sat_bind (hread (writes_groupSyms g)) fun grp => ?_
      refine sat_bind (hread (rel_collect (composes_frame _) fun t => writes_groupCost grp t)) fun costs => ?_
      refine sat_bind (hsel _ _) fun _ => sat_bind (keeps_forEach fun s _ => hr (writes_rfreqBump _ s)) fun _ => ih _
  have hpass : Cmd.Keeps I S selectPass := by
    refine sat_get_bind' fun e _ => sat_bind (keeps_forEach fun t _ => hr (writes_setRfreqRow t _)) fun _ => ?_
    exact sat_bind (hgroups _ _ _) fun total =>
      sat_bind (keeps_forEach fun t _ => hl (writes_reallocate _ t)) fun _ => sat_pure fun _ h => h
  have hpasses : ∀ n c, Cmd.Keeps I S (selectPasses n c) := by
    intro n
    induction n with
    | zero => exact fun _ => sat_pure fun _ h => h
    | succ n ih => exact fun _ => sat_bind hpass ih
  exact sat_bind (hread writes_selectChecks) fun _ => sat_bind (hl writes_seed) fun _ => hpasses _ _

end

/-! ### The canonical form (rule R51) -/

def storeRegs : List Reg := [.blk, .bwtArr, .merged, .mtfStream, .selectors]

theorem dependsOn_storesWf : DependsOn storeRegs Engine.StoresWf := by
  intro e e' h he
  have h1 : e.block.blk = e'.block.blk := h .blk (by decide)
  have h2 : e.bwt.arr = e'.bwt.arr := h .bwtArr (by decide)
  have h3 : e.bwt.merged = e'.bwt.merged := h .merged (by decide)
  have h4 : e.mtf.stream = e'.mtf.stream := h .mtfStream (by decide)
  have h5 : e.huf.selectors = e'.huf.selectors := h .selectors (by decide)
  rwa [Engine.StoresWf, h1, h2, h3, h4, h5] at he

theorem keeps_storesWf_of_writes {W : List Reg} {c : Cmd α} (hw : Writes W c) (h : ∀ r ∈ W, r ∉ storeRegs) :
    Cmd.Keeps Engine.StoresWf Engine.StoresWf c := keeps_of_writes dependsOn_storesWf (fun _ h => h) hw h

section
variable {S : Engine → Prop}

theorem blkSet_keeps_storesWf (i : Nat) (v : Byte) : Cmd.Keeps Engine.StoresWf S (blkSet i v) :=
  fun _ ⟨h1, h2⟩ => meets_blkSet fun _ => ⟨Store.wf_write h1 _ _, h2⟩

theorem bwtArrSet_keeps_storesWf (i : Nat) (v : Byte) : Cmd.Keeps Engine.StoresWf S (bwtArrSet i v) :=
  fun _ ⟨h1, h2, h3⟩ => meets_bwtArrSet fun _ => ⟨h1, Store.wf_write h2 _ _, h3⟩

theorem blkAppend_keeps_storesWf (v : Byte) : Cmd.Keeps Engine.StoresWf S (blkAppend v) :=
  fun _ ⟨h1, h2⟩ => meets_blkAppend fun _ => ⟨Store.wf_write h1 _ _, h2⟩

theorem selectorSet_keeps_storesWf (g t : Nat) : Cmd.Keeps Engine.StoresWf S (selectorSet g t) :=
  sat_get_bind' fun _ ⟨_, _, _, _, h5⟩ =>
    sat_bind (sat_storeSet (Q := fun m e => Store.wf m ∧ e.StoresWf) fun _ _ he => ⟨Store.wf_write h5 _ _, he⟩)
      fun _ _ ⟨hm, h1, h2, h3, h4, _⟩ => ⟨h1, h2, h3, h4, hm⟩

theorem mergedSet_keeps_storesWf (i : Nat) (v : Word) : Cmd.Keeps Engine.StoresWf S (mergedSet i v) :=
  sat_get_bind' fun _ ⟨_, _, h3, _⟩ =>
    sat_bind (sat_storeSet (Q := fun m e => Store.wf m ∧ e.StoresWf) fun _ _ he => ⟨Store.wf_write h3 _ _, he⟩)
      fun _ _ ⟨hm, h1, h2, _, h45⟩ => ⟨h1, h2, hm, h45⟩

end

theorem bwtForward_keeps_storesWf : Cmd.Keeps Engine.StoresWf Engine.StoresWf bwtForward := by
  refine sat_get_bind' fun e₀ _ => ?_
  refine sat_bind (keeps_storesWf_of_writes (rel_collect (composes_frame _) fun i => writes_blkGet i) (by simp)) fun b => ?_
  refine sat_bind (Q := fun _ => Engine.StoresWf) ?_ fun _ => ?_
  · cases b with
    | nil => exact sat_pure fun _ h => h
    | cons b₀ b => exact blkSet_keeps_storesWf _ _
  refine sat_bind (keeps_forEach fun p _ => bwtArrSet_keeps_storesWf p.2 p.1) fun _ => ?_
  exact sat_bind (Q := fun _ => Engine.StoresWf) (fun _ h => h) fun _ => sat_get_bind' fun _ _ => sat_pure fun _ h => h

theorem buildInverse_keeps_storesWf : Cmd.Keeps Engine.StoresWf Engine.StoresWf buildInverse := by
  refine sat_get_bind' fun e₀ _ => ?_
  refine sat_bind (keeps_storesWf_of_writes (rel_collect (composes_frame _) fun i => writes_bwtArrGet i) (by simp)) fun b => ?_
  refine sat_bind (Q := fun _ => Engine.StoresWf) (fun _ h => h) fun _ => keeps_forEach fun p _ => ?_
  exact sat_get_bind' fun _ _ => sat_bind (mergedSet_keeps_storesWf _ _) fun _ _ h => h

theorem bwtInvSetup_keeps_storesWf : Cmd.Keeps Engine.StoresWf Engine.StoresWf bwtInvSetup := by
  refine sat_get_bind' fun e₀ _ => sat_raiseWhen_bind (fun _ h => h) fun _ => sat_bind buildInverse_keeps_storesWf fun _ => ?_
  refine sat_bind (keeps_storesWf_of_writes (writes_mergedGet _) (by simp)) fun c => ?_
  exact sat_bind (Q := fun _ => Engine.StoresWf) (fun _ h => h) fun _ => sat_pure fun _ h => h

theorem prepareCodes_keeps_storesWf : Cmd.Keeps Engine.StoresWf Engine.StoresWf prepareCodes := by
  refine sat_bind (keeps_hufOptimize dependsOn_storesWf (fun _ h => h) (by decide) (by decide) selectorSet_keeps_storesWf) fun _ => ?_
  exact sat_get_bind' fun e _ => keeps_forEach fun t _ => keeps_storesWf_of_writes (writes_assignCodes t) (by decide)

/-- Every piece keeps the partial maps in canonical form. -/
theorem piece_keeps_storesWf {W : List Reg} {c : Cmd α} (h : Piece W c) (ho : ∃ r ∈ W, r ∈ storeRegs) :
    Cmd.Keeps Engine.StoresWf Engine.StoresWf c := by
  have hblock : BlockBytesOnly Engine.StoresWf := fun e u hb _ ⟨h1, h2⟩ => ⟨by rw [hb]; exact h1, h2⟩
  cases h with
  | flushRun => exact keeps_flushRun hblock blkAppend_keeps_storesWf
  | rle1Put b => exact keeps_rle1Put hblock blkAppend_keeps_storesWf b
  | bwtForward => exact bwtForward_keeps_storesWf
  | bwtInvSetup => exact bwtInvSetup_keeps_storesWf
  | emitSym s => exact fun _ ⟨h1, h2, h3, h4, h5⟩ => meets_emitSym fun _ => ⟨h1, h2, h3, Store.wf_write h4 _ _, h5⟩
  | bwtAppend v => exact fun _ ⟨h1, h2, h3⟩ => meets_bwtAppend fun _ => ⟨h1, Store.wf_write h2 _ _, h3⟩
  | selectorSet g t => exact selectorSet_keeps_storesWf g t
  | prepareCodes => exact prepareCodes_keeps_storesWf
  | _ => exact absurd ho (by decide)

theorem invariant_storesWf : Invariant Engine.StoresWf Engine.StoresWf :=
  invariant_of_pieces (by decide) (by decide) dependsOn_storesWf dependsOn_storesWf (fun _ h => h) storesWf_initial piece_keeps_storesWf

/-! ### Written below the lengths (rules R51, R84) -/

/-- Every index below `n` has been written. -/
def Store.FullTo (m : Store α) (n : Nat) : Prop := ∀ i < n, ∃ v, Store.read m i = some v

theorem Store.FullTo.write {m : Store α} {n : Nat} (h : Store.FullTo m n) (i : Nat) (v : α) : Store.FullTo (Store.write m i v) n := by
  intro j hj
  rw [Store.read_write]
  split
  · exact ⟨v, rfl⟩
  · exact h j hj

theorem Store.FullTo.push {m : Store α} {n : Nat} (h : Store.FullTo m n) (v : α) : Store.FullTo (Store.write m n v) (n + 1) := by
  intro j hj
  rcases Nat.lt_succ_iff_lt_or_eq.mp hj with hj | rfl
  · exact h.write n v j hj
  · exact ⟨v, Store.read_write_same m j v⟩

def filledRegs : List Reg := [.blk, .blkLen, .bwtArr, .bwtLen, .mtfStream, .mtfLen, .merged, .curEntry, .hopsLeft]

theorem dependsOn_filledOk : DependsOn filledRegs Engine.FilledOk := by
  intro e e' h he
  have h1 : e.block.blk = e'.block.blk := h .blk (by decide)
  have h2 : e.block.len = e'.block.len := h .blkLen (by decide)
  have h3 : e.bwt.arr = e'.bwt.arr := h .bwtArr (by decide)
  have h4 : e.bwt.len = e'.bwt.len := h .bwtLen (by decide)
  have h5 : e.mtf.stream = e'.mtf.stream := h .mtfStream (by decide)
  have h6 : e.mtf.len = e'.mtf.len := h .mtfLen (by decide)
  have h7 : e.bwt.merged = e'.bwt.merged := h .merged (by decide)
  have h8 : e.bwt.curEntry = e'.bwt.curEntry := h .curEntry (by decide)
  have h9 : e.bwt.hopsLeft = e'.bwt.hopsLeft := h .hopsLeft (by decide)
  obtain ⟨hblk, harr, hstream, hwalk⟩ := he
  rw [h1, h2] at hblk
  rw [h3, h4] at harr
  rw [h5, h6] at hstream
  rw [h7, h8, h9] at hwalk
  exact ⟨hblk, harr, hstream, hwalk⟩

theorem keeps_filledOk_of_writes {W : List Reg} {c : Cmd α} (hw : Writes W c) (h : ∀ r ∈ W, r ∉ filledRegs) :
    Cmd.Keeps Engine.FilledOk Engine.FilledOk c := keeps_of_writes dependsOn_filledOk (fun _ h => h) hw h

theorem blkSet_keeps_filledOk (i : Nat) (v : Byte) : Cmd.Keeps Engine.FilledOk Engine.FilledOk (blkSet i v) :=
  fun _ he => meets_blkSet fun _ => { he with blk := Store.FullTo.write he.blk i v }

theorem blkAppend_keeps_filledOk (v : Byte) : Cmd.Keeps Engine.FilledOk Engine.FilledOk (blkAppend v) :=
  fun _ he => meets_blkAppend fun hlt => { he with blk := by rw [storeByte_len hlt]; exact Store.FullTo.push he.blk v }

/-- The hop goes to the entry that CUR_ENTRY leads to, which leads on. -/
theorem bwtHop_keeps_filledOk : Cmd.Keeps Engine.FilledOk Engine.FilledOk bwtHop := by
  refine sat_get_bind fun e₀ he₀ => sat_bind (Q := fun x e => e = e₀ ∧ e₀.bwt.merged.read (e₀.bwt.curEntry.toNat / 256) = some x) ?_ ?_
  · refine sat_get_bind fun e he => sat_storeGet fun x hx => ?_
    rintro _ rfl
    rw [he, Nat.shiftRight_eq_div_pow] at hx
    exact ⟨he, hx⟩
  · refine fun x => sat_bind (Q := fun _ => Engine.FilledOk) ?_ fun _ => sat_pure fun _ h => h
    rintro e ⟨rfl, hx⟩
    refine { he₀ with walk := fun hhops => ?_ }
    have hhops : 0 < e.bwt.hopsLeft.toNat := by
      by_contra h0
      obtain h0 : e.bwt.hopsLeft.toNat = 0 := by omega
      simp [h0] at hhops
    obtain ⟨n, hcur, hn⟩ := he₀.walk hhops
    obtain ⟨y, hy, hlt⟩ := hn _ hcur
    obtain rfl : x = y := Option.some.inj (hx.symm.trans hy)
    exact ⟨n, hlt, hn⟩

/-- BWT_ARR is written from 0 on, as long as the block is, before BWT_LEN is set to that length (rule R177). -/
theorem bwtForward_keeps_filledOk : Cmd.Keeps Engine.FilledOk Engine.FilledOk bwtForward := by
  refine sat_get_bind' fun e₀ _ => ?_
  have hlen : (BitVec.ofNat 20 e₀.block.len.toNat).toNat = e₀.block.len.toNat := by simp
  generalize e₀.block.len.toNat = len at hlen
  refine sat_bind (sat_collect fun i => keeps_filledOk_of_writes (writes_blkGet i) (by simp)) fun b => ?_
  rw [List.length_range]
  refine sat_bind (Q := fun _ e => b.length = len ∧ e.FilledOk) ?_ fun _ => ?_
  · cases b with
    | nil => exact sat_pure fun _ h => h
    | cons b₀ b => exact fun e he => (blkSet_keeps_filledOk len b₀ e he.2).mono (fun _ _ h => ⟨he.1, h⟩) fun _ h => h
  refine sat_bind (Q := fun _ e => e.FilledOk ∧ Store.FullTo e.bwt.arr len) ?_ fun _ => ?_
  · have hloop := sat_forEach (xs := (bwtLast b).zipIdx) (c := fun p => bwtArrSet p.2 p.1) (S := Engine.FilledOk)
      (fun k e => e.FilledOk ∧ Store.FullTo e.bwt.arr k) fun k hk e ⟨he, hfull⟩ => by
        rw [List.getElem_zipIdx, Nat.zero_add]
        exact meets_bwtArrSet fun _ => ⟨{ he with bwtArr := Store.FullTo.write he.bwtArr _ _ }, hfull.push _⟩
    rintro e ⟨hb, he⟩
    refine (hloop e ⟨he, fun i hi => absurd hi (Nat.not_lt_zero i)⟩).mono (fun _ e h => ?_) fun _ h => h
    rwa [List.length_zipIdx, bwtLast_length, hb] at h
  refine sat_bind (Q := fun _ => Engine.FilledOk) ?_ fun _ => sat_get_bind' fun _ _ => sat_pure fun _ h => h
  rintro e ⟨he, hfull⟩
  exact { he with bwtArr := by rw [hlen]; exact hfull }

/-! ### The inverse walk is set up inside MERGED (rule R178) -/

/-- The last loop of `BuildInverse()` after the first `k` positions, from the engine `e₀`: they have been placed inside MERGED, and
CHAR_BASE counts them. -/
def PlacedTo (e₀ : Engine) (k : Nat) (e : Engine) : Prop :=
  ∃ m c, e = { e₀ with bwt.merged := m, bwt.charBase := c } ∧
    (∀ i < k, placeOf e₀.bwtBytes i < 900000 ∧ Store.read m (placeOf e₀.bwtBytes i) = some (packed e₀.bwtBytes i)) ∧
    ∀ v : Byte, (byteGet c v).toNat =
      e₀.bwtBytes.countP (fun x => decide (x < v)) + (e₀.bwtBytes.take k).countP (fun x => decide (x = v))

theorem mergedSet_fault {e : Engine} {i : Nat} {v : Word} (h : ¬ i < 900000) :
    mergedSet i v e = .error (.fault (.outOfArray .merged i)) e := by
  unfold mergedSet
  rw [get_bind_run]
  exact bind_error (by simp [storeSet, bwtSize, h])

theorem placedTo_zero (e₀ : Engine) :
    PlacedTo e₀ 0 { e₀ with bwt.charBase := tabulate 256 fun v => BitVec.ofNat 20 (charBaseOf e₀.bwtBytes v) } := by
  refine ⟨e₀.bwt.merged, _, rfl, fun i hi => absurd hi (Nat.not_lt_zero i), fun v => ?_⟩
  have hle : charBaseOf e₀.bwtBytes v.toNat ≤ e₀.bwt.len.toNat := List.countP_le_length.trans_eq bwtBytes_length
  have hlt := e₀.bwt.len.isLt
  rw [byteGet_tabulate, BitVec.toNat_ofNat, Nat.mod_eq_of_lt (by omega)]
  simp [charBaseOf, BitVec.lt_def]

/-- One pass places its position, or finds no room for it in MERGED. -/
theorem placeMerged_places {e₀ : Engine} {S : Engine → Prop} {k : Nat} (hk : k < e₀.bwtBytes.length) :
    Cmd.Sat (PlacedTo e₀ k) (placeMerged k e₀.bwtBytes[k]) (fun _ => PlacedTo e₀ (k + 1)) S := by
  rintro e ⟨m, c, rfl, hread, hcount⟩
  generalize hb : e₀.bwtBytes = b at hk hread hcount
  have hbk : b.getD k 0 = b[k] := by simp [hk]
  have hplace : (byteGet c b[k]).toNat = placeOf b k := by rw [hcount, placeOf, hbk]
  simp only [placeMerged, get_bind_run, hplace]
  by_cases hroom : placeOf b k < 900000
  · rw [bind_ok (mergedSet_run hroom)]
    refine ⟨_, _, rfl, fun i hi => ?_, fun v => ?_⟩
    · rw [hb, Store.read_write]
      rcases Nat.lt_succ_iff_lt_or_eq.mp hi with hik | rfl
      · rw [if_neg fun h => hik.ne (placeOf_inj b (by omega) hk h)]
        exact hread i hik
      · rw [if_pos rfl, pack_eq, packed, hbk]
        exact ⟨hroom, rfl⟩
    · rw [hb, byteGet_byteSet, List.take_succ_eq_append_getElem hk, List.countP_append]
      split
      · next hv =>
        rw [BitVec.toNat_ofNat, Nat.mod_eq_of_lt (by omega), placeOf, hbk, hv]
        simp
        omega
      · next hv =>
        rw [hcount v]
        simp [Ne.symm hv]
  · rw [bind_error (mergedSet_fault hroom)]
    trivial

/-- `BuildInverse()` ends only where all of MERGED below BWT_LEN has been written with entries that lead below BWT_LEN: with more than
900000 bytes, the place 900000 would have been written too. -/
theorem sat_buildInverse {e₀ : Engine} {S : Engine → Prop} (he₀ : e₀.BwtFilled) :
    Cmd.Sat (fun e => e = e₀) buildInverse (fun _ e => ∃ m c, e = { e₀ with bwt.merged := m, bwt.charBase := c } ∧
      ∀ k < e₀.bwt.len.toNat, ∃ x : Word, Store.read m k = some x ∧ x.toNat / 256 < e₀.bwt.len.toNat) S := by
  rintro e rfl
  unfold buildInverse
  rw [get_bind_run, bind_ok (collect_bwtArrGet he₀)]
  simp only [modBwt_bind_run]
  have hloop := sat_forEach (xs := e.bwtBytes.zipIdx) (c := fun p => placeMerged p.2 p.1) (S := S) (PlacedTo e) fun k hk => by
    rw [List.getElem_zipIdx, Nat.zero_add]
    exact placeMerged_places (by simpa using hk)
  refine (hloop _ (placedTo_zero e)).mono (fun _ e' h => ?_) fun _ h => h
  obtain ⟨m, c, rfl, hread, -⟩ := h
  rw [List.length_zipIdx, bwtBytes_length] at hread
  have hplaced : ∀ k < e.bwt.len.toNat, k < 900000 ∧
      ∃ i < e.bwt.len.toNat, Store.read m k = some (packed e.bwtBytes i) := by
    intro k hk
    obtain ⟨hpl, hlt⟩ := placeOf_positionOrder e.bwtBytes (k := k) (by rwa [bwtBytes_length])
    rw [bwtBytes_length] at hlt
    obtain ⟨hroom, hr⟩ := hread _ hlt
    rw [hpl] at hroom hr
    exact ⟨hroom, _, hlt, hr⟩
  have hlen : e.bwt.len.toNat ≤ 900000 := by
    by_contra hgt
    exact absurd (hplaced 900000 (by omega)).1 (by norm_num)
  refine ⟨m, c, rfl, fun k hk => ?_⟩
  obtain ⟨-, i, hi, hr⟩ := hplaced k hk
  exact ⟨_, hr, by rwa [packed_succ _ (by omega)]⟩

theorem bwtInvSetup_keeps_filledOk : Cmd.Keeps Engine.FilledOk Engine.FilledOk bwtInvSetup := by
  refine sat_get_bind fun e₀ he₀ => sat_raiseWhen_bind (fun e he => he ▸ he₀) fun hp => ?_
  have hp := of_decide_eq_false hp
  refine sat_bind (sat_buildInverse he₀.bwtArr) fun _ => ?_
  refine sat_bind (Q := fun x e => ∃ m c, e = { e₀ with bwt.merged := m, bwt.charBase := c } ∧ x.toNat / 256 < e₀.bwt.len.toNat ∧
      ∀ k < e₀.bwt.len.toNat, ∃ x : Word, Store.read m k = some x ∧ x.toNat / 256 < e₀.bwt.len.toNat) ?_ fun x => ?_
  · refine sat_get_bind fun e he => sat_storeGet fun x hx => ?_
    rintro _ rfl
    obtain ⟨m, c, rfl, hm⟩ := he
    obtain ⟨y, hy, hlt⟩ := hm e₀.bwt.startPtr.toNat (by omega)
    obtain rfl : x = y := Option.some.inj (hx.symm.trans hy)
    exact ⟨m, c, rfl, hlt, hm⟩
  · refine sat_bind (Q := fun _ => Engine.FilledOk) ?_ fun _ => sat_pure fun _ h => h
    rintro e ⟨m, c, rfl, hx, hm⟩
    exact { blk := he₀.blk, bwtArr := he₀.bwtArr, stream := he₀.stream, walk := fun _ => ⟨_, hx, hm⟩ }

/-- Every piece keeps the arrays filled. -/
theorem piece_keeps_filledOk {W : List Reg} {c : Cmd α} (h : Piece W c) (ho : ∃ r ∈ W, r ∈ filledRegs) :
    Cmd.Keeps Engine.FilledOk Engine.FilledOk c := by
  have hblock : BlockBytesOnly Engine.FilledOk := fun e u hb hl he => { he with blk := by rw [hb, hl]; exact he.blk }
  cases h with
  | flushRun => exact keeps_flushRun hblock blkAppend_keeps_filledOk
  | rle1Put b => exact keeps_rle1Put hblock blkAppend_keeps_filledOk b
  | rle1Next => exact keeps_rle1Next hblock bwtHop_keeps_filledOk
  | blkEncOpen hk => exact fun e he => { he with blk := fun i hi => absurd hi (Nat.not_lt_zero i) }
  | reopenBlock => exact fun e he => { he with blk := fun i hi => absurd hi (Nat.not_lt_zero i) }
  | bwtForward => exact bwtForward_keeps_filledOk
  | bwtInvSetup => exact bwtInvSetup_keeps_filledOk
  | bwtHop => exact bwtHop_keeps_filledOk
  | mtfInit d =>
    intro e he
    cases d
    · exact { he with stream := fun i hi => absurd hi (Nat.not_lt_zero i) }
    · exact { he with stream := fun i hi => absurd hi (Nat.not_lt_zero i), bwtArr := fun i hi => absurd hi (Nat.not_lt_zero i) }
  | emitSym s =>
    exact fun e he => meets_emitSym fun hlt => { he with stream := by rw [emitOne_len hlt]; exact Store.FullTo.push he.stream _ }
  | bwtAppend v =>
    refine fun e he => meets_bwtAppend fun hlt => { he with bwtArr := ?_ }
    have hlen : (e.bwtStored v).bwt.len.toNat = e.bwt.len.toNat + 1 := by
      show (BitVec.ofNat 20 (e.bwt.len.toNat + 1)).toNat = _
      rw [BitVec.toNat_ofNat]
      omega
    rw [hlen]
    exact Store.FullTo.push he.bwtArr v
  | _ => exact absurd ho (by decide)

theorem invariant_filledOk : Invariant Engine.FilledOk Engine.FilledOk :=
  invariant_of_pieces (by decide) (by decide) dependsOn_filledOk dependsOn_filledOk (fun _ h => h) filledOk_initial piece_keeps_filledOk

/-- Settles O55: every piece that a command body is built of keeps the arrays in canonical form (`piece_keeps_storesWf`) and filled
(`piece_keeps_filledOk`), and the host's actions do not touch them (`Invariant.step`). -/
theorem stepKeepsArrays : Obligations.StepKeepsArrays :=
  fun _ _ h => ⟨invariant_storesWf.step h, invariant_filledOk.step h⟩

end Sys2Proof.Machine
end

section
/-! SUPPORT. The lengths that the allocator gives are those of a code (rules R211, R212): package-merge, run for 20 levels, gives no symbol
more than 20 bits, and its lengths meet the Kraft inequality. A taken item of level `j` carries `2^j` units of spread; a symbol that is
taken `c` times, at most once at each level, carries no more than `spread j c`. -/

namespace Sys2Proof.Machine

/-! ### What a merge begins with -/

/-- How often a symbol occurs in the leaves of some items. -/
def leafCount (xs : List Item) (s : Nat) : Nat := (xs.flatMap Item.leaves).count s

theorem leafCount_append (xs ys : List Item) (s : Nat) : leafCount (xs ++ ys) s = leafCount xs s + leafCount ys s := by
  simp [leafCount, List.flatMap_append]

theorem leafCount_perm {xs ys : List Item} (h : xs.Perm ys) (s : Nat) : leafCount xs s = leafCount ys s :=
  (h.flatMap_right Item.leaves).count_eq s

theorem packages_length : ∀ xs : List Item, (packages xs).length = xs.length / 2
  | [] => rfl
  | [_] => by simp [packages]
  | a :: b :: rest => by
    rw [packages, List.length_cons, packages_length rest, List.length_cons, List.length_cons]
    omega

/-- The first packages hold the leaves of twice as many items. -/
theorem leafCount_take_packages (b : Nat) (xs : List Item) (s : Nat) :
    leafCount ((packages xs).take b) s = leafCount (xs.take (2 * min b (packages xs).length)) s := by
  induction b generalizing xs with
  | zero => simp
  | succ b ih =>
    match xs with
    | [] => simp [packages]
    | [_] => simp [packages, leafCount]
    | x :: y :: rest =>
      have hmin : 2 * min (b + 1) (packages (x :: y :: rest)).length = 2 * min b (packages rest).length + 2 := by
        rw [packages, List.length_cons]
        omega
      have htake : (x :: y :: rest).take (2 * min b (packages rest).length + 2) = [x, y] ++ rest.take (2 * min b (packages rest).length) := rfl
      rw [hmin, htake, leafCount_append, ← ih rest, packages, List.take_succ_cons]
      simp [leafCount, List.flatMap_cons, Nat.add_assoc]

theorem mergeItems_length (ls ps : List Item) : (mergeItems ls ps).length = ls.length + ps.length := by
  induction ls generalizing ps with
  | nil => simp [mergeItems]
  | cons l ls ih =>
    have := congrArg List.length (List.takeWhile_append_dropWhile (p := fun p : Item => decide (p.weight < l.weight)) (l := ps))
    rw [List.length_append] at this
    rw [mergeItems, List.length_append, List.length_cons, ih, List.length_cons]
    omega

/-- A merge begins with what each of the two lists begins with. -/
theorem take_mergeItems (ls ps : List Item) {m : Nat} (hm : m ≤ ls.length + ps.length) :
    ∃ a b, a ≤ ls.length ∧ b ≤ ps.length ∧ a + b = m ∧ ((mergeItems ls ps).take m).Perm (ls.take a ++ ps.take b) := by
  induction ls generalizing ps m with
  | nil => exact ⟨0, m, le_rfl, by simpa using hm, Nat.zero_add m, by simp [mergeItems]⟩
  | cons l ls ih =>
    generalize hpre : ps.takeWhile (fun p => p.weight < l.weight) = pre
    generalize hrest : ps.dropWhile (fun p => p.weight < l.weight) = rest
    have hps : ps = pre ++ rest := by rw [← hpre, ← hrest, List.takeWhile_append_dropWhile]
    rw [mergeItems, hpre, hrest, hps]
    rw [hps, List.length_append, List.length_cons] at hm
    rcases Nat.lt_or_ge pre.length m with hlt | hge
    · obtain ⟨a, b, ha, hb, hab, hperm⟩ := ih rest (m := m - pre.length - 1) (by omega)
      refine ⟨a + 1, pre.length + b, by simpa using ha, by simpa using hb, by omega, ?_⟩
      rw [show m = pre.length + ((m - pre.length - 1) + 1) by omega, List.take_length_add_append, List.take_succ_cons,
        List.take_succ_cons, List.take_length_add_append]
      refine (List.perm_middle.trans ((hperm.append_left pre).cons l)).trans ?_
      rw [List.cons_append]
      refine List.Perm.cons l ?_
      exact (List.perm_append_comm_assoc pre _ _)
    · refine ⟨0, m, Nat.zero_le _, by rw [List.length_append]; omega, Nat.zero_add m, ?_⟩
      rw [List.take_append_of_le_length hge, List.take_append_of_le_length hge]
      exact List.Perm.refl _

/-! ### Spread -/

/-- What a symbol that is taken `c` times carries, in units of `2^-j`: `2^(j-1) + 2^(j-2) + ...`, `c` terms. -/
def spread (j c : Nat) : Nat := 2 ^ j - 2 ^ (j - c)

theorem spread_add (j c : Nat) : spread j c + 2 ^ (j - c) = 2 ^ j := by
  have : 2 ^ (j - c) ≤ 2 ^ j := Nat.pow_le_pow_right (by norm_num) (Nat.sub_le j c)
  unfold spread
  omega

/-- A symbol taken at the new level, or not, carries what it carried and what the new level adds. -/
theorem spread_step {j c d : Nat} (hc : c ≤ j) (hd : d ≤ 1) : spread j c + d * 2 ^ j ≤ spread (j + 1) (d + c) := by
  have h1 := spread_add j c
  have h2 := spread_add (j + 1) (d + c)
  have hpow : 2 ^ (j + 1) = 2 * 2 ^ j := pow_succ' 2 j
  interval_cases d
  · rw [Nat.zero_add, Nat.succ_sub hc, Nat.succ_eq_add_one, pow_succ'] at h2
    have : 2 ^ (j - c) ≤ 2 ^ j := Nat.pow_le_pow_right (by norm_num) (Nat.sub_le j c)
    rw [Nat.zero_add]
    omega
  · rw [show j + 1 - (1 + c) = j - c by omega] at h2
    omega

/-- Every first part of the items of level `j + 1`: no symbol is in it more than `j + 1` times, and its symbols carry the spread of its
items. -/
def SpreadOfTakes (n j : Nat) (cur : List Item) : Prop :=
  ∀ m ≤ cur.length, (∀ s, leafCount (cur.take m) s ≤ j + 1) ∧
    m * 2 ^ j ≤ ∑ s ∈ Finset.range n, spread (j + 1) (leafCount (cur.take m) s)

/-- The items are one leaf for each of the symbols below `n`. -/
def IsLeaves (n : Nat) (xs : List Item) : Prop := (xs.flatMap Item.leaves).Perm (List.range n) ∧ ∀ x ∈ xs, x.leaves.length = 1

theorem isLeaves_sortedLeaves (f : List Nat) : IsLeaves f.length (sortedLeaves f) := by
  generalize hxs : (f.zipIdx.map fun q => { weight := max q.1 1, leaves := [q.2] : Item }) = xs
  have hperm : (sortedLeaves f).Perm xs := by
    rw [sortedLeaves, hxs]
    exact List.perm_insertionSort _ _
  refine ⟨(hperm.flatMap_right Item.leaves).trans (List.Perm.of_eq ?_), fun x hx => ?_⟩
  · rw [← hxs, List.flatMap_map, List.range_eq_range', ← List.zipIdx_map_snd 0 f]
    exact List.map_eq_flatMap.symm
  · have hx := hperm.mem_iff.mp hx
    rw [← hxs] at hx
    obtain ⟨q, -, rfl⟩ := List.mem_map.mp hx
    rfl

theorem take_leaves_sublist (xs : List Item) (a : Nat) : ((xs.take a).flatMap Item.leaves).Sublist (xs.flatMap Item.leaves) := by
  conv_rhs => rw [← List.take_append_drop a xs, List.flatMap_append]
  exact List.sublist_append_left _ _

section
variable {n : Nat} {leaves : List Item} (hl : IsLeaves n leaves)
include hl

theorem IsLeaves.take_length {a : Nat} (ha : a ≤ leaves.length) : ((leaves.take a).flatMap Item.leaves).length = a := by
  have hone : (leaves.take a).map (fun x => x.leaves.length) = (leaves.take a).map fun _ => 1 :=
    List.map_congr_left fun x hx => hl.2 x (List.mem_of_mem_take hx)
  rw [List.length_flatMap, hone]
  simpa using ha

theorem IsLeaves.length : leaves.length = n := by
  have h := hl.take_length le_rfl
  rw [List.take_length, hl.1.length_eq, List.length_range] at h
  exact h.symm

/-- The first leaves hold each symbol at most once. -/
theorem IsLeaves.leafCount_take_le (a s : Nat) : leafCount (leaves.take a) s ≤ 1 :=
  calc leafCount (leaves.take a) s ≤ (leaves.flatMap Item.leaves).count s := (take_leaves_sublist leaves a).count_le s
    _ = (List.range n).count s := hl.1.count_eq s
    _ ≤ 1 := List.nodup_iff_count_le_one.mp List.nodup_range s

theorem IsLeaves.sum_leafCount_take {a : Nat} (ha : a ≤ n) : ∑ s ∈ Finset.range n, leafCount (leaves.take a) s = a := by
  have hcard := Multiset.sum_count_eq_card (s := Finset.range n) (m := ((leaves.take a).flatMap Item.leaves : Multiset Nat))
    fun s hs => Finset.mem_range.mpr (List.mem_range.mp (hl.1.mem_iff.mp ((take_leaves_sublist leaves a).subset (Multiset.mem_coe.mp hs))))
  rw [Multiset.coe_card, hl.take_length (by rwa [hl.length])] at hcard
  unfold leafCount
  simpa only [Multiset.coe_count] using hcard

theorem IsLeaves.spreadOfTakes : SpreadOfTakes n 0 leaves := by
  intro m hm
  refine ⟨fun s => hl.leafCount_take_le m s, ?_⟩
  rw [hl.length] at hm
  rw [pow_zero, mul_one]
  refine (hl.sum_leafCount_take hm).symm.trans_le (Finset.sum_le_sum fun s _ => ?_)
  have := spread_step (j := 0) (c := 0) le_rfl (hl.leafCount_take_le m s)
  simpa [spread] using this

theorem IsLeaves.spreadOfTakes_merge {j : Nat} {cur : List Item} (h : SpreadOfTakes n j cur) :
    SpreadOfTakes n (j + 1) (mergeItems leaves (packages cur)) := by
  intro m hm
  rw [mergeItems_length] at hm
  obtain ⟨a, b, ha, hb, rfl, hperm⟩ := take_mergeItems leaves (packages cur) hm
  have hcount : ∀ s, leafCount ((mergeItems leaves (packages cur)).take (a + b)) s =
      leafCount (leaves.take a) s + leafCount (cur.take (2 * b)) s := by
    intro s
    rw [leafCount_perm hperm, leafCount_append, leafCount_take_packages, Nat.min_eq_left hb]
  rw [packages_length] at hb
  obtain ⟨hle, hspread⟩ := h (2 * b) (by omega)
  refine ⟨fun s => ?_, ?_⟩
  · rw [hcount]
    have := hl.leafCount_take_le a s
    have := hle s
    omega
  · rw [hl.length] at ha
    calc (a + b) * 2 ^ (j + 1) = 2 * b * 2 ^ j + a * 2 ^ (j + 1) := by ring
      _ ≤ ∑ s ∈ Finset.range n, (spread (j + 1) (leafCount (cur.take (2 * b)) s) + leafCount (leaves.take a) s * 2 ^ (j + 1)) := by
        rw [Finset.sum_add_distrib, ← Finset.sum_mul, hl.sum_leafCount_take ha]
        exact Nat.add_le_add_right hspread _
      _ ≤ _ := Finset.sum_le_sum fun s _ => by
        rw [hcount]
        exact spread_step (hle s) (hl.leafCount_take_le a s)

theorem IsLeaves.spreadOfTakes_rounds (k : Nat) {j : Nat} {cur : List Item} (h : SpreadOfTakes n j cur) :
    SpreadOfTakes n (j + k) (mergeRounds leaves k cur) := by
  induction k generalizing j cur with
  | zero => exact h
  | succ k ih =>
    rw [show j + (k + 1) = j + 1 + k by omega]
    exact ih (hl.spreadOfTakes_merge h)

/-- Each round halves what is missing to `2 n - 1` items. -/
theorem IsLeaves.mergeRounds_length (k : Nat) {cur : List Item} (h : cur.length ≤ 2 * n - 1) :
    2 * n - 1 - (mergeRounds leaves k cur).length = (2 * n - 1 - cur.length) / 2 ^ k := by
  induction k generalizing cur with
  | zero => simp [mergeRounds]
  | succ k ih =>
    have hlen : (mergeItems leaves (packages cur)).length = n + cur.length / 2 := by
      rw [mergeItems_length, packages_length, hl.length]
    rw [mergeRounds, ih (by omega), hlen, pow_succ', ← Nat.div_div_eq_div_mul]
    congr 1
    omega

end

/-! ### The lengths of `Allocate` -/

/-- Code lengths within 20 bits that meet the Kraft inequality: what HUF_ASSIGN_CODES checks (rule R228), less the length 0. -/
def FormACode (lens : List Nat) : Prop := (∀ n ∈ lens, n ≤ 20) ∧ kraftSum lens ≤ 2 ^ 20

theorem allocate_length (f : List Nat) : (allocate f).length = f.length := by simp [allocate]

/-- The allocator gives the lengths of a code (rule R212), to as many symbols as 19 rounds of merging are enough for. -/
theorem formACode_allocate (f : List Nat) (hf : f.length ≤ 2 ^ 19) : FormACode (allocate f) := by
  have hl := isLeaves_sortedLeaves f
  generalize hn : f.length = n at hf hl
  generalize hcur : mergeRounds (sortedLeaves f) 19 (sortedLeaves f) = cur
  have hspread : SpreadOfTakes n 19 cur := by
    rw [← hcur, ← Nat.zero_add 19]
    exact hl.spreadOfTakes_rounds 19 hl.spreadOfTakes
  have hlen : 2 * n - 2 ≤ cur.length := by
    have := hl.mergeRounds_length 19 (cur := sortedLeaves f) (by rw [hl.length]; omega)
    rw [hcur, hl.length, Nat.div_eq_of_lt (by omega)] at this
    omega
  obtain ⟨hle, hsum⟩ : _ ∧ _ ≤ ∑ s ∈ Finset.range n, spread 20 _ := hspread _ hlen
  have halloc : allocate f = (List.range n).map (leafCount (cur.take (2 * n - 2))) := by
    rw [← hcur, ← hn]
    rfl
  generalize leafCount (cur.take (2 * n - 2)) = c at hle hsum halloc
  rw [halloc]
  refine ⟨fun m hm => ?_, ?_⟩
  · obtain ⟨s, -, rfl⟩ := List.mem_map.mp hm
    exact hle s
  · have hkraft : kraftSum ((List.range n).map c) = ∑ s ∈ Finset.range n, 2 ^ (20 - c s) := by
      rw [kraftSum, List.map_map]
      rfl
    have htotal : ∑ s ∈ Finset.range n, spread 20 (c s) + ∑ s ∈ Finset.range n, 2 ^ (20 - c s) = n * 2 ^ 20 := by
      rw [← Finset.sum_add_distrib, Finset.sum_congr rfl fun s _ => spread_add 20 (c s)]
      simp
    rw [hkraft]
    omega

/-! ### Canonical codes (rule R227) -/

/-- What the lengths from `n` on take of the code space of 20 bits. -/
def kraftFrom (lens : List Nat) (n : Nat) : Nat := (lens.map fun l => if n ≤ l then 2 ^ (20 - l) else 0).sum

theorem kraftFrom_le (lens : List Nat) (n : Nat) : kraftFrom lens n ≤ kraftSum lens :=
  List.sum_le_sum fun l _ => by
    show (if n ≤ l then 2 ^ (20 - l) else 0) ≤ 2 ^ (20 - l)
    split
    · exact le_rfl
    · exact Nat.zero_le _

theorem symsOfLen_length (lens : List Nat) (n : Nat) : (symsOfLen lens n).length = lens.count n := by
  unfold symsOfLen
  rw [← List.countP_eq_length_filter]
  induction lens with
  | nil => rfl
  | cons l lens ih =>
    rw [List.length_cons, List.range_succ_eq_map, List.countP_cons, List.countP_map, List.count_cons, ← ih]
    simp [Function.comp_def]

/-- The symbols of one length take their share of what the lengths from there on take. -/
theorem kraftFrom_eq (lens : List Nat) (n : Nat) : kraftFrom lens n = lens.count n * 2 ^ (20 - n) + kraftFrom lens (n + 1) := by
  induction lens with
  | nil => simp [kraftFrom]
  | cons l lens ih =>
    simp only [kraftFrom, List.map_cons, List.sum_cons, List.count_cons] at ih ⊢
    rw [ih]
    rcases Nat.lt_trichotomy n l with h | rfl | h
    · have h1 : n ≤ l := h.le
      have h2 : n + 1 ≤ l := h
      simp [h1, h2, h.ne']
      omega
    · simp
      ring
    · have h1 : ¬ n ≤ l := by omega
      have h2 : ¬ n + 1 ≤ l := by omega
      simp [h1, h2, h.ne]

/-- The codes of the lengths `n`, `n + 1`, ... up to 20, from `vec` on, keep their length in the top byte, as long as the code space
is not used up. -/
theorem canonicalCodes_len (lens : List Nat) (k n vec : Nat) (hk : n + k ≤ 21) (hvec : vec * 2 ^ (20 - n) + kraftFrom lens n ≤ 2 ^ 20) :
    ∀ q ∈ canonicalCodes lens ((List.range k).map (n + ·)) vec, (BitVec.ofNat 32 q.2).toNat / 2 ^ 24 ≤ 20 := by
  induction k generalizing n vec with
  | zero => simp [canonicalCodes]
  | succ k ih =>
    have hrange : (List.range (k + 1)).map (n + ·) = n :: (List.range k).map (n + 1 + ·) := by
      rw [List.range_succ_eq_map, List.map_cons, List.map_map, Nat.add_zero]
      exact congrArg _ (List.map_congr_left fun i _ => by simp; omega)
    rw [hrange, canonicalCodes]
    intro q hq
    rw [kraftFrom_eq, ← symsOfLen_length] at hvec
    generalize hc : (symsOfLen lens n).length = c at hvec
    rcases List.mem_append.mp hq with hq | hq
    · obtain ⟨⟨sym, j⟩, hj, rfl⟩ := List.mem_map.mp hq
      have hj : j < c := hc ▸ (List.mem_zipIdx' hj).1
      have hle : vec + c ≤ (vec + c) * 2 ^ (20 - n) := Nat.le_mul_of_pos_right _ (Nat.two_pow_pos _)
      rw [Nat.add_mul] at hle
      have hcode : vec + j < 2 ^ 24 := by omega
      rw [BitVec.toNat_ofNat, ← Nat.shiftLeft_add_eq_or_of_lt hcode, Nat.shiftLeft_eq]
      omega
    · cases k with
      | zero => simp [canonicalCodes] at hq
      | succ k =>
        refine ih (n + 1) _ (by omega) ?_ q hq
        have hpow : 2 ^ (20 - n) = 2 * 2 ^ (20 - (n + 1)) := by
          rw [← pow_succ']
          congr 1
          omega
        rw [hpow] at hvec
        rw [hc, Nat.shiftLeft_eq, pow_one]
        calc (vec + c) * 2 * 2 ^ (20 - (n + 1)) + kraftFrom lens (n + 1)
            = vec * (2 * 2 ^ (20 - (n + 1))) + (c * (2 * 2 ^ (20 - (n + 1))) + kraftFrom lens (n + 1)) := by ring
          _ ≤ 2 ^ 20 := hvec

theorem maxOf_le {xs : List Nat} {m : Nat} (h : ∀ x ∈ xs, x ≤ m) : maxOf xs ≤ m :=
  List.foldlRecOn (motive := (· ≤ m)) xs max (Nat.zero_le m) fun _ ha x hx => max_le ha (h x hx)

theorem minOf_le {xs : List Nat} {m : Nat} (h : ∀ x ∈ xs, x ≤ m) : minOf xs ≤ m := by
  cases xs with
  | nil => exact Nat.zero_le m
  | cons x xs =>
    exact List.foldlRecOn (motive := (· ≤ m)) xs min (h x List.mem_cons_self) fun _ ha y _ => (min_le_left _ y).trans ha

/-- Every code of a table whose lengths form a code has a length of at most 20 bits. -/
theorem canonicalCodes_ok {lens : List Nat} (h : FormACode lens) :
    ∀ q ∈ canonicalCodes lens (lengthRange lens) 0, (BitVec.ofNat 32 q.2).toNat / 2 ^ 24 ≤ 20 := by
  have hmax := maxOf_le h.1
  have hmin := minOf_le h.1
  refine canonicalCodes_len lens _ _ 0 (by omega) ?_
  rw [Nat.zero_mul, Nat.zero_add]
  exact (kraftFrom_le lens _).trans h.2

end Sys2Proof.Machine
end

section
/-! SUPPORT. The writer stays clean above its valid bits (rules R41, R48, R153): every packed code has a length of at most 20, because a
table gets its codes only from lengths that form a code, and so no write is too long for WR_ACC. -/

namespace Sys2Proof.Machine

variable {α : Type}

/-! ### The lengths of a table -/

/-- `LEN[t][0 .. ALPHA-1]` are the lengths of a code. -/
def LensForm (t : Nat) (e : Engine) : Prop :=
  ∀ ht : t < 6, FormACode ((e.huf.len[t].toList.take (alphaOf e.mtf)).map BitVec.toNat)

theorem dependsOn_lensForm (t : Nat) : DependsOn [.len, .nInUse] (LensForm t) := by
  intro e e' h he
  have h1 : e.huf.len = e'.huf.len := h .len (by simp)
  have h2 : e.mtf.nInUse = e'.mtf.nInUse := h .nInUse (by simp)
  rwa [LensForm, alphaOf, h1, h2] at he

section
variable {S : Engine → Prop} {e₀ : Engine}

theorem sat_requireOk {P : Engine → Prop} {ok : Bool} {Q : Unit → Engine → Prop} (h : ok = true → ∀ e, P e → Q () e)
    (hS : ∀ e, P e → S e) : Cmd.Sat P (requireOk ok) Q S := by
  cases ok
  · exact hS
  · exact h rfl

theorem sat_lenRow (t n : Nat) :
    Cmd.Sat (fun e => e = e₀) (lenRow t n)
      (fun lens e => e = e₀ ∧ ∃ ht : t < 6, lens = (e₀.huf.len[t].toList.take n).map BitVec.toNat) S := by
  refine sat_get_bind fun e he => ?_
  subst he
  refine sat_bind (sat_tableGet (Q := fun row e' => e' = e ∧ ∃ ht : t < 6, row = e.huf.len[t]) fun ht _ he => ⟨he, ht, rfl⟩) fun row => ?_
  refine sat_ite (fun _ => sat_pure ?_) fun _ => sat_fail _
  rintro _ ⟨rfl, ht, rfl⟩
  exact ⟨rfl, ht, rfl⟩

/-- HUF_ASSIGN_CODES goes on only where the lengths of the table form a code (rule R228). -/
theorem lensForm_of_checks {t : BitVec 3} {e e' : Engine} (h : checkHufAssignCodes t e = .ok () e') : LensForm t.toNat e := by
  have hsat : Cmd.Sat (fun x => x = e) (checkHufAssignCodes t) (fun _ _ => LensForm t.toNat e) fun _ => True := by
    refine sat_bind (sat_requireOk (Q := fun _ x => x = e) (fun _ _ h => h) fun _ _ => trivial) fun _ => ?_
    refine sat_bind (Q := fun lens _ => ∃ ht : t.toNat < 6, lens = (e.huf.len[t.toNat].toList.take (alphaOf e.mtf)).map BitVec.toNat ∧
      ∀ n ∈ lens, n ≤ 20) ?_ fun lens => ?_
    · refine sat_get_bind fun x hx => ?_
      subst hx
      refine sat_bind (sat_lenRow _ _) fun lens => sat_bind (sat_requireOk (Q := fun _ _ => ∃ ht : t.toNat < 6,
        lens = (x.huf.len[t.toNat].toList.take (alphaOf x.mtf)).map BitVec.toNat ∧ ∀ n ∈ lens, n ≤ 20) ?_ fun _ _ => trivial)
        fun _ => sat_pure fun _ h => h
      rintro hall _ ⟨-, ht, hlens⟩
      exact ⟨ht, hlens, fun n hn => (of_decide_eq_true (List.all_eq_true.mp hall n hn)).2⟩
    · refine sat_requireOk ?_ fun _ _ => trivial
      rintro hkraft _ ⟨ht, rfl, hle⟩ _
      exact ⟨hle, of_decide_eq_true hkraft⟩
  have := hsat e rfl
  rwa [h] at this

end

/-! ### Packed codes -/

theorem dependsOn_codesOk : DependsOn [.code] Engine.CodesOk := by
  intro e e' h he
  have h1 : e.huf.code = e'.huf.code := h .code (by simp)
  rwa [Engine.CodesOk, h1] at he

/-- Writing codes of at most 20 bits into a row of such codes. -/
theorem writeCodes_ok {row : Vector Word 258} {qs : List (Nat × Nat)} (hrow : ∀ c ∈ row.toList, c.toNat / 2 ^ 24 ≤ 20)
    (hqs : ∀ q ∈ qs, (BitVec.ofNat 32 q.2).toNat / 2 ^ 24 ≤ 20) :
    ∀ c ∈ (qs.foldl (fun r q => r.setIfInBounds q.1 (BitVec.ofNat 32 q.2)) row).toList, c.toNat / 2 ^ 24 ≤ 20 := by
  refine List.foldlRecOn (motive := fun r : Vector Word 258 => ∀ c ∈ r.toList, c.toNat / 2 ^ 24 ≤ 20) qs _ hrow fun r hr q hq c hc => ?_
  rw [Vector.toList_setIfInBounds] at hc
  rcases List.mem_or_eq_of_mem_set hc with hc | rfl
  · exact hr c hc
  · exact hqs q hq

/-- Lengths that form a code give packed codes of at most 20 bits (rule R227). -/
theorem assignCodes_keeps_codesOk {S : Engine → Prop} (t : Nat) :
    Cmd.Sat (fun e => e.CodesOk ∧ LensForm t e) (assignCodes t) (fun _ => Engine.CodesOk) S := by
  refine sat_get_bind fun e₀ he₀ => sat_bind (sat_lenRow _ _) fun lens => ?_
  refine sat_bind (Q := fun row e => (e = e₀ ∧ FormACode lens) ∧ ∀ c ∈ row.toList, c.toNat / 2 ^ 24 ≤ 20) (sat_tableGet ?_) fun row => ?_
  · rintro ht e ⟨rfl, ht', rfl⟩
    exact ⟨⟨rfl, he₀.2 ht⟩, he₀.1 _ (by simp)⟩
  · refine sat_bind (Q := fun m _ => ∀ row ∈ m.toList, ∀ c ∈ row.toList, c.toNat / 2 ^ 24 ≤ 20) (sat_tableSet ?_) fun m => ?_
    · rintro ht e ⟨⟨rfl, hlens⟩, hrow⟩ r hr
      rw [Vector.toList_set] at hr
      rcases List.mem_or_eq_of_mem_set hr with hr | rfl
      · exact he₀.1 r hr
      · exact writeCodes_ok hrow (canonicalCodes_ok hlens)
    · exact fun e hm => hm

/-! ### Choosing tables ends with lengths that form a code (rules R224, R226) -/

/-- The codes are fine, and N_GROUPS and N_IN_USE have the given values. -/
def CodesAt (g : BitVec 3) (u : BitVec 9) (e : Engine) : Prop := e.CodesOk ∧ e.huf.nGroups = g ∧ e.mtf.nInUse = u

theorem dependsOn_codesAt (g : BitVec 3) (u : BitVec 9) : DependsOn [.code, .nGroups, .nInUse] (CodesAt g u) := by
  intro e e' h he
  have h1 : e.huf.code = e'.huf.code := h .code (by simp)
  have h2 : e.huf.nGroups = e'.huf.nGroups := h .nGroups (by simp)
  have h3 : e.mtf.nInUse = e'.mtf.nInUse := h .nInUse (by simp)
  rwa [CodesAt, Engine.CodesOk, h1, h2, h3] at he

/-- The first `k` tables have lengths that form a code. -/
def LensFormBelow (k : Nat) (e : Engine) : Prop := ∀ t < k, LensForm t e

theorem take_rowWrite {n : Nat} (row : Vector α n) {xs : List α} (h : xs.length ≤ n) :
    (rowWrite row 0 xs).toList.take xs.length = xs := by
  refine List.ext_getElem? fun j => ?_
  rw [List.getElem?_take, rowWrite_get]
  split
  · rw [if_pos (by omega), Nat.sub_zero]
  · rw [List.getElem?_eq_none (by omega)]

section
variable {g : BitVec 3} {u : BitVec 9}

theorem keeps_codesAt {W : List Reg} {c : Cmd α} (hw : Writes W c) (h : ∀ r ∈ W, r ∉ [Reg.code, .nGroups, .nInUse]) :
    Cmd.Keeps (CodesAt g u) Engine.CodesOk c := keeps_of_writes (dependsOn_codesAt g u) (fun _ h => h.1) hw h

/-- Reallocating table `k` gives it lengths that form a code, and leaves the other tables alone. -/
theorem sat_reallocate (k : Nat) :
    Cmd.Sat (fun e => CodesAt g u e ∧ LensFormBelow k e) (reallocate (u.toNat + 2) k)
      (fun _ e => CodesAt g u e ∧ LensFormBelow (k + 1) e) Engine.CodesOk := by
  have hrow : Cmd.Sat (fun e => CodesAt g u e ∧ LensFormBelow k e) (rfreqRow k (u.toNat + 2))
      (fun f e => (CodesAt g u e ∧ LensFormBelow k e) ∧ f.length = u.toNat + 2 ∧ u.toNat + 2 ≤ 258) Engine.CodesOk := by
    refine sat_get_bind' fun e₀ _ => sat_bind (Q := fun _ e => CodesAt g u e ∧ LensFormBelow k e) (sat_tableGet fun _ _ h => h) fun row => ?_
    refine sat_ite (fun hn => sat_pure fun e he => ⟨he, ?_, hn⟩) fun _ => sat_fail _
    simpa using hn
  refine sat_bind hrow fun f => sat_get_bind fun e₀ he₀ => ?_
  obtain ⟨⟨hcodes, hbelow⟩, hlen, hmax⟩ := he₀
  have hform := formACode_allocate f (by omega)
  have halloc : (allocate f).length = u.toNat + 2 := (allocate_length f).trans hlen
  generalize allocate f = lens at hform halloc
  refine sat_bind (sat_tableGet (Q := fun _ e => e = e₀) fun _ _ h => h) fun row => ?_
  refine sat_bind (Q := fun m e => e = e₀ ∧ ∃ hk : k < 6, m = e₀.huf.len.set k (rowWrite row 0 (lens.map fun x => BitVec.ofNat 5 x)))
    (sat_tableSet fun hk _ he => ⟨he, hk, rfl⟩) fun m => ?_
  rintro e ⟨rfl, hk, rfl⟩
  refine ⟨hcodes, fun t ht ht6 => ?_⟩
  have halpha : alphaOf e.mtf = u.toNat + 2 := by rw [alphaOf, hcodes.2.2]
  show FormACode ((((e.huf.len.set k _)[t]).toList.take (alphaOf e.mtf)).map BitVec.toNat)
  rcases Nat.lt_succ_iff_lt_or_eq.mp ht with ht | rfl
  · rw [Vector.getElem_set_ne _ _ (by omega)]
    exact hbelow t ht ht6
  · have htake := take_rowWrite row (xs := lens.map fun x => BitVec.ofNat 5 x) (by rw [List.length_map]; omega)
    rw [List.length_map, halloc] at htake
    rw [Vector.getElem_set_self, halpha, htake, List.map_map]
    have hid : lens.map (BitVec.toNat ∘ fun x => BitVec.ofNat 5 x) = lens := by
      refine (List.map_congr_left fun x hx => ?_).trans (List.map_id lens)
      have := hform.1 x hx
      simp only [Function.comp_apply, BitVec.toNat_ofNat, id]
      omega
    rwa [hid]

theorem sat_selectPass :
    Cmd.Sat (CodesAt g u) selectPass (fun _ e => CodesAt g u e ∧ LensFormBelow g.toNat e) Engine.CodesOk := by
  refine sat_get_bind' fun e₀ he₀ => ?_
  rw [alphaOf, he₀.2.1, he₀.2.2]
  refine sat_bind (keeps_forEach fun t _ => keeps_codesAt (writes_setRfreqRow t _) (by decide)) fun _ => ?_
  refine sat_bind (keeps_codesAt (writes_selectGroups _ _ _) (by decide)) fun total => ?_
  refine sat_bind (Q := fun _ e => CodesAt g u e ∧ LensFormBelow g.toNat e) ?_ fun _ => sat_pure fun _ h => h
  have hloop := sat_forEach (xs := List.range g.toNat) (c := reallocate (u.toNat + 2)) (S := Engine.CodesOk)
    (fun k e => CodesAt g u e ∧ LensFormBelow k e) fun k hk => by
      rw [List.getElem_range]
      exact sat_reallocate k
  rw [List.length_range] at hloop
  exact sat_mono hloop (fun e he => ⟨he, fun t ht => absurd ht (Nat.not_lt_zero t)⟩) (fun _ _ h => h) fun _ h => h

theorem sat_selectPasses (n c : Nat) :
    Cmd.Sat (CodesAt g u) (selectPasses (n + 1) c) (fun _ e => CodesAt g u e ∧ LensFormBelow g.toNat e) Engine.CodesOk := by
  induction n generalizing c with
  | zero => exact sat_bind sat_selectPass fun c => sat_pure fun _ h => h
  | succ n ih => exact sat_bind (sat_mono sat_selectPass (fun _ h => h) (fun _ _ h => h.1) fun _ h => h) ih

theorem sat_hufOptimize :
    Cmd.Sat (CodesAt g u) hufOptimize (fun _ e => CodesAt g u e ∧ LensFormBelow g.toNat e) Engine.CodesOk :=
  sat_bind (keeps_codesAt writes_selectChecks (by simp)) fun _ => sat_bind (keeps_codesAt writes_seed (by decide)) fun _ => sat_selectPasses 3 0

end

/-- The codes of the tables are assigned from lengths that form a code, since choosing the tables ends with a reallocation. -/
theorem prepareCodes_keeps_codesOk : Cmd.Keeps Engine.CodesOk Engine.CodesOk prepareCodes := by
  intro e he
  refine sat_bind (P := CodesAt e.huf.nGroups e.mtf.nInUse) sat_hufOptimize (fun _ => sat_get_bind' fun e₁ he₁ => ?_) e ⟨he, rfl, rfl⟩
  obtain ⟨⟨-, hgroups, -⟩, -⟩ := he₁
  rw [hgroups]
  have hassign : ∀ t < e.huf.nGroups.toNat, Cmd.Keeps (fun e' => e'.CodesOk ∧ LensFormBelow e.huf.nGroups.toNat e') Engine.CodesOk
      (assignCodes t) := by
    intro t ht
    have hlens : Cmd.Keeps (LensFormBelow e.huf.nGroups.toNat) (fun _ => True) (assignCodes t) :=
      keeps_of_writes (D := [.len, .nInUse]) (fun a b hab ha t' ht' => dependsOn_lensForm t' a b hab (ha t' ht')) (fun _ _ => trivial)
        (writes_assignCodes t) (by decide)
    exact sat_mono (sat_and (assignCodes_keeps_codesOk t) hlens) (fun _ h => ⟨⟨h.1, h.2 t ht⟩, h.2⟩) (fun _ _ h => h) fun _ h => h.1
  exact sat_mono (keeps_forEach fun t ht => hassign t (List.mem_range.mp ht)) (fun _ h => ⟨h.1.1, h.2⟩) (fun _ _ h => h.1) fun _ h => h

/-! ### The writer -/

/-- The packed codes are fine, and the writer is in its form between commands. -/
def Engine.CleanWriter (e : Engine) : Prop := e.CodesOk ∧ e.WriterForm True

theorem dependsOn_cleanWriter : DependsOn [.code, .wrAcc, .wrCnt] Engine.CleanWriter :=
  dependsOn_codesOk.and (dependsOn_writer fun a n => n.toNat ≤ 7 ∧ (True → a.toNat < 2 ^ n.toNat))

/-- What keeps the codes, and keeps the writer where it ends normally. -/
theorem keeps_cleanWriter {c : Cmd α} (hc : Cmd.Keeps Engine.CodesOk Engine.CodesOk c)
    (hw : Cmd.Keeps (Engine.WriterForm True) (fun _ => True) c) : Cmd.Keeps Engine.CleanWriter Engine.CodesOk c :=
  sat_mono (sat_and hc hw) (fun _ h => h) (fun _ _ h => h) fun _ h => h.1

theorem keeps_codesOk_of_writes {W : List Reg} {c : Cmd α} (hw : Writes W c) (h : ∀ r ∈ W, r ∉ [Reg.code]) :
    Cmd.Keeps Engine.CodesOk Engine.CodesOk c := keeps_of_writes dependsOn_codesOk (fun _ h => h) hw h

/-- A code read out of the table CODE is short enough to be written. -/
theorem sat_readsCode {c : Cmd Word} (hw : Writes [] c) (hr : ReadsCode c) :
    Cmd.Sat Engine.CleanWriter c (fun w e => codeLen w ≤ 31 ∧ e.CleanWriter) Engine.CodesOk := by
  intro e he
  have hkeep := keeps_of_writes dependsOn_cleanWriter (fun _ h => h.1) hw (by simp) e he
  rcases hx : c e with ⟨w, e'⟩ | ⟨k | w | f, e'⟩ <;> rw [hx] at hkeep
  · obtain ⟨rfl, row, hrow, hmem⟩ := hr e w e' hx
    refine ⟨?_, hkeep⟩
    have := hkeep.1 row hrow w hmem
    rw [codeLen, Nat.shiftRight_eq_div_pow]
    omega
  · exact hkeep
  · exact hkeep
  · trivial

/-- Every piece keeps the codes, and the writer clean where it ends normally. -/
theorem piece_keeps_cleanWriter {W : List Reg} {c : Cmd α} (h : Piece W c) (ho : ∃ r ∈ W, r ∈ [Reg.code, .wrAcc, .wrCnt]) :
    Cmd.Keeps Engine.CleanWriter Engine.CodesOk c := by
  have hw := h.writes
  cases h with
  | writeBits hn v => exact keeps_cleanWriter (keeps_codesOk_of_writes hw (by decide)) (keeps_writeBits (fun _ => hn) v)
  | writeCode hread hcode =>
    refine sat_bind (sat_readsCode hread hcode) fun w e he => ?_
    exact keeps_cleanWriter (keeps_codesOk_of_writes (writes_writeCode w) (by decide)) (keeps_writeBits (fun _ => he.1) _) e he.2
  | flushWriter => exact keeps_cleanWriter (keeps_codesOk_of_writes hw (by decide)) keeps_flushWriter
  | clearWriter => exact fun e he => ⟨he.1, Nat.zero_le _, fun _ => Nat.one_pos⟩
  | prepareCodes => exact keeps_cleanWriter prepareCodes_keeps_codesOk (keeps_writer_of_writes hw (by decide))
  | _ => exact absurd ho (by decide)

/-- A body whose checks have passed keeps the codes and the writer: HUF_ASSIGN_CODES by its checks, the others by their pieces. -/
theorem meets_cleanWriter {i : Instr} {e e₀ : Engine} (hc : checksOf i e = .ok () e₀) (he : e.CleanWriter) :
    Meets (fun _ => Engine.CleanWriter) Engine.CodesOk (bodyOf i e.clearFlags) := by
  by_cases hi : ∃ t, i = .hufAssignCodes t
  · obtain ⟨t, rfl⟩ := hi
    have hlens : LensForm t.toNat e.clearFlags := (lensForm_of_checks hc : LensForm t.toNat e)
    have hwriter : Cmd.Keeps (Engine.WriterForm True) (fun _ => True) (assignCodes t.toNat) :=
      keeps_writer_of_writes (writes_assignCodes t.toNat) (by decide)
    exact ((assignCodes_keeps_codesOk t.toNat e.clearFlags ⟨he.1, hlens⟩).and (hwriter e.clearFlags he.2)).mono (fun _ _ h => h) fun _ h => h.1
  · exact (built_bodyOf hc fun t ht => hi ⟨t, ht⟩).keeps (by decide) dependsOn_cleanWriter (fun _ h => h.1) piece_keeps_cleanWriter
      e.clearFlags he

theorem invariant_cleanWriter : Invariant Engine.CleanWriter Engine.CodesOk where
  weaken _ h := h.1
  ofUnits := dependsOn_cleanWriter.ofUnits (by decide)
  ofUnitsStop := dependsOn_codesOk.ofUnits (by decide)
  initial _ _ _ := ⟨codesOk_initial _ _ _, writerForm_initial rfl rfl⟩
  body := meets_cleanWriter

theorem cleanWriter_iff {e : Engine} : e.CleanWriter ↔ e.CodesOk ∧ e.bits.WriterOk := by
  simp only [Engine.CleanWriter, Engine.WriterForm, true_implies, BitEngine.WriterOk]

theorem writerClean_iff_kept {s : State} : s.WriterClean ↔ Kept Engine.CleanWriter Engine.CodesOk s := by
  constructor
  · rintro ⟨⟨hcodes, hidle⟩, hstart⟩
    exact ⟨hcodes, fun hn he => cleanWriter_iff.mpr ⟨hcodes, hidle hn he⟩, fun h hm => cleanWriter_iff.mpr (hstart h hm)⟩
  · rintro ⟨hcodes, hidle, hstart⟩
    exact ⟨⟨hcodes, fun hn he => (cleanWriter_iff.mp (hidle hn he)).2⟩, fun h hm => cleanWriter_iff.mp (hstart h hm)⟩

/-- Settles O53: the pieces keep the codes, and the writer clean where they end normally (`meets_cleanWriter`); a command is accepted
only with no error latched, where the writer is clean. -/
theorem stepKeepsWriterClean : Obligations.StepKeepsWriterClean := by
  intro s t h hlatch _ _ hclean
  rw [writerClean_iff_kept] at hclean ⊢
  exact invariant_cleanWriter.kept_step (fun hs hp => hclean.2.1 hs (hlatch.err_of_accepts hp)) hclean h

end Sys2Proof.Machine
end

section
/-! SUPPORT. The decoder and the encoder (rules R100 to R106): a command word is its four fields, masking a word masks each of them, and
the opcode alone says which fields a command uses. -/

namespace Sys2Proof

/-- Settles O42: the opcode put into the word selects the command's arm of the decoder, and each field comes back from its place. -/
theorem decodeOfEncode : Obligations.DecodeOfEncode := by
  intro i
  cases i <;> simp [encode, decode]

/-! ### Masked words -/

/-- A word is put together from its own fields (rule R100). -/
theorem commandWord_fields (w : Word) : commandWord (fieldImm w) (fieldT w) (fieldN w) (fieldOpc w) = w := by
  apply BitVec.eq_of_toNat_eq
  rw [commandWord_toNat]
  simp only [fieldImm, fieldT, fieldN, fieldOpc, BitVec.extractLsb'_toNat, Nat.shiftRight_eq_div_pow]
  omega

/-- Masking a word masks each field. -/
theorem and_commandWord (w : Word) (imm : BitVec 16) (t : BitVec 3) (n : BitVec 5) (opc : BitVec 8) :
    w &&& commandWord imm t n opc = commandWord (fieldImm w &&& imm) (fieldT w &&& t) (fieldN w &&& n) (fieldOpc w &&& opc) := by
  conv_lhs => rw [← commandWord_fields w]
  unfold commandWord
  rw [BitVec.and_append, BitVec.and_append, BitVec.and_append]

/-- Masking the low bits of IMM is reading the operand that lies there. -/
theorem and_setWidth_allOnes (x : BitVec 16) (k : Nat) : x &&& (BitVec.allOnes k).setWidth 16 = (x.setWidth k).setWidth 16 := by
  ext b hb
  simp [Bool.and_comm, BitVec.getLsbD_eq_getElem hb]

/-- The masks of `Instr.usedBits`, one for each shape of a command word (rule R104). -/
theorem and_used_opc (w : Word) : w &&& 0x000000FF = commandWord 0 0 0 (fieldOpc w) := by
  rw [show (0x000000FF : Word) = commandWord 0 0 0 (BitVec.allOnes 8) by decide, and_commandWord]
  simp [-BitVec.reduceAllOnes]

theorem and_used_n (w : Word) : w &&& 0x00001FFF = commandWord 0 0 (fieldN w) (fieldOpc w) := by
  rw [show (0x00001FFF : Word) = commandWord 0 0 (BitVec.allOnes 5) (BitVec.allOnes 8) by decide, and_commandWord]
  simp [-BitVec.reduceAllOnes]

theorem and_used_t (w : Word) : w &&& 0x0000E0FF = commandWord 0 (fieldT w) 0 (fieldOpc w) := by
  rw [show (0x0000E0FF : Word) = commandWord 0 (BitVec.allOnes 3) 0 (BitVec.allOnes 8) by decide, and_commandWord]
  simp [-BitVec.reduceAllOnes]

theorem and_used_imm (w : Word) : w &&& 0xFFFF00FF = commandWord (fieldImm w) 0 0 (fieldOpc w) := by
  rw [show (0xFFFF00FF : Word) = commandWord (BitVec.allOnes 16) 0 0 (BitVec.allOnes 8) by decide, and_commandWord]
  simp [-BitVec.reduceAllOnes]

theorem and_used_flag (w : Word) : w &&& 0x000100FF = commandWord (((fieldImm w).setWidth 1).setWidth 16) 0 0 (fieldOpc w) := by
  rw [show (0x000100FF : Word) = commandWord ((BitVec.allOnes 1).setWidth 16) 0 0 (BitVec.allOnes 8) by decide, and_commandWord,
    and_setWidth_allOnes]
  simp [-BitVec.reduceAllOnes]

theorem and_used_multiplier (w : Word) : w &&& 0x000F00FF = commandWord (((fieldImm w).setWidth 4).setWidth 16) 0 0 (fieldOpc w) := by
  rw [show (0x000F00FF : Word) = commandWord ((BitVec.allOnes 4).setWidth 16) 0 0 (BitVec.allOnes 8) by decide, and_commandWord,
    and_setWidth_allOnes]
  simp [-BitVec.reduceAllOnes]

theorem and_used_t_symbol (w : Word) :
    w &&& 0x01FFE0FF = commandWord (((fieldImm w).setWidth 9).setWidth 16) (fieldT w) 0 (fieldOpc w) := by
  rw [show (0x01FFE0FF : Word) = commandWord ((BitVec.allOnes 9).setWidth 16) (BitVec.allOnes 3) 0 (BitVec.allOnes 8) by decide,
    and_commandWord, and_setWidth_allOnes]
  simp [-BitVec.reduceAllOnes]

/-! ### The opcode -/

theorem fieldOpc_toNat (w : Word) : (fieldOpc w).toNat = w.toNat % 256 := by
  simp only [fieldOpc, BitVec.extractLsb'_toNat, Nat.shiftRight_zero]

/-- OPC is the low byte of the word. -/
theorem fieldOpc_eq_setWidth (w : Word) : fieldOpc w = w.setWidth 8 := by
  apply BitVec.eq_of_toNat_eq
  rw [fieldOpc_toNat, BitVec.toNat_setWidth]

/-- The word a command is written as holds the used bits of every word that decodes to it (rule R103). -/
theorem encode_of_decode {w : Word} {i : Instr} (h : decode w = .ok i) : encode i = w &&& i.usedBits := by
  unfold decode at h
  split at h <;> cases h <;>
    simp only [encode, Instr.usedBits, and_used_opc, and_used_n, and_used_t, and_used_imm, and_used_flag, and_used_multiplier,
      and_used_t_symbol] <;>
    exact congrArg _ (BitVec.eq_of_toNat_eq (Eq.symm ‹_›))

/-- Words of one opcode decode to commands that use the same bits (rules R103, R106). -/
theorem usedBits_of_fieldOpc {w w' : Word} {i : Instr} (hopc : fieldOpc w' = fieldOpc w) (h : decode w = .ok i) :
    ∃ i', decode w' = .ok i' ∧ i'.usedBits = i.usedBits := by
  unfold decode at h ⊢
  rw [hopc]
  split at h <;> cases h <;> exact ⟨_, rfl, rfl⟩


theorem usedBits_setWidth (i : Instr) : i.usedBits.setWidth 8 = 0xFF := by
  cases i <;> simp [Instr.usedBits]

/-- Every command uses its whole opcode (rule R103). -/
theorem fieldOpc_and_usedBits (w : Word) (i : Instr) : fieldOpc (w &&& i.usedBits) = fieldOpc w := by
  rw [fieldOpc_eq_setWidth, fieldOpc_eq_setWidth, BitVec.setWidth_and, usedBits_setWidth]
  exact BitVec.and_allOnes

/-- A command depends on the bits it uses alone: the others are ignored (rule R103). -/
theorem decode_of_usedBits {w w' : Word} {i : Instr} (h : decode w = .ok i) (hw : w' &&& i.usedBits = w &&& i.usedBits) :
    decode w' = .ok i := by
  have hopc : fieldOpc w' = fieldOpc w := by
    rw [← fieldOpc_and_usedBits w' i, hw, fieldOpc_and_usedBits]
  obtain ⟨i', h', hused⟩ := usedBits_of_fieldOpc hopc h
  have hword : encode i' = encode i := by rw [encode_of_decode h', encode_of_decode h, hused, hw]
  have hsame : decode (encode i') = decode (encode i) := congrArg decode hword
  rwa [decodeOfEncode, decodeOfEncode, ← h', ← h, h] at hsame

/-- The opcodes of the map (rule R104). -/
def mappedOpcodes : List Nat :=
  [0x00, 0x01, 0x02, 0x03, 0x04, 0x08, 0x09, 0x0A, 0x0B, 0x0C, 0x10, 0x11, 0x12, 0x13, 0x20, 0x21, 0x22, 0x23, 0x24, 0x30, 0x31, 0x32,
    0x33, 0x34, 0x35, 0x36, 0x40, 0x41, 0x50, 0x51, 0x52, 0x53, 0x54, 0x55, 0x56, 0x57, 0x58, 0x59, 0x5A, 0x5B, 0x5C, 0x5D, 0x5E, 0x60,
    0x61, 0x62, 0x63, 0x64, 0x65, 0x66, 0x70, 0x71, 0x72, 0x73, 0x74, 0x75, 0x80, 0x81, 0x82, 0x88, 0x89, 0x8F, 0xFF]

/-- A word is refused exactly where its opcode is not in the map, the last arm of the decoder (rule R105). -/
theorem decode_reserved_iff (w : Word) :
    decode w = .error (.reservedOpcode (fieldOpc w)) ↔ (fieldOpc w).toNat ∉ mappedOpcodes := by
  unfold decode
  split
  case h_64 =>
    simp only [mappedOpcodes, List.mem_cons, List.not_mem_nil, or_false, not_or, true_iff]
    and_intros <;> assumption
  all_goals simp [mappedOpcodes, *]

/-- Settles O43: a decoded word agrees with what its command is written as in the bits that the command uses (`encode_of_decode`), so
another word with those bits decodes to the same command (`decode_of_usedBits`). -/
theorem opcodeMap : Obligations.OpcodeMap := by
  intro w
  refine ⟨fun i h => ⟨encode_of_decode h, fun w' hw => decode_of_usedBits h hw⟩, ?_⟩
  rw [← fieldOpc_eq_setWidth, ← fieldOpc_toNat]
  exact decode_reserved_iff w

/-- Settles O44: the decoder evaluated on each word. -/
theorem sampleWords : Obligations.SampleWords := by
  refine ⟨?_, ?_, ?_, ?_, ?_, ?_, ?_, ?_, ?_, ?_, ?_, ?_, ?_, ?_⟩ <;> rfl

end Sys2Proof
end

section
/-! SUPPORT. What the checks of a command answer (rules R102, R231, R314): each is one test of the engine, and a test that fails raises
UnsupportedOperation with nothing changed (rule R315). -/

namespace Sys2Proof.Machine

variable {α : Type} {e : Engine}

/-! ### Tests in sequence -/

/-- A test before a piece that is a test too, where it is reached. -/
theorem requireOk_bind_eq {a b : Bool} {f : Unit → Cmd Unit} (h : a = true → f () e = requireOk b e) :
    (requireOk a >>= f) e = requireOk (a && b) e := by
  cases a with
  | false => rfl
  | true => exact h rfl

theorem requireOk_congr {a b : Bool} (h : a = true ↔ b = true) : requireOk a e = requireOk b e := by
  rw [Bool.eq_iff_iff.mpr h]

/-- A loop of tests that change nothing is the test that all of them pass. -/
theorem forEach_requireOk {xs : List α} {c : α → Cmd Unit} {p : α → Bool} (h : ∀ x ∈ xs, c x e = requireOk (p x) e) :
    forEach xs c e = requireOk (xs.all p) e := by
  induction xs with
  | nil => rfl
  | cons x xs ih =>
    have hx : c x e = requireOk (p x) e := h x (by simp)
    rw [forEach_cons, List.all_cons]
    cases hp : p x with
    | false => exact bind_error (hx.trans (requireOk_false hp))
    | true => exact (bind_ok (hx.trans (requireOk_true hp))).trans (ih fun y hy => h y (by simp [hy]))

theorem requireCell_eq (t : BitVec 3) (sym : BitVec 9) : requireCell t sym = requireOk (tableOk t && symbolOk sym) :=
  funext fun _ => requireOk_bind_eq fun _ => rfl

theorem requireCell_bind_eq {t : BitVec 3} {sym : BitVec 9} {b : Bool} {f : Unit → Cmd Unit}
    (h : (tableOk t && symbolOk sym) = true → f () e = requireOk b e) :
    (requireCell t sym >>= f) e = requireOk ((tableOk t && symbolOk sym) && b) e := by
  rw [requireCell_eq]
  exact requireOk_bind_eq h

theorem requireCell_refuses {t : BitVec 3} {sym : BitVec 9} (h : (tableOk t && symbolOk sym) = false) (f : Unit → Cmd Unit) :
    (requireCell t sym >>= f) e = .error (.raised .unsupportedOperation) e := by
  rw [requireCell_eq]
  exact requireOk_false_bind h f

/-! ### The lengths of a table -/

/-- Element `[t][s]` of a table in range. -/
theorem tableGet2_run {w n : Nat} {a : ArrayName} {v : Table6 (BitVec w) n} {t s : Nat} (ht : t < 6) (hs : s < n) :
    tableGet2 a v t s e = .ok v[t][s] e := by
  rw [tableGet2, bind_ok (tableGet_run ht), tableGet_run hs]

theorem cell_eq_getElem {w n : Nat} (v : Table6 (BitVec w) n) {t s : Nat} (ht : t < 6) (hs : s < n) : cell v t s = v[t][s].toNat := by
  simp [cell, List.getD_eq_getElem?_getD, ht, hs]

theorem lenRow_run {t : Nat} (ht : t < 6) (ha : e.AlphaOk) : lenRow t (alphaOf e.mtf) e = .ok (e.lens t) e := by
  have hn : alphaOf e.mtf ≤ 258 := Nat.add_le_add_right ha 2
  have hrow : (e.huf.len[t].toList.take (alphaOf e.mtf)).map BitVec.toNat = e.lens t := by
    refine List.ext_getElem (by simpa [Engine.lens, Engine.alpha, alphaOf] using hn) fun i h₁ h₂ => ?_
    have hi : i < 258 := by
      simp only [List.length_map, List.length_take] at h₁
      omega
    simp [Engine.lens, cell_eq_getElem _ ht hi]
  rw [lenRow, get_bind_run, bind_ok (tableGet_run ht), if_pos hn, hrow]
  rfl

/-- `requireLens` is the test that every length of the table is in range (rules R228, R230, R236). -/
theorem requireLens_bind_eq {limit t : Nat} {b : Bool} {f : List Nat → Cmd Unit} (ht : t < 6) (ha : e.AlphaOk)
    (h : f (e.lens t) e = requireOk b e) :
    (requireLens limit t >>= f) e = requireOk (decide (∀ n ∈ e.lens t, 1 ≤ n ∧ n ≤ limit) && b) e := by
  have hrun : requireLens limit t e = (do requireOk ((e.lens t).all fun n => 1 ≤ n ∧ n ≤ limit); pure (e.lens t)) e := by
    rw [requireLens, get_bind_run, bind_ok (lenRow_run ht ha)]
  have hall : ((e.lens t).all fun n => decide (1 ≤ n ∧ n ≤ limit)) = decide (∀ n ∈ e.lens t, 1 ≤ n ∧ n ≤ limit) := by
    rw [Bool.eq_iff_iff]
    simp
  rw [hall] at hrun
  by_cases hp : ∀ n ∈ e.lens t, 1 ≤ n ∧ n ≤ limit
  · rw [decide_eq_true hp] at hrun ⊢
    exact (bind_ok hrun).trans h
  · rw [decide_eq_false hp] at hrun ⊢
    exact bind_error hrun

theorem checkHufAssignCodes_eq (ha : e.AlphaOk) (t : BitVec 3) :
    checkHufAssignCodes t e = requireOk (checksOk e (.hufAssignCodes t)) e := by
  refine (requireOk_bind_eq fun ht => requireLens_bind_eq (Nat.lt_succ_of_le (of_decide_eq_true ht)) ha rfl).trans ?_
  simp only [checksOk, Bool.decide_and]
  rfl

theorem checkHufBuildDecode_eq (ha : e.AlphaOk) (t : BitVec 3) :
    checkHufBuildDecode t e = requireOk (checksOk e (.hufBuildDecode t)) e := by
  refine (requireOk_bind_eq fun ht => requireLens_bind_eq (b := true) (Nat.lt_succ_of_le (of_decide_eq_true ht)) ha rfl).trans ?_
  simp only [checksOk, Bool.decide_and, Bool.and_true]
  rfl

theorem checkHufWriteTables_eq (ha : e.AlphaOk) : checkHufWriteTables e = requireOk (checksOk e .hufWriteTables) e := by
  have hloop : 2 ≤ e.huf.nGroups.toNat ∧ e.huf.nGroups.toNat ≤ 6 ∧ 1 ≤ e.huf.nSelectors.toNat ∧ e.huf.nSelectors.toNat ≤ 18001 →
      forEach (List.range e.huf.nGroups.toNat) (fun t => do let _ ← requireLens Config.maxEncLen t) e =
        requireOk ((List.range e.huf.nGroups.toNat).all fun t => decide (∀ n ∈ e.lens t, 1 ≤ n ∧ n ≤ 20) && true) e :=
    fun hn => forEach_requireOk fun t ht => requireLens_bind_eq (by rw [List.mem_range] at ht; omega) ha rfl
  refine (requireOk_bind_eq fun hn => hloop (of_decide_eq_true hn)).trans (congrFun (congrArg requireOk ?_) e)
  rw [Bool.eq_iff_iff]
  simp [checksOk, and_assoc]

/-! ### The codes of the stream -/

/-- Where the code of a symbol can be looked up, its check is the test that it has one (rule R231). -/
theorem requireCode_eq {i c : Nat} (h : e.codeRead i = some c) : requireCode i e = requireOk (c / 2 ^ 24 ≠ 0) e := by
  unfold Engine.codeRead at h
  split at h
  case h_2 => cases h
  case h_1 t x ht hx =>
    obtain ⟨hin, hcell⟩ := Option.ite_none_right_eq_some.mp h
    cases hcell
    have hcode : codeOfSymbol i e = .ok e.huf.code[t.toNat][x.toNat] e := by
      have hsel : selectorGet (i / 50) e = .ok t e := storeGet_run ht
      have hsym : mtfStreamGet i e = .ok x e := storeGet_run hx
      rw [codeOfSymbol, bind_ok hsel, bind_ok hsym, get_bind_run, tableGet2_run hin.1 hin.2]
    rw [requireCode, bind_ok hcode, codeLen, Nat.shiftRight_eq_div_pow, ← cell_eq_getElem _ hin.1 hin.2]

/-- The search for a symbol without a code stops at the first one, or where a code cannot be looked up (log entry 12). -/
theorem allCoded_cons_eq_false {i : Nat} {is : List Nat} (h : e.allCoded (i :: is) = false) :
    ∃ c, e.codeRead i = some c ∧ (c / 2 ^ 24 = 0 ∨ e.allCoded is = false) := by
  unfold Engine.allCoded at h
  cases hc : e.codeRead i with
  | none => simp [hc] at h
  | some c => exact ⟨c, rfl, by simpa [hc, -Nat.reducePow, or_iff_not_imp_left] using h⟩

theorem requireCodes_refuse {is : List Nat} (h : e.allCoded is = false) :
    forEach is requireCode e = .error (.raised .unsupportedOperation) e := by
  induction is with
  | nil => cases h
  | cons i is ih =>
    obtain ⟨c, hc, hrest⟩ := allCoded_cons_eq_false h
    have hi := requireCode_eq hc
    rw [forEach_cons]
    by_cases h0 : c / 2 ^ 24 = 0
    · exact bind_error (hi.trans (requireOk_false (by rw [h0]; rfl)))
    · exact (bind_ok (hi.trans (requireOk_true (decide_eq_true h0)))).trans (ih (hrest.resolve_left h0))

theorem encodeChecks_refuse (h : checksOk e .hufEncodeData = false) : encodeChecks e = .error (.raised .unsupportedOperation) e := by
  rw [encodeChecks, get_bind_run]
  by_cases hm : e.mtf.len.toNat ≤ e.huf.nSelectors.toNat * 50
  · rw [requireOk_true_bind (decide_eq_true hm)]
    exact requireCodes_refuse (by simpa [checksOk, hm] using h)
  · exact requireOk_false_bind (decide_eq_false hm) _

/-! ### Every command -/

theorem quiet_iff {p : Phase} : p.quiet = true ↔ p = .idle ∨ p = .encDone ∨ p = .decComplete := by
  cases p <;> decide

theorem decoding_iff {p : Phase} :
    p.decoding = true ↔ p = .decUninit ∨ p = .decBlockBoundary ∨ p = .decBlockActive ∨ p = .decComplete := by
  cases p <;> decide

/-- HUF_ALLOC takes IMM or ALPHA, which is at least 2, and at most 258 in the range of N_IN_USE (rule R213). -/
theorem checkHufAlloc_eq (ha : e.AlphaOk) (t : BitVec 3) (count : BitVec 9) :
    checkHufAlloc t count e = requireOk (checksOk e (.hufAlloc t count)) e := by
  refine (requireOk_bind_eq fun _ => rfl).trans (requireOk_congr ?_)
  have hle : e.mtf.nInUse.toNat ≤ 256 := ha
  have hcount : (2 ≤ (if count.toNat = 0 then alphaOf e.mtf else count.toNat) ∧
      (if count.toNat = 0 then alphaOf e.mtf else count.toNat) ≤ 258) ↔ count.toNat ≠ 1 ∧ count.toNat ≤ 258 := by
    unfold alphaOf
    split <;> omega
  simp only [checksOk, Bool.and_eq_true, decide_eq_true_eq, hcount]

theorem checkHufEncodeSym_eq (ha : e.AlphaOk) (t : BitVec 3) :
    checkHufEncodeSym t e = requireOk (checksOk e (.hufEncodeSym t)) e := by
  have hcode : t.toNat ≤ 5 → e.host.arg.toNat % 512 < e.alpha →
      (do let c ← tableGet2 .code e.huf.code t.toNat (e.host.arg.toNat % 512); requireOk (codeLen c ≠ 0) : Cmd Unit) e =
        requireOk (cell e.huf.code t.toNat (e.host.arg.toNat % 512) / 2 ^ 24 ≠ 0) e := by
    intro ht hs
    have hle : e.alpha ≤ 258 := Nat.add_le_add_right ha 2
    rw [bind_ok (tableGet2_run (by omega) (by omega)), codeLen, Nat.shiftRight_eq_div_pow, ← cell_eq_getElem _ (by omega) (by omega)]
  refine (requireOk_bind_eq fun ht => requireOk_bind_eq fun hs => hcode (of_decide_eq_true ht) (of_decide_eq_true hs)).trans ?_
  rw [← Bool.decide_and, ← Bool.decide_and]
  rfl

/-- The checks of a command are one test of the engine, that of rule R314 (`checksOk`); those of HUF_ENCODE_DATA can also fault. -/
theorem checksOf_eq (ha : e.AlphaOk) {i : Instr} (hi : i ≠ .hufEncodeData) : checksOf i e = requireOk (checksOk e i) e := by
  cases i with
  | hufEncodeData => exact absurd rfl hi
  | hufAlloc t count => exact checkHufAlloc_eq ha t count
  | hufAssignCodes t => exact checkHufAssignCodes_eq ha t
  | hufWriteTables => exact checkHufWriteTables_eq ha
  | hufBuildDecode t => exact checkHufBuildDecode_eq ha t
  | hufEncodeSym t => exact checkHufEncodeSym_eq ha t
  | hufSetFreq t sym => exact (requireCell_bind_eq fun _ => rfl).trans (requireOk_congr (by simp [checksOk, tableOk, symbolOk, and_assoc]))
  | hufSetLen t sym =>
    exact (requireCell_bind_eq (b := decide (1 ≤ e.host.arg.toNat ∧ e.host.arg.toNat ≤ 23)) fun _ => rfl).trans
      (requireOk_congr (by simp [checksOk, tableOk, symbolOk, and_assoc]))
  | hufGetLen t sym => exact (congrFun (requireCell_eq t sym) e).trans (requireOk_congr (by simp [checksOk, tableOk, symbolOk]))
  | hufGetCode t sym => exact (congrFun (requireCell_eq t sym) e).trans (requireOk_congr (by simp [checksOk, tableOk, symbolOk]))
  | mtfDecSym => exact requireOk_congr (by simp [checksOk, ← BitVec.toNat_inj, Engine.alpha])
  | hufSetGroups => exact requireOk_congr (by simp [checksOk, ← BitVec.toNat_inj])
  | hufSeed => exact requireOk_congr (by simp [checksOk, ← BitVec.toNat_inj])
  | hufSelectPass => exact requireOk_congr (by simp [checksOk, ← BitVec.toNat_inj])
  | hufOptimize => exact requireOk_congr (by simp [checksOk, ← BitVec.toNat_inj])
  | blkCheckCrc => exact requireOk_congr (by simp [checksOk, blockExhausted, ← BitVec.toNat_inj])
  | strEncOpen k => exact (requireOk_bind_eq fun _ => rfl).trans (requireOk_congr (by simp [checksOk, quiet_iff, and_assoc]))
  | strDecOpen headerless => exact requireOk_congr (by simp [checksOk, quiet_iff])
  | strDecRead => exact requireOk_congr (by simp [checksOk, decoding_iff])
  | _ => rfl

/-- A command whose checks stop it raises what they raise. -/
theorem raises_of_checksOf {i : Instr} {s : State} {k : ErrorKind} (hl : s.Live)
    (h : checksOf i s.toEngine = .error (.raised k) s.toEngine) : Raises i s k s.toEngine := by
  have hn : i ≠ .nop := by
    rintro rfl
    cases h
  have hr : i ≠ .coreReset := by
    rintro rfl
    cases h
  exact raises_of_checks (exec_eq_runCommand hn hr s) hl h

/-- The operand checks come first, whatever the engine holds (rules R102, R314). -/
theorem checksOf_illFormed {i : Instr} (h : i.wellFormed = false) : checksOf i e = .error (.raised .unsupportedOperation) e := by
  cases i with
  | brReadBits n => exact requireOk_false h
  | bwWriteBits n => exact requireOk_false h
  | hufAlloc t count =>
    by_cases ht : tableOk t = true
    · refine (requireOk_true_bind ht _).trans (requireOk_false ?_)
      simp only [Instr.wellFormed, ht, symbolCountOk, Bool.true_and, decide_eq_false_iff_not, not_or] at h ⊢
      rw [if_neg h.1]
      exact h.2
    · exact requireOk_false_bind (Bool.eq_false_of_not_eq_true ht) _
  | hufSetFreq t sym => exact requireCell_refuses h _
  | hufAssignCodes t => exact requireOk_false_bind h _
  | hufBuildDecode t => exact requireOk_false_bind h _
  | hufEncodeSym t => exact requireOk_false_bind h _
  | hufSetLen t sym => exact requireCell_refuses h _
  | hufGetLen t sym => exact (congrFun (requireCell_eq t sym) e).trans (requireOk_false h)
  | hufGetCode t sym => exact (congrFun (requireCell_eq t sym) e).trans (requireOk_false h)
  | blkEncOpen k => exact requireOk_false h
  | blkDecStart k => exact requireOk_false h
  | strEncOpen k => exact requireOk_false_bind h _
  | _ => cases h

/-- Settles O50: a failed check is a failed test (`checksOf_eq`), and HUF_ENCODE_DATA stops at the first symbol without a code
(`requireCodes_refuse`). -/
theorem failedChecksRaise : Obligations.FailedChecksRaise := by
  refine fun i s hl => ⟨fun ha h => raises_of_checksOf hl ?_, fun h => raises_of_checksOf hl (checksOf_illFormed h)⟩
  by_cases hi : i = .hufEncodeData
  · subst hi
    exact encodeChecks_refuse h
  · exact (checksOf_eq ha hi).trans (requireOk_false h)

end Sys2Proof.Machine
end

section
/-! SUPPORT. The symbol map (spec/43_mtf_rle2.md, rules R123, R202 to R204): what MTF_WRITE_MAP writes, and what MTF_READ_MAP rebuilds. -/

namespace Sys2Proof.Machine

variable {α β : Type} {e : Engine}

/-! ### Writing -/

theorem emits_writeFlags (bs : List Bool) : Cmd.Emits bs (writeFlags bs) := by
  have h := emits_forEach (xs := bs) (f := fun b => [b]) fun b _ => emits_flag b
  rwa [List.flatMap_singleton'] at h

/-- Leaving out the lists that fail a test. -/
theorem flatMap_if (rs : List (List α)) (t : List α → Bool) :
    (rs.flatMap fun r => if t r then r else []) = (rs.filter t).flatten := by
  induction rs with
  | nil => rfl
  | cons r rs ih => cases ht : t r <;> simp [ht, ih]

/-- MTF_WRITE_MAP writes the bits of the symbol map (rules R123, R202). -/
theorem mtfWriteMap_run (hok : e.bits.WriterOk) (hroom : e.HasRoom (mapBits e.block.presence).length) :
    mtfWriteMap e = .ok () (e.append (mapBits e.block.presence)) := by
  generalize hp : e.block.presence = p at hroom ⊢
  have hemits := emits_bind (emits_writeFlags (((List.range 16).map (rangeOf p)).map fun r => r.any id))
    (emits_forEach (xs := (List.range 16).map (rangeOf p)) (c := fun r => if r.any id then writeFlags r else pure ())
      (f := fun r => if r.any id then r else []) fun r _ => ?_)
  · rw [flatMap_if] at hemits
    subst hp
    exact hemits.run hok hroom
  · split
    · exact emits_writeFlags r
    · exact emits_pure

/-! ### Reading -/

theorem forEach_map (xs : List α) (g : α → β) (c : β → Cmd Unit) : forEach (xs.map g) c = forEach xs fun x => c (g x) := by
  induction xs with
  | nil => rfl
  | cons x xs ih => simp only [List.map_cons, forEach_cons, ih]

/-- Reading flags one by one. -/
theorem collect_flags_run {bs rest : List Bool} {xs : List α} (hlen : xs.length = bs.length) (hok : e.bits.ReaderOk)
    (h : e.inBits = bs ++ rest) : collect xs (fun _ => readBits 1) e = .ok (bs.map Bool.toNat) (e.consume bs.length) := by
  induction bs generalizing xs e with
  | nil =>
    obtain rfl := List.length_eq_zero_iff.mp hlen
    rw [List.length_nil, consume_zero hok]
    rfl
  | cons b bs ih =>
    obtain ⟨x, xs, rfl⟩ := List.exists_cons_of_length_eq_add_one hlen
    have h1 : 1 ≤ e.inBits.length := by simp [h]
    have hrest : (e.consume 1).inBits = bs ++ rest := by rw [consume_inBits hok h1, h]; rfl
    rw [collect_cons, bind_ok (readBits_one hok h), bind_ok (ih (by simpa using hlen) (consume_readerOk hok h1) hrest),
      consume_consume hok (by simp [h]; omega), Nat.add_comm 1]
    rfl

/-- PRESENCE has been read up to some value, and is clear from there on. -/
def PresenceRead (done : List Bool) (p : Vector Bool 256) : Prop := p.toList = done ++ List.replicate (256 - done.length) false

/-- The engine with another symbol map. -/
def Engine.withPresence (p : Vector Bool 256) (e : Engine) : Engine := { e with block.presence := p }

theorem presenceRead_nil : PresenceRead [] (Vector.replicate 256 false) := Vector.toList_replicate

/-- One bit more. -/
theorem PresenceRead.set {done : List Bool} {p : Vector Bool 256} (h : PresenceRead done p) (hlen : done.length < 256) (b : Bool) :
    PresenceRead (done ++ [b]) (p.setIfInBounds done.length b) := by
  have hrep : List.replicate (256 - done.length) false = false :: List.replicate (256 - (done ++ [b]).length) false := by
    rw [← List.replicate_succ, List.length_append]
    congr 1
    simp only [List.length_singleton]
    omega
  unfold PresenceRead at h ⊢
  rw [Vector.toList_setIfInBounds, h, hrep, List.set_append_right _ _ le_rfl, Nat.sub_self, List.set_cons_zero, List.append_assoc]
  rfl

/-- A range without a range bit stays clear. -/
theorem PresenceRead.skip {done : List Bool} {p : Vector Bool 256} (h : PresenceRead done p) {n : Nat} (hlen : done.length + n ≤ 256) :
    PresenceRead (done ++ List.replicate n false) p := by
  unfold PresenceRead at h ⊢
  rw [h, List.append_assoc, List.replicate_append_replicate, List.length_append, List.length_replicate]
  congr 2
  omega

theorem presenceRead_full {done : List Bool} {p : Vector Bool 256} (h : PresenceRead done p) (hlen : done.length = 256) :
    p.toList = done := by
  rw [h, hlen, Nat.sub_self, List.replicate_zero, List.append_nil]

/-- The value bits of one range (rule R203). -/
theorem readValues_run {vs done rest : List Bool} {p : Vector Bool 256} (hok : e.bits.ReaderOk) (h : e.inBits = vs ++ rest)
    (hp : PresenceRead done p) (hlen : done.length + vs.length ≤ 256) :
    ∃ p', forEach (List.range' done.length vs.length) readPresence (e.withPresence p) =
        .ok () ((e.consume vs.length).withPresence p') ∧ PresenceRead (done ++ vs) p' := by
  induction vs generalizing e done p with
  | nil => exact ⟨p, by rw [List.length_nil, consume_zero hok]; rfl, by rwa [List.append_nil]⟩
  | cons b vs ih =>
    have h1 : 1 ≤ e.inBits.length := by simp [h]
    have hread : readPresence done.length (e.withPresence p) = .ok () ((e.consume 1).withPresence (p.setIfInBounds done.length b)) := by
      rw [readPresence, bind_ok (readBits_one (e := e.withPresence p) hok h)]
      cases b <;> rfl
    rw [List.length_cons] at hlen
    obtain ⟨p', hrun, hp'⟩ := ih (consume_readerOk hok h1) (by rw [consume_inBits hok h1, h]; rfl) (hp.set (by omega) b)
      (by simp only [List.length_append, List.length_singleton]; omega)
    refine ⟨p', ?_, by simpa using hp'⟩
    rw [List.length_append, List.length_singleton, consume_consume hok (by simp [h]; omega), Nat.add_comm 1] at hrun
    rw [List.length_cons, List.range'_succ, forEach_cons, bind_ok hread, hrun]

/-- What MTF_READ_MAP does for one range (rule R203): its range bit, as a number, and its index. -/
def readRange (q : Nat × Nat) : Cmd Unit :=
  if q.1 = 1 then forEach (List.range 16) fun j => readPresence (16 * q.2 + j) else pure ()

/-- The bits of the input for one range after its range bit. -/
def rangeInput (q : Bool × List Bool) : List Bool := if q.1 then q.2 else []

/-- The bits of PRESENCE that one range stands for. -/
def rangeValues (q : Bool × List Bool) : List Bool := if q.1 then q.2 else List.replicate 16 false

theorem rangeValues_length {q : Bool × List Bool} (h : q.2.length = 16) : (rangeValues q).length = 16 := by
  unfold rangeValues
  split
  · exact h
  · exact List.length_replicate

theorem flatMap_rangeValues_length {qs : List (Bool × List Bool)} (h : ∀ q ∈ qs, q.2.length = 16) :
    (qs.flatMap rangeValues).length = 16 * qs.length := by
  rw [List.length_flatMap, List.map_congr_left fun q hq => rangeValues_length (h q hq), List.map_const', List.sum_replicate, smul_eq_mul,
    Nat.mul_comm]

/-- A bit of a range is its value bit, where the range has a range bit. -/
theorem rangeValues_bit {q : Bool × List Bool} {j : Nat} (h : q.2.length = 16) (hj : j < 16) :
    (rangeValues q)[j]? = some (q.1 && q.2.getD j false) := by
  obtain ⟨flag, vs⟩ := q
  have hvs : j < vs.length := lt_of_lt_of_eq hj h.symm
  cases flag
  · exact List.getElem?_replicate_of_lt hj
  · simp [rangeValues, hvs]

/-- One range, with or without its range bit. -/
theorem readRange_run {q : Bool × List Bool} {done rest : List Bool} {k : Nat} {p : Vector Bool 256} (hq : q.2.length = 16)
    (hok : e.bits.ReaderOk) (h : e.inBits = rangeInput q ++ rest) (hp : PresenceRead done p) (hk : done.length = 16 * k) (hlen : k < 16) :
    ∃ p', readRange (q.1.toNat, k) (e.withPresence p) = .ok () ((e.consume (rangeInput q).length).withPresence p') ∧
      PresenceRead (done ++ rangeValues q) p' := by
  obtain ⟨flag, vs⟩ := q
  cases flag with
  | false => exact ⟨p, by rw [show (rangeInput (false, vs)).length = 0 from rfl, consume_zero hok]; rfl, hp.skip (by omega)⟩
  | true =>
    have hq : vs.length = 16 := hq
    obtain ⟨p', hrun, hp'⟩ := readValues_run (vs := vs) hok h hp (by omega)
    refine ⟨p', ?_, hp'⟩
    have hloop : readRange (true.toNat, k) = forEach (List.range' done.length vs.length) readPresence := by
      rw [hq, hk, List.range'_eq_map_range, forEach_map]
      rfl
    exact (congrFun hloop _).trans hrun

/-- The ranges in turn (rule R203). -/
theorem readRanges_run {qs : List (Bool × List Bool)} {done rest : List Bool} {k : Nat} {p : Vector Bool 256}
    (hqs : ∀ q ∈ qs, q.2.length = 16) (hok : e.bits.ReaderOk) (h : e.inBits = qs.flatMap rangeInput ++ rest) (hp : PresenceRead done p)
    (hk : done.length = 16 * k) (hlen : k + qs.length ≤ 16) :
    ∃ p', forEach ((qs.map fun q => q.1.toNat).zipIdx k) readRange (e.withPresence p) =
        .ok () ((e.consume (qs.flatMap rangeInput).length).withPresence p') ∧ PresenceRead (done ++ qs.flatMap rangeValues) p' := by
  induction qs generalizing e done k p with
  | nil => exact ⟨p, by rw [List.flatMap_nil, List.length_nil, consume_zero hok]; rfl, by rwa [List.flatMap_nil, List.append_nil]⟩
  | cons q qs ih =>
    rw [List.flatMap_cons, List.append_assoc] at h
    rw [List.length_cons] at hlen
    have hq : q.2.length = 16 := hqs q (by simp)
    have hn : (rangeInput q).length ≤ e.inBits.length := by simp [h]
    obtain ⟨p₁, hrun₁, hp₁⟩ := readRange_run hq hok h hp hk (by omega)
    obtain ⟨p₂, hrun₂, hp₂⟩ := ih (k := k + 1) (fun q' h' => hqs q' (by simp [h'])) (consume_readerOk hok hn)
      (by rw [consume_inBits hok hn, h, List.drop_left]) hp₁
      (by rw [List.length_append, rangeValues_length hq]; omega) (by omega)
    refine ⟨p₂, ?_, by rwa [List.flatMap_cons, ← List.append_assoc]⟩
    rw [List.map_cons, List.zipIdx_cons, forEach_cons, bind_ok hrun₁, hrun₂, consume_consume hok (by simp [h]),
      List.flatMap_cons, List.length_append]

/-- Bit `16i + j` of PRESENCE is bit `j` of range `i`. -/
theorem flatMap_rangeValues_bit {qs : List (Bool × List Bool)} {q : Bool × List Bool} {i j : Nat} (hqs : ∀ q ∈ qs, q.2.length = 16)
    (hj : j < 16) (hi : qs[i]? = some q) : (qs.flatMap rangeValues)[16 * i + j]? = some (q.1 && q.2.getD j false) := by
  induction qs generalizing i with
  | nil => cases hi
  | cons q₀ qs ih =>
    have hlen := rangeValues_length (hqs q₀ (by simp))
    rw [List.flatMap_cons]
    cases i with
    | zero =>
      cases hi
      rw [Nat.mul_zero, Nat.zero_add, List.getElem?_append_left (by omega), rangeValues_bit (hqs q (by simp)) hj]
    | succ i =>
      rw [List.getElem?_append_right (by omega), hlen, show 16 * (i + 1) + j - 16 = 16 * i + j by omega]
      exact ih (fun q' h' => hqs q' (by simp [h'])) hi

/-- MTF_READ_MAP rebuilds PRESENCE from the range bits and the value bits of the ranges that have one (rules R123, R203). -/
theorem mtfReadMap_run {ranges rest : List Bool} {values : List (List Bool)} (hok : e.bits.ReaderOk) (hr : ranges.length = 16)
    (hv : values.length = 16) (hvs : ∀ vs ∈ values, vs.length = 16)
    (h : e.inBits = ranges ++ (ranges.zip values).flatMap rangeInput ++ rest) :
    ∃ p, mtfReadMap e = .ok () ((e.consume (ranges ++ (ranges.zip values).flatMap rangeInput).length).withPresence p) ∧
      p.toList = (ranges.zip values).flatMap rangeValues := by
  have hflags : (ranges.zip values).map (fun q => q.1.toNat) = ranges.map Bool.toNat := by
    conv_rhs => rw [← List.map_fst_zip (show ranges.length ≤ values.length by omega), List.map_map]
    rfl
  have hqs : ∀ q ∈ ranges.zip values, q.2.length = 16 := fun q hq => hvs q.2 (List.of_mem_zip hq).2
  have hn : ranges.length ≤ e.inBits.length := by simp [h]
  rw [List.append_assoc] at h
  obtain ⟨p, hrun, hp⟩ := readRanges_run (k := 0) hqs (consume_readerOk hok hn) (by rw [consume_inBits hok hn, h, List.drop_left])
    presenceRead_nil rfl (by simp [hr, hv])
  refine ⟨p, ?_, ?_⟩
  · rw [mtfReadMap, bind_ok (collect_flags_run (by simp [hr]) hok h), modBlock_bind_run, List.length_append,
      ← consume_consume hok (by simp [h]), ← hrun, hflags]
    rfl
  · exact presenceRead_full hp (by rw [flatMap_rangeValues_length hqs, List.length_zip, hr, hv]; rfl)

/-- Settles O18: MTF_WRITE_MAP only writes bits (`mtfWriteMap_run`), and MTF_READ_MAP fills PRESENCE range by range
(`mtfReadMap_run`). -/
theorem symbolMapCommands : Obligations.SymbolMapCommands := by
  intro s hl
  refine ⟨fun hok hroom => ?_, ?_, fun v harg hv => ?_⟩
  · refine completes_of rfl hl (noChecks_run _) ?_
    rw [cmdMtfWriteMap, bind_ok (mtfWriteMap_run (e := s.begun) hok hroom), get_bind_run, setResult_run, presentCount,
      presentValues_length]
    rfl
  · intro ranges values rest hok hr hv hvs bits hin
    have hqs : ∀ q ∈ ranges.zip values, q.2.length = 16 := fun q hq => hvs q.2 (List.of_mem_zip hq).2
    obtain ⟨p, hrun, hp⟩ := mtfReadMap_run (e := s.begun) hok hr hv hvs hin
    refine ⟨p, fun i hi j hj => ?_, completes_of rfl hl (noChecks_run _) ?_⟩
    · have hq : (ranges.zip values)[i]? = some (ranges.getD i false, values.getD i []) := by simp [List.getD_eq_getElem?_getD, hr, hv, hi]
      rw [hp, flatMap_rangeValues_bit hqs hj hq]
    · rw [cmdMtfReadMap, bind_ok hrun, get_bind_run, setResult_run, presentCount, presentValues_length]
      rfl
  · have hget : mtfStreamGet s.host.arg.toNat s.begun = .ok v s.begun := storeGet_run hv
    exact completes_of rfl hl (requireOk_true (decide_eq_true harg)) (bind_ok hget)

end Sys2Proof.Machine
end

section
/-! SUPPORT. The bit commands that find the bits or the room they need (rules R143 to R152), and the frame of the bit engine, the CRC
unit and NOP. -/

namespace Sys2Proof.Machine

variable {e : Engine}

/-! ### Reads and writes that complete -/

/-- A command whose body writes the bits `bs` completes when there is room for them (rules R91, R147). -/
theorem completes_of_emits {i : Instr} {checks body c : Cmd Unit} {s : State} {bs : List Bool}
    (hex : exec i s = runCommand i checks body s) (hl : s.Live) (hc : checks s.toEngine = .ok () s.toEngine)
    (hemits : Cmd.Emits bs c) (hb : body s.begun = c s.begun) (hok : s.bits.WriterOk) (hroom : s.HasRoom bs.length) :
    Completes i s (s.begun.append bs) :=
  completes_of hex hl hc (hb.trans (hemits.run (e := s.begun) hok hroom))

/-- Settles O1: what `ReadBits`, `Read32` and `ReadUnary` do with the bits at hand, and the value goes to RESULT. -/
theorem readCommandsComplete : Obligations.ReadCommandsComplete := by
  intro s hl hok
  refine ⟨fun n hn hlen => ?_, fun hlen => ?_, fun hlen => ?_, fun limit c rest => ⟨fun hc h => ?_, fun h => ?_⟩⟩
  · exact completes_of rfl hl (requireCount_run hn _) (bind_ok (readBits_run (e := s.begun) hn hok hlen))
  · exact completes_of rfl hl (noChecks_run _) (bind_ok (readBits_run (e := s.begun) (by norm_num) hok hlen))
  · exact completes_of rfl hl (noChecks_run _) (bind_ok (read32_run (e := s.begun) hok hlen))
  · rw [← unaryLimit_eq] at hc
    exact completes_of rfl hl (noChecks_run _) (bind_ok (readUnary_run (e := s.begun) hok hc h))
  · rw [← unaryLimit_eq] at h ⊢
    exact raises_of rfl hl (noChecks_run _) (bind_error (readUnary_over (e := s.begun) hok h))

/-- Settles O3: every body writes its bits (`Cmd.Emits`), so with room it ends normally with them appended. -/
theorem writeCommandsComplete : Obligations.WriteCommandsComplete := by
  intro s hl hok
  refine ⟨fun n hn hroom => ?_, fun hroom => ?_, fun hroom => ?_, fun hroom => ?_⟩
  · exact completes_of_emits rfl hl (requireCount_run hn _) (emits_writeBits hn s.host.arg.toNat) rfl hok (by rwa [bitsOf_length])
  · exact completes_of_emits rfl hl (noChecks_run _) (emits_argBit s.host.arg) rfl hok hroom
  · exact completes_of_emits rfl hl (noChecks_run _) (emits_writeUnary (s.host.arg.toNat % 65536)) rfl hok (by simpa using hroom)
  · exact completes_of_emits rfl hl (noChecks_run _) (emits_write32 s.host.arg.toNat) rfl hok (by rwa [bitsOf_length])

/-! ### The flush -/

@[simp] theorem flushed_wrCnt : e.flushed.bits.wrCnt = 0 := rfl

theorem flushed_writerOk : e.flushed.bits.WriterOk := ⟨Nat.zero_le 7, Nat.one_pos⟩

/-- Flushing twice is flushing once (rule R151). -/
theorem flushed_flushed : e.flushed.flushed = e.flushed := by
  conv_lhs => rw [Engine.flushed, if_pos flushed_wrCnt, List.append_nil]
  rfl

/-- BW_FLUSH with no bit waiting, or with room for the byte (rule R151). -/
theorem bwFlush_completes {s : State} (hl : s.Live) (hok : s.bits.WriterOk)
    (hroom : s.bits.wrCnt = 0 ∨ s.host.outFifo.length < s.outDepth) : Completes .bwFlush s s.begun.flushed :=
  completes_of rfl hl (noChecks_run _) (flushWriter_run (e := s.begun) hok hroom)

/-- Settles O4: after a flush no bit waits, so a second one completes whatever room there is, and changes nothing
(`flushed_flushed`). -/
theorem flushPadsToAByte : Obligations.FlushPadsToAByte := by
  intro s hl hok
  refine ⟨fun hroom => ?_, fun h0 hfull => ?_⟩
  · have hfirst : Completes .bwFlush s s.begun.flushed := bwFlush_completes hl hok hroom
    refine ⟨hfirst, fun t ht => ?_⟩
    cases hfirst.symm.trans ht
    have hagain := bwFlush_completes (s := { s with toEngine := s.begun.flushed, hold := none }) hl flushed_writerOk
      (.inl flushed_wrCnt)
    exact (congrArg (Completes .bwFlush _) flushed_flushed).mp hagain
  · exact waits_of rfl hl (noChecks_run _) (flushWriter_stuck (e := s.begun) h0 (Nat.not_lt.mpr hfull))

/-! ### Frame -/

/-- Settles O56: every command keeps what its rule does not write (`exec_framed`). -/
theorem frameBitsAndCrc : Obligations.FrameBitsAndCrc :=
  ⟨exec_framed _, fun _ => exec_framed _, exec_framed _, fun _ => exec_framed _, exec_framed _, fun _ => exec_framed _, exec_framed _,
    exec_framed _, exec_framed _, exec_framed _, exec_framed _, exec_framed _, exec_framed _, exec_framed _, exec_framed _,
    exec_framed _, fun _ => exec_framed _⟩

end Sys2Proof.Machine
end

section
/-! SUPPORT. Fields of bits written one after the other, flushed and read back (rule R154). -/

namespace Sys2Proof.Machine

variable {e : Engine}

/-! ### The stream that has been written -/

/-- The output stream that has been written: the bytes of the output FIFO, then the bits that wait in WR_ACC (rules R41, R91). -/
def Engine.outBits (e : Engine) : List Bool := bytesBits e.host.outFifo ++ e.wrBits

/-- Writing bits puts them at the end of the output stream (rule R91). -/
theorem append_outBits (bs : List Bool) : (e.append bs).outBits = e.outBits ++ bs := by
  have hfull : 8 * ((e.wrBits ++ bs).length / 8) ≤ (e.wrBits ++ bs).length := Nat.mul_div_le _ _
  have hfifo : (e.append bs).host.outFifo = e.host.outFifo ++ bitsBytes ((e.wrBits ++ bs).length / 8) (e.wrBits ++ bs) := rfl
  simp only [Engine.outBits]
  rw [append_wrBits, hfifo, bytesBits_append, bytesBits_bitsBytes _ _ hfull, List.append_assoc, List.take_append_drop,
    List.append_assoc]

/-- A flush completes the last byte of the output stream with fewer than 8 zeros (rule R151). -/
theorem flushed_bytes (hok : e.bits.WriterOk) :
    ∃ p ≤ 7, bytesBits e.flushed.host.outFifo = e.outBits ++ List.replicate p false := by
  have hlen := wrBits_length (e := e)
  by_cases h0 : e.bits.wrCnt = 0
  · have hnil : e.wrBits = [] := List.eq_nil_of_length_eq_zero (by rw [hlen, h0]; rfl)
    refine ⟨0, by omega, ?_⟩
    simp [Engine.flushed, Engine.outBits, h0, hnil]
  · have hpos : e.bits.wrCnt.toNat ≠ 0 := fun h => h0 (BitVec.eq_of_toNat_eq h)
    have hbyte : (e.wrBits ++ List.replicate (8 - e.bits.wrCnt.toNat) false).length = 8 := by
      rw [List.length_append, List.length_replicate, hlen]
      have := hok.1
      omega
    refine ⟨8 - e.bits.wrCnt.toNat, by omega, ?_⟩
    rw [Engine.flushed, if_neg h0, bytesBits_append, bytesBits_bitsBytes 1 _ hbyte.ge, List.take_of_length_le hbyte.le, Engine.outBits,
      List.append_assoc]

/-- A piece that writes bits, and then a flush, with room for all the bits (rules R147, R151). -/
theorem emits_flush_run {bs : List Bool} {c : Cmd Unit} (hc : Cmd.Emits bs c) (hok : e.bits.WriterOk)
    (hroom : 8 * e.host.outFifo.length + e.bits.wrCnt.toNat + bs.length ≤ 8 * e.outDepth) :
    (do c; flushWriter : Cmd Unit) e = .ok () (e.append bs).flushed := by
  have hbytes : e.HasRoom bs.length := by unfold Engine.HasRoom; omega
  have hlast : (e.append bs).bits.wrCnt = 0 ∨ (e.append bs).host.outFifo.length < (e.append bs).outDepth := by
    by_cases h0 : (e.append bs).bits.wrCnt = 0
    · exact .inl h0
    · have hpart : (e.append bs).bits.wrCnt.toNat ≠ 0 := fun h => h0 (BitVec.eq_of_toNat_eq h)
      rw [append_wrCnt] at hpart
      rw [append_outFifo_length, append_outDepth]
      omega
  rw [bind_ok (hc.run hok hbytes)]
  exact flushWriter_run (append_writerOk bs) hlast

/-! ### Fields -/

/-- Fields of widths up to 24 are written as their bits, one after the other (rule R147). -/
theorem emits_fields {fields : List (Nat × Nat)} (hw : ∀ f ∈ fields, f.1 ≤ 24) :
    Cmd.Emits (fields.flatMap fun f => bitsOf f.1 f.2) (forEach fields fun f => writeBits f.1 f.2) :=
  emits_forEach fun f hf => emits_writeBits (hw f hf) f.2

theorem fieldBits_length (fields : List (Nat × Nat)) :
    (fields.flatMap fun f => bitsOf f.1 f.2).length = (fields.map Prod.fst).sum := by
  simp [List.length_flatMap]

/-- A reader with the bits of the fields ahead reads the fields, each cut to its width (rule R140). -/
theorem collect_fields_run {fields : List (Nat × Nat)} {rest : List Bool} (hw : ∀ f ∈ fields, f.1 ≤ 24) (hok : e.bits.ReaderOk)
    (h : e.inBits = (fields.flatMap fun f => bitsOf f.1 f.2) ++ rest) :
    collect fields (fun f => readBits f.1) e =
      .ok (fields.map fun f => f.2 % 2 ^ f.1) (e.consume (fields.map Prod.fst).sum) := by
  induction fields generalizing e with
  | nil => exact congrArg (EStateM.Result.ok []) (consume_zero hok).symm
  | cons f fs ih =>
    rw [List.flatMap_cons, List.append_assoc] at h
    have hlen : f.1 ≤ e.inBits.length := by simp [h]
    have hall : f.1 + (fs.map Prod.fst).sum ≤ e.inBits.length := by
      rw [h, ← fieldBits_length fs]
      simp only [List.length_append, bitsOf_length]
      omega
    have hread : readBits f.1 e = .ok (f.2 % 2 ^ f.1) (e.consume f.1) := by
      rw [readBits_run (hw f (by simp)) hok hlen, h, List.take_left' (bitsOf_length _ _), bitsVal_bitsOf]
    have hrest : (e.consume f.1).inBits = (fs.flatMap fun f => bitsOf f.1 f.2) ++ rest := by
      rw [consume_inBits hok hlen, h, List.drop_left' (bitsOf_length _ _)]
    rw [collect_cons, bind_ok hread, bind_ok (ih (fun g hg => hw g (by simp [hg])) (consume_readerOk hok hlen) hrest),
      consume_consume hok hall]
    rfl

/-! ### The pad bits -/

/-- A reader between commands with at most 7 bits ahead, all of them 0, holds them in its accumulator: its FIFO is empty and RD_ACC is
0 (rules R40, R142). -/
theorem readerOk_zeros {p : Nat} (hok : e.bits.ReaderOk) (hp : p ≤ 7) (h : e.inBits = List.replicate p false) :
    e.host.inFifo = [] ∧ e.bits.rdAcc = 0 ∧ e.bits.rdCnt.toNat = p := by
  have hlen : e.bits.rdCnt.toNat + 8 * e.host.inFifo.length = p := by rw [← inBits_length, h, List.length_replicate]
  have hfifo : e.host.inFifo = [] := List.eq_nil_of_length_eq_zero (by omega)
  refine ⟨hfifo, BitVec.eq_of_toNat_eq ?_, by omega⟩
  calc e.bits.rdAcc.toNat
      = bitsVal e.inBits := by rw [Engine.inBits, hfifo, bytesBits_nil, List.append_nil, bitsVal_bitsOf, Nat.mod_eq_of_lt hok.2]
    _ = 0 := by rw [h, bitsVal_replicate_false]

/-- Settles O5: the flushed stream is the bits of the fields and fewer than 8 zeros (`append_outBits`, `flushed_bytes`); the reader
consumes the former (`collect_fields_run`) and is left with the latter (`readerOk_zeros`). -/
theorem fieldsRoundTrip : Obligations.FieldsRoundTrip := by
  intro fields w r hw hwacc hwcnt hwout hdepth hracc hrcnt
  obtain ⟨bs, hbs⟩ : ∃ bs, bs = fields.flatMap fun f => bitsOf f.1 f.2 := ⟨_, rfl⟩
  have hlen : bs.length = (fields.map Prod.fst).sum := hbs ▸ fieldBits_length fields
  have hwok : w.bits.WriterOk := by simp [BitEngine.WriterOk, hwacc, hwcnt]
  have hrok : r.bits.ReaderOk := by simp [BitEngine.ReaderOk, hracc, hrcnt]
  refine ⟨(w.append bs).flushed, ?_, fun hin => ?_⟩
  · exact emits_flush_run (hbs ▸ emits_fields hw) hwok (by simpa [hwcnt, hwout, hlen] using hdepth)
  · obtain ⟨p, hp, hbytes⟩ := flushed_bytes (append_writerOk (e := w) bs)
    have hstart : w.outBits = [] := by simp [Engine.outBits, Engine.wrBits, hwout, hwcnt]
    have hahead : r.inBits = bs ++ List.replicate p false := by
      rw [Engine.inBits, hrcnt, hin, hbytes, append_outBits, hstart]
      rfl
    have hle : bs.length ≤ r.inBits.length := by simp [hahead]
    have hpad : (r.consume bs.length).inBits = List.replicate p false := by rw [consume_inBits hrok hle, hahead, List.drop_left]
    obtain ⟨hfifo, hacc, hcnt⟩ := readerOk_zeros (consume_readerOk hrok hle) hp hpad
    refine ⟨_, collect_fields_run hw hrok (hbs ▸ hahead), ?_⟩
    rw [← hlen]
    refine ⟨hfifo, hacc, ?_⟩
    calc (r.consume bs.length).bits.rdCnt.toNat + bs.length
        = (bytesBits (w.append bs).flushed.host.outFifo).length := by
          rw [hcnt, hbytes, append_outBits, hstart, List.nil_append, List.length_append, List.length_replicate, Nat.add_comm]
      _ = 8 * (w.append bs).flushed.host.outFifo.length := bytesBits_length _

end Sys2Proof.Machine
end

section
/-! SUPPORT. The commands of RLE1 (spec/41_rle1.md, rules R162 to R167), the block and stream commands that put and read one byte, and
the frame of RLE1, BWT and MTF. -/

namespace Sys2Proof.Machine

variable {e : Engine}

/-! ### The flush, when the block has room for the run -/

/-- The bytes of a run go into the block whenever they fit (rule R161). -/
theorem appendRun_fits {v : Byte} {n : Nat} (h : e.block.len.toNat + (runBytes v n).length ≤ 900001) :
    appendRun v n e = .ok () (e.storeBlock (runBytes v n)) := by
  unfold appendRun
  unfold runBytes at h ⊢
  split
  · next hn =>
    rw [if_pos hn, List.length_replicate] at h
    exact repeat_blkAppend_run h
  · next hn =>
    rw [if_neg hn, List.length_append, List.length_replicate, List.length_singleton] at h
    have h4 := storeBlock_len (e := e) (vs := List.replicate 4 v) (by rw [List.length_replicate]; omega)
    rw [bind_ok (repeat_blkAppend_run (by omega)), blkAppend_run (by rw [h4, List.length_replicate]; omega), storeBlock_append]
    rfl

/-- `FlushRun()` whenever the run fits (rule R161). -/
theorem flushRun_fits (h : e.block.len.toNat + (runBytes e.block.runCh e.block.runLen.toNat).length ≤ 900001) :
    flushRun e = .ok () e.runFlushed := by
  by_cases h0 : e.block.runLen.toNat = 0
  · have hz : e.block.runLen = 0 := BitVec.eq_of_toNat_eq h0
    have hsame : e.runFlushed = e := by
      rw [Engine.runFlushed, hz]
      exact set_runLen hz
    rw [flushRun, get_bind_run, if_pos h0, hsame]
    rfl
  · rw [flushRun, get_bind_run, if_neg h0, bind_ok (appendRun_fits h)]
    rfl

/-! ### Putting a byte -/

theorem requireEncoding_run (h : e.frame.phase = .encActive) : requireEncoding e = .ok () e := requireOk_true (decide_eq_true h)

/-- RLE1_PUT, BLK_ENC_WRITE and STR_ENC_WRITE of a byte that the block accepts (rules R163, R262, R292). -/
theorem putCommands_accept {s : State} {b : Byte} (hb : s.host.arg.setWidth 8 = b) (hl : s.Live)
    (hput : rle1Put b s.begun = .ok true (s.begun.accept b)) :
    Completes .rle1Put s ((s.begun.accept b).withResult 1) ∧
      Completes .blkEncWrite s (((s.begun.accept b).fedCrc b).withResult 1) ∧
      (s.frame.phase = .encActive → Completes .strEncWrite s (((s.begun.accept b).fedCrc b).withResult 1)) := by
  subst hb
  refine ⟨?_, ?_, fun hp => ?_⟩
  · exact completes_of rfl hl (noChecks_run _) (bind_ok hput)
  · exact completes_of rfl hl (noChecks_run _) (bind_ok hput)
  · exact completes_of rfl hl (requireEncoding_run hp) (bind_ok hput)

/-- RLE1_PUT and BLK_ENC_WRITE of a byte that the block refuses (rules R163, R262). -/
theorem putCommands_refuse {s : State} (hl : s.Live) (h : ¬ s.Accepts) :
    Completes .rle1Put s (Engine.withResult 0 { s.begun with host.full := true }) ∧
      Completes .blkEncWrite s (Engine.withResult 0 { s.begun with host.full := true }) := by
  have hput : ∀ b, rle1Put b s.begun = .ok false s.begun := fun b => rle1Put_refuse h
  exact ⟨completes_of rfl hl (noChecks_run _) (bind_ok (hput _)), completes_of rfl hl (noChecks_run _) (bind_ok (hput _))⟩

/-- Settles O6: below the threshold there is room for the pending run (`accepts_room`), so `Rle1Put` accepts; at the threshold it
refuses; RLE1_FLUSH is `FlushRun` with room for the run. -/
theorem rle1EncoderCommands : Obligations.Rle1EncoderCommands := by
  intro s hl
  refine ⟨fun hk hacc => ?_, putCommands_refuse hl, fun hroom => ?_, fun v harg hv => ?_⟩
  · exact putCommands_accept rfl hl (rle1Put_accept hacc (accepts_room hk hacc))
  · exact completes_of rfl hl (noChecks_run _) (bind_ok (flushRun_fits (e := s.begun) hroom))
  · have hget : blkGet s.host.arg.toNat s.begun = .ok v s.begun := blkGet_run hv
    exact completes_of rfl hl (requireOk_true (decide_eq_true harg)) (bind_ok hget)

/-! ### Reading a byte -/

/-- STR_DEC_READ while a block is read out, when `Rle1Next()` yields a byte (rule R295). -/
theorem strDecLoop_byte {b : Byte} {e' : Engine} (n : Nat) (hp : e.frame.phase = .decBlockActive)
    (h : rle1Next e = .ok (some b) e') : strDecLoop (n + 1) e = .ok () ((e'.fedCrc b).withResult b.toNat) := by
  unfold strDecLoop
  rw [get_bind_run, hp]
  exact bind_ok h

theorem requireDecoding_run (h : e.frame.phase = .decBlockActive) : requireDecoding e = .ok () e :=
  requireOk_true (by rw [h]; rfl)

/-- Settles O8: the three commands run `Rle1Next()`, whose closed form is `Engine.next` (`rle1Next_run`). -/
theorem nextByteCommands : Obligations.NextByteCommands := by
  intro s hl hw
  have hnext : rle1Next s.begun = .ok s.begun.next.1 s.begun.next.2 := rle1Next_run (e := s.begun) hw
  refine ⟨fun b hb => ?_, fun hnone => ?_⟩
  · rw [hb] at hnext
    refine ⟨?_, ?_, fun hp => ?_⟩
    · exact completes_of rfl hl (noChecks_run _) (bind_ok hnext)
    · exact completes_of rfl hl (noChecks_run _) (bind_ok hnext)
    · exact completes_of rfl hl (requireDecoding_run hp) (strDecLoop_byte 3 hp hnext)
  · rw [hnone] at hnext
    exact ⟨completes_of rfl hl (noChecks_run _) (bind_ok hnext), completes_of rfl hl (noChecks_run _) (bind_ok hnext)⟩

/-! ### Frame -/

/-- Settles O57: every command keeps what its rule does not write (`exec_framed`). -/
theorem frameRle1BwtMtf : Obligations.FrameRle1BwtMtf :=
  ⟨exec_framed _, exec_framed _, exec_framed _, exec_framed _, exec_framed _, exec_framed _, exec_framed _, exec_framed _,
    exec_framed _, fun _ => exec_framed _, exec_framed _, exec_framed _, exec_framed _, exec_framed _, exec_framed _, exec_framed _⟩

end Sys2Proof.Machine
end

section
/-! SUPPORT. Filling a block (spec/41_rle1.md, rules R160 to R162, R168): the bytes of the block and the pending run as a plain value,
and the headroom that every put keeps. -/

namespace Sys2Proof.Machine

variable {e : Engine}

/-! ### The bytes of the block and the pending run -/

/-- What the encoder has taken in (rule R160): the bytes of the block, and the pending run of `n` bytes `ch`. -/
structure Taken where
  coded : List Byte
  ch : Byte
  n : Nat

/-- The bytes of the block once the pending run has been flushed (rule R161). -/
def Taken.flushed (t : Taken) : List Byte := t.coded ++ runBytes t.ch t.n

/-- A byte continues the pending run, or flushes it and starts a new one (rules R160, R162). -/
def Taken.put (t : Taken) (b : Byte) : Taken :=
  if 0 < t.n ∧ b = t.ch ∧ t.n < 255 then { t with n := t.n + 1 } else ⟨t.flushed, b, 1⟩

/-- What an engine has taken in. -/
def Engine.taken (e : Engine) : Taken := ⟨e.blockBytes, e.block.runCh, e.block.runLen.toNat⟩

theorem runBytes_length_one {v : Byte} {n : Nat} (h : n ≤ 1) : (runBytes v n).length = n := by
  rw [runBytes, if_pos (by omega), List.length_replicate]

theorem storeByte_blockBytes {v : Byte} (h : e.block.len.toNat < 900001) : (e.storeByte v).blockBytes = e.blockBytes ++ [v] := by
  have hlast : ((e.storeByte v).block.blk.read e.block.len.toNat).getD 0 = v := by simp [Engine.storeByte]
  rw [Engine.blockBytes, storeByte_len h, List.range_succ, List.map_append, List.map_singleton, hlast, Engine.blockBytes]
  congr 1
  refine List.map_congr_left fun i hi => ?_
  rw [Engine.storeByte, Store.read_write_other _ _ (List.mem_range.mp hi).ne]

theorem storeBlock_blockBytes {vs : List Byte} (h : e.block.len.toNat + vs.length ≤ 900001) :
    (e.storeBlock vs).blockBytes = e.blockBytes ++ vs := by
  induction vs generalizing e with
  | nil => simp
  | cons v vs ih =>
    rw [List.length_cons] at h
    have hlen := storeByte_len (e := e) (v := v) (by omega)
    rw [storeBlock_cons, ih (by omega), storeByte_blockBytes (by omega), List.append_assoc, List.singleton_append]

/-- Appending bytes leaves BLOCK_K alone. -/
theorem storeBlock_k (vs : List Byte) : (e.storeBlock vs).block.k = e.block.k := by
  induction vs generalizing e with
  | nil => rfl
  | cons v vs ih => exact ih

theorem storeBlock_filled {vs : List Byte} (h : e.block.len.toNat + vs.length ≤ 900001) (hf : e.BlockFilled) :
    (e.storeBlock vs).BlockFilled := by
  induction vs generalizing e with
  | nil => exact hf
  | cons v vs ih =>
    rw [List.length_cons] at h
    have hlen := storeByte_len (e := e) (v := v) (by omega)
    refine ih (by omega) ?_
    rw [Engine.BlockFilled, hlen]
    exact Store.FullTo.push hf v

theorem runFlushed_blockBytes (h : e.block.len.toNat + (runBytes e.block.runCh e.block.runLen.toNat).length ≤ 900001) :
    e.runFlushed.blockBytes = e.taken.flushed := storeBlock_blockBytes h

@[simp] theorem accept_k (b : Byte) : (e.accept b).block.k = e.block.k := by
  unfold Engine.accept
  split
  · rfl
  · exact storeBlock_k _

/-- Accepting a byte is `Taken.put` (rule R162). -/
theorem accept_taken {b : Byte} (h : e.block.len.toNat + 5 ≤ 900001) : (e.accept b).taken = e.taken.put b := by
  have hrun := runBytes_length e.block.runCh e.block.runLen.toNat
  by_cases hx : e.Extends b
  · have hn : (BitVec.ofNat 8 (e.block.runLen.toNat + 1)).toNat = e.block.runLen.toNat + 1 := by
      rw [BitVec.toNat_ofNat]
      have := hx.2.2
      omega
    have ht : 0 < e.taken.n ∧ b = e.taken.ch ∧ e.taken.n < 255 := hx
    rw [Engine.accept, if_pos hx, Taken.put, if_pos ht]
    exact congrArg (Taken.mk e.blockBytes e.block.runCh) hn
  · have ht : ¬ (0 < e.taken.n ∧ b = e.taken.ch ∧ e.taken.n < 255) := hx
    rw [Engine.accept, if_neg hx, Taken.put, if_neg ht]
    exact congrArg (fun c => Taken.mk c b 1) (runFlushed_blockBytes (by omega))

/-! ### Headroom -/

/-- A block below the threshold, or one that the last put has left with a run of one (rule R168), written as far as it is long. -/
structure Engine.Headroom (e : Engine) : Prop where
  k : e.KOk
  room : e.block.len.toNat + 7 ≤ e.block.k.toNat * 100000 ∨
    (e.block.len.toNat + 2 ≤ e.block.k.toNat * 100000 ∧ e.block.runLen.toNat ≤ 1)
  filled : e.BlockFilled

/-- With headroom the pending run fits, and one byte is left over (rule R168). -/
theorem Engine.Headroom.flush_len (h : e.Headroom) :
    e.block.len.toNat + (runBytes e.block.runCh e.block.runLen.toNat).length + 1 ≤ e.block.k.toNat * 100000 := by
  have h5 := runBytes_length e.block.runCh e.block.runLen.toNat
  rcases h.room with hr | ⟨hr, h1⟩
  · omega
  · rw [runBytes_length_one h1]
    omega

theorem Engine.Headroom.flush_fits (h : e.Headroom) :
    e.block.len.toNat + (runBytes e.block.runCh e.block.runLen.toNat).length ≤ 900001 := by
  have hlen := h.flush_len
  have hk := h.k.2
  omega

/-- The length after a flush. -/
theorem runFlushed_len (h : e.block.len.toNat + (runBytes e.block.runCh e.block.runLen.toNat).length ≤ 900001) :
    e.runFlushed.block.len.toNat = e.block.len.toNat + (runBytes e.block.runCh e.block.runLen.toNat).length := storeBlock_len h

/-- An accepted byte leaves headroom: it extends the run, or ends a run of at most 5 bytes and starts one of one byte. -/
theorem accept_headroom {b : Byte} (h : e.Headroom) (hacc : e.Accepts) : (e.accept b).Headroom := by
  have hfits := h.flush_fits
  have hlen := runFlushed_len hfits
  have h5 := runBytes_length e.block.runCh e.block.runLen.toNat
  unfold Engine.Accepts at hacc
  refine ⟨by rw [Engine.KOk, accept_k]; exact h.k, ?_, ?_⟩
  · rw [accept_k]
    unfold Engine.accept
    split
    · exact .inl (show e.block.len.toNat + 7 ≤ _ by omega)
    · exact .inr ⟨show e.runFlushed.block.len.toNat + 2 ≤ _ by omega, le_refl 1⟩
  · unfold Engine.accept
    split
    · exact h.filled
    · exact storeBlock_filled hfits h.filled

/-- A put with headroom does not stop, and leaves headroom: the byte is accepted, or refused with nothing changed (rules R162, R168). -/
theorem rle1Put_headroom (b : Byte) (h : e.Headroom) :
    ∃ a e', rle1Put b e = .ok a e' ∧ e'.Headroom ∧ e'.block.k = e.block.k := by
  by_cases hacc : e.Accepts
  · exact ⟨true, e.accept b, rle1Put_accept hacc (accepts_room h.k hacc), accept_headroom h hacc, accept_k b⟩
  · exact ⟨false, e, rle1Put_refuse hacc, h, rfl⟩

/-- Puts one after the other keep the headroom. -/
theorem collect_rle1Put_headroom (bs : List Byte) (h : e.Headroom) :
    ∃ accepted e', collect bs rle1Put e = .ok accepted e' ∧ e'.Headroom ∧ e'.block.k = e.block.k := by
  induction bs generalizing e with
  | nil => exact ⟨[], e, rfl, h, rfl⟩
  | cons b bs ih =>
    obtain ⟨a, e₁, hput, h₁, hk₁⟩ := rle1Put_headroom b h
    obtain ⟨as, e₂, hrest, h₂, hk₂⟩ := ih h₁
    exact ⟨a :: as, e₂, by rw [collect_cons, bind_ok hput, bind_ok hrest]; rfl, h₂, hk₂.trans hk₁⟩

/-- An empty block with no pending run has headroom. -/
theorem headroom_empty (hk : e.KOk) (hlen : e.block.len = 0) : e.Headroom := by
  have h0 : e.block.len.toNat = 0 := by rw [hlen]; rfl
  refine ⟨hk, .inl ?_, fun i hi => absurd hi (by omega)⟩
  have := hk.1
  omega

/-- Settles O7: every put keeps the headroom (`rle1Put_headroom`), of which a flush takes all but one byte. -/
theorem blockHeadroom : Obligations.BlockHeadroom := by
  intro bs e hk hlen hrun
  obtain ⟨accepted, e₁, hputs, h₁, hk₁⟩ := collect_rle1Put_headroom bs (headroom_empty hk hlen)
  have hroom := h₁.flush_len
  have hfits := h₁.flush_fits
  have hflushed := runFlushed_len hfits
  rw [hk₁] at hroom
  refine ⟨accepted, e₁, e₁.runFlushed, hputs, flushRun_fits hfits, ?_, ?_, storeBlock_filled hfits h₁.filled⟩
  · have hr := h₁.room
    rw [hk₁] at hr
    omega
  · omega

end Sys2Proof.Machine
end

section
/-! SUPPORT. The round trip of RLE1 (spec/41_rle1.md, rules R165, R169, R170). The decoder's counting is a function of the bytes it
fetches, so what a block decodes to is one too; what the encoder has taken in decodes to the bytes that were put. -/

namespace Sys2Proof.Machine

variable {e : Engine}

/-! ### The decoder on a list of bytes -/

/-- What RL_CNT and RL_LAST are after one more byte (rule R165): a count byte restarts the counting. -/
def countNext (c : Nat × Byte) (b : Byte) : Nat × Byte :=
  if c.1 = 4 then (0, c.2) else (if 0 < c.1 ∧ b = c.2 then c.1 + 1 else 1, b)

/-- The original bytes that one byte stands for (rule R165): repeats for a count byte, itself for data. -/
def bytesOf (c : Nat × Byte) (b : Byte) : List Byte := if c.1 = 4 then List.replicate b.toNat c.2 else [b]

/-- The original bytes that a list of bytes stands for. -/
def decoded : Nat × Byte → List Byte → List Byte
  | _, [] => []
  | c, b :: bs => bytesOf c b ++ decoded (countNext c b) bs

theorem decoded_append (c : Nat × Byte) (us vs : List Byte) :
    decoded c (us ++ vs) = decoded c us ++ decoded (us.foldl countNext c) vs := by
  induction us generalizing c with
  | nil => rfl
  | cons u us ih => rw [List.cons_append, decoded, decoded, ih, List.append_assoc, List.foldl_cons]

/-- At this point of the counting a run of `v` is counted from its first byte on: the counting has just restarted, or another value
has been counted (rule R170). -/
def StartsRun (c : Nat × Byte) (v : Byte) : Prop := c.1 = 0 ∨ (c.1 ≤ 3 ∧ v ≠ c.2)

theorem StartsRun.first {c : Nat × Byte} {v : Byte} (h : StartsRun c v) : bytesOf c v = [v] ∧ countNext c v = (1, v) := by
  obtain ⟨n, last⟩ := c
  rcases h with h | ⟨h, hv⟩
  · obtain rfl : n = 0 := h
    exact ⟨rfl, rfl⟩
  · have h4 : n ≠ 4 := by
      have : n ≤ 3 := h
      omega
    simp [bytesOf, countNext, h4, show v ≠ last from hv]

/-- Counting goes on while the byte stays the same (rule R165). -/
theorem countNext_same {n : Nat} {v : Byte} (h1 : 1 ≤ n) (h3 : n ≤ 3) : bytesOf (n, v) v = [v] ∧ countNext (n, v) v = (n + 1, v) := by
  have h4 : n ≠ 4 := by omega
  simp [bytesOf, countNext, h4, Nat.pos_of_ne_zero (by omega : n ≠ 0)]

/-- Up to 4 bytes of a run are data, and are counted. -/
theorem decoded_replicate {c : Nat × Byte} {v : Byte} (h : StartsRun c v) {n : Nat} (h1 : 1 ≤ n) (h4 : n ≤ 4) :
    decoded c (List.replicate n v) = List.replicate n v ∧ (List.replicate n v).foldl countNext c = (n, v) := by
  induction n with
  | zero => omega
  | succ n ih =>
    rw [List.replicate_succ', decoded_append, List.foldl_append]
    rcases Nat.eq_zero_or_pos n with rfl | hn
    · obtain ⟨hb, hc⟩ := h.first
      exact ⟨by simp [decoded, hb], by simp [hc]⟩
    · obtain ⟨hd, hf⟩ := ih hn (by omega)
      obtain ⟨hb, hc⟩ := countNext_same (v := v) hn (by omega)
      rw [hd, hf]
      exact ⟨by simp [decoded, hb], by simp [hc]⟩

/-- The bytes of a run stand for the run (rule R161), and the counting goes on after 1 to 3 of them or restarts after the count byte. -/
theorem decoded_runBytes {c : Nat × Byte} {v : Byte} (h : StartsRun c v) {n : Nat} (h1 : 1 ≤ n) (h255 : n ≤ 255) :
    decoded c (runBytes v n) = List.replicate n v ∧ (runBytes v n).foldl countNext c = if n ≤ 3 then (n, v) else (0, v) := by
  unfold runBytes
  split
  · next hn => exact decoded_replicate h h1 (by omega)
  · next hn =>
    obtain ⟨hd, hf⟩ := decoded_replicate h (n := 4) (by norm_num) (by norm_num)
    have hcount : (BitVec.ofNat 8 (n - 4)).toNat = n - 4 := by
      rw [BitVec.toNat_ofNat]
      omega
    have hall : 4 + (n - 4) = n := by omega
    rw [decoded_append, List.foldl_append, hd, hf]
    refine ⟨?_, rfl⟩
    rw [decoded, bytesOf, if_pos rfl, hcount, decoded, List.append_nil, ← List.replicate_add, hall]

/-! ### What the encoder has taken in -/

/-- What has been taken in stands for the bytes `bs`, for a decoder that starts with RL_LAST at `last` (rule R170): those of the block
and those of the pending run, which the counting will take for a run. -/
structure Taken.StandsFor (t : Taken) (last : Byte) (bs : List Byte) : Prop where
  bytes : decoded (0, last) t.coded ++ List.replicate t.n t.ch = bs
  run : t.n ≤ 255
  counting : (t.coded.foldl countNext (0, last)).1 = 0 ∨ (0 < t.n ∧ StartsRun (t.coded.foldl countNext (0, last)) t.ch)

theorem Taken.StandsFor.startsRun {t : Taken} {last : Byte} {bs : List Byte} (h : t.StandsFor last bs) :
    StartsRun (t.coded.foldl countNext (0, last)) t.ch := h.counting.elim .inl fun h => h.2

/-- After the flush the block stands for all the bytes. -/
theorem Taken.StandsFor.decoded_flushed {t : Taken} {last : Byte} {bs : List Byte} (h : t.StandsFor last bs) :
    decoded (0, last) t.flushed = bs := by
  rw [Taken.flushed, decoded_append, ← h.bytes]
  rcases Nat.eq_zero_or_pos t.n with h0 | hpos
  · rw [h0]
    rfl
  · rw [(decoded_runBytes h.startsRun hpos h.run).1]

/-- A byte that ends the pending run starts a run for the counting too: it differs from the last one, or the counting restarts. -/
theorem Taken.StandsFor.flushed_startsRun {t : Taken} {last b : Byte} {bs : List Byte} (h : t.StandsFor last bs)
    (hb : ¬ (0 < t.n ∧ b = t.ch ∧ t.n < 255)) : StartsRun (t.flushed.foldl countNext (0, last)) b := by
  have hrun := h.run
  rw [Taken.flushed, List.foldl_append]
  rcases Nat.eq_zero_or_pos t.n with h0 | hpos
  · rw [h0]
    refine .inl (h.counting.resolve_right fun hc => ?_)
    omega
  · rw [(decoded_runBytes h.startsRun hpos h.run).2]
    split
    · next h3 => exact .inr ⟨h3, fun hv => hb ⟨hpos, hv, by omega⟩⟩
    · exact .inl rfl

theorem Taken.StandsFor.put {t : Taken} {last : Byte} {bs : List Byte} (h : t.StandsFor last bs) (b : Byte) :
    (t.put b).StandsFor last (bs ++ [b]) := by
  unfold Taken.put
  split
  · next hx =>
    obtain ⟨hpos, rfl, hlt⟩ := hx
    refine ⟨?_, hlt, .inr ⟨Nat.succ_pos _, h.startsRun⟩⟩
    rw [List.replicate_succ', ← List.append_assoc, h.bytes]
  · next hx => exact ⟨by rw [h.decoded_flushed]; rfl, Nat.one_le_ofNat, .inr ⟨Nat.one_pos, h.flushed_startsRun hx⟩⟩

/-- Taking in bytes one after the other. -/
theorem Taken.StandsFor.puts {t : Taken} {last : Byte} {us : List Byte} (h : t.StandsFor last us) (bs : List Byte) :
    (bs.foldl Taken.put t).StandsFor last (us ++ bs) := by
  induction bs generalizing t us with
  | nil => rwa [List.append_nil]
  | cons b bs ih =>
    rw [← List.singleton_append, ← List.append_assoc]
    exact ih (h.put b)

/-- An empty block with no pending run stands for no bytes. -/
theorem standsFor_empty (hlen : e.block.len = 0) (hrun : e.block.runLen = 0) (last : Byte) : e.taken.StandsFor last [] := by
  have hcoded : e.blockBytes = [] := List.eq_nil_of_length_eq_zero (by rw [blockBytes_length, hlen]; rfl)
  have h0 : e.block.runLen.toNat = 0 := by rw [hrun]; rfl
  exact ⟨by simp [Engine.taken, hcoded, h0, decoded], by simp [Engine.taken, h0], .inl (by simp [Engine.taken, hcoded])⟩

/-- Puts that are all accepted take in their bytes (rule R162). -/
theorem collect_rle1Put_taken {bs : List Byte} {accepted : List Bool} {e₁ : Engine} (hk : e.KOk)
    (hput : collect bs rle1Put e = .ok accepted e₁) (hall : ∀ a ∈ accepted, a = true) : e₁.taken = bs.foldl Taken.put e.taken := by
  induction bs generalizing e accepted with
  | nil =>
    cases hput
    rfl
  | cons b bs ih =>
    have hsplit : ∀ {a e'}, rle1Put b e = .ok a e' → a = true ∧
          ∃ as, collect bs rle1Put e' = .ok as e₁ ∧ ∀ a ∈ as, a = true := by
      intro a e' h
      rw [collect_cons, bind_ok h, bind_run] at hput
      cases hrest : collect bs rle1Put e' with
      | ok as e₂ =>
        rw [hrest] at hput
        cases hput
        exact ⟨hall a (by simp), as, rfl, fun x hx => hall x (by simp [hx])⟩
      | error r e₂ =>
        rw [hrest] at hput
        cases hput
    by_cases hacc : e.Accepts
    · have hroom := accepts_room hk hacc
      obtain ⟨-, as, hrest, has⟩ := hsplit (rle1Put_accept hacc hroom)
      rw [ih (by rwa [Engine.KOk, accept_k]) hrest has, accept_taken hroom]
      rfl
    · exact absurd (hsplit (rle1Put_refuse hacc)).1 (by decide)

/-! ### The decoder on an engine -/

/-- `Rle1Next()`, called again and again, yields the bytes of the list, and then none. -/
def Engine.Yields : List Byte → Engine → Prop
  | [], e => ∃ e', rle1Next e = .ok none e'
  | b :: bs, e => ∃ e', rle1Next e = .ok (some b) e' ∧ Engine.Yields bs e'

/-- An engine from which `Rle1Next()` does the same yields the same. -/
theorem Engine.Yields.of_eq {out : List Byte} {e' : Engine} (h : rle1Next e = rle1Next e') (hy : e'.Yields out) : e.Yields out := by
  cases out <;> simpa only [Engine.Yields, h] using hy

theorem Engine.Yields.collect {α : Type} {out : List Byte} {xs : List α} (h : e.Yields out) (hlen : xs.length = out.length + 1) :
    ∃ e', collect xs (fun _ => rle1Next) e = .ok (out.map some ++ [none]) e' := by
  induction out generalizing e xs with
  | nil =>
    obtain ⟨x, rfl⟩ := List.length_eq_one_iff.mp hlen
    obtain ⟨e', h'⟩ := h
    exact ⟨e', by rw [collect_cons, bind_ok h']; rfl⟩
  | cons b out ih =>
    obtain ⟨x, xs, rfl⟩ := List.exists_cons_of_length_eq_add_one hlen
    obtain ⟨e₁, h₁, hrest⟩ := h
    obtain ⟨e₂, h₂⟩ := ih hrest (by simpa using hlen)
    exact ⟨e₂, by rw [collect_cons, bind_ok h₁, bind_ok h₂]; rfl⟩

/-- Fetching the next byte leaves the counting alone. -/
theorem fetchByte_rlCnt {b : Byte} {e' : Engine} (h : fetchByte e = .ok b e') : e'.block.rlCnt = e.block.rlCnt := by
  have hw := writes_fetchByte e .rlCnt (by decide)
  rw [Cmd.after_ok h] at hw
  exact hw.symm

/-- Unless a count byte is due, `Rle1Next()` is one pass (rule R165). -/
theorem rle1Next_of_data (h : e.block.rlCnt.toNat ≠ 4) : rle1Next e = rle1Pass rle1Data e := by
  unfold rle1Next rle1Pass
  rw [get_bind_run, get_bind_run]
  split
  · rfl
  · split
    · rfl
    · rw [bind_run, bind_run]
      cases hf : fetchByte e with
      | error r e' => rfl
      | ok b e' =>
        have hcnt : e'.block.rlCnt.toNat ≠ 4 := by rwa [fetchByte_rlCnt hf]
        simp only [get_bind_run]
        rw [if_neg hcnt]

/-- The engine with one more byte of the walk fetched. -/
theorem fetchByte_walks {b : Byte} {bs : List Byte} (hw : e.Walks (b :: bs)) (hr : e.block.randFlag = false) :
    fetchByte e = .ok b e.hopped ∧ e.hopped.Walks bs ∧ e.bwt.hopsLeft.toNat ≠ 0 := by
  obtain ⟨hhops, rfl, x, hx, hrest⟩ := hw
  have hhopped : e.hopped = { e with bwt.curEntry := x, bwt.hopsLeft := BitVec.ofNat 20 bs.length } := by
    simp [Engine.hopped, hx, hhops]
  refine ⟨?_, hhopped ▸ hrest, by omega⟩
  rw [fetchByte_run hx]
  simp [Engine.fetchedByte, Engine.fetched, hr]

/-- A pass with no repeat pending hands on the next byte of the walk. -/
theorem rle1Pass_walks {b : Byte} {bs : List Byte} (go : Byte → Cmd (Option Byte)) (hw : e.Walks (b :: bs))
    (hr : e.block.randFlag = false) (hrep : e.block.rlRep = 0) : rle1Pass go e = go b e.hopped := by
  obtain ⟨hfetch, -, hhops⟩ := fetchByte_walks hw hr
  unfold rle1Pass
  rw [get_bind_run, if_neg (by rw [hrep]; decide), if_neg hhops, bind_ok hfetch]

/-- The walk is about the inverse transform only. -/
theorem walks_congr {bs : List Byte} {e e' : Engine} (hw : e.Walks bs) (h : e'.bwt = e.bwt) : e'.Walks bs := by
  induction bs generalizing e e' with
  | nil =>
    rw [Engine.Walks, h]
    exact hw
  | cons b bs ih =>
    obtain ⟨hhops, hb, x, hx, hrest⟩ := hw
    rw [Engine.Walks, h]
    exact ⟨hhops, hb, x, hx, ih hrest rfl⟩

/-- Pending repeats are yielded first. -/
theorem yields_repeats {n : Nat} {out : List Byte} {e : Engine} (hn : e.block.rlRep.toNat = n)
    (h : Engine.Yields out { e with block.rlRep := 0 }) : e.Yields (List.replicate n e.block.rlLast ++ out) := by
  induction n generalizing e with
  | zero =>
    have hz : e.block.rlRep = 0 := BitVec.eq_of_toNat_eq hn
    rwa [← hz] at h
  | succ n ih =>
    have hpos : 0 < e.block.rlRep.toNat := by omega
    have hlt := e.block.rlRep.isLt
    refine ⟨_, rle1Pass_repeat hpos, ih (e := { e with block.rlRep := BitVec.ofNat 8 (e.block.rlRep.toNat - 1) }) ?_ h⟩
    show (BitVec.ofNat 8 (e.block.rlRep.toNat - 1)).toNat = n
    rw [BitVec.toNat_ofNat]
    omega

/-- The counts of the decoder as `decoded` takes them. -/
def Engine.counting (e : Engine) : Nat × Byte := (e.block.rlCnt.toNat, e.block.rlLast)

/-- Counting a data byte is `countNext`. -/
theorem counted_counting {b : Byte} (h : e.block.rlCnt.toNat < 4) : (e.counted b).counting = countNext e.counting b := by
  rw [countNext, if_neg (show e.counting.1 ≠ 4 from h.ne)]
  refine Prod.ext ?_ rfl
  show (if 0 < e.block.rlCnt.toNat ∧ b = e.block.rlLast then BitVec.ofNat 3 (e.block.rlCnt.toNat + 1) else 1).toNat =
    if 0 < e.block.rlCnt.toNat ∧ b = e.block.rlLast then e.block.rlCnt.toNat + 1 else 1
  split
  · rw [BitVec.toNat_ofNat]
    omega
  · rfl

theorem countNext_le {c : Nat × Byte} (h : c.1 < 4) (b : Byte) : (countNext c b).1 ≤ 4 := by
  rw [countNext, if_neg h.ne]
  dsimp only
  split <;> omega

/-- A count byte gives its repeats and restarts the counting (rule R165). -/
theorem rle1Next_count {b : Byte} {bs : List Byte} (hw : e.Walks (b :: bs)) (hr : e.block.randFlag = false) (hrep : e.block.rlRep = 0)
    (h4 : e.block.rlCnt.toNat = 4) : rle1Next e = rle1Next { e.hopped with block.rlRep := b, block.rlCnt := 0 } := by
  have hcnt : e.hopped.block.rlCnt.toNat = 4 := h4
  have hrestart : rle1Next { e.hopped with block.rlRep := b, block.rlCnt := 0 } = _ := rle1Next_of_data (by exact Nat.zero_ne_add_one 3)
  rw [hrestart, rle1Next, rle1Pass_walks _ hw hr hrep, get_bind_run, if_pos hcnt]
  rfl

/-- A data byte is yielded and counted (rule R165). -/
theorem rle1Next_data {b : Byte} {bs : List Byte} (hw : e.Walks (b :: bs)) (hr : e.block.randFlag = false) (hrep : e.block.rlRep = 0)
    (h4 : e.block.rlCnt.toNat ≠ 4) : rle1Next e = .ok (some b) (e.hopped.counted b) := by
  rw [rle1Next_of_data h4, rle1Pass_walks _ hw hr hrep, rle1Data_run]

/-- Reading a block whose walk yields the bytes `bs` gives what they stand for. -/
theorem yields_decoded {bs : List Byte} (hw : e.Walks bs) (hr : e.block.randFlag = false) (hrep : e.block.rlRep = 0)
    (hcnt : e.block.rlCnt.toNat ≤ 4) : e.Yields (decoded e.counting bs) := by
  induction bs generalizing e with
  | nil => exact ⟨e, rle1Pass_none (by rw [hrep]; decide) (by rw [show e.bwt.hopsLeft = 0 from hw]; rfl)⟩
  | cons b bs ih =>
    obtain ⟨-, hrest, -⟩ := fetchByte_walks hw hr
    by_cases h4 : e.counting.1 = 4
    · have hout : decoded e.counting (b :: bs) = List.replicate b.toNat e.block.rlLast ++ decoded (0, e.block.rlLast) bs := by
        rw [decoded, bytesOf, countNext, if_pos h4, if_pos h4]
        rfl
      rw [hout]
      refine Engine.Yields.of_eq (rle1Next_count hw hr hrep h4) ?_
      refine yields_repeats (e := { e.hopped with block.rlRep := b, block.rlCnt := 0 }) rfl ?_
      exact ih (e := { e.hopped with block.rlRep := 0, block.rlCnt := 0 }) (walks_congr hrest rfl) hr rfl (Nat.zero_le 4)
    · have hlt : e.hopped.counting.1 < 4 := lt_of_le_of_ne hcnt h4
      have hout : decoded e.counting (b :: bs) = b :: decoded (e.hopped.counted b).counting bs := by
        rw [decoded, bytesOf, if_neg h4, counted_counting hlt]
        rfl
      rw [hout]
      refine ⟨_, rle1Next_data hw hr hrep h4, ih (walks_congr hrest rfl) hr hrep ?_⟩
      exact (congrArg Prod.fst (counted_counting hlt)).trans_le (countNext_le hlt b)

/-! ### The three named runs (rule R169) -/

theorem put_length (t : Taken) (b : Byte) : (t.put b).coded.length ≤ t.coded.length + 5 := by
  have h5 := runBytes_length t.ch t.n
  unfold Taken.put
  split
  · exact Nat.le_add_right _ _
  · rw [Taken.flushed, List.length_append]
    omega

theorem taken_flushed_length (e : Engine) :
    e.taken.flushed.length = e.block.len.toNat + (runBytes e.block.runCh e.block.runLen.toNat).length := by
  rw [Taken.flushed, List.length_append]
  exact congrArg (· + _) blockBytes_length

/-- Puts of one byte far below every threshold are all accepted. -/
theorem repeat_rle1Put_run (v : Byte) {n : Nat} (hk : e.KOk) (hlen : e.block.len.toNat + 5 * n ≤ 90000) :
    ∃ e', repeatCmd n (do let _ ← rle1Put v) e = .ok () e' ∧ e'.taken = (List.replicate n v).foldl Taken.put e.taken := by
  induction n generalizing e with
  | zero => exact ⟨e, rfl, rfl⟩
  | succ n ih =>
    have hacc : e.Accepts := by
      have := hk.1
      unfold Engine.Accepts
      omega
    have htaken : (e.accept v).taken = e.taken.put v := accept_taken (by omega)
    have hgrow : (e.accept v).block.len.toNat ≤ e.block.len.toNat + 5 := by
      have := put_length e.taken v
      rw [← htaken] at this
      simpa [Engine.taken] using this
    obtain ⟨e', hrun, htake⟩ := ih (e := e.accept v) (by rwa [Engine.KOk, accept_k]) (by omega)
    have hput : (do let _ ← rle1Put v : Cmd Unit) e = .ok () (e.accept v) := bind_ok (rle1Put_accept hacc (by omega))
    exact ⟨e', by rw [repeatCmd_succ, bind_ok hput, hrun], by rw [htake, htaken]; rfl⟩

/-- Up to 255 equal bytes make one pending run. -/
theorem puts_replicate (c : List Byte) (ch v : Byte) {n : Nat} (h1 : 1 ≤ n) (h255 : n ≤ 255) :
    (List.replicate n v).foldl Taken.put ⟨c, ch, 0⟩ = ⟨c, v, n⟩ := by
  induction n with
  | zero => omega
  | succ n ih =>
    rw [List.replicate_succ', List.foldl_append]
    rcases Nat.eq_zero_or_pos n with rfl | hn
    · simp [Taken.put, Taken.flushed, runBytes]
    · rw [ih hn (by omega)]
      simp [Taken.put, hn, show n < 255 by omega]

/-- The bytes of a run of 3, 4 and 259 (rule R169): no count byte, the count 0, and two runs, for at most 255 bytes make one. -/
theorem puts_flushed (v ch : Byte) {n : Nat} {coded : List Byte}
    (h : (n, coded) ∈ [(3, [v, v, v]), (4, [v, v, v, v, 0]), (259, [v, v, v, v, 251, v, v, v, v, 0])]) :
    ((List.replicate n v).foldl Taken.put ⟨[], ch, 0⟩).flushed = coded := by
  simp only [List.mem_cons, Prod.mk.injEq, List.not_mem_nil, or_false] at h
  rcases h with ⟨rfl, rfl⟩ | ⟨rfl, rfl⟩ | ⟨rfl, rfl⟩
  · rw [puts_replicate _ _ _ (by norm_num) (by norm_num)]
    rfl
  · rw [puts_replicate _ _ _ (by norm_num) (by norm_num)]
    rfl
  · rw [show 259 = 255 + 4 from rfl, List.replicate_add, List.foldl_append, puts_replicate _ _ _ (by norm_num) (by norm_num)]
    simp [Taken.put, Taken.flushed, runBytes, List.replicate]

/-- Settles O9: what the encoder has taken in stands for the bytes that were put (`Taken.StandsFor.puts`), the flushed block still does
(`Taken.StandsFor.decoded_flushed`), and the decoder yields what the block stands for (`yields_decoded`). -/
theorem rle1RoundTrip : Obligations.Rle1RoundTrip := by
  refine ⟨fun bs accepted e e₁ hk hlen hrun hput hall => ?_, fun v e hk hlen hrun n coded hn => ?_⟩
  · obtain ⟨accepted', e₁', hput', hroom, -⟩ := collect_rle1Put_headroom bs (headroom_empty hk hlen)
    cases hput.symm.trans hput'
    have hfits := hroom.flush_fits
    refine ⟨e₁.runFlushed, flushRun_fits hfits, fun d hrep hcnt hrand hw => ?_⟩
    have hstands := (standsFor_empty hlen hrun d.block.rlLast).puts bs
    rw [← collect_rle1Put_taken hk hput hall, List.nil_append] at hstands
    have hcounting : d.counting = (0, d.block.rlLast) := by rw [Engine.counting, hcnt]; rfl
    have hyields := yields_decoded hw hrand hrep (by rw [hcnt]; decide)
    rw [runFlushed_blockBytes hfits, hcounting, hstands.decoded_flushed] at hyields
    exact hyields.collect List.length_range
  · have h0 : e.block.len.toNat = 0 := by rw [hlen]; rfl
    have hsmall : n ≤ 259 ∧ coded.length ≤ 10 := by
      simp only [List.mem_cons, Prod.mk.injEq, List.not_mem_nil, or_false] at hn
      rcases hn with ⟨rfl, rfl⟩ | ⟨rfl, rfl⟩ | ⟨rfl, rfl⟩ <;> simp
    have htaken : e.taken = ⟨[], e.block.runCh, 0⟩ := by
      have hcoded : e.blockBytes = [] := List.eq_nil_of_length_eq_zero (by rw [blockBytes_length, h0])
      rw [Engine.taken, hcoded, hrun]
      rfl
    obtain ⟨e₁, hrun₁, htake⟩ := repeat_rle1Put_run v hk (n := n) (by omega)
    have hflushed : e₁.taken.flushed = coded := by rw [htake, htaken, puts_flushed v _ hn]
    have hfits : e₁.block.len.toNat + (runBytes e₁.block.runCh e₁.block.runLen.toNat).length ≤ 900001 := by
      rw [← taken_flushed_length, hflushed]
      omega
    exact ⟨e₁.runFlushed, (bind_ok hrun₁).trans (flushRun_fits hfits), (runFlushed_blockBytes hfits).trans hflushed⟩

end Sys2Proof.Machine
end

section
/-! SUPPORT. Which elements of the arrays BLK, BWT_ARR, MTF_STREAM and SELECTORS the encoder writes (rules R161, R177, R194, R224,
R264). A command may stop in the middle, so each condition is one that holds at every stop. -/

namespace Sys2Proof.Machine

variable {α β : Type}

/-! ### Partial maps that differ in a range -/

/-- The two maps agree outside the indexes `lo` to `hi − 1`. -/
def Store.AgreesOutside (lo hi : Nat) (m m' : Store α) : Prop := ∀ k, k < lo ∨ hi ≤ k → m.read k = m'.read k

section
variable {m m' : Store α} {lo hi : Nat}

theorem Store.agreesOutside_refl (lo hi : Nat) (m : Store α) : Store.AgreesOutside lo hi m m := fun _ _ => rfl

theorem Store.AgreesOutside.mono {lo' hi' : Nat} (h : Store.AgreesOutside lo hi m m') (hlo : lo' ≤ lo) (hhi : hi ≤ hi') :
    Store.AgreesOutside lo' hi' m m' := fun k hk => h k (hk.imp (fun hk => by omega) fun hk => by omega)

/-- A write inside the range. -/
theorem Store.AgreesOutside.write (h : Store.AgreesOutside lo hi m m') {i : Nat} (v : α) (hlo : lo ≤ i) (hhi : i < hi) :
    Store.AgreesOutside lo hi (m.write i v) m' := by
  intro k hk
  rw [Store.read_write_other _ _ (by omega), h k hk]

/-- A write just after the range, which makes it longer by one. -/
theorem Store.AgreesOutside.push (h : Store.AgreesOutside lo hi m m') (v : α) (hle : lo ≤ hi) :
    Store.AgreesOutside lo (hi + 1) (m.write hi v) m' := (h.mono le_rfl (Nat.le_succ hi)).write v hle (Nat.lt_succ_self hi)

end

/-! ### Conditions at every stop -/

section
variable {P : Engine → Prop} {Q : α → Engine → Prop} {I S : Engine → Prop} {c : Cmd α} {D W : List Reg}

/-- Nothing is claimed. -/
theorem sat_true : Cmd.Sat P c (fun _ _ => True) fun _ => True := by
  intro e _
  rcases c e with ⟨a, e'⟩ | ⟨k | w | f, e'⟩ <;> trivial

/-- A further condition on the normal end. -/
theorem sat_and_ok {Q' : α → Engine → Prop} (h : Cmd.Sat P c Q S) (h' : Cmd.Sat P c Q' fun _ => True) :
    Cmd.Sat P c (fun a e => Q a e ∧ Q' a e) S :=
  sat_mono (sat_and h h') (fun _ h => ⟨h, h⟩) (fun _ _ h => h) fun _ h => h.1

/-- From each engine of the condition. -/
theorem sat_of_start (h : ∀ e₀, P e₀ → Cmd.Sat (fun e => e = e₀) c Q S) : Cmd.Sat P c Q S := fun e he => h e he e rfl

/-- A condition on some registers is one on more of them. -/
theorem DependsOn.mono {D' : List Reg} (hI : DependsOn D I) (hD : ∀ r ∈ D, r ∈ D') : DependsOn D' I :=
  fun e e' h => hI e e' fun r hr => h r (hD r hr)

/-- A piece that writes none of the registers of a condition keeps it wherever it stops. -/
theorem keeps_quiet (hI : DependsOn D I) (hw : Writes W c) (hd : ∀ r ∈ W, r ∉ D) : Cmd.Keeps I I c :=
  keeps_of_writes hI (fun _ h => h) hw hd

/-- What a piece does not write is as before wherever it stops. -/
theorem sat_of_writes {e₀ : Engine} (hw : Writes W c) :
    Cmd.Sat (fun e => e = e₀) c (fun _ e => ∀ r : Reg, r ∉ W → r.same e₀ e) fun e => ∀ r : Reg, r ∉ W → r.same e₀ e := by
  rintro e rfl
  have h := hw e
  unfold Cmd.after at h
  rcases hx : c e with ⟨a, e'⟩ | ⟨k | w | f, e'⟩ <;> rw [hx] at h
  · exact h
  · exact h
  · exact h
  · trivial

/-- Reading the byte operand keeps every condition. -/
theorem keeps_argByte : Cmd.Keeps I S argByte := fun _ h => h

/-- What a body keeps of a condition on registers of the units, the command keeps: it holds of the machine that the command leaves,
however it ends. -/
theorem exec_keeps {i : Instr} {s t : State} (hI : DependsOn D I) (hD : ∀ r ∈ D, r ∉ hostSideRegs)
    (hn : i ≠ .nop) (hr : i ≠ .coreReset)
    (h0 : I s.toEngine) (hb : Cmd.Sat (fun e => e = s.begun) (bodyOf i) (fun _ => I) I) (h : exec i s = .next t) : I t.toEngine := by
  have hfinish : ∀ {x}, Meets (fun _ => I) I x → finish i s x = .next t → I t.toEngine := by
    intro x hx hf
    rcases finish_cases hx hf with ⟨e, he, rfl⟩ | ⟨k, e, he, rfl⟩ | ⟨w, e, he, rfl⟩
    · exact he
    · exact hI.ofUnits hD (a := e) ⟨rfl, rfl, rfl, rfl, rfl⟩ he
    · exact he
  rw [exec_eq_runCommand hn hr] at h
  rcases runCommand_cases i (checksOf i) (bodyOf i) s with ⟨-, h'⟩ | ⟨-, h'⟩ | ⟨-, r, e₀, -, h'⟩ | ⟨-, e₀, -, h'⟩ <;>
    rw [h'] at h
  · cases h
    exact h0
  · cases h
    exact hI.ofUnits hD (a := s.toEngine) ⟨rfl, rfl, rfl, rfl, rfl⟩ h0
  · exact hfinish (meets_stop h0) h
  · exact hfinish (hb _ rfl) h

end

/-! ### BLK -/

/-- BLK has been written from `lo` up to BLK_LEN only, since it was `m`. -/
def Engine.BlkFrom (m : Store Byte) (lo : Nat) (e : Engine) : Prop :=
  lo ≤ e.block.len.toNat ∧ Store.AgreesOutside lo e.block.len.toNat e.block.blk m

/-- At most `n` bytes have been appended to the block of `e₀`. -/
def Engine.BlkGrown (n : Nat) (e₀ e : Engine) : Prop :=
  e.block.len.toNat ≤ e₀.block.len.toNat + n ∧ e.BlkFrom e₀.block.blk e₀.block.len.toNat

/-- Of BLK at most the `n` bytes from the BLK_LEN of `e₀` on have been written since. -/
def Engine.BlkWithin (n : Nat) (e₀ e : Engine) : Prop :=
  Store.AgreesOutside e₀.block.len.toNat (e₀.block.len.toNat + n) e.block.blk e₀.block.blk

theorem dependsOn_blkWithin {n : Nat} {e₀ : Engine} : DependsOn [.blk] (Engine.BlkWithin n e₀) := by
  intro e e' h he
  have h1 : e.block.blk = e'.block.blk := h .blk (by decide)
  rwa [Engine.BlkWithin, h1] at he

theorem Engine.BlkGrown.within {n n' : Nat} {e₀ e : Engine} (h : Engine.BlkGrown n e₀ e) (hn : n ≤ n') :
    Engine.BlkWithin n' e₀ e := by
  have := h.1
  exact h.2.2.mono le_rfl (by omega)

theorem blkAppend_keeps_blkFrom {m : Store Byte} {lo : Nat} {S : Engine → Prop} (v : Byte) :
    Cmd.Keeps (Engine.BlkFrom m lo) S (blkAppend v) := by
  refine fun e he => meets_blkAppend fun hlt => ?_
  rw [Engine.BlkFrom, storeByte_len hlt]
  exact ⟨Nat.le_succ_of_le he.1, he.2.push v he.1⟩

theorem blkFrom_blockBytesOnly (m : Store Byte) (lo : Nat) : BlockBytesOnly (Engine.BlkFrom m lo) := by
  intro e u hb hl he
  rw [Engine.BlkFrom, hb, hl]
  exact he

/-- The pending run takes at most 5 bytes of the block, from BLK_LEN on (rule R161). -/
theorem flushRun_grows {e₀ : Engine} {S : Engine → Prop} : Cmd.Sat (fun e => e = e₀) flushRun (fun _ => Engine.BlkGrown 5 e₀) S := by
  have hlen := sat_flushRun (S := S) (len := e₀.block.len.toNat) (run := e₀.block.runLen.toNat)
  have hblk := keeps_flushRun (S := S) (blkFrom_blockBytesOnly e₀.block.blk e₀.block.len.toNat) blkAppend_keeps_blkFrom
  refine sat_mono (sat_and hlen hblk) ?_ (fun _ e h => ⟨h.1.2.1, h.2⟩) fun _ h => h.1
  rintro e rfl
  exact ⟨⟨rfl, rfl⟩, le_rfl, Store.agreesOutside_refl _ _ _⟩

/-- A put appends at most the 5 bytes of the run that it ends (rules R161, R162). -/
theorem sat_rle1Put_len {len : Nat} {S : Engine → Prop} (b : Byte) :
    Cmd.Sat (fun e => e.block.len.toNat = len) (rle1Put b) (fun _ e => e.block.len.toNat ≤ len + 5) S := by
  have haccept : Cmd.Sat (fun e => e.block.len.toNat = len) (rle1Accept b) (fun _ e => e.block.len.toNat ≤ len + 5) S := by
    refine sat_get_bind' fun e₀ _ => sat_ite (fun _ e (he : e.block.len.toNat = len) => he.trans_le (Nat.le_add_right len 5)) fun _ => ?_
    refine sat_bind (Q := fun _ e => e.block.len.toNat ≤ len + 5) (fun e he => ?_) fun _ e he => he
    exact (sat_flushRun (len := len) (run := e.block.runLen.toNat) e ⟨he, rfl⟩).mono (fun _ _ h => h.2.1) fun _ h => h
  refine sat_get_bind' fun e₀ _ => sat_ite (fun _ => sat_pure fun e he => he.trans_le (Nat.le_add_right len 5)) fun _ => ?_
  exact sat_bind haccept fun _ => sat_bind (Q := fun _ e => e.block.len.toNat ≤ len + 5) (fun e he => he) fun _ => sat_pure fun _ h => h

theorem rle1Put_grows {e₀ : Engine} {S : Engine → Prop} (b : Byte) :
    Cmd.Sat (fun e => e = e₀) (rle1Put b) (fun _ => Engine.BlkGrown 5 e₀) S := by
  have hblk := keeps_rle1Put (S := S) (blkFrom_blockBytesOnly e₀.block.blk e₀.block.len.toNat) blkAppend_keeps_blkFrom b
  refine sat_mono (sat_and (sat_rle1Put_len b) hblk) ?_ (fun _ e h => h) fun _ h => h.1
  rintro e rfl
  exact ⟨rfl, le_rfl, Store.agreesOutside_refl _ _ _⟩

/-- A refused byte leaves every condition as it was (rule R162). -/
theorem sat_rle1Put_refused {P : Engine → Prop} (b : Byte) : Cmd.Sat P (rle1Put b) (fun ok e => ok = false → P e) fun _ => True := by
  refine sat_get_bind' fun e₀ _ => sat_ite (fun _ => sat_pure fun _ h _ => h) fun _ => ?_
  exact sat_bind sat_true fun _ => sat_bind sat_true fun _ => sat_pure fun _ _ h => absurd h (by decide)

/-- With no pending run a put writes none of the arrays (rules R161, R162). -/
theorem sat_rle1Put_empty {I S : Engine → Prop} (hI : ∀ (e : Engine) (u : BlockUnit),
      u.blk = e.block.blk → I e → I { e with block := u })
    (b : Byte) : Cmd.Sat (fun e => I e ∧ e.block.runLen = 0) (rle1Put b) (fun _ => I) S := by
  have hflush : Cmd.Sat (fun e => I e ∧ e.block.runLen = 0) flushRun (fun _ => I) S := by
    rintro e ⟨he, h0⟩
    rw [flushRun, get_bind_run, if_pos (by rw [h0]; rfl)]
    exact he
  have haccept : Cmd.Sat (fun e => I e ∧ e.block.runLen = 0) (rle1Accept b) (fun _ => I) S := by
    refine sat_get_bind' fun e₀ _ => sat_ite (fun _ e he => hI e _ rfl he.1) fun _ => sat_bind hflush fun _ e he => hI e _ rfl he
  refine sat_get_bind' fun e₀ _ => sat_ite (fun _ => sat_pure fun _ h => h.1) fun _ => sat_bind haccept fun _ => ?_
  exact sat_bind (Q := fun _ => I) (fun e he => hI e _ rfl he) fun _ => sat_pure fun _ h => h

/-! ### The forward transform -/

theorem blkGet_keeps_engine {e₀ : Engine} {S : Engine → Prop} (i : Nat) : Cmd.Keeps (fun e => e = e₀) S (blkGet i) :=
  sat_get_bind' fun _ _ => sat_storeGet fun _ _ _ h => h

/-- BWT_FORWARD writes the wrap byte of BLK, and BWT_ARR as far as the block is long (rule R177). -/
theorem bwtForward_writes {e₀ : Engine} {S : Engine → Prop} :
    Cmd.Sat (fun e => e = e₀) bwtForward (fun _ e => e.bwt.len = e₀.block.len ∧
      Store.AgreesOutside 0 e₀.block.len.toNat e.bwt.arr e₀.bwt.arr ∧ Engine.BlkWithin 1 e₀ e) S := by
  refine sat_get_bind fun e₁ he₁ => ?_
  obtain rfl := he₁
  refine sat_bind (sat_collect blkGet_keeps_engine) fun b => ?_
  rw [List.length_range]
  refine sat_bind (Q := fun _ e => b.length = e₁.block.len.toNat ∧ e.bwt.arr = e₁.bwt.arr ∧ Engine.BlkWithin 1 e₁ e) ?_ fun _ => ?_
  · cases b with
    | nil => exact sat_pure fun e he => ⟨he.1, by rw [he.2], he.2 ▸ Store.agreesOutside_refl _ _ _⟩
    | cons b₀ b =>
      rintro e ⟨hb, rfl⟩
      exact meets_blkSet fun _ => ⟨hb, rfl, (Store.agreesOutside_refl _ _ _).push b₀ le_rfl⟩
  refine sat_bind (Q := fun _ e => Store.AgreesOutside 0 e₁.block.len.toNat e.bwt.arr e₁.bwt.arr ∧
      Engine.BlkWithin 1 e₁ e) ?_ fun _ => ?_
  · rintro e ⟨hb, harr, hblk⟩
    refine keeps_forEach (fun p hp e he => meets_bwtArrSet fun _ => ⟨he.1.write p.1 (Nat.zero_le _) ?_, he.2⟩) e
      ⟨by rw [harr]; exact Store.agreesOutside_refl _ _ _, hblk⟩
    have hlt := List.snd_lt_of_mem_zipIdx hp
    rwa [bwtLast_length, hb] at hlt
  · refine sat_bind (fun e he => ?_) fun _ => sat_get_bind' fun _ _ => sat_pure fun _ h => h
    exact ⟨by simp, he.1, he.2⟩

end Sys2Proof.Machine
end

section
/-! SUPPORT. Which elements of MTF_STREAM and SELECTORS the encoder writes, and what closing a block writes of all four arrays (rules
R194, R224, R264, R292, R293). -/

namespace Sys2Proof.Machine

variable {α β : Type}

/-! ### MTF_STREAM -/

/-- MTF_STREAM has been written from `lo` up to MTF_LEN only, since it was `m`. -/
def Engine.StreamFrom (m : Store (BitVec 9)) (lo : Nat) (e : Engine) : Prop :=
  lo ≤ e.mtf.len.toNat ∧ Store.AgreesOutside lo e.mtf.len.toNat e.mtf.stream m

def streamRegs : List Reg := [.mtfStream, .mtfLen]

section
variable {m : Store (BitVec 9)} {lo : Nat}

theorem dependsOn_streamFrom : DependsOn streamRegs (Engine.StreamFrom m lo) := by
  intro e e' h he
  have h1 : e.mtf.stream = e'.mtf.stream := h .mtfStream (by decide)
  have h2 : e.mtf.len = e'.mtf.len := h .mtfLen (by decide)
  rwa [Engine.StreamFrom, h1, h2] at he

theorem dependsOn_stream : DependsOn streamRegs fun e => e.mtf.stream = m := by
  intro e e' h he
  have h1 : e.mtf.stream = e'.mtf.stream := h .mtfStream (by decide)
  rwa [h1] at he

theorem streamFrom_of_eq {e : Engine} (h : e.mtf.stream = m) : e.StreamFrom m 0 :=
  ⟨Nat.zero_le _, by rw [h]; exact Store.agreesOutside_refl _ _ _⟩

theorem emitSym_keeps_streamFrom {S : Engine → Prop} (s : Nat) : Cmd.Keeps (Engine.StreamFrom m lo) S (emitSym s) := by
  refine fun e he => meets_emitSym fun hlt => ?_
  rw [Engine.StreamFrom, emitOne_len hlt]
  exact ⟨Nat.le_succ_of_le he.1, he.2.push _ he.1⟩

theorem flushZeros_keeps_streamFrom : Cmd.Keeps (Engine.StreamFrom m lo) (Engine.StreamFrom m lo) flushZeros := by
  refine sat_get_bind' fun e₀ _ => sat_ite (fun _ => ?_) fun _ => sat_pure fun _ h => h
  exact sat_bind (keeps_forEach fun s _ => emitSym_keeps_streamFrom s) fun _ e he => he

theorem encodeRank_keeps_streamFrom (v : Byte) : Cmd.Keeps (Engine.StreamFrom m lo) (Engine.StreamFrom m lo) (encodeRank v) := by
  refine sat_get_bind' fun e₀ _ => sat_bind (keeps_quiet dependsOn_streamFrom (writes_findRank _) (by decide)) fun j => ?_
  refine sat_ite (fun _ e he => he) fun _ => sat_bind flushZeros_keeps_streamFrom fun _ => ?_
  exact sat_bind (keeps_quiet dependsOn_streamFrom (writes_moveToFront j) (by decide)) fun _ => emitSym_keeps_streamFrom _

theorem mtfEncEnd_keeps_streamFrom : Cmd.Keeps (Engine.StreamFrom m lo) (Engine.StreamFrom m lo) mtfEncEnd :=
  sat_bind flushZeros_keeps_streamFrom fun _ => sat_get_bind' fun _ _ => emitSym_keeps_streamFrom _

/-- The symbols of a block are written from the start of MTF_STREAM on (rules R191, R264). -/
theorem encodeSymbols_streamFrom : Cmd.Sat (fun e => e.mtf.stream = m) encodeSymbols
    (fun _ => Engine.StreamFrom m 0) (Engine.StreamFrom m 0) := by
  refine sat_bind (Q := fun _ => Engine.StreamFrom m 0) (fun e he => ?_) fun _ => ?_
  · rw [mtfInit_run]
    exact streamFrom_of_eq he
  refine sat_bind (keeps_quiet dependsOn_streamFrom writes_mtfWriteMap (by decide)) fun _ => sat_get_bind' fun e₀ _ => ?_
  refine sat_bind (keeps_forEach fun i _ => ?_) fun _ => mtfEncEnd_keeps_streamFrom
  refine sat_bind (keeps_quiet dependsOn_streamFrom (writes_bwtArrGet i) (by simp)) fun v => ?_
  exact sat_bind (keeps_quiet dependsOn_streamFrom (writes_requirePresent v) (by simp)) fun _ => encodeRank_keeps_streamFrom v

end

/-! ### SELECTORS -/

/-- SELECTORS has been written below N_SELECTORS only, since it was `m`. -/
def Engine.SelectorsBelow (m : Store (BitVec 3)) (e : Engine) : Prop :=
  Store.AgreesOutside 0 e.huf.nSelectors.toNat e.huf.selectors m

def selectorRegs : List Reg := [.selectors, .nSelectors]

section
variable {m : Store (BitVec 3)}

theorem dependsOn_selectorsBelow : DependsOn selectorRegs (Engine.SelectorsBelow m) := by
  intro e e' h he
  have h1 : e.huf.selectors = e'.huf.selectors := h .selectors (by decide)
  have h2 : e.huf.nSelectors = e'.huf.nSelectors := h .nSelectors (by decide)
  rwa [Engine.SelectorsBelow, h1, h2] at he

theorem dependsOn_selectors : DependsOn selectorRegs fun e => e.huf.selectors = m := by
  intro e e' h he
  have h1 : e.huf.selectors = e'.huf.selectors := h .selectors (by decide)
  rwa [h1] at he

theorem selectorsBelow_of_eq {e : Engine} (h : e.huf.selectors = m) : e.SelectorsBelow m := by
  rw [Engine.SelectorsBelow, h]
  exact Store.agreesOutside_refl _ _ _

/-- The same with N_SELECTORS at `n`. -/
def Engine.SelectorsIn (m : Store (BitVec 3)) (n : Nat) (e : Engine) : Prop := e.huf.nSelectors.toNat = n ∧ e.SelectorsBelow m

theorem dependsOn_selectorsIn {n : Nat} : DependsOn selectorRegs (Engine.SelectorsIn m n) := by
  intro e e' h he
  have h2 : e.huf.nSelectors = e'.huf.nSelectors := h .nSelectors (by decide)
  exact ⟨h2 ▸ he.1, dependsOn_selectorsBelow e e' h he.2⟩

theorem selectorSet_keeps_selectorsIn {S : Engine → Prop} {n g : Nat} (hg : g < n) (t : Nat) :
    Cmd.Keeps (Engine.SelectorsIn m n) S (selectorSet g t) := by
  refine sat_get_bind' fun e₀ he₀ => sat_bind (Q := fun x e => e.SelectorsIn m n ∧ Store.AgreesOutside 0 n x m) ?_ fun x e he => ?_
  · refine sat_storeSet fun _ e he => ⟨he, ?_⟩
    obtain ⟨hn, hsel⟩ := he₀
    rw [Engine.SelectorsBelow, hn] at hsel
    exact hsel.write _ (Nat.zero_le g) hg
  · obtain ⟨⟨hn, -⟩, hx⟩ := he
    refine ⟨hn, ?_⟩
    show Store.AgreesOutside 0 e.huf.nSelectors.toNat x m
    rwa [hn]

theorem selectGroups_keeps_selectorsIn {n : Nat} {gs : List Nat} (hgs : ∀ g ∈ gs, g < n) (nGroups total : Nat) :
    Cmd.Keeps (Engine.SelectorsIn m n) (Engine.SelectorsIn m n) (selectGroups nGroups gs total) := by
  induction gs generalizing total with
  | nil => exact sat_pure fun _ h => h
  | cons g gs ih =>
    refine sat_bind (keeps_quiet dependsOn_selectorsIn (writes_groupSyms g) (by simp)) fun grp => ?_
    refine sat_bind (keeps_quiet dependsOn_selectorsIn (rel_collect (composes_frame _) fun t => writes_groupCost grp t) (by simp))
      fun costs => sat_bind (selectorSet_keeps_selectorsIn (hgs g (by simp)) _) fun _ => ?_
    refine sat_bind (keeps_forEach fun s _ => keeps_quiet dependsOn_selectorsIn (writes_rfreqBump _ s) (by decide)) fun _ => ?_
    exact ih (fun g' hg' => hgs g' (by simp [hg'])) _

/-- A selection pass writes SELECTORS below N_SELECTORS (rule R224). -/
theorem selectPass_keeps_selectorsBelow : Cmd.Keeps (Engine.SelectorsBelow m) (Engine.SelectorsBelow m) selectPass := by
  refine sat_get_bind fun e₀ he₀ => ?_
  refine sat_mono (P := Engine.SelectorsIn m e₀.huf.nSelectors.toNat) (Q := fun _ => Engine.SelectorsIn m e₀.huf.nSelectors.toNat)
    (S := Engine.SelectorsIn m e₀.huf.nSelectors.toNat) ?_ ?_ (fun _ _ h => h.2) fun _ h => h.2
  · refine sat_bind (keeps_forEach fun t _ => keeps_quiet dependsOn_selectorsIn (writes_setRfreqRow t _) (by decide)) fun _ => ?_
    refine sat_bind (selectGroups_keeps_selectorsIn (fun g hg => List.mem_range.mp hg) _ _) fun total => ?_
    exact sat_bind (keeps_forEach fun t _ => keeps_quiet dependsOn_selectorsIn (writes_reallocate _ t) (by decide)) fun _ =>
      sat_pure fun _ h => h
  · rintro e rfl
    exact ⟨rfl, he₀⟩

theorem seedAndSelect_keeps_selectorsBelow : Cmd.Keeps (Engine.SelectorsBelow m) (Engine.SelectorsBelow m) seedAndSelect := by
  have hpasses : ∀ n c, Cmd.Keeps (Engine.SelectorsBelow m) (Engine.SelectorsBelow m) (selectPasses n c) := by
    intro n
    induction n with
    | zero => exact fun _ => sat_pure fun _ h => h
    | succ n ih => exact fun _ => sat_bind selectPass_keeps_selectorsBelow ih
  exact sat_bind (keeps_quiet dependsOn_selectorsBelow writes_seed (by decide)) fun _ => hpasses _ _

theorem encodeHuffman_selectorsBelow :
    Cmd.Sat (fun e => e.huf.selectors = m) encodeHuffman (fun _ => Engine.SelectorsBelow m) (Engine.SelectorsBelow m) := by
  refine sat_bind (Q := fun _ e => e.huf.selectors = m) ?_ fun _ => ?_
  · refine sat_bind (keeps_of_writes dependsOn_selectors (fun _ => selectorsBelow_of_eq) writes_requireStream (by simp)) fun _ => ?_
    exact sat_get_bind' fun _ _ e he => he
  refine sat_mono (P := Engine.SelectorsBelow m) ?_ (fun _ => selectorsBelow_of_eq) (fun _ _ h => h) fun _ h => h
  refine sat_bind (sat_bind (keeps_quiet dependsOn_selectorsBelow writes_selectChecks (by simp)) fun _ =>
    seedAndSelect_keeps_selectorsBelow) fun _ => sat_get_bind' fun e₀ _ => ?_
  refine sat_bind (keeps_forEach fun t _ => keeps_quiet dependsOn_selectorsBelow (writes_assignCodes t) (by decide)) fun _ => ?_
  refine sat_bind (keeps_quiet dependsOn_selectorsBelow writes_writeTables (by decide)) fun _ => ?_
  exact keeps_quiet dependsOn_selectorsBelow writes_hufEncodeData (by decide)

end

/-! ### BWT_ARR -/

/-- BWT_ARR has been written from `lo` up to BWT_LEN only, since it was `m`. -/
def Engine.ArrFrom (m : Store Byte) (lo : Nat) (e : Engine) : Prop :=
  lo ≤ e.bwt.len.toNat ∧ Store.AgreesOutside lo e.bwt.len.toNat e.bwt.arr m

def arrRegs : List Reg := [.bwtArr, .bwtLen]

section
variable {m : Store Byte} {lo : Nat}

theorem dependsOn_arrFrom : DependsOn arrRegs (Engine.ArrFrom m lo) := by
  intro e e' h he
  have h1 : e.bwt.arr = e'.bwt.arr := h .bwtArr (by decide)
  have h2 : e.bwt.len = e'.bwt.len := h .bwtLen (by decide)
  rwa [Engine.ArrFrom, h1, h2] at he

theorem dependsOn_arr : DependsOn arrRegs fun e => e.bwt.arr = m := by
  intro e e' h he
  have h1 : e.bwt.arr = e'.bwt.arr := h .bwtArr (by decide)
  rwa [h1] at he

theorem arrFrom_of_eq {e : Engine} (h : e.bwt.arr = m) : e.ArrFrom m 0 :=
  ⟨Nat.zero_le _, by rw [h]; exact Store.agreesOutside_refl _ _ _⟩

end

/-! ### Closing a block -/

/-- What closing the block of `e₀` has written of the arrays, at every stop. -/
structure Engine.Closing (e₀ e : Engine) : Prop where
  blk : Engine.BlkWithin 6 e₀ e
  arr : e.ArrFrom e₀.bwt.arr 0
  stream : e.StreamFrom e₀.mtf.stream 0
  selectors : e.SelectorsBelow e₀.huf.selectors

def closingRegs : List Reg := [.blk] ++ arrRegs ++ streamRegs ++ selectorRegs

theorem dependsOn_closing {e₀ : Engine} : DependsOn closingRegs (Engine.Closing e₀) := fun e e' h he =>
  { blk := dependsOn_blkWithin.mono (by decide) e e' h he.blk, arr := dependsOn_arrFrom.mono (by decide) e e' h he.arr,
    stream := dependsOn_streamFrom.mono (by decide) e e' h he.stream,
    selectors := dependsOn_selectorsBelow.mono (by decide) e e' h he.selectors }

theorem closing_refl (e : Engine) : Engine.Closing e e :=
  ⟨Store.agreesOutside_refl _ _ _, arrFrom_of_eq rfl, streamFrom_of_eq rfl, selectorsBelow_of_eq rfl⟩

/-- `BlkEncClose()` in its stages (rule R264), for a condition that the writing of bits does not touch. -/
theorem sat_blkEncClose {D : List Reg} {P₀ P₁ P₂ P₃ I : Engine → Prop} (hP₂ : DependsOn D P₂) (hI : DependsOn D I)
    (hD : ∀ r ∈ writerRegs ++ [.blkNonempty], r ∉ D) (hstop : ∀ e, P₂ e → I e) (hflush : Cmd.Sat P₀ flushRun (fun _ => P₁) I)
    (hforward : Cmd.Sat P₁ bwtForward (fun _ => P₂) I) (hsymbols : Cmd.Sat P₂ encodeSymbols (fun _ => P₃) I)
    (hhuffman : Cmd.Sat P₃ encodeHuffman (fun _ => I) I) : Cmd.Sat P₀ blkEncClose (fun _ => I) I := by
  refine sat_bind hflush fun _ => sat_get_bind' fun e₀ _ => sat_bind hforward fun start => ?_
  refine sat_bind (keeps_of_writes hP₂ hstop (writes_writeBlockHeader _ _) fun r hr => hD r (List.mem_append_left _ hr)) fun _ => ?_
  refine sat_bind hsymbols fun _ => sat_bind hhuffman fun _ => sat_bind (Q := fun _ => I) ?_ fun _ => sat_pure fun _ h => h
  refine keeps_quiet (W := [.blkNonempty]) hI ?_ fun r hr => hD r (List.mem_append_right _ hr)
  intro e r
  cases r <;> simp [Reg.same, Cmd.after]

theorem blkEncClose_blk {e₀ : Engine} : Cmd.Sat (fun e => e = e₀) blkEncClose
    (fun _ => Engine.BlkWithin 6 e₀) (Engine.BlkWithin 6 e₀) := by
  refine sat_blkEncClose dependsOn_blkWithin dependsOn_blkWithin (by decide) (fun _ h => h) flushRun_grows ?_
    (keeps_quiet dependsOn_blkWithin writes_encodeSymbols (by decide)) (keeps_quiet dependsOn_blkWithin writes_encodeHuffman (by decide))
  refine sat_of_start fun e₁ h₁ => sat_mono bwtForward_writes (fun _ h => h) (fun _ e he => ?_) fun _ h => h
  intro k hk
  have hlen := h₁.1
  have hle := h₁.2.1
  rw [he.2.2 k (by omega)]
  exact h₁.2.2 k (by omega)

theorem blkEncClose_arr {m : Store Byte} :
    Cmd.Sat (fun e => e.bwt.arr = m) blkEncClose (fun _ => Engine.ArrFrom m 0) (Engine.ArrFrom m 0) := by
  refine sat_blkEncClose (P₁ := fun e => e.bwt.arr = m) dependsOn_arrFrom dependsOn_arrFrom (by decide) (fun _ h => h)
    (keeps_of_writes dependsOn_arr (fun _ => arrFrom_of_eq) writes_flushRun (by decide)) ?_
    (keeps_quiet dependsOn_arrFrom writes_encodeSymbols (by decide)) (keeps_quiet dependsOn_arrFrom writes_encodeHuffman (by decide))
  refine sat_of_start fun e₁ h₁ => sat_mono bwtForward_writes (fun _ h => h) (fun _ e he => ⟨Nat.zero_le _, ?_⟩) fun _ h => h
  rw [he.1, ← h₁]
  exact he.2.1

theorem blkEncClose_stream {m : Store (BitVec 9)} :
    Cmd.Sat (fun e => e.mtf.stream = m) blkEncClose (fun _ => Engine.StreamFrom m 0) (Engine.StreamFrom m 0) :=
  sat_blkEncClose dependsOn_stream dependsOn_streamFrom (by decide) (fun _ => streamFrom_of_eq)
    (keeps_of_writes dependsOn_stream (fun _ => streamFrom_of_eq) writes_flushRun (by decide))
    (keeps_of_writes dependsOn_stream (fun _ => streamFrom_of_eq) writes_bwtForward (by decide))
    encodeSymbols_streamFrom (keeps_quiet dependsOn_streamFrom writes_encodeHuffman (by decide))

theorem blkEncClose_selectors {m : Store (BitVec 3)} :
    Cmd.Sat (fun e => e.huf.selectors = m) blkEncClose (fun _ => Engine.SelectorsBelow m) (Engine.SelectorsBelow m) :=
  sat_blkEncClose dependsOn_selectors dependsOn_selectorsBelow (by decide) (fun _ => selectorsBelow_of_eq)
    (keeps_of_writes dependsOn_selectors (fun _ => selectorsBelow_of_eq) writes_flushRun (by decide))
    (keeps_of_writes dependsOn_selectors (fun _ => selectorsBelow_of_eq) writes_bwtForward (by decide))
    (keeps_of_writes dependsOn_selectors (fun _ => selectorsBelow_of_eq) writes_encodeSymbols (by decide)) encodeHuffman_selectorsBelow

/-- `BlkEncClose()` from the engine `e₀`. -/
theorem blkEncClose_closing {e₀ : Engine} : Cmd.Sat (fun e => e = e₀) blkEncClose
    (fun _ => Engine.Closing e₀) (Engine.Closing e₀) := by
  refine sat_mono (sat_and (blkEncClose_blk (e₀ := e₀)) (sat_and (blkEncClose_arr (m := e₀.bwt.arr))
    (sat_and (blkEncClose_stream (m := e₀.mtf.stream)) (blkEncClose_selectors (m := e₀.huf.selectors))))) ?_ (fun _ e ⟨h1, h2, h3, h4⟩ => ⟨h1, h2, h3, h4⟩)
    fun e ⟨h1, h2, h3, h4⟩ => ⟨h1, h2, h3, h4⟩
  rintro e rfl
  exact ⟨rfl, rfl, rfl, rfl⟩

theorem closeAndCombine_closing {e₀ : Engine} :
    Cmd.Sat (fun e => e = e₀) closeAndCombine (fun _ => Engine.Closing e₀) (Engine.Closing e₀) :=
  sat_bind blkEncClose_closing fun c => keeps_quiet dependsOn_closing (writes_combineCrc c) (by decide)

/-- After the close the new block is empty, and its first byte goes into the pending run (rules R162, R261, R292). -/
theorem nextBlockWith_closing {e₀ : Engine} (b : Byte) :
    Cmd.Sat (fun e => e = e₀) (nextBlockWith b) (fun _ => Engine.Closing e₀) (Engine.Closing e₀) := by
  refine sat_bind closeAndCombine_closing fun _ => sat_get_bind' fun e₁ _ => ?_
  refine sat_bind (Q := fun _ e => Engine.Closing e₀ e ∧ e.block.runLen = 0) ?_ fun _ => ?_
  · exact fun e he => ⟨⟨he.blk, he.arr, he.stream, he.selectors⟩, rfl⟩
  · refine sat_bind (sat_rle1Put_empty (fun e u hu he => ?_) b) fun _ => sat_pure fun _ h => h
    exact ⟨by rw [Engine.BlkWithin, hu]; exact he.blk, he.arr, he.stream, he.selectors⟩

theorem cmdBlkEncClose_closing {e₀ : Engine} :
    Cmd.Sat (fun e => e = e₀) cmdBlkEncClose (fun _ => Engine.Closing e₀) (Engine.Closing e₀) := by
  have hrefl : ∀ e, e = e₀ → Engine.Closing e₀ e := fun e he => he ▸ closing_refl e₀
  refine sat_get_bind' fun _ _ => sat_ite (fun _ => ?_) fun _ => ?_
  · exact sat_bind blkEncClose_closing fun c => keeps_quiet dependsOn_closing (writes_setResult _) (by decide)
  · exact sat_mono (keeps_quiet dependsOn_closing writes_endWithNodata (by decide)) hrefl (fun _ _ h => h) fun _ h => h

/-- A put from the engine `e₀` writes of the arrays no more than a close would. -/
theorem rle1Put_closing {e₀ : Engine} (b : Byte) : Cmd.Sat (fun e => e = e₀) (rle1Put b)
    (fun _ => Engine.Closing e₀) (Engine.Closing e₀) := by
  have hgrows := rle1Put_grows (e₀ := e₀) (S := fun _ => False) b
  refine sat_mono (sat_and hgrows (sat_of_writes (writes_rle1Put b))) (fun e he => ⟨he, he⟩) (fun _ e he => ?_) fun _ he => he.1.elim
  obtain ⟨hblk, hs⟩ := he
  exact
    { blk := hblk.within (by norm_num), arr := arrFrom_of_eq (hs .bwtArr (by decide)).symm,
      stream := streamFrom_of_eq (hs .mtfStream (by decide)).symm, selectors := selectorsBelow_of_eq (hs .selectors (by decide)).symm }

theorem cmdStrEncWrite_closing {e₀ : Engine} :
    Cmd.Sat (fun e => e = e₀) cmdStrEncWrite (fun _ => Engine.Closing e₀) (Engine.Closing e₀) := by
  refine sat_bind (keeps_argByte) fun b => sat_bind (sat_and_ok (rle1Put_closing b) (sat_rle1Put_refused b)) fun ok => ?_
  refine sat_bind (Q := fun _ => Engine.Closing e₀) ?_ fun _ => ?_
  · cases ok
    · exact sat_mono (nextBlockWith_closing b) (fun e he => he.2 rfl) (fun _ _ h => h) fun _ h => h
    · exact sat_pure fun e he => he.1
  · exact sat_bind (keeps_quiet dependsOn_closing (writes_feedBlockCrc b) (by decide)) fun _ =>
      keeps_quiet dependsOn_closing (writes_setResult _) (by decide)

theorem cmdStrEncFinish_closing {e₀ : Engine} :
    Cmd.Sat (fun e => e = e₀) cmdStrEncFinish (fun _ => Engine.Closing e₀) (Engine.Closing e₀) := by
  refine sat_get_bind' fun e₁ _ => sat_bind (Q := fun _ => Engine.Closing e₀) ?_ fun _ => ?_
  · cases e₁.block.nonempty
    · exact sat_pure fun e he => he ▸ closing_refl e₀
    · exact closeAndCombine_closing
  refine sat_bind (keeps_quiet dependsOn_closing (writes_write48 _) (by decide)) fun _ => sat_get_bind' fun e₂ _ => ?_
  refine sat_bind (keeps_quiet dependsOn_closing (writes_write32 _) (by decide)) fun _ => ?_
  refine sat_bind (keeps_quiet dependsOn_closing writes_flushWriter (by decide)) fun _ => ?_
  refine sat_bind (keeps_quiet dependsOn_closing (writes_setPhase _) (by decide)) fun _ => ?_
  exact keeps_quiet dependsOn_closing (writes_setResult _) (by decide)

end Sys2Proof.Machine
end

section
/-! SUPPORT. Which elements of BWT_ARR, MERGED and SELECTORS the decoder writes (rules R178, R198, R233, R270, R295). -/

namespace Sys2Proof.Machine

variable {α β : Type}

/-! ### BWT_ARR -/

section
variable {m : Store Byte} {lo : Nat}

theorem bwtAppend_keeps_arrFrom {S : Engine → Prop} (v : Byte) : Cmd.Keeps (Engine.ArrFrom m lo) S (bwtAppend v) := by
  refine fun e he => meets_bwtAppend fun hlt => ?_
  have hlen : (e.bwtStored v).bwt.len.toNat = e.bwt.len.toNat + 1 := by
    show (BitVec.ofNat 20 (e.bwt.len.toNat + 1)).toNat = _
    rw [BitVec.toNat_ofNat]
    omega
  rw [Engine.ArrFrom, hlen]
  exact ⟨Nat.le_succ_of_le he.1, he.2.push v he.1⟩

theorem mtfFlushRun_keeps_arrFrom : Cmd.Keeps (Engine.ArrFrom m lo) (Engine.ArrFrom m lo) mtfFlushRun := by
  refine sat_get_bind' fun e₀ _ => sat_ite (fun _ => ?_) fun _ => sat_pure fun _ h => h
  refine sat_bind (sat_tableGet fun _ _ h => h) fun r => sat_bind (keeps_repeatCmd (bwtAppend_keeps_arrFrom _) _) fun _ => ?_
  exact fun e he => he

theorem mtfLiteral_keeps_arrFrom (s : Nat) : Cmd.Keeps (Engine.ArrFrom m lo) (Engine.ArrFrom m lo) (mtfLiteral s) := by
  refine sat_get_bind' fun e₀ _ => sat_ite (fun _ => sat_raise fun _ h => h) fun _ => ?_
  exact sat_bind (keeps_quiet dependsOn_arrFrom (writes_moveToFront _) (by decide)) fun r => bwtAppend_keeps_arrFrom _

/-- A decoded symbol appends to BWT_ARR (rule R198). -/
theorem mtfDecSym_keeps_arrFrom (s : Nat) : Cmd.Keeps (Engine.ArrFrom m lo) (Engine.ArrFrom m lo) (mtfDecSym s) := by
  refine sat_ite (fun _ => ?_) fun _ => ?_
  · exact sat_bind (keeps_quiet dependsOn_arrFrom (writes_mtfRunDigit s) (by decide)) fun _ => sat_pure fun _ h => h
  refine sat_bind mtfFlushRun_keeps_arrFrom fun _ => sat_get_bind' fun e₀ _ => sat_ite (fun _ => ?_) fun _ => ?_
  · exact sat_bind (Q := fun _ => Engine.ArrFrom m lo) (fun e he => he) fun _ => sat_pure fun _ h => h
  · exact sat_bind (mtfLiteral_keeps_arrFrom s) fun _ => sat_pure fun _ h => h

theorem decodeSymbols_keeps_arrFrom (left : Nat) : Cmd.Keeps (Engine.ArrFrom m lo) (Engine.ArrFrom m lo) (decodeSymbols left) := by
  induction left with
  | zero => exact sat_raise fun _ h => h
  | succ left ih =>
    refine sat_bind (keeps_quiet dependsOn_arrFrom writes_hufDecodeSym (by decide)) fun s => ?_
    exact sat_bind (mtfDecSym_keeps_arrFrom s) fun eob => sat_ite (fun _ => sat_pure fun _ h => h) fun _ => ih

end

/-! ### MERGED -/

/-- MERGED has been written below BWT_LEN only, since it was `m`. -/
def Engine.MergedBelow (m : Store Word) (e : Engine) : Prop := Store.AgreesOutside 0 e.bwt.len.toNat e.bwt.merged m

def mergedRegs : List Reg := [.merged, .bwtLen]

section
variable {m : Store Word}

theorem dependsOn_mergedBelow : DependsOn mergedRegs (Engine.MergedBelow m) := by
  intro e e' h he
  have h1 : e.bwt.merged = e'.bwt.merged := h .merged (by decide)
  have h2 : e.bwt.len = e'.bwt.len := h .bwtLen (by decide)
  rwa [Engine.MergedBelow, h1, h2] at he

theorem dependsOn_merged : DependsOn [.merged] fun e => e.bwt.merged = m := by
  intro e e' h he
  have h1 : e.bwt.merged = e'.bwt.merged := h .merged (by decide)
  rwa [h1] at he

theorem mergedBelow_of_eq {e : Engine} (h : e.bwt.merged = m) : e.MergedBelow m := by
  rw [Engine.MergedBelow, h]
  exact Store.agreesOutside_refl _ _ _

end

/-- A loop that ends normally has met what each pass meets when it ends normally. -/
theorem sat_collect_all {P S : Engine → Prop} {R : α → Prop} {xs : List α} {c : α → Cmd β}
    (h : ∀ x ∈ xs, Cmd.Sat P (c x) (fun _ e => P e ∧ R x) S) : Cmd.Sat P (collect xs c) (fun _ e => P e ∧ ∀ x ∈ xs, R x) S := by
  induction xs with
  | nil => exact sat_pure fun _ he => ⟨he, by simp⟩
  | cons x xs ih =>
    refine sat_bind (h x (by simp)) fun y => ?_
    rintro e ⟨he, hx⟩
    refine sat_bind (ih fun z hz => h z (by simp [hz])) (fun ys => sat_pure fun e' he' => ?_) e he
    exact ⟨he'.1, List.forall_mem_cons.mpr ⟨hx, he'.2⟩⟩

/-- Reading the whole of BWT_ARR ends normally only where all of it has been written, and yields it (rule R51). -/
theorem sat_collect_bwtArrGet {e₀ : Engine} {S : Engine → Prop} :
    Cmd.Sat (fun e => e = e₀) (collect (List.range e₀.bwt.len.toNat) bwtArrGet)
      (fun b e => e = e₀ ∧ b = e₀.bwtBytes ∧ e₀.BwtFilled) S := by
  by_cases hf : e₀.BwtFilled
  · rintro e rfl
    rw [collect_bwtArrGet hf]
    exact ⟨rfl, rfl, hf⟩
  · have hread : ∀ i, Cmd.Sat (fun e => e = e₀) (bwtArrGet i) (fun _ e => e = e₀ ∧ ∃ v, e₀.bwt.arr.read i = some v) S := by
      refine fun i => sat_get_bind fun e₁ h₁ => sat_storeGet fun v hv e he => ?_
      obtain rfl := h₁
      exact ⟨he, v, hv⟩
    refine sat_mono (sat_collect_all fun i _ => hread i) (fun _ h => h) (fun _ e he => ?_) fun _ h => h
    exact absurd (fun i hi => he.2 i (List.mem_range.mpr hi)) hf

/-- One pass places its entry below BWT_LEN (rule R178). -/
theorem placeMerged_below {e₀ : Engine} {S : Engine → Prop} {k : Nat} (hk : k < e₀.bwtBytes.length) :
    Cmd.Sat (fun e => PlacedTo e₀ k e ∧ e.MergedBelow e₀.bwt.merged) (placeMerged k e₀.bwtBytes[k])
      (fun _ => Engine.MergedBelow e₀.bwt.merged) S := by
  rintro e ⟨⟨m, c, rfl, -, hcount⟩, hm⟩
  have hplace : (byteGet c e₀.bwtBytes[k]).toNat = placeOf e₀.bwtBytes k := by
    have hbk : e₀.bwtBytes.getD k 0 = e₀.bwtBytes[k] := List.getD_eq_getElem _ _ hk
    rw [hcount, placeOf, hbk]
  have hlt : placeOf e₀.bwtBytes k < e₀.bwt.len.toNat := (placeOf_lt _ hk).trans_eq bwtBytes_length
  simp only [placeMerged, get_bind_run, hplace]
  by_cases hroom : placeOf e₀.bwtBytes k < 900000
  · rw [bind_ok (mergedSet_run hroom)]
    exact Store.AgreesOutside.write hm _ (Nat.zero_le _) hlt
  · rw [bind_error (mergedSet_fault hroom)]
    trivial

/-- `BuildInverse()` writes MERGED below BWT_LEN (rule R178). -/
theorem buildInverse_below {e₀ : Engine} {S : Engine → Prop} :
    Cmd.Sat (fun e => e = e₀) buildInverse (fun _ => Engine.MergedBelow e₀.bwt.merged) S := by
  refine sat_get_bind fun e₁ h₁ => ?_
  obtain rfl := h₁
  refine sat_bind sat_collect_bwtArrGet fun b => ?_
  rintro e ⟨rfl, rfl, -⟩
  have hloop := sat_forEach (xs := e.bwtBytes.zipIdx) (c := fun p => placeMerged p.2 p.1) (S := S)
    (fun k e' => PlacedTo e k e' ∧ e'.MergedBelow e.bwt.merged) fun k hk => by
      rw [List.getElem_zipIdx, Nat.zero_add]
      have hk : k < e.bwtBytes.length := by simpa using hk
      exact sat_mono (sat_and (placeMerged_places (S := S) hk) (placeMerged_below (S := S) hk)) (fun _ h => ⟨h.1, h⟩) (fun _ _ h => h)
        fun _ h => h.1
  exact (hloop _ ⟨placedTo_zero e, mergedBelow_of_eq rfl⟩).mono (fun _ _ h => h.2) fun _ h => h

/-- BWT_INV_SETUP writes MERGED below BWT_LEN (rules R178, R179). -/
theorem bwtInvSetup_below {m : Store Word} :
    Cmd.Sat (fun e => e.bwt.merged = m) bwtInvSetup (fun _ => Engine.MergedBelow m) (Engine.MergedBelow m) := by
  refine sat_get_bind' fun e₀ _ => sat_raiseWhen_bind (fun _ => mergedBelow_of_eq) fun _ => ?_
  refine sat_bind (Q := fun _ => Engine.MergedBelow m) (sat_of_start fun e₁ h₁ => h₁ ▸ buildInverse_below) fun _ => ?_
  refine sat_bind (keeps_quiet dependsOn_mergedBelow (writes_mergedGet _) (by simp)) fun c => ?_
  exact sat_bind (Q := fun _ => Engine.MergedBelow m) (fun e he => he) fun _ => sat_pure fun _ h => h

/-! ### SELECTORS -/

section
variable {m : Store (BitVec 3)}

theorem readSelectors_keeps_selectorsIn {n : Nat} (nG : Nat) {gs : List Nat} (hgs : ∀ g ∈ gs, g < n) (list : List Nat) :
    Cmd.Keeps (Engine.SelectorsIn m n) (Engine.SelectorsIn m n) (readSelectors nG gs list) := by
  induction gs generalizing list with
  | nil => exact sat_pure fun _ h => h
  | cons g gs ih =>
    refine sat_bind (keeps_quiet dependsOn_selectorsIn (writes_readUnary nG) (by decide)) fun j => ?_
    refine sat_bind (selectorSet_keeps_selectorsIn (hgs g (by simp)) _) fun _ => ih (fun g' hg' => hgs g' (by simp [hg'])) _

/-- `ReadTables()` writes as many selectors as it has read N_SELECTORS to be (rule R233). -/
theorem readTables_below :
    Cmd.Sat (fun e => e.huf.selectors = m) readTables (fun _ => Engine.SelectorsBelow m) (Engine.SelectorsBelow m) := by
  have hstop : ∀ e : Engine, e.huf.selectors = m → e.SelectorsBelow m := fun _ => selectorsBelow_of_eq
  refine sat_get_bind' fun e₀ _ => sat_raiseWhen_bind hstop fun _ => ?_
  refine sat_bind (keeps_of_writes dependsOn_selectors hstop (writes_readBits 3) (by decide)) fun nG => sat_raiseWhen_bind hstop fun _ => ?_
  refine sat_bind (keeps_of_writes dependsOn_selectors hstop (writes_readBits 15) (by decide)) fun nS => sat_raiseWhen_bind hstop fun hS => ?_
  have hS : nS ≤ 18001 := by
    have := of_decide_eq_false hS
    unfold Config.maxSelectors at this
    omega
  refine sat_bind (Q := fun _ => Engine.SelectorsIn m nS) (fun e he => ⟨?_, selectorsBelow_of_eq he⟩) fun _ => ?_
  · show (BitVec.ofNat 15 nS).toNat = nS
    rw [BitVec.toNat_ofNat]
    omega
  refine sat_mono (P := Engine.SelectorsIn m nS) (Q := fun _ => Engine.SelectorsIn m nS) (S := Engine.SelectorsIn m nS) ?_ (fun _ h => h)
    (fun _ _ h => h.2) fun _ h => h.2
  refine sat_bind (readSelectors_keeps_selectorsIn nG (fun g hg => List.mem_range.mp hg) _) fun _ => ?_
  refine sat_bind (keeps_forEach fun t _ => ?_) fun _ => ?_
  · exact sat_bind (keeps_quiet dependsOn_selectorsIn (writes_readBits 5) (by decide)) fun cur =>
      keeps_quiet dependsOn_selectorsIn (writes_readLens t _ cur) (by decide)
  · refine sat_bind (keeps_forEach fun t _ => keeps_quiet dependsOn_selectorsIn (writes_buildDecode t) (by decide)) fun _ => ?_
    exact fun e he => he

end

/-! ### Decoding a block -/

/-- What the decoder has written of the arrays since the engine `e₀`, at every stop. -/
structure Engine.Decoding (e₀ e : Engine) : Prop where
  selectors : e.SelectorsBelow e₀.huf.selectors
  arr : e.ArrFrom e₀.bwt.arr 0
  merged : e.MergedBelow e₀.bwt.merged

/-- The arrays that the decoder writes are those of `e₀`. -/
structure Engine.SameArrays (e₀ e : Engine) : Prop where
  selectors : e.huf.selectors = e₀.huf.selectors
  arr : e.bwt.arr = e₀.bwt.arr
  merged : e.bwt.merged = e₀.bwt.merged

def decodingRegs : List Reg := selectorRegs ++ arrRegs ++ mergedRegs

theorem Engine.SameArrays.decoding {e₀ e : Engine} (h : Engine.SameArrays e₀ e) : Engine.Decoding e₀ e :=
  ⟨selectorsBelow_of_eq h.selectors, arrFrom_of_eq h.arr, mergedBelow_of_eq h.merged⟩

theorem dependsOn_decoding {e₀ : Engine} : DependsOn decodingRegs (Engine.Decoding e₀) := fun e e' h he =>
  { selectors := dependsOn_selectorsBelow.mono (by decide) e e' h he.selectors, arr := dependsOn_arrFrom.mono (by decide) e e' h he.arr,
    merged := dependsOn_mergedBelow.mono (by decide) e e' h he.merged }

theorem dependsOn_sameArrays {e₀ : Engine} : DependsOn [.selectors, .bwtArr, .merged] (Engine.SameArrays e₀) := by
  intro e e' h he
  have h1 : e.huf.selectors = e'.huf.selectors := h .selectors (by decide)
  have h2 : e.bwt.arr = e'.bwt.arr := h .bwtArr (by decide)
  have h3 : e.bwt.merged = e'.bwt.merged := h .merged (by decide)
  exact ⟨h1 ▸ he.selectors, h2 ▸ he.arr, h3 ▸ he.merged⟩

/-- A piece that writes none of the arrays. -/
theorem sat_sameArrays {e₀ : Engine} {W : List Reg} {c : Cmd α} (hw : Writes W c)
    (hd : ∀ r ∈ W, r ∉ [Reg.selectors, .bwtArr, .merged]) :
    Cmd.Sat (Engine.SameArrays e₀) c (fun _ => Engine.SameArrays e₀) (Engine.Decoding e₀) :=
  keeps_of_writes dependsOn_sameArrays (fun _ h => h.decoding) hw hd

/-- `BlkDecStart()` in its stages (rule R270), for a condition that the header and the restart of the run decoder do not touch. -/
theorem sat_blkDecStart {D : List Reg} {P₀ P₁ P₂ P₃ I : Engine → Prop} (hP₀ : DependsOn D P₀) (hI : DependsOn D I)
    (hD : ∀ r ∈ readerRegs ++ [.storedBcrc, .randFlag, .startPtr, .presence,
      .rlLast, .rlCnt, .rlRep, .randNtogo, .randTpos, .blockCrc], r ∉ D)
    (hstop : ∀ e, P₀ e → I e) (hinit : ∀ e, P₀ e → P₁ (e.mtfStarted true)) (htables : Cmd.Sat P₁ readTables (fun _ => P₂) I)
    (hsymbols : ∀ n, Cmd.Sat P₂ (decodeSymbols n) (fun _ => P₃) I) (hinverse : Cmd.Sat P₃ bwtInvSetup (fun _ => I) I) :
    Cmd.Sat P₀ blkDecStart (fun _ => I) I := by
  refine sat_bind (keeps_of_writes hP₀ hstop writes_readBlockHeader fun r hr => hD r (by revert r; decide)) fun _ => ?_
  refine sat_bind (keeps_of_writes hP₀ hstop writes_mtfReadMap fun r hr => hD r (by revert r; decide)) fun _ => ?_
  refine sat_bind (Q := fun _ => P₁) (fun e he => by rw [mtfInit_run]; exact hinit e he) fun _ => sat_bind htables fun _ => ?_
  refine sat_get_bind' fun e₀ _ => sat_bind (hsymbols _) fun _ => sat_bind hinverse fun n => ?_
  refine sat_bind (keeps_quiet hI Piece.restartRuns.writes fun r hr => hD r (by revert r; decide)) fun _ => ?_
  exact sat_bind (keeps_quiet hI writes_cmdCrcInit fun r hr => hD r (by revert r; decide)) fun _ => sat_pure fun _ h => h

theorem blkDecStart_decoding {e₀ : Engine} :
    Cmd.Sat (Engine.SameArrays e₀) blkDecStart (fun _ => Engine.Decoding e₀) (Engine.Decoding e₀) := by
  have hsel := sat_blkDecStart (P₁ := fun e => e.huf.selectors = e₀.huf.selectors)
    dependsOn_selectors dependsOn_selectorsBelow (by decide)
    (fun _ => selectorsBelow_of_eq) (fun _ h => h) readTables_below
    (fun n => keeps_quiet dependsOn_selectorsBelow (writes_decodeSymbols n) (by decide))
    (keeps_quiet dependsOn_selectorsBelow writes_bwtInvSetup (by decide))
  have harr := sat_blkDecStart (P₁ := Engine.ArrFrom e₀.bwt.arr 0) dependsOn_arr dependsOn_arrFrom (by decide)
    (fun _ => arrFrom_of_eq) (fun e h => arrFrom_of_eq (e := e.mtfStarted true) h)
    (keeps_quiet dependsOn_arrFrom writes_readTables (by decide)) (fun n => decodeSymbols_keeps_arrFrom n)
    (keeps_quiet dependsOn_arrFrom writes_bwtInvSetup (by decide))
  have hmerged := sat_blkDecStart (P₁ := fun e => e.bwt.merged = e₀.bwt.merged) (D := mergedRegs) (dependsOn_merged.mono (by decide))
    dependsOn_mergedBelow (by decide)
    (fun _ => mergedBelow_of_eq) (fun _ h => h)
    (keeps_of_writes dependsOn_merged (fun _ => mergedBelow_of_eq) writes_readTables (by decide))
    (fun n => keeps_of_writes dependsOn_merged (fun _ => mergedBelow_of_eq) (writes_decodeSymbols n) (by decide)) bwtInvSetup_below
  exact sat_mono (sat_and hsel (sat_and harr hmerged)) (fun e he => ⟨he.selectors, he.arr, he.merged⟩)
    (fun _ e ⟨h1, h2, h3⟩ => ⟨h1, h2, h3⟩) fun e ⟨h1, h2, h3⟩ => ⟨h1, h2, h3⟩

theorem cmdBlkDecStart_decoding {e₀ : Engine} (k : BitVec 4) :
    Cmd.Sat (Engine.SameArrays e₀) (cmdBlkDecStart k) (fun _ => Engine.Decoding e₀) (Engine.Decoding e₀) := by
  refine sat_bind (sat_sameArrays (rel_doWhen (composes_frame _) (writes_modBlockK k)) (by decide)) fun _ => ?_
  exact sat_bind blkDecStart_decoding fun n => keeps_quiet dependsOn_decoding (writes_setResult _) (by decide)

/-! ### Reading a stream -/

/-- A block has just started: there is a byte to fetch, and it is data (rules R179, R270). -/
def Engine.AtFirstByte (e : Engine) : Prop := e.block.rlRep = 0 ∧ e.block.rlCnt = 0 ∧ e.bwt.hopsLeft ≠ 0

theorem bwtInvSetup_hopsLeft {P : Engine → Prop} : Cmd.Sat P bwtInvSetup (fun _ e => e.bwt.hopsLeft ≠ 0) fun _ => True := by
  refine sat_get_bind fun e₀ _ => sat_raiseWhen_bind (fun _ _ => trivial) fun hp => ?_
  have hlen : e₀.bwt.len ≠ 0 := by
    intro h0
    have := of_decide_eq_false hp
    rw [h0] at this
    exact this (Nat.zero_le _)
  have hkeep : DependsOn [.bwtLen] fun e => e.bwt.len = e₀.bwt.len := by
    intro e e' h he
    have h1 : e.bwt.len = e'.bwt.len := h .bwtLen (by decide)
    rwa [h1] at he
  refine sat_mono (P := fun e => e.bwt.len = e₀.bwt.len) ?_ (fun e he => by rw [he]) (fun _ _ h => h) fun _ h => h
  refine sat_bind (keeps_of_writes hkeep (fun _ _ => trivial) writes_buildInverse (by decide)) fun _ => ?_
  refine sat_bind (keeps_of_writes hkeep (fun _ _ => trivial) (writes_mergedGet _) (by simp)) fun c => ?_
  refine sat_bind (Q := fun _ e => e.bwt.hopsLeft ≠ 0) (fun e he => ?_) fun _ => sat_pure fun _ h => h
  exact fun h0 => hlen (he.symm.trans h0)

theorem blkDecStart_atFirstByte {P : Engine → Prop} : Cmd.Sat P blkDecStart (fun _ => Engine.AtFirstByte) fun _ => True := by
  refine sat_bind sat_true fun _ => sat_bind sat_true fun _ => sat_bind sat_true fun _ => sat_bind sat_true fun _ => ?_
  refine sat_get_bind' fun e₀ _ => sat_bind sat_true fun _ => sat_bind bwtInvSetup_hopsLeft fun n => ?_
  refine sat_bind (Q := fun _ => Engine.AtFirstByte) (fun e he => ⟨rfl, rfl, he⟩) fun _ => ?_
  exact sat_bind (Q := fun _ => Engine.AtFirstByte) (fun e he => he) fun _ => sat_pure fun _ h => h

/-- The first byte of a block is there (rules R165, R295). -/
theorem rle1Next_first : Cmd.Sat Engine.AtFirstByte rle1Next (fun b _ => b ≠ none) fun _ => True := by
  rintro e ⟨hrep, hcnt, hhops⟩
  have hhops : e.bwt.hopsLeft.toNat ≠ 0 := fun h => hhops (BitVec.eq_of_toNat_eq h)
  have hdata : ∀ b, Cmd.Sat (fun _ => True) (rle1Data b) (fun o _ => o ≠ none) fun _ => True :=
    fun b => sat_bind sat_true fun _ => sat_pure fun _ _ => by simp
  rw [rle1Next_of_data (by rw [hcnt]; decide), rle1Pass, get_bind_run, if_neg (by rw [hrep]; decide), if_neg hhops]
  exact sat_bind (P := fun _ => True) sat_true hdata e trivial

/-- The machine reads out a block that has just started. -/
def Engine.Started (e₀ e : Engine) : Prop := e.frame.phase = .decBlockActive ∧ Engine.Decoding e₀ e ∧ e.AtFirstByte

/-- A block that has just started yields a byte at once, so no second block starts in one command (rule R295). -/
theorem strDecLoop_started {e₀ : Engine} (n : Nat) :
    Cmd.Sat (Engine.Started e₀) (strDecLoop n) (fun _ => Engine.Decoding e₀) (Engine.Decoding e₀) := by
  cases n with
  | zero => exact sat_fail _
  | succ n =>
    refine sat_get_bind fun e₁ h₁ => ?_
    rw [h₁.1]
    have hkeep := keeps_quiet (dependsOn_decoding (e₀ := e₀)) writes_rle1Next (by decide)
    refine sat_mono (P := fun e => Engine.Decoding e₀ e ∧ e.AtFirstByte) ?_ (fun e he => he ▸ h₁.2) (fun _ _ h => h) fun _ h => h
    refine sat_bind (sat_mono (sat_and hkeep rle1Next_first) (fun _ h => h) (fun _ _ h => h) fun _ h => h.1) fun b => ?_
    cases b with
    | none => exact fun e he => absurd rfl he.2
    | some v =>
      refine sat_mono (P := Engine.Decoding e₀) ?_ (fun _ h => h.1) (fun _ _ h => h) fun _ h => h
      exact sat_bind (keeps_quiet dependsOn_decoding (writes_feedBlockCrc v) (by decide)) fun _ =>
        keeps_quiet dependsOn_decoding (writes_setResult _) (by decide)

/-- At a block boundary a block starts, or the stream ends with the arrays as they were (rule R297). -/
theorem boundaryStep_decoding {e₀ : Engine} :
    Cmd.Sat (Engine.SameArrays e₀) boundaryStep (fun _ e => Engine.SameArrays e₀ e ∨ Engine.Started e₀ e) (Engine.Decoding e₀) := by
  refine sat_bind (sat_sameArrays writes_read48 (by decide)) fun mark => sat_ite (fun _ => ?_) fun _ => sat_ite (fun _ => ?_) fun _ => ?_
  · refine sat_bind (sat_and_ok blkDecStart_decoding blkDecStart_atFirstByte) fun n e he => .inr ⟨rfl, ?_, he.2⟩
    exact ⟨he.1.selectors, he.1.arr, he.1.merged⟩
  · refine sat_bind (sat_sameArrays writes_read32 (by decide)) fun v => ?_
    refine sat_bind (Q := fun _ => Engine.SameArrays e₀) (fun e he => ⟨he.selectors, he.arr, he.merged⟩) fun _ => ?_
    refine sat_get_bind' fun e₁ _ => sat_raiseWhen_bind (fun _ h => h.decoding) fun _ => ?_
    exact sat_mono (sat_sameArrays (writes_setPhase _) (by decide)) (fun _ h => h) (fun _ _ h => .inl h) fun _ h => h
  · exact sat_raise fun _ h => h.decoding

theorem strDecLoop_decoding {e₀ : Engine} (n : Nat) :
    Cmd.Sat (Engine.SameArrays e₀) (strDecLoop n) (fun _ => Engine.Decoding e₀) (Engine.Decoding e₀) := by
  have hend : ∀ {c : Cmd Unit}, Cmd.Sat (Engine.SameArrays e₀) c (fun _ => Engine.SameArrays e₀) (Engine.Decoding e₀) →
      Cmd.Sat (Engine.SameArrays e₀) c (fun _ => Engine.Decoding e₀) (Engine.Decoding e₀) :=
    fun h => sat_mono h (fun _ h => h) (fun _ _ h => h.decoding) fun _ h => h
  induction n with
  | zero => exact sat_fail _
  | succ n ih =>
    refine sat_get_bind' fun e₁ _ => ?_
    cases e₁.frame.phase with
    | decUninit => exact sat_bind (sat_sameArrays writes_readHeader (by decide)) fun _ => ih
    | decBlockBoundary =>
      refine sat_bind boundaryStep_decoding fun _ e he => ?_
      rcases he with he | he
      · exact ih e he
      · exact strDecLoop_started n e he
    | decBlockActive =>
      refine sat_bind (sat_sameArrays writes_rle1Next (by decide)) fun b => ?_
      cases b with
      | none => exact sat_bind (sat_sameArrays writes_endBlock (by decide)) fun _ => ih
      | some v => exact hend (sat_bind (sat_sameArrays (writes_feedBlockCrc v) (by decide)) fun _ =>
            sat_sameArrays (writes_setResult _) (by decide))
    | _ => exact hend (sat_sameArrays writes_endWithNodata (by decide))

end Sys2Proof.Machine
end

section
/-! SUPPORT. The frame of the five arrays, element by element, for every command that writes one of them (rules R161, R177, R178, R194,
R198, R224, R233, R264, R270). -/

namespace Sys2Proof.Machine

variable {s t : State}

/-- What appends to the block appends at most one run (rules R161, R162, R262). -/
theorem appendCommands_blk {i : Instr} (hi : i ∈ [Instr.rle1Put, .rle1Flush, .blkEncWrite]) (h : exec i s = .next t) :
    Engine.BlkWithin 5 s.begun t.toEngine := by
  refine exec_keeps dependsOn_blkWithin (by decide) ?_ ?_ (Store.agreesOutside_refl _ _ _) ?_ h
  · rintro rfl
    simp at hi
  · rintro rfl
    simp at hi
  have hput : ∀ b, Cmd.Sat (fun e => e = s.begun) (rle1Put b) (fun _ => Engine.BlkWithin 5 s.begun) (Engine.BlkWithin 5 s.begun) :=
    fun b => sat_mono (rle1Put_grows b) (fun _ h => h) (fun _ _ h => h.within le_rfl) fun _ h => h
  have hresult : ∀ n, Cmd.Keeps (Engine.BlkWithin 5 s.begun) (Engine.BlkWithin 5 s.begun) (setResult n) :=
    fun n => keeps_quiet dependsOn_blkWithin (writes_setResult n) (by decide)
  simp only [List.mem_cons, List.not_mem_nil, or_false] at hi
  rcases hi with rfl | rfl | rfl
  · refine sat_bind keeps_argByte fun b => sat_bind (hput b) fun ok => sat_bind (hresult _) fun _ => ?_
    exact sat_ite (fun _ => sat_pure fun _ h => h) fun _ => keeps_quiet dependsOn_blkWithin writes_setFull (by decide)
  · refine sat_bind (sat_mono flushRun_grows (fun _ h => h) (fun _ _ h => h.within le_rfl) fun _ h => h) fun _ => ?_
    exact sat_get_bind' fun _ _ => hresult _
  · refine sat_bind keeps_argByte fun b => sat_bind (hput b) fun ok => ?_
    exact sat_bind (keeps_quiet dependsOn_blkWithin (writes_feedOrRefuse ok b) (by decide)) fun _ => hresult _

/-- BWT_FORWARD writes the wrap byte, and BWT_ARR below BLK_LEN (rule R177). -/
theorem bwtForward_arrays (h : exec .bwtForward s = .next t) :
    Engine.BlkWithin 1 s.begun t.toEngine ∧ Store.AgreesOutside 0 s.block.len.toNat t.bwt.arr s.bwt.arr := by
  have harr : DependsOn [.bwtArr] fun e => Store.AgreesOutside 0 s.block.len.toNat e.bwt.arr s.bwt.arr := by
    intro e e' h he
    have h1 : e.bwt.arr = e'.bwt.arr := h .bwtArr (by decide)
    rwa [h1] at he
  have hI := (dependsOn_blkWithin (n := 1) (e₀ := s.begun)).and harr
  refine exec_keeps hI (by decide) (by decide) (by decide) ⟨Store.agreesOutside_refl _ _ _, Store.agreesOutside_refl _ _ _⟩ ?_ h
  refine sat_bind (Q := fun _ e => Engine.BlkWithin 1 s.begun e ∧ Store.AgreesOutside 0 s.block.len.toNat e.bwt.arr s.bwt.arr) ?_
    fun p => keeps_quiet hI (writes_setResult _) (by decide)
  exact sat_mono bwtForward_writes (fun _ h => h) (fun _ _ ⟨_, harr, hblk⟩ => ⟨hblk, harr⟩) fun _ h => h

/-- BWT_INV_SETUP writes MERGED below BWT_LEN (rule R178). -/
theorem bwtInvSetup_arrays (h : exec .bwtInvSetup s = .next t) : t.toEngine.MergedBelow s.bwt.merged := by
  refine exec_keeps dependsOn_mergedBelow (by decide) (by decide) (by decide) (mergedBelow_of_eq rfl) ?_ h
  refine sat_mono (P := fun e => e.bwt.merged = s.bwt.merged) ?_ (by rintro _ rfl; rfl) (fun _ _ h => h) fun _ h => h
  exact sat_bind bwtInvSetup_below fun n => keeps_quiet dependsOn_mergedBelow (writes_setResult _) (by decide)

/-- The MTF encoder appends to MTF_STREAM (rules R194 to R197). -/
theorem mtfEncode_arrays {i : Instr} (hi : i ∈ [Instr.mtfEncByte, .mtfEncEnd]) (h : exec i s = .next t) :
    t.toEngine.StreamFrom s.mtf.stream s.mtf.len.toNat := by
  refine exec_keeps dependsOn_streamFrom (by decide) ?_ ?_ ⟨le_rfl, Store.agreesOutside_refl _ _ _⟩ ?_ h
  · rintro rfl
    simp at hi
  · rintro rfl
    simp at hi
  refine sat_mono (P := Engine.StreamFrom s.mtf.stream s.mtf.len.toNat) ?_ ?_ (fun _ _ h => h) fun _ h => h
  · have hresult : ∀ n, Cmd.Keeps (Engine.StreamFrom s.mtf.stream s.mtf.len.toNat) (Engine.StreamFrom s.mtf.stream s.mtf.len.toNat)
        (setResult n) := fun n => keeps_quiet dependsOn_streamFrom (writes_setResult n) (by decide)
    simp only [List.mem_cons, List.not_mem_nil, or_false] at hi
    rcases hi with rfl | rfl
    · refine sat_bind keeps_argByte fun v => sat_bind (encodeRank_keeps_streamFrom v) fun _ => ?_
      exact sat_get_bind' fun _ _ => hresult _
    · exact sat_bind mtfEncEnd_keeps_streamFrom fun _ => sat_get_bind' fun _ _ => hresult _
  · rintro _ rfl
    exact ⟨le_rfl, Store.agreesOutside_refl _ _ _⟩

/-- MTF_DEC_SYM appends to BWT_ARR (rule R198). -/
theorem mtfDecSym_arrays (h : exec .mtfDecSym s = .next t) : t.toEngine.ArrFrom s.bwt.arr s.bwt.len.toNat := by
  refine exec_keeps dependsOn_arrFrom (by decide) (by decide) (by decide) ⟨le_rfl, Store.agreesOutside_refl _ _ _⟩ ?_ h
  refine sat_mono (P := Engine.ArrFrom s.bwt.arr s.bwt.len.toNat) ?_ ?_ (fun _ _ h => h) fun _ h => h
  · refine sat_bind (keeps_quiet dependsOn_arrFrom (writes_argLow 9) (by simp)) fun sym => ?_
    exact sat_bind (mtfDecSym_keeps_arrFrom sym) fun eob => keeps_quiet dependsOn_arrFrom (writes_setResult _) (by decide)
  · rintro e rfl
    exact ⟨le_rfl, Store.agreesOutside_refl _ _ _⟩

/-- The selection passes write SELECTORS below N_SELECTORS (rules R224 to R226). -/
theorem select_arrays {i : Instr} (hi : i ∈ [Instr.hufSelectPass, .hufOptimize]) (h : exec i s = .next t) :
    t.toEngine.SelectorsBelow s.huf.selectors := by
  refine exec_keeps dependsOn_selectorsBelow (by decide) ?_ ?_ (selectorsBelow_of_eq rfl) ?_ h
  · rintro rfl
    simp at hi
  · rintro rfl
    simp at hi
  refine sat_mono (P := Engine.SelectorsBelow s.huf.selectors) ?_ ?_ (fun _ _ h => h) fun _ h => h
  · have hresult : ∀ n, Cmd.Keeps (Engine.SelectorsBelow s.huf.selectors) (Engine.SelectorsBelow s.huf.selectors) (setResult n) :=
      fun n => keeps_quiet dependsOn_selectorsBelow (writes_setResult n) (by decide)
    simp only [List.mem_cons, List.not_mem_nil, or_false] at hi
    rcases hi with rfl | rfl
    · exact sat_bind selectPass_keeps_selectorsBelow hresult
    · exact sat_bind seedAndSelect_keeps_selectorsBelow hresult
  · rintro _ rfl
    exact selectorsBelow_of_eq rfl

/-- The selection passes leave N_SELECTORS alone (rules R224 to R226). -/
theorem select_nSelectors {i : Instr} (hi : i ∈ [Instr.hufSelectPass, .hufOptimize]) (h : exec i s = .next t) :
    s.huf.nSelectors = t.huf.nSelectors := by
  refine (exec_framed i s t h).1 .nSelectors ?_
  simp only [List.mem_cons, List.not_mem_nil, or_false] at hi
  rcases hi with rfl | rfl <;> decide

/-- The commands that close a block (rules R264, R292, R293). -/
theorem closing_arrays {i : Instr} (hi : i ∈ [Instr.blkEncClose, .strEncWrite, .strEncFinish]) (h : exec i s = .next t) :
    Engine.Closing s.begun t.toEngine := by
  have hrefl : Engine.Closing s.begun s.toEngine :=
    ⟨Store.agreesOutside_refl _ _ _, arrFrom_of_eq rfl, streamFrom_of_eq rfl, selectorsBelow_of_eq rfl⟩
  simp only [List.mem_cons, List.not_mem_nil, or_false] at hi
  rcases hi with rfl | rfl | rfl
  · exact exec_keeps dependsOn_closing (by decide) (by decide) (by decide) hrefl cmdBlkEncClose_closing h
  · exact exec_keeps dependsOn_closing (by decide) (by decide) (by decide) hrefl cmdStrEncWrite_closing h
  · exact exec_keeps dependsOn_closing (by decide) (by decide) (by decide) hrefl cmdStrEncFinish_closing h

/-- HUF_READ_TABLES writes SELECTORS below the N_SELECTORS it leaves (rule R233). -/
theorem hufReadTables_arrays (h : exec .hufReadTables s = .next t) : t.toEngine.SelectorsBelow s.huf.selectors := by
  refine exec_keeps dependsOn_selectorsBelow (by decide) (by decide) (by decide) (selectorsBelow_of_eq rfl) ?_ h
  refine sat_mono (P := fun e => e.huf.selectors = s.huf.selectors) ?_ (by rintro _ rfl; rfl) (fun _ _ h => h) fun _ h => h
  exact sat_bind readTables_below fun _ => sat_get_bind' fun _ _ =>
    keeps_quiet dependsOn_selectorsBelow (writes_setResult _) (by decide)

/-- The commands that start a block (rules R270, R295). -/
theorem decoding_arrays {i : Instr} (hi : (∃ k, i = Instr.blkDecStart k) ∨ i = .strDecRead) (h : exec i s = .next t) :
    Engine.Decoding s.toEngine t.toEngine := by
  have hsame : Engine.SameArrays s.toEngine s.begun := ⟨rfl, rfl, rfl⟩
  have hrefl : Engine.SameArrays s.toEngine s.toEngine := ⟨rfl, rfl, rfl⟩
  rcases hi with ⟨k, rfl⟩ | rfl
  · refine exec_keeps dependsOn_decoding (by decide) (by simp) (by simp) hrefl.decoding ?_ h
    exact sat_mono (cmdBlkDecStart_decoding k) (fun e he => he ▸ hsame) (fun _ _ h => h) fun _ h => h
  · refine exec_keeps dependsOn_decoding (by decide) (by decide) (by decide) hrefl.decoding ?_ h
    exact sat_mono (strDecLoop_decoding 4) (fun e he => he ▸ hsame) (fun _ _ h => h) fun _ h => h

/-- Settles O60: one condition for each array, which the pieces that write it keep and which holds wherever a command stops
(`exec_keeps`). -/
theorem arrayFrames : Obligations.ArrayFrames := by
  refine fun s t => ⟨fun i hi h => appendCommands_blk hi h, fun h => ?_, fun h k hk => ?_, fun i hi h => (mtfEncode_arrays hi h).2,
    fun h => (mtfDecSym_arrays h).2, fun i hi h g hg => ?_, fun i hi h => ?_,
    fun h g hg => hufReadTables_arrays h g (.inr hg), fun i hi h => ?_⟩
  · obtain ⟨hblk, harr⟩ := bwtForward_arrays h
    exact ⟨fun k hk => hblk k (show k < s.block.len.toNat ∨ s.block.len.toNat + 1 ≤ k by omega), fun k hk => harr k (.inr hk)⟩
  · have hlen : s.bwt.len = t.bwt.len := (exec_framed _ s t h).1 .bwtLen (by decide)
    exact bwtInvSetup_arrays h k (.inr (hlen ▸ hk))
  · exact select_arrays hi h g (.inr (select_nSelectors hi h ▸ hg))
  · obtain ⟨hblk, harr, hstream, hsel⟩ := closing_arrays hi h
    exact ⟨hblk, fun k hk => harr.2 k (.inr hk), fun k hk => hstream.2 k (.inr hk), fun g hg => hsel g (.inr hg)⟩
  · obtain ⟨hsel, harr, hmerged⟩ := decoding_arrays hi h
    exact ⟨fun g hg => hsel g (.inr hg), fun k hk => ⟨harr.2 k (.inr hk), hmerged k (.inr hk)⟩⟩

end Sys2Proof.Machine
end

section
/-! SUPPORT. The commands of the Burrows-Wheeler transform (spec/42_bwt.md, rules R175 to R184): what BWT_FORWARD leaves in BWT_ARR,
BLK and START_PTR, and the walk that BWT_INV_SETUP starts over it. -/

namespace Sys2Proof.Machine

variable {e : Engine}

/-! ### What BWT_FORWARD leaves (rule R177) -/

/-- BWT_ARR holds the last bytes of the sorted rotations (rule R175). -/
theorem forwarded_arr_read {k : Nat} (hk : k < e.block.len.toNat) :
    e.forwarded.bwt.arr.read k = (bwtLast e.blockBytes)[k]? := by
  have hlast : k < (bwtLast e.blockBytes).length := by rwa [bwtLast_length, blockBytes_length]
  exact (Store.read_writeList _ 0 _ k).trans (if_pos ⟨Nat.zero_le k, by rwa [Nat.zero_add]⟩)

/-- Every byte of BWT_ARR below BWT_LEN has been written. -/
theorem forwarded_bwtFilled : e.forwarded.BwtFilled := by
  intro i (hi : i < e.block.len.toNat)
  have hlast : i < (bwtLast e.blockBytes).length := by rwa [bwtLast_length, blockBytes_length]
  exact ⟨_, (forwarded_arr_read hi).trans (List.getElem?_eq_getElem hlast)⟩

/-- As a list, BWT_ARR below BWT_LEN is the last bytes of the sorted rotations. -/
theorem forwarded_bwtBytes : e.forwarded.bwtBytes = bwtLast e.blockBytes := by
  have hlen : e.forwarded.bwtBytes.length = (bwtLast e.blockBytes).length := by
    rw [bwtBytes_length, bwtLast_length, blockBytes_length]
    rfl
  refine List.ext_getElem hlen fun i hi hi' => ?_
  have hlt : i < e.block.len.toNat := by rwa [bwtLast_length, blockBytes_length] at hi'
  simp [Engine.bwtBytes, forwarded_arr_read hlt, hi']

theorem blockBytes_ne_nil (h : 0 < e.block.len.toNat) : e.blockBytes ≠ [] :=
  List.ne_nil_of_length_pos (by rwa [blockBytes_length])

/-- START_PTR is wide enough for the place of the block itself (rule R176). -/
theorem forwarded_startPtr (h : 0 < e.block.len.toNat) : e.forwarded.bwt.startPtr.toNat = bwtStart e.blockBytes := by
  have hlt := (bwtStart_get (blockBytes_ne_nil h)).2
  have hlen := e.block.len.isLt
  rw [blockBytes_length] at hlt
  exact (BitVec.toNat_ofNat _ _).trans (Nat.mod_eq_of_lt (by omega))

/-- A filled block of at least one byte gets its first byte again as the wrap byte, and keeps the rest (rule R177). -/
theorem forwarded_blk_read (hf : e.BlockFilled) (h : 0 < e.block.len.toNat) (i : Nat) :
    e.forwarded.block.blk.read i = if i = e.block.len.toNat then e.block.blk.read 0 else e.block.blk.read i := by
  obtain ⟨v, hv⟩ := hf 0 h
  obtain ⟨b₀, bs, hb⟩ := List.exists_cons_of_ne_nil (blockBytes_ne_nil h)
  obtain rfl : b₀ = v := by simpa [hb] using blockBytes_get h hv
  have hblk : e.forwarded.block.blk = e.block.blk.write e.block.len.toNat b₀ := by simp [Engine.forwarded, hb]
  rw [hblk, Store.read_write, hv]

/-- An empty block leaves BWT_ARR and BLK alone (rules R176, R177). -/
theorem forwarded_of_empty (h : e.block.len.toNat = 0) : e.forwarded = { e with bwt.len := 0, bwt.startPtr := 0 } := by
  have hlen : e.block.len = 0 := BitVec.eq_of_toNat_eq h
  have hb : e.blockBytes = [] := List.eq_nil_of_length_eq_zero (by rwa [blockBytes_length])
  unfold Engine.forwarded
  rw [hb, hlen]
  rfl

/-! ### The inverse of the forward transform (rule R184) -/

/-- Settles O13: BWT_INV_SETUP orders the positions of what BWT_FORWARD left, and from the place of the block itself the walk through
them yields the block (`walks_of_merged`). -/
theorem inverseUndoesForward : Obligations.InverseUndoesForward := by
  intro e hf hpos hn
  obtain ⟨hstart, hlt⟩ := bwtStart_get (blockBytes_ne_nil hpos)
  have hlen : e.blockBytes.length = e.block.len.toNat := blockBytes_length
  have hptr := forwarded_startPtr hpos
  have hinside : e.forwarded.bwt.startPtr.toNat < e.forwarded.bwt.len.toNat := by
    rw [hptr]
    exact hlt.trans_eq hlen
  obtain ⟨m, c, hrun, hm, -, -⟩ := bwtInvSetup_run forwarded_bwtFilled hn hinside
  rw [forwarded_bwtBytes, hptr] at hrun
  rw [forwarded_bwtBytes] at hm
  refine ⟨_, _, _, _, bwtForward_run hf hn, hrun, rfl, ?_⟩
  have hrot : e.blockBytes.rotate ((bwtOrder e.blockBytes).getD (bwtStart e.blockBytes) 0) = e.blockBytes.rotate 0 := by
    rw [List.getD_eq_getElem?_getD, hstart]
    rfl
  have hhops : e.block.len = BitVec.ofNat 20 e.block.len.toNat := by rw [BitVec.ofNat_toNat, BitVec.setWidth_eq]
  exact walks_of_merged (hlen.trans_le hn) (fun k hk => hm k (hk.trans_eq hlen)) _ _ 0 _ hlen.symm hlt hrot rfl rfl hhops

/-! ### The transforms as commands (rules R177, R179) -/

/-- Settles O10: the order is `bwtOrder`, which BWT_FORWARD leaves the last bytes and the start of (`bwtForward_run`). -/
theorem forwardSortsRotations : Obligations.ForwardSortsRotations := by
  intro s hl hf hn
  have hrun := bwtForward_run (e := s.begun) hf hn
  have hdone : Completes .bwtForward s (s.begun.forwarded.withResult (bwtStart s.blockBytes)) :=
    completes_of rfl hl (noChecks_run _) (bind_ok hrun)
  refine ⟨fun h0 => ?_, fun hpos => ?_⟩
  · have hb : s.blockBytes = [] := List.eq_nil_of_length_eq_zero (by rwa [blockBytes_length])
    rwa [forwarded_of_empty (e := s.begun) h0, hb] at hdone
  · have hptr : s.begun.forwarded.bwt.startPtr.toNat = bwtStart s.blockBytes := forwarded_startPtr (e := s.begun) hpos
    have hblk := forwarded_blk_read (e := s.begun) hf hpos
    refine ⟨_, bwtOrder s.blockBytes, hdone, ?_, bwtOrder_sorted _, fun k hk => ?_, rfl, ?_, ?_, ?_, fun i hi => ?_⟩
    · exact blockBytes_length ▸ bwtOrder_perm s.blockBytes
    · have hord : k < (bwtOrder s.blockBytes).length := by rwa [bwtOrder_length, blockBytes_length]
      refine (forwarded_arr_read (e := s.begun) hk).trans ?_
      show (bwtLast s.blockBytes)[k]? = _
      simp [bwtLast, hord]
    · rw [Engine.withResult_bwt, hptr]
      exact (bwtStart_get (blockBytes_ne_nil hpos)).1
    · rw [Engine.withResult_bwt, Engine.withResult_host_result, ← hptr, BitVec.ofNat_toNat]
    · exact (hblk _).trans (if_pos rfl)
    · exact (hblk i).trans (if_neg hi)

/-- Settles O11: with a start pointer inside BWT_ARR the setup runs as `bwtInvSetup_run` says, with the order `positionOrder`; with one
outside it is refused at once. -/
theorem inverseSetupOrders : Obligations.InverseSetupOrders := by
  intro s hl hf hn
  refine ⟨fun hp => ?_, fun hp => ?_⟩
  · obtain ⟨m, c, hrun, hread, hframe, hbase⟩ := bwtInvSetup_run (e := s.begun) hf hn hp
    refine ⟨_, positionOrder s.bwtBytes, completes_of rfl hl (noChecks_run _) (bind_ok hrun), ?_, positionOrder_sorted _, hread, hframe,
      hbase, hread _ hp, rfl, BitVec.ofNat_toNat ..⟩
    exact bwtBytes_length ▸ positionOrder_perm s.bwtBytes
  · exact raises_of rfl hl (noChecks_run _) (bind_error (bwtInvSetup_refuses (e := s.begun) hp))

/-! ### The walk -/

/-- Before the last byte BWT_INV_NEXT hops, and the low byte of the entry it stood at goes to RESULT (rules R180, R181). -/
theorem bwtInvNext_hops {x : Word} (hh : e.bwt.hopsLeft ≠ 0) (hx : e.bwt.merged.read (e.bwt.curEntry.toNat / 256) = some x) :
    cmdBwtInvNext e = .ok () (e.hopped.withResult (e.bwt.curEntry.toNat % 256)) := by
  have hhops : ¬ e.bwt.hopsLeft.toNat = 0 := fun h => hh (BitVec.eq_of_toNat_eq h)
  unfold cmdBwtInvNext
  rw [get_bind_run, if_neg hhops, bind_ok (bwtHop_run hx), setResult_run, BitVec.toNat_setWidth]
  rfl

/-- After the last byte BWT_INV_NEXT gives NODATA (rule R181). -/
theorem bwtInvNext_ends (h : e.bwt.hopsLeft = 0) : cmdBwtInvNext e = .ok () e.noData := by
  unfold cmdBwtInvNext
  rw [get_bind_run, if_pos (by rw [h]; rfl)]
  rfl

/-- ARG[23:0] becomes START_PTR (rule R183). -/
theorem bwtSetStart_sets : cmdBwtSetStart e = .ok () { e with bwt.startPtr := e.host.arg.setWidth 24 } := by
  have hlow : BitVec.ofNat 24 (e.host.arg.toNat % 2 ^ 24) = e.host.arg.setWidth 24 := by
    apply BitVec.eq_of_toNat_eq
    rw [BitVec.toNat_ofNat, BitVec.toNat_setWidth, Nat.mod_mod]
  unfold cmdBwtSetStart
  rw [argLow_bind_run, modBwt_run, hlow]

/-- Settles O12: a walk that stays inside written entries finds the next one (`bwtInvNext_hops`). -/
theorem walkCommands : Obligations.WalkCommands := by
  intro s hl
  refine ⟨fun h0 => ?_, fun hh hw => ?_, fun v hlt hv => ?_, ?_⟩
  · exact completes_of rfl hl (noChecks_run _) (bwtInvNext_ends (e := s.begun) h0)
  · have hpos : 0 < s.bwt.hopsLeft.toNat := Nat.pos_of_ne_zero fun h => hh (BitVec.eq_of_toNat_eq h)
    obtain ⟨n, hcur, hwritten⟩ := hw hpos
    obtain ⟨x, hx, -⟩ := hwritten _ hcur
    exact completes_of rfl hl (noChecks_run _) (bwtInvNext_hops (e := s.begun) hh hx)
  · have hget : bwtArrGet s.host.arg.toNat s.begun = .ok v s.begun := bwtArrGet_run hv
    exact completes_of rfl hl (requireOk_true (decide_eq_true hlt)) (bind_ok hget)
  · exact completes_of rfl hl (noChecks_run _) (bwtSetStart_sets (e := s.begun))

end Sys2Proof.Machine
end

section
/-! SUPPORT. The encoder of the move-to-front unit (spec/43_mtf_rle2.md, rules R190 to R197) and the law of runs (rule R200). -/

namespace Sys2Proof.Machine

variable {α β : Type} {e : Engine}

/-! ### Moving an element to the front (rule R193) -/

theorem listToFront_eq {l : List α} {j : Nat} (h : j < l.length) : listToFront l j = l[j] :: l.eraseIdx j := by
  simp [listToFront, h]

/-- The element at `j` comes first, and those before it stand one place later. -/
theorem listToFront_getElem? {l : List α} {j : Nat} (h : j < l.length) (i : Nat) :
    (listToFront l j)[i]? = l[if i = 0 then j else if i ≤ j then i - 1 else i]? := by
  rw [listToFront_eq h]
  cases i with
  | zero => simp [h]
  | succ i =>
    rw [List.getElem?_cons_succ, List.getElem?_eraseIdx, if_neg (Nat.succ_ne_zero i), Nat.add_sub_cancel]
    simp only [Nat.succ_le_iff, apply_ite (l[·]?)]

theorem listToFront_perm {l : List α} {j : Nat} (h : j < l.length) : (listToFront l j).Perm l :=
  listToFront_eq h ▸ List.getElem_cons_eraseIdx_perm h

/-- Moving an element to the front is a matter of the places up to its own. -/
theorem listToFront_take {l : List α} {j n : Nat} (hj : j < n) (hn : n ≤ l.length) :
    (listToFront l j).take n = listToFront (l.take n) j := by
  refine List.ext_getElem? fun i => ?_
  rw [listToFront_getElem? (by rw [List.length_take]; omega), List.getElem?_take, List.getElem?_take, listToFront_getElem? (by omega)]
  have hplace : (if i = 0 then j else if i ≤ j then i - 1 else i) < n ↔ i < n := by split_ifs <;> omega
  simp only [hplace]

theorem listToFront_map (f : α → β) (l : List α) (j : Nat) : listToFront (l.map f) j = (listToFront l j).map f := by
  unfold listToFront
  rw [List.getElem?_map]
  cases l[j]? with
  | none => rfl
  | some x => simp [List.eraseIdx_map]

theorem vecToFront_toList {n : Nat} (v : Vector α n) (j : Nat) : (vecToFront v j).toList = listToFront v.toList j := rfl

/-- `Engine.moved` is the move of the model (rule R193). -/
theorem moved_eq {j : Nat} (h : j < 256) : e.moved j = { e with mtf.list := vecToFront e.mtf.list j } := by
  have hlist : (e.moved j).mtf.list = vecToFront e.mtf.list j := by
    refine Vector.toList_inj.mp (List.ext_getElem? fun i => ?_)
    rw [vecToFront_toList, listToFront_getElem? (by simpa using h)]
    by_cases hi : i < 256
    · show (Vector.ofFn _).toList[i]? = _
      simp only [Vector.toList_ofFn, List.getElem?_ofFn, hi, dif_pos, Fin.ext_iff]
      have hplace : (if i = 0 then j else if i ≤ j then i - 1 else i) < e.mtf.list.toList.length := by
        rw [Vector.length_toList]
        split_ifs <;> omega
      rw [List.getD_eq_getElem?_getD]
      show some (e.mtf.list.toList[if i = 0 then j else if i ≤ j then i - 1 else i]?.getD 0) = _
      rw [List.getElem?_eq_getElem hplace]
      rfl
    · rw [List.getElem?_eq_none (by simpa using hi), List.getElem?_eq_none (by simp; split_ifs <;> omega)]
  rw [← hlist]
  rfl

/-- Only the list changes (rule R193). -/
theorem moved_frame (j : Nat) : ∃ l, e.moved j = { e with mtf.list := l } := ⟨_, rfl⟩

/-- `MoveToFront(j)` (rule R193). -/
theorem moveToFront_run {j : Nat} (h : j < 256) : moveToFront j e = .ok e.mtf.list[j] (e.moved j) := by
  unfold moveToFront
  rw [get_bind_run, bind_ok (tableGet_run h), modMtf_bind_run, moved_eq h]
  rfl

/-! ### The ranks in use -/

theorem Engine.MtfOk.nInUse_le (h : e.MtfOk) : e.mtf.nInUse.toNat ≤ 256 :=
  h.count.trans_le (countPresent_le _)

theorem Engine.MtfOk.ranks_nodup (h : e.MtfOk) : (e.mtf.list.toList.take e.mtf.nInUse.toNat).Nodup :=
  (h.list.nodup_iff.mpr List.nodup_range).of_map

/-- The position of a rank in use is the only one (rule R196). -/
theorem mtfPosition_of_get {n j : Nat} {l : List Byte} {r : Byte} (hl : (l.take n).Nodup) (hj : j < n) (hr : l[j]? = some r) :
    mtfPosition n l r = some j := by
  have hr' : (l.take n)[j]? = some r := by rw [List.getElem?_take, if_pos hj, hr]
  obtain ⟨hlt, hget⟩ := List.getElem?_eq_some_iff.mp hr'
  have hfind : (l.take n).findIdx? (fun x => x = r) = some j := by
    refine List.findIdx?_eq_some_iff_getElem.mpr ⟨hlt, decide_eq_true hget, fun i hi => ?_⟩
    intro hsame
    have := (hl.getElem_inj_iff (hi := by omega) (hj := hlt)).mp ((of_decide_eq_true hsame).trans hget.symm)
    omega
  rw [mtfPosition, hfind]

theorem findRank_run {j : Nat} {r : Byte} (hok : e.MtfOk) (hj : j < e.mtf.nInUse.toNat) (hr : e.mtf.list.toList[j]? = some r) :
    findRank r e = .ok j e := by
  unfold findRank
  rw [get_bind_run, mtfPosition_of_get hok.ranks_nodup hj hr]
  rfl

/-! ### Symbols (rules R196, R197) -/

/-- The engine after a byte at position `j` of the list has been encoded (rule R196): at the front it counts one more zero, and
elsewhere it ends the pending run. -/
def Engine.encoded (j : Nat) (e : Engine) : Engine :=
  if j = 0 then { e with mtf.zpend := BitVec.ofNat 20 (e.mtf.zpend.toNat + 1) }
  else { (e.emit (e.zeroSyms ++ [j + 1])).moved j with mtf.zpend := 0 }

/-- The lines of MTF_ENC_BYTE for the byte at position `j` (rule R196). -/
theorem encodeRank_run {v : Byte} {j : Nat} (hok : e.MtfOk) (hj : j < e.mtf.nInUse.toNat)
    (hv : e.mtf.list.toList[j]? = some (byteGet e.mtf.unseqToSeq v)) (hroom : e.mtf.len.toNat + e.zeroSyms.length + 1 ≤ 900001) :
    encodeRank v e = .ok () (e.encoded j) := by
  have hn := hok.nInUse_le
  unfold encodeRank Engine.encoded
  rw [get_bind_run, bind_ok (findRank_run hok hj hv)]
  split
  · rfl
  · have hlen := emit_len (e := e) (syms := e.zeroSyms) (by omega)
    rw [bind_ok (flushZeros_run (by omega)), bind_ok (moveToFront_run (j := j) (by omega)), emit_append]
    generalize e.emit e.zeroSyms = x at hlen ⊢
    rw [moved_eq (by omega), moved_eq (by omega)]
    refine (emitSym_run (s := j + 1) ?_ (by omega)).trans rfl
    show x.mtf.len.toNat < 900001
    omega

/-- The engine after the pending run has been ended and END_OF_BLOCK emitted (rule R197). -/
def Engine.encodedEnd (e : Engine) : Engine := { e.emit (e.zeroSyms ++ [e.mtf.nInUse.toNat + 1]) with mtf.zpend := 0 }

/-- Emitting symbols changes the stream, its length and its counts (rule R194). -/
theorem emit_frame (syms : List Nat) : ∃ m l f, e.emit syms = { e with mtf.stream := m, mtf.len := l, mtf.freq := f } := by
  induction syms generalizing e with
  | nil => exact ⟨_, _, _, rfl⟩
  | cons s syms ih =>
    obtain ⟨m, l, f, h⟩ := ih (e := e.emitOne s)
    exact ⟨m, l, f, h⟩

/-- MTF_ENC_END, less RESULT (rule R197). -/
theorem mtfEncEnd_run (hn : e.mtf.nInUse.toNat ≤ 256) (hroom : e.mtf.len.toNat + e.zeroSyms.length + 1 ≤ 900001) :
    mtfEncEnd e = .ok () e.encodedEnd := by
  have hlen := emit_len (e := e) (syms := e.zeroSyms) (by omega)
  obtain ⟨m, l, f, h⟩ := emit_frame (e := e) e.zeroSyms
  unfold mtfEncEnd Engine.encodedEnd
  rw [bind_ok (flushZeros_run (by omega)), get_bind_run, emit_append]
  rw [h] at hlen ⊢
  refine (emitSym_run (s := e.mtf.nInUse.toNat + 1) ?_ (by omega)).trans rfl
  show l.toNat < 900001
  change l.toNat = _ at hlen
  omega

theorem emit_pending_len {s : Nat} (hroom : e.mtf.len.toNat + e.zeroSyms.length + 1 ≤ 900001) :
    (e.emit (e.zeroSyms ++ [s])).mtf.len.toNat = e.mtf.len.toNat + e.zeroSyms.length + 1 := by
  have hlen : (e.zeroSyms ++ [s]).length = e.zeroSyms.length + 1 := List.length_append
  rw [emit_len (by omega), hlen, Nat.add_assoc]

theorem encoded_len {j : Nat} (hj : 0 < j) (hroom : e.mtf.len.toNat + e.zeroSyms.length + 1 ≤ 900001) :
    (e.encoded j).mtf.len.toNat = e.mtf.len.toNat + e.zeroSyms.length + 1 := by
  obtain ⟨l, hl⟩ := moved_frame (e := e.emit (e.zeroSyms ++ [j + 1])) j
  rw [Engine.encoded, if_neg hj.ne', hl]
  exact emit_pending_len hroom

theorem encodedEnd_len (hroom : e.mtf.len.toNat + e.zeroSyms.length + 1 ≤ 900001) :
    e.encodedEnd.mtf.len.toNat = e.mtf.len.toNat + e.zeroSyms.length + 1 := emit_pending_len hroom

/-- Settles O14: MTF_INIT leaves `Engine.mtfStarted`, whose tables the laws of the dense map describe. -/
theorem mtfInitMapsValues : Obligations.MtfInitMapsValues := by
  intro s d hl
  have hn := mtfStarted_nInUse (e := s.begun) (decide (d = 1))
  have hlist := mtfStarted_list (e := s.begun) (decide (d = 1))
  have hvalues := mtfStarted_seqToUnseq (e := s.begun) (decide (d = 1))
  have habsent := fun v => mtfStarted_absent (e := s.begun) (decoding := decide (d = 1)) (v := v)
  have hok := mtfStarted_ok (e := s.begun) (decide (d = 1))
  refine ⟨(s.begun.mtfStarted (decide (d = 1))).withResult (s.begun.mtfStarted (decide (d = 1))).mtf.nInUse.toNat,
    completes_of rfl hl (noChecks_run _) (bind_ok (mtfInit_run _)), ⟨hok.count, hok.list, hok.rank, hok.value⟩, fun j hj => ?_,
    fun j hj => ?_, habsent, rfl, rfl, fun c hc => ?_, rfl, rfl, BitVec.ofNat_toNat .., ?_, ?_⟩
  · exact (hlist j).trans (if_pos (hn ▸ hj))
  · have hout : ¬ j < countPresent s.begun.block.presence := hn ▸ Nat.not_lt.mpr hj
    exact ⟨(hlist j).trans (if_neg hout), (hvalues j).trans (if_neg hout)⟩
  · exact List.eq_of_mem_replicate (Vector.toList_replicate ▸ hc)
  · exact ite_congr (decide_eq_true_eq ..) (fun _ => rfl) fun _ => rfl
  · exact ite_congr (decide_eq_true_eq ..) (fun _ => rfl) fun _ => rfl

/-! ### Runs (rule R200) -/

/-- The decoder with a pending run of `a`, the next digit of which has the weight `w` (rule R198). -/
def Engine.withRun (a w : BitVec 20) (e : Engine) : Engine := { e with mtf.runAcc := a, mtf.runW := w }

/-- The digits of a run, taken in by a decoder with none pending, add up to the run. -/
theorem runSyms_apply {z : Nat} (hz : 1 ≤ z) (hk : e.KOk) (hacc : e.mtf.runAcc = 0) (hw : e.mtf.runW = 1)
    (hroom : e.bwt.len.toNat + z ≤ e.block.k.toNat * 100000) :
    ∃ w, forEach (runSyms z) mtfRunDigit e = .ok () (e.withRun (BitVec.ofNat 20 z) w) := by
  have hk9 := hk.2
  have hweight : 2 ^ (runSyms z).length ≤ z + 1 := runSyms_length z ▸ Nat.log2_self_le (Nat.succ_ne_zero z)
  have hsum : e.mtf.runAcc.toNat + e.mtf.runW.toNat * digitsValue (runSyms z) = z := by
    rw [hacc, hw, runSyms_value hz]
    exact (Nat.zero_add _).trans (Nat.one_mul z)
  have hrun := runDigits_apply (ds := runSyms z) hk (by rw [hw]; decide) (by rwa [hsum]) (by rw [hw]; show 1 * _ < _; omega)
  exact ⟨_, hsum ▸ hrun⟩

/-- Settles O15: the digits have the value of the run (`runSyms_value`), no others do (`runSyms_unique`), and the decoder adds them up
(`runSyms_apply`). -/
theorem runLaw : Obligations.RunLaw := by
  intro z hz
  refine ⟨by rw [emitRun, runDigits_eq hz le_rfl], fun ds hd hv => runSyms_unique hd hz ((digitsValue_sum ds).symm.trans hv),
    (digitsValue_sum _).trans (runSyms_value hz), fun e hk hacc hw hroom => ?_⟩
  obtain ⟨w, hrun⟩ := runSyms_apply hz hk hacc hw hroom
  have hk9 := hk.2
  exact ⟨_, hrun, (BitVec.toNat_ofNat ..).trans (Nat.mod_eq_of_lt (by omega))⟩

/-- Settles O16: MTF_ENC_BYTE encodes the byte at its position (`encodeRank_run`), and MTF_ENC_END ends the run (`mtfEncEnd_run`). -/
theorem encodeSymbolCommands : Obligations.EncodeSymbolCommands := by
  intro s hl hok hlen
  have hzs := zeroSyms_length_le (e := s.toEngine)
  have hbegun : s.begun.MtfOk := ⟨hok.count, hok.list, hok.rank, hok.value⟩
  have hroom : s.begun.mtf.len.toNat + s.begun.zeroSyms.length + 1 ≤ 900001 := by
    show s.mtf.len.toNat + s.zeroSyms.length + 1 ≤ 900001
    omega
  refine ⟨fun j hj hp hv => ?_, ?_⟩
  · have hcmd : Completes .mtfEncByte s ((s.begun.encoded j).withResult (s.begun.encoded j).mtf.len.toNat) :=
      completes_of rfl hl (requireOk_true hp) (bind_ok (encodeRank_run (e := s.begun) hbegun hj hv hroom))
    refine ⟨fun h0 => ?_, fun hpos => ?_⟩
    · subst h0
      exact hcmd
    · rw [encoded_len hpos hroom, Engine.encoded, if_neg hpos.ne'] at hcmd
      exact hcmd
  · have hcmd : Completes .mtfEncEnd s (s.begun.encodedEnd.withResult s.begun.encodedEnd.mtf.len.toNat) :=
      completes_of rfl hl (noChecks_run _) (bind_ok (mtfEncEnd_run (e := s.begun) hbegun.nInUse_le hroom))
    rw [encodedEnd_len hroom] at hcmd
    exact hcmd

end Sys2Proof.Machine
end

section
/-! SUPPORT. The decoder of the move-to-front unit (spec/43_mtf_rle2.md, rules R198, R199): one equation for each case of
`MtfDecSym(s)`. -/

namespace Sys2Proof.Machine

variable {e : Engine}

/-! ### Appending to BWT_ARR -/

/-- `BWT_ARR[BWT_LEN] <- v; BWT_LEN <- BWT_LEN + 1` (rule R198). -/
theorem bwtAppend_run {v : Byte} (h : e.bwt.len.toNat < 900000) : bwtAppend v e = .ok () (e.bwtStored v) := by
  unfold bwtAppend
  rw [get_bind_run, bind_ok (bwtArrSet_run h)]
  rfl

theorem bwtStored_len {v : Byte} (h : e.bwt.len.toNat < 900000) : (e.bwtStored v).bwt.len.toNat = e.bwt.len.toNat + 1 :=
  (BitVec.toNat_ofNat ..).trans (Nat.mod_eq_of_lt (by omega))

@[simp] theorem pushBwt_cons (v : Byte) (vs : List Byte) : e.pushBwt (v :: vs) = (e.bwtStored v).pushBwt vs := rfl

theorem pushBwt_len {vs : List Byte} (h : e.bwt.len.toNat + vs.length ≤ 900000) :
    (e.pushBwt vs).bwt.len.toNat = e.bwt.len.toNat + vs.length := by
  induction vs generalizing e with
  | nil => rfl
  | cons v vs ih =>
    rw [List.length_cons] at h ⊢
    have hlen := bwtStored_len (e := e) (v := v) (by omega)
    rw [pushBwt_cons, ih (by omega)]
    omega

/-- Only BWT_ARR and its length change. -/
theorem pushBwt_frame (vs : List Byte) : ∃ m l, e.pushBwt vs = { e with bwt.arr := m, bwt.len := l } := by
  induction vs generalizing e with
  | nil => exact ⟨_, _, rfl⟩
  | cons v vs ih =>
    obtain ⟨m, l, h⟩ := ih (e := e.bwtStored v)
    exact ⟨m, l, h⟩

/-- Appending one byte `n` times. -/
theorem repeat_bwtAppend_run {v : Byte} {n : Nat} (h : e.bwt.len.toNat + n ≤ 900000) :
    repeatCmd n (bwtAppend v) e = .ok () (e.pushBwt (List.replicate n v)) := by
  induction n generalizing e with
  | zero => rfl
  | succ n ih =>
    have hlen := bwtStored_len (e := e) (v := v) (by omega)
    rw [repeatCmd_succ, bind_ok (bwtAppend_run (by omega)), ih (by omega), List.replicate_succ, pushBwt_cons]

/-! ### The pending run -/

/-- Only the run, BWT_ARR and its length change when the run is flushed (rule R198). -/
theorem runApplied_frame : ∃ a w m l, e.runApplied = { e with mtf.runAcc := a, mtf.runW := w, bwt.arr := m, bwt.len := l } := by
  unfold Engine.runApplied
  split
  · exact ⟨_, _, _, _, rfl⟩
  · obtain ⟨m, l, h⟩ := pushBwt_frame (e := e) (List.replicate e.mtf.runAcc.toNat e.frontByte)
    exact ⟨0, 1, m, l, by rw [h]⟩

theorem runApplied_len (h : e.bwt.len.toNat + e.mtf.runAcc.toNat ≤ 900000) :
    e.runApplied.bwt.len.toNat = e.bwt.len.toNat + e.mtf.runAcc.toNat := by
  unfold Engine.runApplied
  split
  · next h0 => rw [h0]; rfl
  · exact (pushBwt_len (by rwa [List.length_replicate])).trans (by rw [List.length_replicate])

/-- "Flush the pending run" (rule R198). -/
theorem mtfFlushRun_run (h : e.bwt.len.toNat + e.mtf.runAcc.toNat ≤ 900000) : mtfFlushRun e = .ok () e.runApplied := by
  unfold mtfFlushRun Engine.runApplied
  rw [get_bind_run]
  by_cases h0 : e.mtf.runAcc = 0
  · rw [if_neg (by rw [h0]; decide), if_pos h0]
    rfl
  · have hpos : 0 < e.mtf.runAcc.toNat := Nat.pos_of_ne_zero fun hz => h0 (BitVec.eq_of_toNat_eq hz)
    rw [if_pos hpos, if_neg h0, bind_ok (tableGet_run (by decide)), bind_ok (repeat_bwtAppend_run h)]
    rfl

/-! ### `MtfDecSym(s)` (rule R198) -/

variable {s : Nat}

/-- What follows the flush of the run, for a symbol that is no run digit. -/
theorem mtfDecSym_flush (hs : 2 ≤ s) (h : e.bwt.len.toNat + e.mtf.runAcc.toNat ≤ 900000) :
    mtfDecSym s e =
      (if s = e.mtf.nInUse.toNat + 1 then do modHuf (fun h => { h with decEob := true }); pure true
        else do mtfLiteral s; pure false : Cmd Bool) e.runApplied := by
  obtain ⟨a, w, m, l, hframe⟩ := runApplied_frame (e := e)
  have heob : eobOf e.runApplied.mtf = e.mtf.nInUse.toNat + 1 := by rw [hframe]; rfl
  unfold mtfDecSym
  rw [if_neg (by omega), bind_ok (mtfFlushRun_run h), get_bind_run, heob]

/-- END_OF_BLOCK. -/
theorem mtfDecSym_eob (hs : 2 ≤ s) (heob : s = e.mtf.nInUse.toNat + 1) (h : e.bwt.len.toNat + e.mtf.runAcc.toNat ≤ 900000) :
    mtfDecSym s e = .ok true { e.runApplied with huf.decEob := true } := by
  rw [mtfDecSym_flush hs h, if_pos heob]
  rfl

/-- The engine after a byte symbol: the run is flushed, and the byte at position `s - 1` of the list is appended and moved to the
front. -/
def Engine.literal (s : Nat) (e : Engine) : Engine :=
  (e.runApplied.moved (s - 1)).pushBwt [(e.runApplied.moved (s - 1)).frontByte]

/-- The element moved to the front is at the front. -/
theorem moved_frontByte {j : Nat} (h : j < 256) : (e.moved j).frontByte = byteGet e.mtf.seqToUnseq e.mtf.list[j] := by
  have hfront : some (byteGet (vecToFront e.mtf.list j) 0) = some e.mtf.list[j] := by
    rw [← byteGet_eq, vecToFront_toList, listToFront_eq (by rwa [Vector.length_toList])]
    rfl
  rw [moved_eq h, Engine.frontByte, Option.some.inj hfront]

/-- A byte that finds BWT_ARR filled to the block size. -/
theorem mtfDecSym_full (hs : 2 ≤ s) (hn : s ≤ e.mtf.nInUse.toNat) (h : e.bwt.len.toNat + e.mtf.runAcc.toNat ≤ 900000)
    (hfull : e.block.k.toNat * 100000 ≤ e.bwt.len.toNat + e.mtf.runAcc.toNat) :
    mtfDecSym s e = .error (.raised .blockSizeExceeded) e.runApplied := by
  obtain ⟨a, w, m, l, hframe⟩ := runApplied_frame (e := e)
  have hlen := runApplied_len h
  have hk : e.runApplied.block.k = e.block.k := by rw [hframe]
  rw [mtfDecSym_flush hs h, if_neg (by omega)]
  refine bind_error ?_
  unfold mtfLiteral
  rw [get_bind_run, if_pos (by rw [capacity, hk]; omega)]
  rfl

/-- A byte with room. -/
theorem mtfDecSym_literal (hs : 2 ≤ s) (hn : s ≤ e.mtf.nInUse.toNat) (h256 : e.mtf.nInUse.toNat ≤ 256) (hk9 : e.KOk)
    (hroom : e.bwt.len.toNat + e.mtf.runAcc.toNat < e.block.k.toNat * 100000) :
    mtfDecSym s e = .ok false (e.literal s) := by
  have hk2 := hk9.2
  obtain ⟨a, w, m, l, hframe⟩ := runApplied_frame (e := e)
  have hlen := runApplied_len (e := e) (by omega)
  have hk : e.runApplied.block.k = e.block.k := by rw [hframe]
  rw [mtfDecSym_flush hs (by omega), if_neg (by omega)]
  refine bind_ok (a := ()) ?_
  unfold mtfLiteral Engine.literal
  rw [get_bind_run, if_neg (by rw [capacity, hk]; omega), bind_ok (moveToFront_run (j := s - 1) (by omega)), moved_frontByte (by omega)]
  refine bwtAppend_run ?_
  obtain ⟨l, hmoved⟩ := moved_frame (e := e.runApplied) (s - 1)
  rw [hmoved]
  show e.runApplied.bwt.len.toNat < 900000
  omega

/-- A run digit. -/
theorem mtfDecSym_digit (hs : s ≤ 1)
    (h : e.bwt.len.toNat + (e.mtf.runAcc.toNat + e.mtf.runW.toNat * (s + 1)) ≤ e.block.k.toNat * 100000) :
    mtfDecSym s e = .ok false
      { e with
        mtf.runAcc := BitVec.ofNat 20 (e.mtf.runAcc.toNat + e.mtf.runW.toNat * (s + 1))
        mtf.runW := BitVec.ofNat 20 (e.mtf.runW.toNat * 2) } := by
  unfold mtfDecSym
  rw [if_pos hs, bind_ok (mtfRunDigit_run h)]
  rfl

/-- A run digit that would make the block too long. -/
theorem mtfDecSym_digit_over (hs : s ≤ 1)
    (h : e.block.k.toNat * 100000 < e.bwt.len.toNat + (e.mtf.runAcc.toNat + e.mtf.runW.toNat * (s + 1))) :
    mtfDecSym s e = .error (.raised .blockSizeExceeded) e := by
  unfold mtfDecSym
  rw [if_pos hs]
  exact bind_error (mtfRunDigit_over h)

/-- Settles O17: the cases of `MtfDecSym(s)`, each after a check that the symbol is in the alphabet. -/
theorem decodeSymbolCommand : Obligations.DecodeSymbolCommand := by
  intro s hl hk hn heob hn0 hlen n sym cap new
  have hn0 : s.mtf.nInUse.toNat ≠ 0 := fun h => hn0 (BitVec.eq_of_toNat_eq h)
  have hcheck : sym < n + 2 → checkMtfDecSym s.toEngine = .ok () s.toEngine := fun hsym =>
    requireOk_true (decide_eq_true ⟨hn0, hsym, heob⟩)
  refine ⟨fun hs hroom => ?_, fun hs hover => ?_, fun h2 hsn hroom => ?_, fun h2 hsn hfull => ?_, fun hs => ?_⟩
  · exact completes_of rfl hl (hcheck (by omega)) (bind_ok (mtfDecSym_digit (e := s.begun) hs hroom))
  · exact raises_of rfl hl (hcheck (by omega)) ((argLow_bind_run 9 _).trans (bind_error (mtfDecSym_digit_over (e := s.begun) hs hover)))
  · exact completes_of rfl hl (hcheck (by omega)) (bind_ok (mtfDecSym_literal (e := s.begun) h2 hsn hn hk hroom))
  · exact raises_of rfl hl (hcheck (by omega)) ((argLow_bind_run 9 _).trans (bind_error (mtfDecSym_full (e := s.begun) h2 hsn hlen hfull)))
  · exact completes_of rfl hl (hcheck (by omega)) (bind_ok (mtfDecSym_eob (e := s.begun) (by omega) hs hlen))

end Sys2Proof.Machine
end

section
/-! SUPPORT. The round trip of the move-to-front unit (rule R205): the list as byte values, which the encoder and the decoder move in
step, and what the decoder makes of the symbols emitted so far. -/

namespace Sys2Proof.Machine

variable {α β : Type} {e d : Engine}

/-! ### The list as byte values -/

/-- The byte values in the order of the move-to-front list (rules R190, R191). -/
def Engine.order (e : Engine) : List Byte := (e.mtf.list.toList.take e.mtf.nInUse.toNat).map (byteGet e.mtf.seqToUnseq)

theorem order_get {j : Nat} (hj : j < e.mtf.nInUse.toNat) : e.order[j]? = e.mtf.list.toList[j]?.map (byteGet e.mtf.seqToUnseq) := by
  rw [Engine.order, List.getElem?_map, List.getElem?_take, if_pos hj]

theorem order_front (hn : 0 < e.mtf.nInUse.toNat) : e.order[0]? = some e.frontByte := by
  rw [order_get hn]
  exact congrArg (Option.map _) (byteGet_eq e.mtf.list 0)

/-- MTF_INIT starts with the present values in ascending order. -/
theorem mtfStarted_order (decoding : Bool) :
    (e.mtfStarted decoding).order = (presentValues e.block.presence).map (BitVec.ofNat 8) := by
  have hn := mtfStarted_nInUse (e := e) decoding
  have hle := countPresent_le e.block.presence
  refine List.ext_getElem? fun j => ?_
  by_cases hj : j < countPresent e.block.presence
  · have hval := byteGet_eq (e.mtfStarted decoding).mtf.seqToUnseq (BitVec.ofNat 8 j)
    rw [BitVec.toNat_ofNat, Nat.mod_eq_of_lt (by omega), mtfStarted_seqToUnseq, if_pos hj] at hval
    rw [order_get (by omega), mtfStarted_list, if_pos hj, List.getElem?_map, hval]
    rfl
  · rw [List.getElem?_eq_none (by simp [Engine.order]; omega), List.getElem?_eq_none (by simp [presentValues_length]; omega)]

theorem order_length (hn : e.mtf.nInUse.toNat ≤ 256) : e.order.length = e.mtf.nInUse.toNat := by
  simpa [Engine.order] using hn

/-- Moving a rank to the front moves its value. -/
theorem moved_order {j : Nat} (hj : j < e.mtf.nInUse.toNat) (hn : e.mtf.nInUse.toNat ≤ 256) :
    (e.moved j).order = listToFront e.order j := by
  rw [moved_eq (by omega), Engine.order, Engine.order, listToFront_map, ← listToFront_take hj (by simpa using hn)]
  rfl

/-- Moving a rank to the front keeps the move-to-front state (rule R193). -/
theorem Engine.MtfOk.moved {j : Nat} (h : e.MtfOk) (hj : j < e.mtf.nInUse.toNat) : (e.moved j).MtfOk := by
  have hn := h.nInUse_le
  have hlen : j < (e.mtf.list.toList.take e.mtf.nInUse.toNat).length := by simp; omega
  have hperm := ((listToFront_perm hlen).map BitVec.toNat).trans h.list
  rw [← listToFront_take hj (by simpa using hn)] at hperm
  rw [moved_eq (by omega)]
  exact ⟨h.count, hperm, h.rank, h.value⟩

/-- Every present value has its place in the list (rules R190, R196). -/
theorem Engine.MtfOk.position {v : Byte} (h : e.MtfOk) (hv : byteGet e.block.presence v = true) :
    ∃ j < e.mtf.nInUse.toNat, e.mtf.list.toList[j]? = some (byteGet e.mtf.unseqToSeq v) ∧ e.order[j]? = some v := by
  have hrank : (byteGet e.mtf.unseqToSeq v).toNat ∈ (e.mtf.list.toList.take e.mtf.nInUse.toNat).map BitVec.toNat :=
    h.list.mem_iff.mpr (List.mem_range.mpr (by rw [h.rank v hv, h.count]; exact rankOf_lt hv))
  obtain ⟨r, hr, hrv⟩ := List.mem_map.mp hrank
  obtain rfl := BitVec.eq_of_toNat_eq hrv
  obtain ⟨j, hmin, hj⟩ := List.mem_take_iff_getElem.mp hr
  obtain ⟨hlt, hj256⟩ := Nat.lt_min.mp hmin
  have hget := hj ▸ List.getElem?_eq_getElem hj256
  have hval := h.value v hv
  rw [← h.rank v hv, BitVec.ofNat_toNat, BitVec.setWidth_eq] at hval
  exact ⟨j, hlt, hget, by rw [order_get hlt, hget, Option.map_some, hval]⟩

/-! ### The stream as a list -/

theorem symbols_length : e.symbols.length = e.mtf.len.toNat := by simp [Engine.symbols]

theorem emitOne_symbols {s : Nat} (h : e.mtf.len.toNat < 900001) (hs : s < 512) : (e.emitOne s).symbols = e.symbols ++ [s] := by
  have hlast : (((e.emitOne s).mtf.stream.read e.mtf.len.toNat).getD 0).toNat = s := by
    rw [Engine.emitOne, Store.read_write_same, Option.getD_some, BitVec.toNat_ofNat, Nat.mod_eq_of_lt hs]
  rw [Engine.symbols, emitOne_len h, List.range_succ, List.map_append, List.map_singleton, hlast, Engine.symbols]
  congr 1
  refine List.map_congr_left fun i hi => ?_
  rw [Engine.emitOne, Store.read_write_other _ _ (List.mem_range.mp hi).ne]

theorem emit_symbols {syms : List Nat} (h : e.mtf.len.toNat + syms.length ≤ 900001) (hs : ∀ s ∈ syms, s < 512) :
    (e.emit syms).symbols = e.symbols ++ syms := by
  induction syms generalizing e with
  | nil => simp
  | cons s syms ih =>
    rw [List.length_cons] at h
    have hlen := emitOne_len (e := e) (s := s) (by omega)
    rw [emit_cons, ih (by omega) fun t ht => hs t (List.mem_cons_of_mem _ ht),
      emitOne_symbols (by omega) (hs s List.mem_cons_self), List.append_assoc, List.singleton_append]

theorem emit_filled {syms : List Nat} (h : e.mtf.len.toNat + syms.length ≤ 900001) (hf : e.StreamFilled) :
    (e.emit syms).StreamFilled := by
  induction syms generalizing e with
  | nil => exact hf
  | cons s syms ih =>
    rw [List.length_cons] at h
    have hlen := emitOne_len (e := e) (s := s) (by omega)
    refine ih (by omega) ?_
    rw [Engine.StreamFilled, hlen]
    exact Store.FullTo.push hf _

/-- The digits that a pending run of `z` zeros, perhaps none, becomes (rules R196, R197). -/
def pendingSyms (z : Nat) : List Nat := if z = 0 then [] else runSyms z

theorem zeroSyms_eq : e.zeroSyms = pendingSyms e.mtf.zpend.toNat :=
  if_congr ⟨congrArg BitVec.toNat, fun h => BitVec.eq_of_toNat_eq h⟩ rfl rfl

theorem pendingSyms_digits {z s : Nat} (h : s ∈ pendingSyms z) : s ≤ 1 := by
  unfold pendingSyms at h
  split at h
  · exact absurd h List.not_mem_nil
  · exact runSyms_digits h

/-- A run has no more digits than zeros (rule R201). -/
theorem pendingSyms_length_le (z : Nat) : (pendingSyms z).length ≤ z := by
  unfold pendingSyms
  split
  · exact Nat.zero_le _
  · rw [runSyms_length]
    exact Nat.lt_succ_iff.mp ((Nat.log2_lt (Nat.succ_ne_zero _)).mpr Nat.lt_two_pow_self)

/-- The pending digits and one more symbol of the alphabet, added to the stream. -/
theorem emit_pending_symbols {s : Nat} (hroom : e.mtf.len.toNat + e.zeroSyms.length + 1 ≤ 900001) (hs : s < 512) :
    (e.emit (e.zeroSyms ++ [s])).symbols = e.symbols ++ (e.zeroSyms ++ [s]) := by
  refine emit_symbols (by rw [List.length_append, List.length_singleton]; omega) fun t ht => ?_
  rcases List.mem_append.mp ht with ht | ht
  · have := pendingSyms_digits (zeroSyms_eq ▸ ht)
    omega
  · exact List.mem_singleton.mp ht ▸ hs

/-! ### BWT_ARR as a list -/

theorem bwtStored_bwtBytes {v : Byte} (h : e.bwt.len.toNat < 900000) : (e.bwtStored v).bwtBytes = e.bwtBytes ++ [v] := by
  have hlast : ((e.bwtStored v).bwt.arr.read e.bwt.len.toNat).getD 0 = v := by simp [Engine.bwtStored]
  rw [Engine.bwtBytes, bwtStored_len h, List.range_succ, List.map_append, List.map_singleton, hlast, Engine.bwtBytes]
  congr 1
  refine List.map_congr_left fun i hi => ?_
  rw [Engine.bwtStored, Store.read_write_other _ _ (List.mem_range.mp hi).ne]

theorem pushBwt_bwtBytes {vs : List Byte} (h : e.bwt.len.toNat + vs.length ≤ 900000) :
    (e.pushBwt vs).bwtBytes = e.bwtBytes ++ vs := by
  induction vs generalizing e with
  | nil => exact (List.append_nil _).symm
  | cons v vs ih =>
    rw [List.length_cons] at h
    have hlen := bwtStored_len (e := e) (v := v) (by omega)
    rw [pushBwt_cons, ih (by omega), bwtStored_bwtBytes (by omega), List.append_assoc, List.singleton_append]

theorem pushBwt_filled {vs : List Byte} (h : e.bwt.len.toNat + vs.length ≤ 900000) (hf : e.BwtFilled) : (e.pushBwt vs).BwtFilled := by
  induction vs generalizing e with
  | nil => exact hf
  | cons v vs ih =>
    rw [List.length_cons] at h
    have hlen := bwtStored_len (e := e) (v := v) (by omega)
    refine ih (e := e.bwtStored v) (by omega) ?_
    rw [Engine.BwtFilled, hlen]
    exact Store.FullTo.push hf v

theorem runApplied_bwtBytes (h : e.bwt.len.toNat + e.mtf.runAcc.toNat ≤ 900000) :
    e.runApplied.bwtBytes = e.bwtBytes ++ List.replicate e.mtf.runAcc.toNat e.frontByte := by
  unfold Engine.runApplied
  split
  · next h0 => rw [h0]; exact (List.append_nil _).symm
  · exact pushBwt_bwtBytes (by rwa [List.length_replicate])

theorem runApplied_filled (h : e.bwt.len.toNat + e.mtf.runAcc.toNat ≤ 900000) (hf : e.BwtFilled) : e.runApplied.BwtFilled := by
  unfold Engine.runApplied
  split
  · exact hf
  · exact pushBwt_filled (e := e) (by rwa [List.length_replicate]) hf

theorem runApplied_runAcc : e.runApplied.mtf.runAcc = 0 := by
  unfold Engine.runApplied
  split
  · assumption
  · rfl

theorem runApplied_runW (h : e.mtf.runAcc = 0 → e.mtf.runW = 1) : e.runApplied.mtf.runW = 1 := by
  unfold Engine.runApplied
  split
  · exact h ‹_›
  · rfl

/-! ### Decoding a list of symbols -/

/-- A list in two parts is the first part and then the second. -/
theorem collect_append (xs ys : List α) (c : α → Cmd β) :
    collect (xs ++ ys) c = (do let us ← collect xs c; let vs ← collect ys c; pure (us ++ vs)) := by
  induction xs with
  | nil => simp
  | cons x xs ih => simp [ih]

theorem collect_append_run {xs ys : List α} {c : α → Cmd β} {us vs : List β} {e₁ e₂ : Engine} (h₁ : collect xs c e = .ok us e₁)
    (h₂ : collect ys c e₁ = .ok vs e₂) : collect (xs ++ ys) c e = .ok (us ++ vs) e₂ := by
  rw [collect_append, bind_ok h₁, bind_ok h₂]
  rfl

theorem collect_singleton {x : α} {c : α → Cmd β} {b : β} {e' : Engine} (h : c x e = .ok b e') : collect [x] c e = .ok [b] e' := by
  rw [collect_cons, bind_ok h]
  rfl

/-- Run digits decode as `mtfRunDigit` does, none of them END_OF_BLOCK (rule R198). -/
theorem collect_digits {ds : List Nat} (hd : ∀ s ∈ ds, s ≤ 1) :
    collect ds mtfDecSym = (do forEach ds mtfRunDigit; pure (List.replicate ds.length false)) := by
  induction ds with
  | nil => rfl
  | cons s ds ih =>
    have hs : mtfDecSym s = (do mtfRunDigit s; pure false) := if_pos (hd s List.mem_cons_self)
    rw [collect_cons, hs, ih fun t ht => hd t (List.mem_cons_of_mem _ ht)]
    simp [List.replicate_succ]

/-- The digits of a pending run of the encoder become one of the decoder (rule R200). -/
theorem collect_pendingSyms {z : Nat} (hk : d.KOk) (hacc : d.mtf.runAcc = 0) (hw : d.mtf.runW = 1)
    (hroom : d.bwt.len.toNat + z ≤ d.block.k.toNat * 100000) :
    ∃ w, collect (pendingSyms z) mtfDecSym d = .ok (List.replicate (pendingSyms z).length false) (d.withRun (BitVec.ofNat 20 z) w) ∧
      (z = 0 → w = 1) := by
  rw [collect_digits fun s => pendingSyms_digits]
  by_cases hz : z = 0
  · refine ⟨1, ?_, fun _ => rfl⟩
    rw [pendingSyms, if_pos hz, hz, ← hw]
    exact congrArg (fun a => EStateM.Result.ok [] { d with mtf.runAcc := a }) hacc
  · obtain ⟨w, hrun⟩ := runSyms_apply (Nat.pos_of_ne_zero hz) hk hacc hw hroom
    rw [pendingSyms, if_neg hz]
    exact ⟨w, bind_ok hrun, fun h => absurd h hz⟩

/-! ### The encoder -/

/-- What the encoder holds: the symbols of its stream, its list as byte values and the zeros that are pending. -/
structure Engine.Encodes (p : Vector Bool 256) (syms : List Nat) (l : List Byte) (z : Nat) (e : Engine) : Prop where
  ok : e.MtfOk
  presence : e.block.presence = p
  filled : e.StreamFilled
  symbols : e.symbols = syms
  order : e.order = l
  zeros : e.mtf.zpend.toNat = z

variable {p : Vector Bool 256} {syms : List Nat} {l : List Byte} {z : Nat}

theorem Engine.Encodes.len (h : e.Encodes p syms l z) : e.mtf.len.toNat = syms.length := by
  rw [← h.symbols, symbols_length]

theorem Engine.Encodes.count (h : e.Encodes p syms l z) : e.mtf.nInUse.toNat = l.length := by
  rw [← h.order, order_length h.ok.nInUse_le]

theorem Engine.Encodes.length (h : e.Encodes p syms l z) : l.length = countPresent p := by
  rw [← h.count, h.ok.count, h.presence]

theorem Engine.Encodes.room (h : e.Encodes p syms l z) (hroom : syms.length + z + 1 ≤ 900001) :
    e.mtf.len.toNat + e.zeroSyms.length + 1 ≤ 900001 := by
  have hdigits := pendingSyms_length_le z
  rw [h.len, zeroSyms_eq, h.zeros]
  omega

/-- A pending run and one more symbol of the alphabet, added to the stream. -/
theorem Engine.Encodes.emit {s : Nat} (h : e.Encodes p syms l z) (hroom : syms.length + z + 1 ≤ 900001) (hs : s < 512) :
    (e.emit (e.zeroSyms ++ [s])).Encodes p (syms ++ (pendingSyms z ++ [s])) l z := by
  have hroom' := h.room hroom
  have hfilled := emit_filled (e := e) (syms := e.zeroSyms ++ [s]) (by rw [List.length_append, List.length_singleton]; omega) h.filled
  have hsyms := emit_pending_symbols hroom' hs
  obtain ⟨m, len, f, hframe⟩ := emit_frame (e := e) (e.zeroSyms ++ [s])
  rw [h.symbols, zeroSyms_eq, h.zeros] at hsyms
  rw [zeroSyms_eq, h.zeros] at hframe hfilled ⊢
  rw [hframe] at hfilled hsyms ⊢
  exact ⟨⟨h.ok.count, h.ok.list, h.ok.rank, h.ok.value⟩, h.presence, hfilled, hsyms, h.order, h.zeros⟩

theorem Engine.Encodes.moved {j : Nat} (h : e.Encodes p syms l z) (hj : j < l.length) :
    (e.moved j).Encodes p syms (listToFront l j) z := by
  have hn := h.ok.nInUse_le
  rw [← h.count] at hj
  have hok := h.ok.moved hj
  have horder := moved_order hj hn
  rw [h.order] at horder
  rw [moved_eq (by omega)] at hok horder ⊢
  exact ⟨hok, h.presence, h.filled, h.symbols, horder, h.zeros⟩

/-- What MTF_ENC_BYTE does to the list, the stream and the zeros (rule R196). -/
theorem Engine.Encodes.byte {v : Byte} (h : e.Encodes p syms l z) (hv : byteGet p v = true) (hroom : syms.length + z + 1 ≤ 900001) :
    ∃ j e', l[j]? = some v ∧ mtfEncByte v e = .ok () e' ∧
      if j = 0 then e'.Encodes p syms l (z + 1) else e'.Encodes p (syms ++ (pendingSyms z ++ [j + 1])) (listToFront l j) 0 := by
  have hv : byteGet e.block.presence v = true := h.presence ▸ hv
  obtain ⟨j, hj, hrank, hvalue⟩ := h.ok.position hv
  have hn := h.ok.nInUse_le
  refine ⟨j, e.encoded j, h.order ▸ hvalue, (requireOk_true_bind hv _).trans (encodeRank_run h.ok hj hrank (h.room hroom)), ?_⟩
  rw [Engine.encoded]
  split
  · have hz : (BitVec.ofNat 20 (e.mtf.zpend.toNat + 1)).toNat = z + 1 := by
      rw [h.zeros, BitVec.toNat_ofNat, Nat.mod_eq_of_lt (by omega)]
    exact ⟨⟨h.ok.count, h.ok.list, h.ok.rank, h.ok.value⟩, h.presence, h.filled, h.symbols, h.order, hz⟩
  · have hx := (h.emit (s := j + 1) hroom (by omega)).moved (h.count ▸ hj)
    generalize (e.emit (e.zeroSyms ++ [j + 1])).moved j = x at hx ⊢
    exact ⟨⟨hx.ok.count, hx.ok.list, hx.ok.rank, hx.ok.value⟩, hx.presence, hx.filled, hx.symbols, hx.order, rfl⟩

/-- What MTF_ENC_END does to the stream (rule R197). -/
theorem Engine.Encodes.finish (h : e.Encodes p syms l z) (hroom : syms.length + z + 1 ≤ 900001) :
    ∃ e', mtfEncEnd e = .ok () e' ∧ e'.StreamFilled ∧ e'.symbols = syms ++ (pendingSyms z ++ [l.length + 1]) := by
  have hn := h.ok.nInUse_le
  have hx := h.emit (s := e.mtf.nInUse.toNat + 1) hroom (by omega)
  rw [h.count] at hx
  refine ⟨e.encodedEnd, mtfEncEnd_run hn (h.room hroom), ?_, ?_⟩
  · rw [Engine.encodedEnd, h.count]
    exact hx.filled
  · rw [Engine.encodedEnd, h.count]
    exact hx.symbols

theorem encodes_start (p : Vector Bool 256) (hp : e.block.presence = p) :
    (e.mtfStarted false).Encodes p [] ((presentValues p).map (BitVec.ofNat 8)) 0 :=
  ⟨mtfStarted_ok false, hp, fun _ hi => absurd hi (Nat.not_lt_zero _), rfl, hp ▸ mtfStarted_order false, rfl⟩

/-! ### The decoder -/

/-- What the decoder holds with no run pending: the block size, its list as byte values and the bytes of BWT_ARR. -/
structure Engine.Decodes (k : BitVec 4) (l bytes : List Byte) (d : Engine) : Prop where
  k : d.block.k = k
  count : d.mtf.nInUse.toNat = l.length
  small : l.length ≤ 256
  order : d.order = l
  runAcc : d.mtf.runAcc = 0
  runW : d.mtf.runW = 1
  filled : d.BwtFilled
  bytes : d.bwtBytes = bytes

variable {k : BitVec 4} {bytes : List Byte}

theorem Engine.Decodes.len (h : d.Decodes k l bytes) : d.bwt.len.toNat = bytes.length := by
  rw [← h.bytes, bwtBytes_length]

theorem Engine.Decodes.front (h : d.Decodes k l bytes) (hl : l ≠ []) : d.frontByte = l.headD 0 := by
  have hpos := List.length_pos_of_ne_nil hl
  have hfront := order_front (h.count ▸ hpos)
  rw [h.order, List.getElem?_eq_getElem hpos, List.getElem_zero, Option.some_inj] at hfront
  rw [← hfront, List.headD_eq_head?_getD, List.head?_eq_some_head hl, Option.getD_some]

theorem Engine.Decodes.moved {j : Nat} (h : d.Decodes k l bytes) (hj : j < l.length) :
    (d.moved j).Decodes k (listToFront l j) bytes := by
  have horder := moved_order (e := d) (h.count ▸ hj) (h.count ▸ h.small)
  obtain ⟨list, hframe⟩ := moved_frame (e := d) j
  have hlen := listToFront_length l j
  rw [h.order] at horder
  rw [hframe] at horder ⊢
  exact ⟨h.k, h.count.trans hlen.symm, hlen.trans_le h.small, horder, h.runAcc, h.runW, h.filled, h.bytes⟩

theorem Engine.Decodes.push (h : d.Decodes k l bytes) {vs : List Byte} (hroom : bytes.length + vs.length ≤ 900000) :
    (d.pushBwt vs).Decodes k l (bytes ++ vs) := by
  rw [← h.len] at hroom
  have hfilled := pushBwt_filled hroom h.filled
  have hbytes := pushBwt_bwtBytes hroom
  obtain ⟨m, len, hframe⟩ := pushBwt_frame (e := d) vs
  rw [h.bytes] at hbytes
  rw [hframe] at hfilled hbytes ⊢
  exact ⟨h.k, h.count, h.small, h.order, h.runAcc, h.runW, hfilled, hbytes⟩

/-- A pending run, flushed (rule R198). -/
theorem Engine.Decodes.flush {w : BitVec 20} (h : d.Decodes k l bytes) (hl : l ≠ []) (hw : z = 0 → w = 1)
    (hroom : bytes.length + z ≤ 900000) :
    (d.withRun (BitVec.ofNat 20 z) w).runApplied.Decodes k l (bytes ++ List.replicate z (l.headD 0)) := by
  have hacc : (d.withRun (BitVec.ofNat 20 z) w).mtf.runAcc.toNat = z := (BitVec.toNat_ofNat ..).trans (Nat.mod_eq_of_lt (by omega))
  have hlen : (d.withRun (BitVec.ofNat 20 z) w).bwt.len.toNat = bytes.length := h.len
  have hw' : (d.withRun (BitVec.ofNat 20 z) w).mtf.runAcc = 0 → w = 1 := fun h0 => hw (hacc.symm.trans (by rw [h0]; rfl))
  have hfront : (d.withRun (BitVec.ofNat 20 z) w).frontByte = l.headD 0 := h.front hl
  have hrunAcc := runApplied_runAcc (e := d.withRun (BitVec.ofNat 20 z) w)
  have hrunW := runApplied_runW hw'
  have hfilled := runApplied_filled (e := d.withRun (BitVec.ofNat 20 z) w) (by omega) h.filled
  have hbytes := runApplied_bwtBytes (e := d.withRun (BitVec.ofNat 20 z) w) (by omega)
  obtain ⟨a, w, m, len, hframe⟩ := runApplied_frame (e := d.withRun (BitVec.ofNat 20 z) w)
  rw [hacc, hfront] at hbytes
  rw [hframe] at hrunAcc hrunW hfilled hbytes ⊢
  exact ⟨h.k, h.count, h.small, h.order, hrunAcc, hrunW, hfilled, hbytes.trans (congrArg (· ++ _) h.bytes)⟩

/-- The digits of a run leave it pending: the engine `x` differs from `d` in the run alone, until it is flushed. -/
theorem Engine.Decodes.pending (h : d.Decodes k l bytes) (hk : d.KOk) (hl : l ≠ []) (hroom : bytes.length + z ≤ k.toNat * 100000) :
    ∃ x, collect (pendingSyms z) mtfDecSym d = .ok (List.replicate (pendingSyms z).length false) x ∧ x.block.k = k ∧
      x.mtf.nInUse.toNat = l.length ∧ x.bwt.len.toNat + x.mtf.runAcc.toNat = bytes.length + z ∧
      x.runApplied.Decodes k l (bytes ++ List.replicate z (l.headD 0)) := by
  have hk9 := h.k ▸ hk.2
  obtain ⟨w, hrun, hw⟩ := collect_pendingSyms (z := z) hk h.runAcc h.runW (by rwa [h.len, h.k])
  have hz : (BitVec.ofNat 20 z).toNat = z := (BitVec.toNat_ofNat ..).trans (Nat.mod_eq_of_lt (by omega))
  exact ⟨_, hrun, h.k, h.count, congrArg₂ (· + ·) h.len hz, h.flush hl hw (by omega)⟩

/-- The digits of a run and a byte symbol, decoded. -/
theorem Engine.Decodes.byte {j : Nat} {v : Byte} (h : d.Decodes k l bytes) (hk : d.KOk) (hpos : 0 < j) (hv : l[j]? = some v)
    (hroom : bytes.length + z < k.toNat * 100000) :
    ∃ d', collect (pendingSyms z ++ [j + 1]) mtfDecSym d = .ok (List.replicate ((pendingSyms z).length + 1) false) d' ∧
      d'.Decodes k (listToFront l j) (bytes ++ List.replicate z (l.headD 0) ++ [v]) := by
  obtain ⟨hj, hget⟩ := List.getElem?_eq_some_iff.mp hv
  obtain ⟨x, hrun, hxk, hcount, hlen, hflushed⟩ := h.pending hk (List.ne_nil_of_length_pos (by omega)) hroom.le
  have hk9 := h.k ▸ hk.2
  have hsmall := h.small
  have hlit := mtfDecSym_literal (e := x) (s := j + 1) (by omega) (by omega) (by omega) (by rw [Engine.KOk, hxk, ← h.k]; exact hk)
    (by rw [hxk]; omega)
  refine ⟨_, List.replicate_succ' ▸ collect_append_run hrun (collect_singleton hlit), ?_⟩
  have hmoved := hflushed.moved hj
  have hfront : (x.runApplied.moved j).frontByte = v := by
    rw [hmoved.front (by simp [listToFront_eq hj]), listToFront_eq hj, List.headD_cons, hget]
  have hpush := hmoved.push (vs := [v]) (by simp; omega)
  rw [Engine.literal, Nat.add_sub_cancel, hfront]
  exact hpush

/-- The digits of a run and END_OF_BLOCK, decoded. -/
theorem Engine.Decodes.finish (h : d.Decodes k l bytes) (hk : d.KOk) (hl : l ≠ []) (hroom : bytes.length + z ≤ k.toNat * 100000) :
    ∃ d', collect (pendingSyms z ++ [l.length + 1]) mtfDecSym d = .ok (List.replicate (pendingSyms z).length false ++ [true]) d' ∧
      d'.BwtFilled ∧ d'.bwtBytes = bytes ++ List.replicate z (l.headD 0) := by
  obtain ⟨x, hrun, hxk, hcount, hlen, hflushed⟩ := h.pending hk hl hroom
  have hk9 := h.k ▸ hk.2
  have hpos := List.length_pos_of_ne_nil hl
  have heob := mtfDecSym_eob (e := x) (s := l.length + 1) (by omega) (by rw [hcount]) (by omega)
  exact ⟨_, collect_append_run hrun (collect_singleton heob), hflushed.filled, hflushed.bytes⟩

theorem decodes_start (p : Vector Bool 256) (hp : d.block.presence = p) :
    (d.mtfStarted true).Decodes d.block.k ((presentValues p).map (BitVec.ofNat 8)) [] where
  k := rfl
  count := by rw [mtfStarted_nInUse, hp, List.length_map, presentValues_length]
  small := by rw [List.length_map, presentValues_length]; exact countPresent_le p
  order := hp ▸ mtfStarted_order true
  runAcc := rfl
  runW := rfl
  filled := fun _ hi => absurd hi (Nat.not_lt_zero _)
  bytes := rfl

/-! ### The round trip (rule R205) -/

/-- The encoder `e` has taken in the bytes `q`: of them the decoder, which began as `d₀`, makes all but the pending zeros out of the
symbols so far, and the zeros repeat the front of the list that both hold. -/
def Mirrored (p : Vector Bool 256) (d₀ : Engine) (q : List Byte) (e : Engine) : Prop :=
  ∃ (syms : List Nat) (l : List Byte) (z : Nat) (d : Engine) (bytes : List Byte),
    e.Encodes p syms l z ∧ syms.length + z ≤ q.length ∧
      collect syms mtfDecSym d₀ = .ok (List.replicate syms.length false) d ∧ d.Decodes d₀.block.k l bytes ∧
      bytes ++ List.replicate z (l.headD 0) = q

theorem mirrored_start (hp : d.block.presence = e.block.presence) :
    Mirrored e.block.presence (d.mtfStarted true) [] (e.mtfStarted false) :=
  ⟨[], _, 0, _, [], encodes_start _ rfl, le_rfl, rfl, decodes_start _ hp, rfl⟩

/-- Encoding one more byte. -/
theorem Mirrored.byte {d₀ : Engine} {q : List Byte} {v : Byte} (h : Mirrored p d₀ q e) (hk : d₀.KOk)
    (hv : byteGet p v = true) (hlen : q.length < d₀.block.k.toNat * 100000) :
    ∃ e', mtfEncByte v e = .ok () e' ∧ Mirrored p d₀ (q ++ [v]) e' := by
  obtain ⟨syms, l, z, d, bytes, henc, hshort, hrun, hdec, hq⟩ := h
  have hk9 := hk.2
  have hqlen : bytes.length + z = q.length := by rw [← hq, List.length_append, List.length_replicate]
  obtain ⟨j, e', hj, hstep, hcase⟩ := henc.byte hv (by omega)
  refine ⟨e', hstep, ?_⟩
  split at hcase
  · next h0 =>
    have hfront : l.headD 0 = v := by
      subst h0
      rw [List.headD_eq_head?_getD, List.head?_eq_getElem?, hj, Option.getD_some]
    refine ⟨syms, l, z + 1, d, bytes, hcase, by rw [List.length_append, List.length_singleton]; omega, hrun, hdec, ?_⟩
    rw [← hq, List.append_assoc, List.replicate_succ', hfront]
  · next h0 =>
    have hdigits := pendingSyms_length_le z
    obtain ⟨d', hrun', hdec'⟩ := hdec.byte (z := z) (by rw [Engine.KOk, hdec.k]; exact hk) (Nat.pos_of_ne_zero h0) hj (by omega)
    refine ⟨_, _, 0, d', _, hcase, by simp; omega, ?_, hdec', ?_⟩
    · have hall := collect_append_run hrun hrun'
      rw [List.replicate_append_replicate] at hall
      simpa using hall
    · rw [hq]
      exact List.append_nil _

/-- Encoding a list of bytes. -/
theorem mirrored_bytes {d₀ : Engine} {q : List Byte} (h : Mirrored p d₀ [] e) (hk : d₀.KOk) (hv : ∀ v ∈ q, byteGet p v = true)
    (hlen : q.length ≤ d₀.block.k.toNat * 100000) : ∃ e', forEach q mtfEncByte e = .ok () e' ∧ Mirrored p d₀ q e' := by
  obtain ⟨e', hrun, hmirror⟩ := forEach_ind (c := mtfEncByte) (fun i e => Mirrored p d₀ (q.take i) e)
    (fun i hi e he => by
      rw [← List.take_concat_get' q i hi]
      exact he.byte hk (hv _ (List.getElem_mem hi)) (by rw [List.length_take]; omega)) h
  exact ⟨e', hrun, List.take_length (l := q) ▸ hmirror⟩

/-- Ending the stream, and decoding all of it. -/
theorem Mirrored.finish {d₀ : Engine} {q : List Byte} (h : Mirrored p d₀ q e) (hk : d₀.KOk) (hp : countPresent p ≠ 0)
    (hlen : q.length ≤ d₀.block.k.toNat * 100000) :
    ∃ e', mtfEncEnd e = .ok () e' ∧ e'.StreamFilled ∧ e'.mtf.len.toNat ≤ q.length + 1 ∧
      ∃ d', collect e'.symbols mtfDecSym d₀ = .ok (List.replicate (e'.mtf.len.toNat - 1) false ++ [true]) d' ∧
        d'.BwtFilled ∧ d'.bwtBytes = q := by
  obtain ⟨syms, l, z, d, bytes, henc, hshort, hrun, hdec, hq⟩ := h
  have hk9 := hk.2
  have hdigits := pendingSyms_length_le z
  have hqlen : bytes.length + z = q.length := by rw [← hq, List.length_append, List.length_replicate]
  obtain ⟨e', hend, hfilled, hsyms⟩ := henc.finish (by omega)
  obtain ⟨d', hrun', hbwt, hbytes⟩ := hdec.finish (z := z) (by rw [Engine.KOk, hdec.k]; exact hk)
    (List.ne_nil_of_length_pos (henc.length.symm ▸ Nat.pos_of_ne_zero hp)) (by omega)
  have hlen' : e'.mtf.len.toNat = syms.length + (pendingSyms z).length + 1 := by
    rw [← symbols_length, hsyms, List.length_append, List.length_append, List.length_singleton, Nat.add_assoc]
  have hall := collect_append_run hrun hrun'
  rw [← List.append_assoc (List.replicate _ _), List.replicate_append_replicate] at hall
  refine ⟨e', hend, hfilled, by omega, d', ?_, hbwt, hbytes.trans hq⟩
  rw [hsyms, hlen', Nat.add_sub_cancel]
  exact hall

/-- Settles O19: the encoder and the decoder hold the same list throughout (`Mirrored`), which every byte keeps. -/
theorem mtfRoundTrip : Obligations.MtfRoundTrip := by
  intro q e d hq hp hk hpresent hlen
  obtain ⟨e₁, hbytes, hmirror⟩ := mirrored_bytes (q := q) (mirrored_start hp) hk hq hlen
  obtain ⟨e', hend, hfilled, hshort, d', hdecode, hbwt, hback⟩ := hmirror.finish hk hpresent hlen
  refine ⟨e', ?_, hfilled, hshort, d', ?_, hbwt, hback⟩
  · rw [bind_ok (mtfInit_run false), bind_ok hbytes, hend]
  · rw [bind_ok (mtfInit_run true), hdecode]

end Sys2Proof.Machine
end

section
/-! SUPPORT. The lengths of the allocator are those of a complete code (rules R210, R212): every level takes the leaves that the levels
below it take, so a symbol taken `c` times is taken at the last `c` levels, and the spread of what is taken is all that its items
carry. -/

namespace Sys2Proof.Machine

/-! ### What a merge takes first -/

/-- The first of two items that a merge takes is the package where it is lighter, and else the leaf (rule R212). -/
theorem mergeItems_cons_cons (l p : Item) (ls ps : List Item) : mergeItems (l :: ls) (p :: ps) =
    if p.weight < l.weight then p :: mergeItems (l :: ls) ps else l :: mergeItems ls (p :: ps) := by
  by_cases h : p.weight < l.weight <;> simp [mergeItems, h]

theorem mergeItems_nil (ls : List Item) : mergeItems ls [] = ls := by
  induction ls with
  | nil => rfl
  | cons l ls ih => simp [mergeItems, ih]

theorem mem_of_mem_mergeItems {x : Item} {ls ps : List Item} (h : x ∈ mergeItems ls ps) : x ∈ ls ∨ x ∈ ps := by
  obtain ⟨a, b, -, -, -, hperm⟩ := take_mergeItems ls ps (m := (mergeItems ls ps).length) (mergeItems_length ls ps).le
  rw [List.take_length] at hperm
  exact (List.mem_append.mp (hperm.mem_iff.mp h)).imp List.mem_of_mem_take List.mem_of_mem_take

/-- The items that a merge takes first are the first leaves and the first packages, and every package taken is lighter than every leaf
left. -/
theorem take_mergeItems_lighter (m : Nat) (ls ps : List Item) (hls : ls.Pairwise fun x y => x.weight ≤ y.weight) :
    ∃ a b, a + b = m ∧ ((mergeItems ls ps).take m).Perm (ls.take a ++ ps.take b) ∧
      ∀ p ∈ ps.take b, ∀ l ∈ ls.drop a, p.weight < l.weight := by
  induction m generalizing ls ps with
  | zero => exact ⟨0, 0, rfl, by simp, by simp⟩
  | succ m ih =>
    match ls, ps with
    | [], ps => exact ⟨0, m + 1, Nat.zero_add _, by simp [mergeItems], by simp⟩
    | l :: ls, [] => exact ⟨m + 1, 0, rfl, by rw [mergeItems_nil, List.take_nil, List.append_nil], by simp⟩
    | l :: ls, p :: ps =>
      rw [mergeItems_cons_cons]
      split
      · next hlt =>
        obtain ⟨a, b, hab, hperm, hlight⟩ := ih (l :: ls) ps hls
        refine ⟨a, b + 1, by omega, (hperm.cons p).trans List.perm_middle.symm, List.forall_mem_cons.mpr ⟨fun x hx => ?_, hlight⟩⟩
        rcases List.mem_cons.mp (List.mem_of_mem_drop hx) with rfl | hx
        · exact hlt
        · exact hlt.trans_le ((List.pairwise_cons.mp hls).1 x hx)
      · obtain ⟨a, b, hab, hperm, hlight⟩ := ih ls (p :: ps) (List.pairwise_cons.mp hls).2
        exact ⟨a + 1, b, by omega, hperm.cons l, hlight⟩

/-! ### Weights -/

/-- The weight of a symbol (rule R211). -/
def symbolWeight (f : List Nat) (s : Nat) : Nat := max (f.getD s 0) 1

theorem sortedLeaves_weight {f : List Nat} {x : Item} (hx : x ∈ sortedLeaves f) : ∀ s ∈ x.leaves, x.weight = symbolWeight f s := by
  obtain ⟨⟨v, k⟩, hq, rfl⟩ := List.mem_map.mp ((List.perm_insertionSort _ _).mem_iff.mp hx)
  intro s hs
  obtain rfl : s = k := by simpa using hs
  have hv : f[s]? = some v := List.mem_zipIdx_iff_getElem?.mp hq
  simp [symbolWeight, hv]

/-- The leaves rise in weight (rule R211). -/
theorem sortedLeaves_sorted (f : List Nat) : (sortedLeaves f).Pairwise fun x y => x.weight ≤ y.weight := by
  have : Std.Total (fun a b : Item => leafLe a b = true) := ⟨fun a b => by
    simp only [leafLe, decide_eq_true_eq]
    omega⟩
  have : IsTrans Item (fun a b => leafLe a b = true) := ⟨fun a b c => by
    simp only [leafLe, decide_eq_true_eq]
    omega⟩
  refine (List.pairwise_insertionSort (fun a b : Item => leafLe a b = true) _).imp fun {a b} h => ?_
  simp only [leafLe, decide_eq_true_eq] at h
  omega

/-- No item is lighter than a symbol in it. -/
def WeighAll (w : Nat → Nat) (xs : List Item) : Prop := ∀ x ∈ xs, ∀ s ∈ x.leaves, w s ≤ x.weight

theorem weighAll_packages {w : Nat → Nat} : ∀ {xs : List Item}, WeighAll w xs → WeighAll w (packages xs)
  | [], _ => by simp [packages, WeighAll]
  | [_], _ => by simp [packages, WeighAll]
  | a :: b :: rest, h => by
    obtain ⟨ha, hb, hrest⟩ := by simpa only [WeighAll, List.forall_mem_cons] using h
    refine List.forall_mem_cons.mpr ⟨fun s hs => ?_, weighAll_packages hrest⟩
    rcases List.mem_append.mp hs with hs | hs
    · exact (ha s hs).trans (Nat.le_add_right _ _)
    · exact (hb s hs).trans (Nat.le_add_left _ _)

/-! ### All the spread is taken -/

/-- Every first part of the items of level `j + 1` carries no more than the spread of its symbols takes. -/
def TightTakes (n j : Nat) (cur : List Item) : Prop :=
  ∀ m, ∑ s ∈ Finset.range n, spread (j + 1) (leafCount (cur.take m) s) ≤ m * 2 ^ j

/-- A symbol taken at the new level carries what it carried and what the new level adds; one that is not was not taken before. -/
theorem spread_step_le {j c d : Nat} (hd : d ≤ 1) (hc : d = 0 → c = 0) : spread (j + 1) (d + c) ≤ spread j c + d * 2 ^ j := by
  interval_cases d
  · rw [hc rfl]
    simp [spread]
  · have hpow : 2 ^ (j + 1) = 2 * 2 ^ j := pow_succ' 2 j
    have hle : 2 ^ (j - c) ≤ 2 ^ j := Nat.pow_le_pow_right (by norm_num) (Nat.sub_le j c)
    simp only [spread, show j + 1 - (1 + c) = j - c by omega]
    omega

section
variable {n : Nat} {w : Nat → Nat} {leaves cur : List Item} (hl : IsLeaves n leaves)
include hl

theorem IsLeaves.sum_leafCount_take_le (a : Nat) : ∑ s ∈ Finset.range n, leafCount (leaves.take a) s ≤ a := by
  rcases Nat.le_total a n with h | h
  · exact (hl.sum_leafCount_take h).le
  · have htake : leaves.take a = leaves.take n := by
      rw [List.take_of_length_le (hl.length.trans_le h), List.take_of_length_le hl.length.le]
    rw [htake, hl.sum_leafCount_take le_rfl]
    exact h

theorem IsLeaves.tightTakes : TightTakes n 0 leaves := by
  intro m
  rw [pow_zero, mul_one]
  refine (Finset.sum_le_sum fun s _ => ?_).trans (hl.sum_leafCount_take_le m)
  have := spread_step_le (j := 0) (c := 0) (hl.leafCount_take_le m s) fun _ => rfl
  simpa [spread] using this

/-- A symbol whose leaf is left is in no package taken. -/
theorem IsLeaves.leafCount_packages_eq_zero (hw : ∀ x ∈ leaves, ∀ s ∈ x.leaves, x.weight = w s) {ps : List Item}
    (hps : WeighAll w ps) {a b s : Nat} (hlight : ∀ p ∈ ps.take b, ∀ l ∈ leaves.drop a, p.weight < l.weight) (hs : s < n)
    (h : leafCount (leaves.take a) s = 0) : leafCount (ps.take b) s = 0 := by
  have hleaf : s ∈ leaves.flatMap Item.leaves := hl.1.mem_iff.mpr (List.mem_range.mpr hs)
  rw [← List.take_append_drop a leaves, List.flatMap_append, List.mem_append] at hleaf
  obtain ⟨l, hmem, hsl⟩ := List.mem_flatMap.mp (hleaf.resolve_left (List.count_eq_zero.mp h))
  refine List.count_eq_zero.mpr fun hp => ?_
  obtain ⟨p, hpmem, hsp⟩ := List.mem_flatMap.mp hp
  have h₁ := hlight p hpmem l hmem
  have h₂ := hw l (List.mem_of_mem_drop hmem) s hsl
  have h₃ := hps p (List.mem_of_mem_take hpmem) s hsp
  omega

theorem IsLeaves.tightTakes_merge (hsorted : leaves.Pairwise fun x y => x.weight ≤ y.weight)
    (hw : ∀ x ∈ leaves, ∀ s ∈ x.leaves, x.weight = w s) {j : Nat} (hcur : WeighAll w cur) (h : TightTakes n j cur) :
    TightTakes n (j + 1) (mergeItems leaves (packages cur)) := by
  intro m
  obtain ⟨a, b, rfl, hperm, hlight⟩ := take_mergeItems_lighter m leaves (packages cur) hsorted
  generalize hk : 2 * min b (packages cur).length = k
  have hpack : ∀ s, leafCount ((packages cur).take b) s = leafCount (cur.take k) s := fun s => by rw [leafCount_take_packages, hk]
  have hstep : ∀ s ∈ Finset.range n, spread (j + 1 + 1) (leafCount ((mergeItems leaves (packages cur)).take (a + b)) s) ≤
      spread (j + 1) (leafCount (cur.take k) s) + leafCount (leaves.take a) s * 2 ^ (j + 1) := by
    intro s hs
    rw [leafCount_perm hperm, leafCount_append, hpack]
    refine spread_step_le (hl.leafCount_take_le a s) fun h0 => ?_
    rw [← hpack]
    exact hl.leafCount_packages_eq_zero hw (weighAll_packages hcur) hlight (Finset.mem_range.mp hs) h0
  calc _ ≤ _ := Finset.sum_le_sum hstep
    _ ≤ k * 2 ^ j + a * 2 ^ (j + 1) := by
      rw [Finset.sum_add_distrib, ← Finset.sum_mul]
      exact Nat.add_le_add (h k) (Nat.mul_le_mul_right _ (hl.sum_leafCount_take_le a))
    _ ≤ 2 * b * 2 ^ j + a * 2 ^ (j + 1) := Nat.add_le_add_right (Nat.mul_le_mul_right _ (by omega)) _
    _ = (a + b) * 2 ^ (j + 1) := by ring

theorem IsLeaves.tightTakes_rounds (hsorted : leaves.Pairwise fun x y => x.weight ≤ y.weight)
    (hw : ∀ x ∈ leaves, ∀ s ∈ x.leaves, x.weight = w s) (k : Nat) {j : Nat} (hcur : WeighAll w cur) (h : TightTakes n j cur) :
    TightTakes n (j + k) (mergeRounds leaves k cur) := by
  induction k generalizing j cur with
  | zero => exact h
  | succ k ih =>
    have hmerge : WeighAll w (mergeItems leaves (packages cur)) := fun x hx =>
      (mem_of_mem_mergeItems hx).elim (fun hx s hs => (hw x hx s hs).ge) (weighAll_packages hcur x)
    rw [show j + (k + 1) = j + 1 + k by omega]
    exact ih hmerge (hl.tightTakes_merge hsorted hw hcur h)

end

/-! ### The lengths of `Allocate` -/

/-- The lengths use up the code space (rule R212). -/
theorem le_kraft_allocate {f : List Nat} (hf : f ≠ []) : 2 ^ 20 ≤ kraft 20 (allocate f) := by
  have hl := isLeaves_sortedLeaves f
  have hw := fun x (hx : x ∈ sortedLeaves f) => sortedLeaves_weight hx
  have hpos : 0 < f.length := List.length_pos_of_ne_nil hf
  have htight : TightTakes f.length 19 (mergeRounds (sortedLeaves f) 19 (sortedLeaves f)) :=
    hl.tightTakes_rounds (sortedLeaves_sorted f) hw 19 (fun x hx s hs => (hw x hx s hs).ge) hl.tightTakes
  generalize hcur : mergeRounds (sortedLeaves f) 19 (sortedLeaves f) = cur at htight
  have halloc : allocate f = (List.range f.length).map (leafCount (cur.take (2 * f.length - 2))) := hcur ▸ rfl
  have hsum : ∑ s ∈ Finset.range f.length, spread 20 (leafCount (cur.take (2 * f.length - 2)) s) ≤ (2 * f.length - 2) * 2 ^ 19 :=
    htight _
  generalize leafCount (cur.take (2 * f.length - 2)) = c at halloc hsum
  have hkraft : kraft 20 (allocate f) = ∑ s ∈ Finset.range f.length, 2 ^ (20 - c s) := by
    rw [halloc, kraft, List.map_map]
    rfl
  have htotal : ∑ s ∈ Finset.range f.length, spread 20 (c s) + kraft 20 (allocate f) = f.length * 2 ^ 20 := by
    rw [hkraft, ← Finset.sum_add_distrib, Finset.sum_congr rfl fun s _ => spread_add 20 (c s)]
    simp
  omega

/-- A symbol of length 0 would take the whole code space, and so leave nothing to another. -/
theorem pos_of_kraft_le {lens : List Nat} (h2 : 2 ≤ lens.length) (h : kraft 20 lens ≤ 2 ^ 20) : ∀ n ∈ lens, 1 ≤ n := by
  intro n hn
  by_contra h0
  obtain rfl : n = 0 := by omega
  have hsum := ((List.perm_cons_erase hn).map fun n => 2 ^ (20 - n)).sum_eq
  have hlen := List.length_erase_of_mem hn
  obtain ⟨m, rest, hrest⟩ := List.exists_cons_of_length_pos (l := lens.erase 0) (by omega)
  have hm := Nat.two_pow_pos (20 - m)
  rw [hrest] at hsum
  simp only [List.map_cons, List.sum_cons] at hsum
  unfold kraft at h
  omega

/-- Settles O21: the lengths meet the Kraft inequality (`formACode_allocate`) and use up the code space (`le_kraft_allocate`), which no
length of 0 leaves room for. -/
theorem allocatorGivesACode : Obligations.AllocatorGivesACode := by
  intro f h2 h258
  obtain ⟨hle, hkraft⟩ : (∀ n ∈ allocate f, n ≤ 20) ∧ kraft 20 (allocate f) ≤ 2 ^ 20 := formACode_allocate f (by omega)
  have hlen := allocate_length f
  have hpos := pos_of_kraft_le (hlen.symm ▸ h2) hkraft
  exact ⟨hlen, fun n hn => ⟨hpos n hn, hle n hn⟩, hkraft.antisymm (le_kraft_allocate (List.ne_nil_of_length_pos (by omega)))⟩

end Sys2Proof.Machine
end

section
/-! SUPPORT. The commands that read and write single elements and rows of the Huffman tables (rules R213, R214, R220, R221, R240 to
R243). -/

namespace Sys2Proof.Machine

variable {e : Engine}

/-! ### Elements and rows -/

section
variable {w n : Nat} {a : ArrayName} {v : Table6 (BitVec w) n} {t : Nat}

/-- Writing element `[t][s]` of a table in range. -/
theorem tableSet2_run {s x : Nat} (ht : t < 6) (hs : s < n) :
    tableSet2 a v t s (BitVec.ofNat w x) e = .ok (withCell v t s x) e := by
  have hcell : v.set t (v[t].set s (BitVec.ofNat w x)) = withCell v t s x := by
    ext i hi j hj : 2
    by_cases hit : t = i
    · subst hit
      by_cases hjs : s = j <;> simp [withCell, hjs, Ne.symm]
    · simp [withCell, hit, Ne.symm hit]
  rw [tableSet2, bind_ok (tableGet_run ht), bind_ok (tableSet_run hs), tableSet_run ht, hcell]

/-- Writing the first elements of a row. -/
theorem set_rowWrite (ht : t < 6) (xs : List Nat) :
    v.set t (rowWrite v[t] 0 (xs.map fun x => BitVec.ofNat w x)) = withRow v t xs := by
  ext i hi j hj : 2
  by_cases hit : t = i
  · subst hit
    have hget := rowWrite_get v[t] 0 (xs.map fun x => BitVec.ofNat w x) j
    by_cases hjx : j < xs.length
    · rw [if_pos (by rw [List.length_map]; omega)] at hget
      simpa [withRow, hj, hjx] using hget
    · rw [if_neg (by rw [List.length_map]; omega)] at hget
      simpa [withRow, hj, hjx] using hget
  · simp [withRow, hit, Ne.symm hit]

/-- The first elements of a row as numbers. -/
theorem row_eq_map_cell (ht : t < 6) {k : Nat} (hk : k ≤ n) :
    (v[t].toList.take k).map BitVec.toNat = (List.range k).map (cell v t) := by
  refine List.ext_getElem (by simpa using hk) fun i h₁ h₂ => ?_
  have hi : i < n := by
    simp only [List.length_map, List.length_range] at h₂
    omega
  simp [cell_eq_getElem _ ht hi]

end

theorem rfreqRow_run {t n : Nat} (ht : t < 6) (hn : n ≤ 258) : rfreqRow t n e = .ok ((List.range n).map (cell e.huf.rfreq t)) e := by
  rw [rfreqRow, get_bind_run, bind_ok (tableGet_run ht), if_pos hn, row_eq_map_cell ht hn, pure_run]

theorem setLenRow_run {t : Nat} (ht : t < 6) (xs : List Nat) :
    setLenRow t xs e = .ok () { e with huf.len := withRow e.huf.len t xs } := by
  rw [setLenRow, get_bind_run, bind_ok (tableGet_run ht), bind_ok (tableSet_run ht), set_rowWrite ht, modHuf_run]

theorem maxOf_eq_greatest (xs : List Nat) : maxOf xs = greatest xs := List.foldl_eq_foldr

theorem requireCell_run {t : BitVec 3} {sym : BitVec 9} (ht : t.toNat ≤ 5) (hs : sym.toNat ≤ 257) : requireCell t sym e = .ok () e := by
  rw [requireCell_eq]
  exact requireOk_true (by simp [tableOk, symbolOk, ht, hs])

/-! ### The commands -/

/-- The symbol count of HUF_ALLOC (rule R213). -/
theorem allocCount_run (count : BitVec 9) : allocCount count e = .ok (if count = 0 then e.alpha else count.toNat) e := by
  rw [allocCount, get_bind_run, pure_run]
  simp only [← BitVec.toNat_inj]
  rfl

theorem cmdHufAlloc_run {t : BitVec 3} {count : BitVec 9} {n : Nat} (ht : t.toNat ≤ 5)
    (hcount : allocCount count e = .ok n e) (hn : n ≤ 258) :
    let lens := allocate ((List.range n).map (cell e.huf.rfreq t.toNat))
    cmdHufAlloc t count e = .ok () (Engine.withResult (greatest lens) { e with huf.len := withRow e.huf.len t.toNat lens }) := by
  have ht : t.toNat < 6 := by omega
  rw [cmdHufAlloc, bind_ok hcount, bind_ok (rfreqRow_run ht hn), bind_ok (setLenRow_run ht _), setResult_run, maxOf_eq_greatest]
  rfl

theorem cmdHufSetGroups_run :
    let n := tableCount e.mtf.len.toNat
    cmdHufSetGroups e = .ok () (Engine.withResult n
      { e with huf.nGroups := BitVec.ofNat 3 n, huf.nSelectors := BitVec.ofNat 15 ((e.mtf.len.toNat + 49) / 50) }) := by
  intro n
  have hn : (BitVec.ofNat 3 n).toNat = n := by
    unfold n tableCount
    split_ifs <;> rfl
  show EStateM.Result.ok () (Engine.withResult (BitVec.ofNat 3 n).toNat _) = _
  rw [hn]

/-- Settles O20: the checks pass, and the bodies read and write the elements and rows of the tables (`tableGet2_run`, `tableSet2_run`,
`setLenRow_run`). -/
theorem tableAccessCommands : Obligations.TableAccessCommands := by
  intro s hl
  refine ⟨fun t count ht => ?_, fun t sym ht hs => ?_, fun v hlt hv => ?_, fun hm => ?_⟩
  · intro n lens h2 h258
    have hchecks : checkHufAlloc t count s.toEngine = .ok () s.toEngine :=
      (requireOk_true_bind (decide_eq_true ht) _).trans
        ((bind_ok (allocCount_run count)).trans (requireOk_true (decide_eq_true ⟨h2, h258⟩)))
    exact completes_of rfl hl hchecks (cmdHufAlloc_run ht (allocCount_run count) h258)
  · have ht' : t.toNat < 6 := by omega
    have hs' : sym.toNat < 258 := by omega
    have hcell : requireCell t sym s.toEngine = .ok () s.toEngine := requireCell_run ht hs
    refine ⟨fun ha => ?_, fun h1 h23 => ?_, ?_, ?_⟩
    · refine completes_of rfl hl ((bind_ok hcell).trans (requireOk_true (decide_eq_true ha))) ?_
      exact bind_ok (tableSet2_run ht' hs')
    · refine completes_of rfl hl ((bind_ok hcell).trans (requireOk_true (decide_eq_true ⟨h1, h23⟩))) ?_
      exact bind_ok (tableSet2_run ht' hs')
    · rw [cell_eq_getElem _ ht' hs']
      exact completes_of rfl hl hcell (bind_ok (tableGet2_run ht' hs'))
    · rw [cell_eq_getElem _ ht' hs']
      exact completes_of rfl hl hcell (bind_ok (tableGet2_run ht' hs'))
  · have hget : selectorGet s.host.arg.toNat s.begun = .ok v s.begun := storeGet_run hv
    exact completes_of rfl hl (requireOk_true (decide_eq_true hlt)) (bind_ok hget)
  · exact completes_of rfl hl (requireOk_true (decide_eq_true fun h => hm (BitVec.eq_of_toNat_eq h))) cmdHufSetGroups_run

/-! ### Frame -/

/-- Settles O58: every command keeps what its rule does not write (`exec_framed`). -/
theorem frameHuffman : Obligations.FrameHuffman :=
  ⟨fun _ _ => exec_framed _, fun _ _ => exec_framed _, exec_framed _, exec_framed _, exec_framed _, exec_framed _, fun _ => exec_framed _,
    exec_framed _, exec_framed _, exec_framed _, fun _ => exec_framed _, exec_framed _, fun _ => exec_framed _,
    fun _ _ => exec_framed _, fun _ _ => exec_framed _, fun _ _ => exec_framed _, exec_framed _⟩

end Sys2Proof.Machine
end

section
/-! SUPPORT. The arithmetic of canonical codes (rules R227, R235): the codes of each length begin where the codes of the length before it
end, doubled, and the Kraft sum bounds where they end. -/

namespace Sys2Proof.Machine

variable {lens : List Nat} {n m v : Nat}

/-! ### Symbols in the order of length and then index -/

theorem map_getD_range (lens : List Nat) : (List.range lens.length).map (fun u => lens.getD u 0) = lens := by
  rw [← take_eq_map_range lens 0 le_rfl, List.take_length]

theorem sum_filter_or {α : Type} {p q : α → Bool} (f : α → Nat) (xs : List α) (h : ∀ x ∈ xs, p x = true → q x = false) :
    ((xs.filter fun x => p x || q x).map f).sum = ((xs.filter p).map f).sum + ((xs.filter q).map f).sum := by
  induction xs with
  | nil => rfl
  | cons x xs ih =>
    have ih := ih fun y hy => h y (by simp [hy])
    cases hp : p x
    · cases hq : q x <;> simp [hp, hq, ih, Nat.add_left_comm]
    · simp [hp, h x (by simp) hp, ih, Nat.add_assoc]

/-- How many of the first `v` symbols have length `n`. -/
theorem length_filter_sameLength (h : v ≤ lens.length) :
    ((List.range lens.length).filter fun u => decide (lens.getD u 0 = n) && decide (u < v)).length = (lens.take v).count n := by
  have hbelow : (List.range v).filter (fun u => decide (lens.getD u 0 = n) && decide (u < v)) =
      (List.range v).filter fun u => lens.getD u 0 = n :=
    List.filter_congr fun u hu => by simp [List.mem_range.mp hu]
  have habove : ((List.range (lens.length - v)).map (v + ·)).filter
      (fun u => decide (lens.getD u 0 = n) && decide (u < v)) = [] := by simp
  obtain ⟨k, hk⟩ := Nat.exists_eq_add_of_le h
  rw [hk, List.range_add, List.filter_append, hbelow]
  rw [hk, Nat.add_sub_cancel_left] at habove
  rw [habove, List.append_nil, ← List.countP_eq_length_filter, take_eq_map_range lens 0 h, List.count_eq_countP, List.countP_map]
  exact List.countP_congr fun u _ => by simp

/-- A sum over the symbols before `v`: the shorter ones, and those of its own length with a smaller index. -/
theorem sum_comesBefore (g : Nat → Nat) (hv : v < lens.length) :
    (((List.range lens.length).filter fun u =>
        lens.getD u 0 < lens.getD v 0 ∨ (lens.getD u 0 = lens.getD v 0 ∧ u < v)).map fun u => g (lens.getD u 0)).sum =
      ((lens.filter fun m => m < lens.getD v 0).map g).sum + (lens.take v).count (lens.getD v 0) * g (lens.getD v 0) := by
  have hshort : ((List.range lens.length).filter fun u => lens.getD u 0 < lens.getD v 0).map (fun u => g (lens.getD u 0)) =
      (lens.filter fun m => m < lens.getD v 0).map g := by
    conv_rhs => rw [← map_getD_range lens, List.filter_map, List.map_map, map_getD_range lens]
    rfl
  have hsame : ((List.range lens.length).filter fun u =>
      decide (lens.getD u 0 = lens.getD v 0) && decide (u < v)).map (fun u => g (lens.getD u 0)) =
      List.replicate ((lens.take v).count (lens.getD v 0)) (g (lens.getD v 0)) := by
    rw [← length_filter_sameLength hv.le, List.eq_replicate_iff]
    refine ⟨List.length_map _, fun x hx => ?_⟩
    obtain ⟨u, hu, rfl⟩ := List.mem_map.mp hx
    rw [of_decide_eq_true (Bool.and_eq_true_iff.mp (List.mem_filter.mp hu).2).1]
  simp only [Bool.decide_or, Bool.decide_and]
  rw [sum_filter_or, hshort, hsame, List.sum_replicate, smul_eq_mul]
  exact fun u _ hlt => by rw [decide_eq_false (Nat.ne_of_lt (of_decide_eq_true hlt)), Bool.false_and]

/-! ### The first code of each length -/

/-- The first code of length `n` (rules R227, R235): the shorter codes take their share of the codes of that length. -/
def firstCode (lens : List Nat) (n : Nat) : Nat := ((lens.filter fun m => m < n).map fun m => 2 ^ (n - m)).sum

theorem canonicalCode_eq (hv : v < lens.length) :
    canonicalCode lens v = firstCode lens (lens.getD v 0) + (lens.take v).count (lens.getD v 0) := by
  rw [canonicalCode, sum_comesBefore (fun m => 2 ^ (lens.getD v 0 - m)) hv, Nat.sub_self, pow_zero, mul_one]
  rfl

theorem permRank_eq (hv : v < lens.length) :
    permRank lens v = (lens.countP fun m => m < lens.getD v 0) + (lens.take v).count (lens.getD v 0) := by
  have h := sum_comesBefore (fun _ => 1) hv
  simp only [List.map_const', List.sum_replicate, smul_eq_mul, mul_one, ← List.countP_eq_length_filter] at h
  exact h

theorem firstCode_cons (m : Nat) (lens : List Nat) (n : Nat) :
    firstCode (m :: lens) n = (if m < n then 2 ^ (n - m) else 0) + firstCode lens n := by
  by_cases h : m < n <;> simp [firstCode, h]

/-- The codes of a length begin where the codes of the length before it end, doubled (rule R227). -/
theorem firstCode_succ (lens : List Nat) (n : Nat) : firstCode lens (n + 1) = 2 * (firstCode lens n + lens.count n) := by
  induction lens with
  | nil => rfl
  | cons m lens ih =>
    rw [firstCode_cons, firstCode_cons, List.count_cons, ih]
    rcases lt_trichotomy m n with h | h | h
    · rw [if_pos h, if_pos (Nat.lt_succ_of_lt h), Nat.succ_sub h.le, pow_succ, if_neg (by simpa using h.ne)]
      ring
    · subst h
      rw [if_neg (lt_irrefl m), if_pos (Nat.lt_succ_self m), Nat.add_sub_cancel_left, if_pos (beq_self_eq_true m)]
      ring
    · rw [if_neg h.not_gt, if_neg (Nat.not_lt.mpr h), if_neg (by simpa using h.ne')]
      ring

theorem countP_lt_succ (lens : List Nat) (n : Nat) :
    (lens.countP fun m => m < n + 1) = (lens.countP fun m => m < n) + lens.count n := by
  induction lens with
  | nil => rfl
  | cons m lens ih =>
    simp only [List.countP_cons, List.count_cons, ih]
    rcases lt_trichotomy m n with h | h | h
    · simp [h, Nat.lt_succ_of_lt h, h.ne]
      omega
    · simp [h]
      omega
    · simp [Nat.not_lt.mpr h.le, Nat.not_lt.mpr (Nat.succ_le_of_lt h), h.ne']

/-- No code is shorter than the shortest. -/
theorem firstCode_eq_zero (h : ∀ m ∈ lens, n ≤ m) : firstCode lens n = 0 := by
  have hnone : lens.filter (fun m => m < n) = [] := List.filter_eq_nil_iff.mpr fun m hm => by simpa using h m hm
  rw [firstCode, hnone]
  rfl

theorem countP_lt_eq_zero (h : ∀ m ∈ lens, n ≤ m) : (lens.countP fun m => m < n) = 0 :=
  List.countP_eq_zero.mpr fun m hm => by simpa using h m hm

/-- Each shorter symbol takes at least one code of length `n`. -/
theorem countP_lt_le_firstCode (lens : List Nat) (n : Nat) : (lens.countP fun m => m < n) ≤ firstCode lens n := by
  rw [List.countP_eq_length_filter, firstCode, ← List.length_map (fun m => 2 ^ (n - m))]
  exact List.length_le_sum_of_one_le _ fun x hx => by
    obtain ⟨m, _, rfl⟩ := List.mem_map.mp hx
    exact Nat.one_le_two_pow

/-- Where the codes of one length end, seen from a later length. -/
theorem firstCode_mono (lens : List Nat) (n k : Nat) :
    (firstCode lens n + lens.count n) * 2 ^ (k + 1) ≤ firstCode lens (n + k + 1) := by
  induction k with
  | zero => rw [Nat.add_zero, firstCode_succ, pow_one, mul_comm]
  | succ k ih =>
    rw [← Nat.add_assoc, firstCode_succ, pow_succ, ← mul_assoc, mul_comm]
    exact Nat.mul_le_mul_left 2 (ih.trans (Nat.le_add_right _ _))

theorem firstCode_le {n' : Nat} (h : n < n') : (firstCode lens n + lens.count n) * 2 ^ (n' - n) ≤ firstCode lens n' := by
  obtain ⟨k, rfl⟩ := Nat.exists_eq_add_of_lt h
  rw [show n + k + 1 - n = k + 1 by omega]
  exact firstCode_mono lens n k

/-- Past the longest length the codes have taken the whole Kraft sum. -/
theorem firstCode_eq_kraft {L : Nat} (h : LensOk L lens) : firstCode lens (L + 1) = 2 * kraft L lens := by
  have hall : lens.filter (fun m => m < L + 1) = lens := List.filter_eq_self.mpr fun m hm => by simpa using Nat.lt_succ_of_le (h m hm).2
  rw [firstCode, hall, kraft, ← List.sum_map_mul_left]
  refine congrArg List.sum (List.map_congr_left fun m hm => ?_)
  rw [Nat.succ_sub (h m hm).2, pow_succ, mul_comm]

/-- The codes of length `n` end within the Kraft sum. -/
theorem firstCode_le_kraft {L : Nat} (h : LensOk L lens) (hn : n ≤ L) :
    (firstCode lens n + lens.count n) * 2 ^ (L - n) ≤ kraft L lens := by
  have hle := firstCode_le (lens := lens) (Nat.lt_succ_of_le hn)
  rw [firstCode_eq_kraft h, Nat.succ_sub hn, pow_succ, ← mul_assoc, mul_comm] at hle
  exact Nat.le_of_mul_le_mul_left hle Nat.two_pos

/-- A code with room for it: the Kraft sum is at most 1 (rule R228). -/
theorem firstCode_fits {L : Nat} (h : LensOk L lens) (hk : kraft L lens ≤ 2 ^ L) (hn : n ≤ L) :
    firstCode lens n + lens.count n ≤ 2 ^ n := by
  have hle := (firstCode_le_kraft h hn).trans hk
  rw [← Nat.pow_sub_mul_pow 2 hn, mul_comm] at hle
  exact Nat.le_of_mul_le_mul_left hle (Nat.two_pow_pos _)

/-! ### The canonical code of a symbol -/

theorem getElem?_eq_some_getD (hv : v < lens.length) : lens[v]? = some (lens.getD v 0) := by
  simp [List.getD_eq_getElem?_getD, hv]

/-- A symbol comes after fewer of its length than there are. -/
theorem count_take_lt (hv : lens[v]? = some n) : (lens.take v).count n < lens.count n := by
  have hsub := (List.take_sublist (v + 1) lens).count_le n
  rw [List.take_add_one, hv] at hsub
  simp only [Option.toList_some, List.count_append, List.count_singleton_self] at hsub
  omega

/-- Symbols of one length come in the order of their indexes. -/
theorem count_take_strictMono {u : Nat} (huv : u < v) (hu : lens[u]? = some n) : (lens.take u).count n < (lens.take v).count n := by
  have hu' : (lens.take v)[u]? = some n := by rwa [List.getElem?_take_of_lt huv]
  have h := count_take_lt hu'
  rwa [List.take_take, Nat.min_eq_left huv.le] at h

theorem count_take_inj {u : Nat} (hu : lens[u]? = some n) (hv : lens[v]? = some n)
    (h : (lens.take u).count n = (lens.take v).count n) : u = v := by
  rcases lt_trichotomy u v with huv | huv | huv
  · exact absurd h (count_take_strictMono huv hu).ne
  · exact huv
  · exact absurd h (count_take_strictMono huv hv).ne'

/-- A canonical code lies among the codes of its length. -/
theorem canonicalCode_lt (hv : v < lens.length) :
    canonicalCode lens v < firstCode lens (lens.getD v 0) + lens.count (lens.getD v 0) := by
  rw [canonicalCode_eq hv]
  exact Nat.add_lt_add_left (count_take_lt (getElem?_eq_some_getD hv)) _

theorem getD_lensOk {L : Nat} (h : LensOk L lens) (hv : v < lens.length) : 1 ≤ lens.getD v 0 ∧ lens.getD v 0 ≤ L :=
  h _ (List.mem_of_getElem? (getElem?_eq_some_getD hv))

/-- A canonical code fits its length (rule R228). -/
theorem canonicalCode_lt_two_pow {L : Nat} (h : LensOk L lens) (hk : kraft L lens ≤ 2 ^ L) (hv : v < lens.length) :
    canonicalCode lens v < 2 ^ lens.getD v 0 :=
  (canonicalCode_lt hv).trans_le (firstCode_fits h hk (getD_lensOk h hv).2)

/-- The first bits of a canonical code lie past the codes of their length. -/
theorem le_canonicalCode_div (hv : v < lens.length) (hn : n < lens.getD v 0) :
    firstCode lens n + lens.count n ≤ canonicalCode lens v / 2 ^ (lens.getD v 0 - n) := by
  rw [Nat.le_div_iff_mul_le (Nat.two_pow_pos _)]
  exact (firstCode_le hn).trans (by rw [canonicalCode_eq hv]; exact Nat.le_add_right _ _)

/-- No canonical code begins with another (rule R228). -/
theorem canonicalCode_prefix_free {u : Nat} (hu : u < lens.length) (hv : v < lens.length) (hle : lens.getD u 0 ≤ lens.getD v 0)
    (h : canonicalCode lens v / 2 ^ (lens.getD v 0 - lens.getD u 0) = canonicalCode lens u) : u = v := by
  rcases hle.lt_or_eq with hlt | heq
  · have hge := le_canonicalCode_div hv hlt
    have hlt := canonicalCode_lt hu
    omega
  · rw [heq, Nat.sub_self, pow_zero, Nat.div_one, canonicalCode_eq hv, canonicalCode_eq hu, heq] at h
    exact count_take_inj (heq ▸ getElem?_eq_some_getD hu) (getElem?_eq_some_getD hv) (Nat.add_left_cancel h).symm

end Sys2Proof.Machine
end

section
/-! SUPPORT. The codes that HUF_ASSIGN_CODES packs (rules R227, R228): each symbol of the alphabet gets its length and canonical code,
and no code begins with another. -/

namespace Sys2Proof.Machine

variable {lens : List Nat} {n v : Nat}

/-! ### The shortest and the longest length -/

theorem minOf_mem {xs : List Nat} (h : xs ≠ []) : minOf xs ∈ xs := by
  cases xs with
  | nil => exact absurd rfl h
  | cons x xs =>
    refine List.foldlRecOn (motive := (· ∈ x :: xs)) xs min List.mem_cons_self fun a ha y hy => ?_
    rcases min_choice a y with h | h <;> rw [h]
    exacts [ha, List.mem_cons_of_mem _ hy]

theorem foldr_min_le {xs : List Nat} (d : Nat) {x : Nat} (h : x ∈ xs) : xs.foldr min d ≤ x := by
  induction xs with
  | nil => simp at h
  | cons y xs ih =>
    rcases List.mem_cons.mp h with rfl | h
    exacts [min_le_left _ _, (min_le_right _ _).trans (ih h)]

theorem minOf_le_of_mem {xs : List Nat} {x : Nat} (h : x ∈ xs) : minOf xs ≤ x := by
  cases xs with
  | nil => simp at h
  | cons y xs =>
    rw [minOf, List.foldl_eq_foldr]
    rcases List.mem_cons.mp h with rfl | h
    · clear h
      induction xs with
      | nil => exact le_rfl
      | cons z xs ih => exact (min_le_right _ _).trans ih
    · exact foldr_min_le y h

theorem le_maxOf_of_mem {xs : List Nat} {x : Nat} (h : x ∈ xs) : x ≤ maxOf xs := by
  rw [maxOf_eq_greatest]
  induction xs with
  | nil => simp at h
  | cons y xs ih =>
    rcases List.mem_cons.mp h with rfl | h
    exacts [le_max_left _ _, (ih h).trans (le_max_right _ _)]

theorem lengthRange_eq (lens : List Nat) : lengthRange lens = List.range' (minOf lens) (maxOf lens + 1 - minOf lens) :=
  List.range'_eq_map_range.symm

/-! ### Symbols of one length -/

theorem mem_symsOfLen : v ∈ symsOfLen lens n ↔ lens[v]? = some n := by
  simp only [symsOfLen, List.mem_filter, List.mem_range, decide_eq_true_eq, and_iff_right_iff_imp]
  exact fun h => (List.getElem?_eq_some_iff.mp h).1

/-- The symbols of one length, in the order of their indexes (rule R227). -/
theorem symsOfLen_getElem? {i : Nat} : (symsOfLen lens n)[i]? = some v ↔ lens[v]? = some n ∧ i = (lens.take v).count n := by
  have hget : ∀ {u}, lens[u]? = some n → (symsOfLen lens n)[(lens.take u).count n]? = some u := fun {u} hu => by
    have hlt := (List.getElem?_eq_some_iff.mp hu).1
    have hcount : (List.range u).countP (fun w => decide (lens[w]? = some n)) = (lens.take u).count n := by
      rw [take_eq_map_range lens 0 hlt.le, List.count_eq_countP, List.countP_map]
      refine List.countP_congr fun w hw => ?_
      have hw := getElem?_eq_some_getD ((List.mem_range.mp hw).trans hlt)
      rw [decide_eq_true_iff, hw, Option.some_inj]
      exact beq_iff_eq.symm
    exact hcount ▸ filter_range_get _ hlt (decide_eq_true hu)
  refine ⟨fun h => ?_, fun ⟨hv, hi⟩ => hi ▸ hget hv⟩
  have hv := mem_symsOfLen.mp (List.mem_of_getElem? h)
  have hnodup : (symsOfLen lens n).Nodup := List.nodup_range.filter _
  exact ⟨hv, (List.getElem?_inj (List.getElem?_eq_some_iff.mp h).1 hnodup).mp (h.trans (hget hv).symm)⟩

/-! ### The packed codes -/

/-- The loop of `AssignCodes` packs the length and the canonical code of every symbol of the lengths it runs over (rule R227). -/
theorem mem_canonicalCodes {k c : Nat} : (v, c) ∈ canonicalCodes lens (List.range' n k) (firstCode lens n) ↔
    v < lens.length ∧ n ≤ lens.getD v 0 ∧ lens.getD v 0 < n + k ∧ c = lens.getD v 0 <<< 24 ||| canonicalCode lens v := by
  induction k generalizing n with
  | zero =>
    simp only [List.range'_zero, canonicalCodes, List.not_mem_nil, false_iff]
    omega
  | succ k ih =>
    have hnext : (firstCode lens n + (symsOfLen lens n).length) <<< 1 = firstCode lens (n + 1) := by
      rw [symsOfLen_length, firstCode_succ, Nat.shiftLeft_eq, pow_one, mul_comm]
    have hhere : (v, c) ∈ (symsOfLen lens n).zipIdx.map (fun q => (q.1, n <<< 24 ||| (firstCode lens n + q.2))) ↔
        v < lens.length ∧ lens.getD v 0 = n ∧ c = lens.getD v 0 <<< 24 ||| canonicalCode lens v := by
      simp only [List.mem_map, Prod.exists, List.mem_zipIdx_iff_getElem?, symsOfLen_getElem?, Prod.mk.injEq]
      constructor
      · rintro ⟨_, _, ⟨hv, rfl⟩, rfl, rfl⟩
        obtain ⟨hlt, hn⟩ := List.getElem?_eq_some_iff.mp hv
        rw [← List.getD_eq_getElem _ 0 hlt] at hn
        rw [canonicalCode_eq hlt, hn]
        exact ⟨hlt, rfl, rfl⟩
      · rintro ⟨hlt, rfl, rfl⟩
        exact ⟨v, _, ⟨getElem?_eq_some_getD hlt, rfl⟩, rfl, by rw [canonicalCode_eq hlt]⟩
    rw [List.range'_succ, canonicalCodes, List.mem_append, hhere, hnext, ih]
    by_cases hn : lens.getD v 0 = n <;> by_cases hlt : v < lens.length <;>
      simp only [hn, hlt, true_and, false_and, or_false, false_or] <;> omega

theorem mem_canonicalCodes_all {c : Nat} : (v, c) ∈ canonicalCodes lens (lengthRange lens) 0 ↔
    v < lens.length ∧ c = lens.getD v 0 <<< 24 ||| canonicalCode lens v := by
  have h := mem_canonicalCodes (lens := lens) (n := minOf lens) (k := maxOf lens + 1 - minOf lens) (v := v) (c := c)
  rw [← lengthRange_eq, firstCode_eq_zero fun _ => minOf_le_of_mem] at h
  rw [h]
  refine ⟨fun ⟨hv, _, _, hc⟩ => ⟨hv, hc⟩, fun ⟨hv, hc⟩ => ⟨hv, ?_, ?_, hc⟩⟩
  · exact minOf_le_of_mem (List.mem_of_getElem? (getElem?_eq_some_getD hv))
  · have hmax := le_maxOf_of_mem (List.mem_of_getElem? (getElem?_eq_some_getD hv))
    omega

/-! ### Elements of a row written one by one -/

section
variable {α β : Type} {m : Nat} {key : β → Nat} {val : β → α} {qs : List β} {row : Vector α m}

theorem foldl_set_other (h : ∀ q ∈ qs, key q ≠ v) :
    (qs.foldl (fun r q => r.setIfInBounds (key q) (val q)) row).toList[v]? = row.toList[v]? := by
  refine List.foldlRecOn (motive := fun r : Vector α m => r.toList[v]? = row.toList[v]?) qs _ rfl fun r hr q hq => ?_
  rw [← hr]
  simp [h q hq]

theorem foldl_set_get {x : α} (hv : v < m) (hval : ∀ q ∈ qs, key q = v → val q = x) (hmem : ∃ q ∈ qs, key q = v) :
    (qs.foldl (fun r q => r.setIfInBounds (key q) (val q)) row).toList[v]? = some x := by
  induction qs generalizing row with
  | nil => simp at hmem
  | cons q qs ih =>
    rw [List.foldl_cons]
    by_cases hlater : ∃ q' ∈ qs, key q' = v
    · exact ih (fun q' hq' => hval q' (List.mem_cons_of_mem _ hq')) hlater
    · rw [foldl_set_other fun q' hq' hk => hlater ⟨q', hq', hk⟩]
      obtain ⟨q', hq', hk⟩ := hmem
      rcases List.mem_cons.mp hq' with rfl | hq'
      · simp [hk, hv, hval _ List.mem_cons_self hk]
      · exact absurd ⟨q', hq', hk⟩ hlater

end

/-- A row of CODE with the codes of the lengths packed into it (rule R227). -/
def codedRow (lens : List Nat) (row : Vector Word 258) : Vector Word 258 :=
  (canonicalCodes lens (lengthRange lens) 0).foldl (fun r q => r.setIfInBounds q.1 (BitVec.ofNat 32 q.2)) row

theorem codedRow_get {row : Vector Word 258} (h258 : lens.length ≤ 258) (h : LensOk 20 lens) (hk : kraft 20 lens ≤ 2 ^ 20)
    (hv : v < lens.length) :
    ((codedRow lens row).toList.getD v 0).toNat = lens.getD v 0 * 2 ^ 24 + canonicalCode lens v := by
  have hget : (codedRow lens row).toList[v]? = some (BitVec.ofNat 32 (lens.getD v 0 <<< 24 ||| canonicalCode lens v)) := by
    refine foldl_set_get (hv.trans_le h258) (fun q hq hkey => ?_) ⟨_, mem_canonicalCodes_all.mpr ⟨hv, rfl⟩, rfl⟩
    subst hkey
    rw [(mem_canonicalCodes_all.mp hq).2]
  obtain ⟨_, h20⟩ := getD_lensOk h hv
  have hcode : canonicalCode lens v < 2 ^ 20 :=
    (canonicalCode_lt_two_pow h hk hv).trans_le (Nat.pow_le_pow_right Nat.two_pos h20)
  rw [List.getD_eq_getElem?_getD, hget, Option.getD_some, ← Nat.shiftLeft_add_eq_or_of_lt (by omega), Nat.shiftLeft_eq,
    BitVec.toNat_ofNat, Nat.mod_eq_of_lt (by omega)]

theorem codedRow_other {row : Vector Word 258} (hv : lens.length ≤ v) : (codedRow lens row).toList[v]? = row.toList[v]? :=
  foldl_set_other fun _ hq hkey => absurd (mem_canonicalCodes_all.mp hq).1 (by omega)

/-! ### Rows of a table -/

section
variable {w m t t' : Nat} {tbl : Table6 (BitVec w) m} {row : Vector (BitVec w) m}

/-- An element of a row that has been replaced. -/
theorem cell_set_same (ht : t < 6) (v : Nat) : cell (tbl.set t row) t v = (row.toList.getD v 0).toNat := by
  simp [cell, List.getD_eq_getElem?_getD, ht]

theorem cell_set_other (ht : t < 6) (h : t' ≠ t) (v : Nat) : cell (tbl.set t row) t' v = cell tbl t' v := by
  simp [cell, List.getD_eq_getElem?_getD, h.symm]

theorem cell_eq_getD (ht : t < 6) (v : Nat) : cell tbl t v = (tbl[t].toList.getD v 0).toNat := by
  simp [cell, List.getD_eq_getElem?_getD, ht]

end

/-! ### HUF_ASSIGN_CODES -/

variable {e : Engine}

theorem lens_length (t : Nat) : (e.lens t).length = e.alpha := by simp [Engine.lens]

theorem alpha_le (h : e.AlphaOk) : e.alpha ≤ 258 := Nat.add_le_add_right h 2

theorem assignCodes_run {t : Nat} (ht : t < 6) (ha : e.AlphaOk) :
    assignCodes t e = .ok () { e with huf.code := e.huf.code.set t (codedRow (e.lens t) e.huf.code[t]) } := by
  rw [assignCodes, get_bind_run, bind_ok (lenRow_run ht ha), bind_ok (tableGet_run ht), bind_ok (tableSet_run ht), modHuf_run]
  rfl

/-! ### The bits of a code -/

/-- The bits of a packed code are those of the code, as many as its length (rule R48). -/
theorem codeBits_pack {l c : Nat} (hl : l ≤ 24) (hc : c < 2 ^ 24) : codeBits (l * 2 ^ 24 + c) = bitsOf l c := by
  have hlen : (l * 2 ^ 24 + c) / 2 ^ 24 = l := by omega
  have hpow : 2 ^ 24 = 2 ^ (24 - l) * 2 ^ l := (Nat.pow_sub_mul_pow 2 hl).symm
  rw [codeBits, hlen, ← bitsOf_mod, hpow, ← mul_assoc, Nat.mul_add_mod_self_right, bitsOf_mod]

theorem bitsOf_prefix {l l' a b : Nat} (ha : a < 2 ^ l) (hb : b < 2 ^ l') (h : bitsOf l a <+: bitsOf l' b) :
    l ≤ l' ∧ b / 2 ^ (l' - l) = a := by
  have hle : l ≤ l' := by simpa using h.length_le
  refine ⟨hle, ?_⟩
  have htake : (bitsOf l' b).take l = bitsOf l a := by
    have := List.prefix_iff_eq_take.mp h
    rwa [bitsOf_length, eq_comm] at this
  have hval := congrArg bitsVal htake
  rwa [bitsVal_take, bitsOf_length, bitsVal_bitsOf, bitsVal_bitsOf, Nat.mod_eq_of_lt ha, Nat.mod_eq_of_lt hb] at hval

/-- Settles O24: the loop of `AssignCodes` packs the canonical code of every symbol (`mem_canonicalCodes_all`), and no canonical code
begins with another (`canonicalCode_prefix_free`). -/
theorem hufAssignCodes_canonicalCodes : Obligations.CanonicalCodes := by
  intro s t hl ha ht lens h hk
  have ht' : t.toNat < 6 := Nat.lt_succ_of_le ht
  have hlen : lens.length = s.alpha := lens_length _
  have h258 : lens.length ≤ 258 := hlen ▸ alpha_le ha
  have hchecks : checkHufAssignCodes t s.toEngine = .ok () s.toEngine := by
    rw [checkHufAssignCodes_eq ha]
    exact requireOk_true (decide_eq_true ⟨ht, h, hk⟩)
  have hcode : ∀ v < s.alpha, canonicalCode lens v < 2 ^ lens.getD v 0 := fun v hv => canonicalCode_lt_two_pow h hk (hlen ▸ hv)
  have hcell : ∀ v < s.alpha, cell (s.huf.code.set t.toNat (codedRow lens s.huf.code[t.toNat])) t.toNat v =
      lens.getD v 0 * 2 ^ 24 + canonicalCode lens v := fun v hv => by
    rw [cell_set_same ht', codedRow_get h258 h hk (hlen ▸ hv)]
  have hbits : ∀ v < s.alpha, codeBits (lens.getD v 0 * 2 ^ 24 + canonicalCode lens v) =
      bitsOf (lens.getD v 0) (canonicalCode lens v) := fun v hv => by
    obtain ⟨_, h20⟩ := getD_lensOk h (hlen ▸ hv : v < lens.length)
    exact codeBits_pack (by omega) ((hcode v hv).trans_le (Nat.pow_le_pow_right Nat.two_pos (by omega)))
  refine ⟨s.huf.code.set t.toNat (codedRow lens s.huf.code[t.toNat]), completes_of rfl hl hchecks (assignCodes_run ht' ha),
    fun v hv => ⟨hcode v hv, hcell v hv⟩, fun t' v htv => ?_, fun u hu v hv huv hpre => huv ?_⟩
  · by_cases htt : t' = t.toNat
    · subst htt
      have hv : lens.length ≤ v := hlen ▸ htv.resolve_left fun hne => hne rfl
      rw [cell_set_same ht', List.getD_eq_getElem?_getD, codedRow_other hv, ← List.getD_eq_getElem?_getD, ← cell_eq_getD ht']
    · exact cell_set_other ht' htt v
  · rw [hcell u hu, hcell v hv, hbits u hu, hbits v hv] at hpre
    obtain ⟨hle, hdiv⟩ := bitsOf_prefix (hcode u hu) (hcode v hv) hpre
    exact canonicalCode_prefix_free (hlen ▸ hu) (hlen ▸ hv) hle hdiv

end Sys2Proof.Machine
end

section
/-! SUPPORT. The lookup that HUF_BUILD_DECODE derives from the lengths of one table (rules R235, R236). -/

namespace Sys2Proof.Machine

variable {lens : List Nat} {n v : Nat}

/-! ### The rows of the lookup -/

/-- The last loop of `BuildDecode` gives every length it runs over the offset of its codes and the last of them (rule R235). -/
theorem mem_decodeBounds {k : Nat} {q : Nat × Nat × Nat} :
    q ∈ decodeBounds lens (List.range' n k) (firstCode lens n) (lens.countP fun m => m < n) ↔
      n ≤ q.1 ∧ q.1 < n + k ∧
        q.2 = (firstCode lens q.1 - lens.countP fun m => m < q.1, firstCode lens q.1 + lens.count q.1 - 1) := by
  induction k generalizing n with
  | zero =>
    simp only [List.range'_zero, decodeBounds, List.not_mem_nil, false_iff]
    omega
  | succ k ih =>
    have hcode : (firstCode lens n + lens.count n) <<< 1 = firstCode lens (n + 1) := by
      rw [firstCode_succ, Nat.shiftLeft_eq, pow_one, mul_comm]
    rw [List.range'_succ, decodeBounds, List.mem_cons, countOfLen, hcode, ← countP_lt_succ, ih]
    obtain ⟨m, b⟩ := q
    by_cases hm : m = n
    · subst hm
      simp
    · simp only [Prod.mk.injEq, hm, false_and, false_or]
      constructor <;> rintro ⟨h₁, h₂, h₃⟩ <;> exact ⟨by omega, by omega, h₃⟩

theorem mem_decodeBounds_all {q : Nat × Nat × Nat} :
    q ∈ decodeBounds lens (lengthRange lens) 0 0 ↔
      minOf lens ≤ q.1 ∧ q.1 < minOf lens + (maxOf lens + 1 - minOf lens) ∧
        q.2 = (firstCode lens q.1 - lens.countP fun m => m < q.1, firstCode lens q.1 + lens.count q.1 - 1) := by
  have h := mem_decodeBounds (lens := lens) (n := minOf lens) (k := maxOf lens + 1 - minOf lens) (q := q)
  rwa [← lengthRange_eq, firstCode_eq_zero fun _ => minOf_le_of_mem, countP_lt_eq_zero fun _ => minOf_le_of_mem] at h

/-- A row of BASE (rule R235). -/
def baseRow (lens : List Nat) : Vector Word 24 :=
  (decodeBounds lens (lengthRange lens) 0 0).foldl (fun r q => r.setIfInBounds q.1 (BitVec.ofNat 32 q.2.1)) (Vector.replicate 24 0)

/-- A row of LIMIT (rule R235). -/
def limitRow (lens : List Nat) : Vector Word 24 :=
  (decodeBounds lens (lengthRange lens) 0 0).foldl (fun r q => r.setIfInBounds q.1 (BitVec.ofNat 32 q.2.2)) (Vector.replicate 24 (-1))

/-- A row of PERM with the symbols in the order of length and then index (rule R235). -/
def permRow (lens : List Nat) (row : Vector (BitVec 9) 258) : Vector (BitVec 9) 258 :=
  rowWrite row 0 (((lengthRange lens).flatMap (symsOfLen lens)).map fun s => BitVec.ofNat 9 s)

section
variable (hn : minOf lens ≤ n) (hx : n ≤ maxOf lens) (h24 : n < 24)
include hn hx

theorem exists_decodeBounds : ∃ q ∈ decodeBounds lens (lengthRange lens) 0 0, q.1 = n :=
  ⟨(n, firstCode lens n - lens.countP fun m => m < n, firstCode lens n + lens.count n - 1),
    mem_decodeBounds_all.mpr ⟨hn, by omega, rfl⟩, rfl⟩

include h24

theorem baseRow_get : (baseRow lens).toList[n]? = some (BitVec.ofNat 32 (firstCode lens n - lens.countP fun m => m < n)) := by
  refine foldl_set_get h24 (fun q hq hkey => ?_) (exists_decodeBounds hn hx)
  rw [(mem_decodeBounds_all.mp hq).2.2, hkey]

theorem limitRow_get : (limitRow lens).toList[n]? = some (BitVec.ofNat 32 (firstCode lens n + lens.count n - 1)) := by
  refine foldl_set_get h24 (fun q hq hkey => ?_) (exists_decodeBounds hn hx)
  rw [(mem_decodeBounds_all.mp hq).2.2, hkey]

end

theorem decodeBounds_key_ne (h : n < minOf lens ∨ maxOf lens < n) : ∀ q ∈ decodeBounds lens (lengthRange lens) 0 0, q.1 ≠ n := by
  intro q hq hkey
  obtain ⟨h₁, h₂, _⟩ := mem_decodeBounds_all.mp hq
  omega

theorem baseRow_outside (h24 : n < 24) (h : n < minOf lens ∨ maxOf lens < n) : (baseRow lens).toList[n]? = some 0 := by
  rw [baseRow, foldl_set_other (decodeBounds_key_ne h), Vector.toList_replicate, List.getElem?_replicate, if_pos h24]

theorem limitRow_outside (h24 : n < 24) (h : n < minOf lens ∨ maxOf lens < n) : (limitRow lens).toList[n]? = some (-1) := by
  rw [limitRow, foldl_set_other (decodeBounds_key_ne h), Vector.toList_replicate, List.getElem?_replicate, if_pos h24]

/-! ### The symbols in order -/

theorem countP_lt_le {a b : Nat} (h : a ≤ b) : (lens.countP fun m => m < a) ≤ lens.countP fun m => m < b :=
  List.countP_mono_left fun _ _ hm => decide_eq_true ((of_decide_eq_true hm).trans_le h)

/-- The symbols of the lengths from `n` on, in order: each stands behind the shorter ones and those of its length before it. -/
theorem symsFrom_getElem? {k i : Nat} (hv : v < lens.length) (hn : n ≤ lens.getD v 0) (hk : lens.getD v 0 < n + k)
    (hi : permRank lens v = (lens.countP fun m => m < n) + i) : ((List.range' n k).flatMap (symsOfLen lens))[i]? = some v := by
  rw [permRank_eq hv] at hi
  induction k generalizing n i with
  | zero => omega
  | succ k ih =>
    rw [List.range'_succ, List.flatMap_cons]
    rcases hn.eq_or_lt with heq | hlt
    · have hget : (symsOfLen lens n)[i]? = some v :=
        symsOfLen_getElem?.mpr ⟨heq ▸ getElem?_eq_some_getD hv, by rw [heq] at hi ⊢; omega⟩
      rw [List.getElem?_append_left (List.getElem?_eq_some_iff.mp hget).1, hget]
    · have hcount := countP_lt_succ lens n
      have hle := countP_lt_le (lens := lens) (show n + 1 ≤ lens.getD v 0 from hlt)
      rw [List.getElem?_append_right (by rw [symsOfLen_length]; omega), symsOfLen_length]
      exact ih hlt (by omega) (by omega)

theorem permRank_lt (hv : v < lens.length) : permRank lens v < lens.length := by
  have h := countP_lt_succ lens (lens.getD v 0)
  have hlt := count_take_lt (getElem?_eq_some_getD hv)
  rw [permRank_eq hv]
  have hle : (lens.countP fun m => m < lens.getD v 0 + 1) ≤ lens.length := List.countP_le_length
  omega

theorem permRow_get {row : Vector (BitVec 9) 258} (h258 : lens.length ≤ 258) (hv : v < lens.length) :
    (permRow lens row).toList[permRank lens v]? = some (BitVec.ofNat 9 v) := by
  have hmem := List.mem_of_getElem? (getElem?_eq_some_getD hv)
  have hmin := minOf_le_of_mem hmem
  have hmax := le_maxOf_of_mem hmem
  have hzero : (lens.countP fun m => m < minOf lens) = 0 := countP_lt_eq_zero fun _ => minOf_le_of_mem
  have hget := symsFrom_getElem? (i := permRank lens v) hv hmin (k := maxOf lens + 1 - minOf lens) (by omega) (by omega)
  rw [← lengthRange_eq] at hget
  have hlt := (List.getElem?_eq_some_iff.mp hget).1
  have hrank := permRank_lt hv
  rw [permRow, rowWrite_get, if_pos (by rw [List.length_map]; omega), Nat.sub_zero, List.getElem?_map, hget]
  rfl

theorem symsAll_length_le : ((lengthRange lens).flatMap (symsOfLen lens)).length ≤ lens.length := by
  have h : ∀ k n, ((List.range' n k).flatMap (symsOfLen lens)).length + (lens.countP fun m => m < n) ≤ lens.length := by
    intro k
    induction k with
    | zero => exact fun n => by simpa using List.countP_le_length
    | succ k ih =>
      intro n
      have hcount := countP_lt_succ lens n
      have hle := ih (n + 1)
      rw [List.range'_succ, List.flatMap_cons, List.length_append, symsOfLen_length]
      omega
  rw [lengthRange_eq]
  exact (Nat.le_add_right _ _).trans (h _ _)

theorem permRow_other {row : Vector (BitVec 9) 258} {k : Nat} (hk : lens.length ≤ k) :
    (permRow lens row).toList[k]? = row.toList[k]? := by
  have hlen := symsAll_length_le (lens := lens)
  rw [permRow, rowWrite_get, if_neg (by rw [List.length_map]; omega)]

/-! ### The lookup of a table -/

/-- The engine with the lookup of table `t` derived from the lengths (rule R235). -/
def Engine.withLookup (t : Nat) (ht : t < 6) (lens : List Nat) (e : Engine) : Engine :=
  { e with
    huf.minLen := e.huf.minLen.set t (BitVec.ofNat 5 (minOf lens))
    huf.maxLen := e.huf.maxLen.set t (BitVec.ofNat 5 (maxOf lens))
    huf.perm := e.huf.perm.set t (permRow lens e.huf.perm[t])
    huf.base := e.huf.base.set t (baseRow lens)
    huf.limit := e.huf.limit.set t (limitRow lens) }

variable {e e' : Engine} {t : Nat}

theorem buildDecode_run (ht : t < 6) (ha : e.AlphaOk) : buildDecode t e = .ok () (e.withLookup t ht (e.lens t)) := by
  rw [buildDecode, get_bind_run, bind_ok (lenRow_run ht ha), bind_ok (tableGet_run ht), bind_ok (tableSet_run ht),
    bind_ok (tableSet_run ht), bind_ok (tableSet_run ht), bind_ok (tableSet_run ht), bind_ok (tableSet_run ht), modHuf_run]
  rfl

/-- The lookup of table `t` is the same in two engines. -/
structure SameLookup (t : Nat) (e e' : Engine) : Prop where
  minLen : e'.huf.minLen.toList[t]? = e.huf.minLen.toList[t]?
  maxLen : e'.huf.maxLen.toList[t]? = e.huf.maxLen.toList[t]?
  perm : ∀ k, cell e'.huf.perm t k = cell e.huf.perm t k
  base : ∀ k, cell e'.huf.base t k = cell e.huf.base t k
  limit : ∀ k, cell e'.huf.limit t k = cell e.huf.limit t k

theorem Engine.LookupOf.congr (h : e.LookupOf t lens) (hs : SameLookup t e e') : e'.LookupOf t lens where
  minLen := by rw [hs.minLen]; exact h.minLen
  maxLen := by rw [hs.maxLen]; exact h.maxLen
  perm v hv := by rw [hs.perm]; exact h.perm v hv
  inside n hn hx := by rw [hs.base, hs.limit]; exact h.inside n hn hx
  outside n h24 hn := by rw [hs.base, hs.limit]; exact h.outside n h24 hn

theorem withLookup_other (ht : t < 6) {t' : Nat} (h : t' ≠ t) : SameLookup t' e (e.withLookup t ht lens) where
  minLen := by simp [Engine.withLookup, h.symm]
  maxLen := by simp [Engine.withLookup, h.symm]
  perm k := cell_set_other ht h k
  base k := cell_set_other ht h k
  limit k := cell_set_other ht h k

/-- The shortest length, as `Engine.LookupOf` writes it. -/
theorem minOf_eq_foldr (hne : lens ≠ []) (h : LensOk 23 lens) : minOf lens = lens.foldr min 31 := by
  have hmem := minOf_mem hne
  refine le_antisymm ?_ (foldr_min_le 31 hmem)
  have hle : ∀ xs : List Nat, (∀ x ∈ xs, minOf lens ≤ x) → minOf lens ≤ xs.foldr min 31 := by
    intro xs
    induction xs with
    | nil => exact fun _ => (h _ hmem).2.trans (by norm_num)
    | cons x xs ih => exact fun hx => le_min (hx x List.mem_cons_self) (ih fun y hy => hx y (List.mem_cons_of_mem _ hy))
  exact hle lens fun _ => minOf_le_of_mem

/-- The codes of a table of up to 258 lengths fit a register of 32 bits, whatever the lengths. -/
theorem firstCode_add_count_lt (h258 : lens.length ≤ 258) (h : LensOk 23 lens) (hn : n ≤ 23) :
    firstCode lens n + lens.count n < 2 ^ 31 := by
  have hpow : ∀ x ∈ (lens.filter fun m => m < n).map (fun m => 2 ^ (n - m)), x ≤ 2 ^ 22 := by
    intro x hx
    obtain ⟨m, hm, rfl⟩ := List.mem_map.mp hx
    have hm1 := (h m (List.mem_of_mem_filter hm)).1
    exact Nat.pow_le_pow_right Nat.two_pos (by omega)
  have hsum := List.sum_le_card_nsmul _ _ hpow
  rw [List.length_map, smul_eq_mul] at hsum
  have hlen : (lens.filter fun m => m < n).length ≤ 258 := List.length_filter_le _ _ |>.trans h258
  have hcount : lens.count n ≤ 258 := List.count_le_length.trans h258
  have hmul := Nat.mul_le_mul_right (2 ^ 22) hlen
  unfold firstCode
  omega

/-- From the least length on there are codes. -/
theorem firstCode_add_count_pos (hne : lens ≠ []) (hn : minOf lens ≤ n) : 0 < firstCode lens n + lens.count n := by
  have hcount := List.count_pos_iff.mpr (minOf_mem hne)
  rcases hn.eq_or_lt with rfl | hlt
  · omega
  · have hmono := firstCode_le (lens := lens) hlt
    have := Nat.mul_pos (Nat.add_pos_right (firstCode lens (minOf lens)) hcount) (Nat.two_pow_pos (n - minOf lens))
    omega

/-- What `BuildDecode` writes into table `t` is the lookup of the lengths (rule R235). -/
theorem withLookup_lookupOf (ht : t < 6) (hne : lens ≠ []) (h258 : lens.length ≤ 258) (h : LensOk 23 lens) :
    (e.withLookup t ht lens).LookupOf t lens := by
  have hmin := minOf_eq_foldr hne h
  have hmax := maxOf_eq_greatest lens
  have hmax23 : maxOf lens ≤ 23 := maxOf_le fun x hx => (h x hx).2
  have hmin23 : minOf lens ≤ 23 := minOf_le fun x hx => (h x hx).2
  refine ⟨?_, ?_, fun v hv => ?_, fun n hn hx => ?_, fun n h23 hout => ?_⟩
  · rw [← hmin]
    simp [Engine.withLookup, ht]
    omega
  · rw [← hmax]
    simp [Engine.withLookup, ht]
    omega
  · refine (cell_set_same ht _).trans ?_
    rw [List.getD_eq_getElem?_getD, permRow_get h258 hv, Option.getD_some, BitVec.toNat_ofNat, Nat.mod_eq_of_lt (by omega)]
  · rw [← hmin] at hn
    rw [← hmax] at hx
    have hlt := firstCode_add_count_lt h258 h (hx.trans hmax23)
    have hle := countP_lt_le_firstCode lens n
    have hpos := firstCode_add_count_pos hne hn
    constructor
    · refine (congrArg (· + _) (cell_set_same ht n)).trans ?_
      rw [List.getD_eq_getElem?_getD, baseRow_get hn hx (by omega), Option.getD_some, BitVec.toNat_ofNat, Nat.mod_eq_of_lt (by omega)]
      exact Nat.sub_add_cancel hle
    · refine (congrArg (· + 1) (cell_set_same ht n)).trans ?_
      rw [List.getD_eq_getElem?_getD, limitRow_get hn hx (by omega), Option.getD_some, BitVec.toNat_ofNat, Nat.mod_eq_of_lt (by omega)]
      exact Nat.sub_add_cancel hpos
  · rw [← hmin, ← hmax] at hout
    constructor
    · refine (cell_set_same ht n).trans ?_
      rw [List.getD_eq_getElem?_getD, baseRow_outside (by omega) hout]
      rfl
    · refine (cell_set_same ht n).trans ?_
      rw [List.getD_eq_getElem?_getD, limitRow_outside (by omega) hout]
      rfl

theorem lens_ne_nil (t : Nat) : e.lens t ≠ [] := fun h => by
  have hlen := lens_length (e := e) t
  rw [h] at hlen
  simp [Engine.alpha] at hlen

/-- Settles O28: what `BuildDecode` writes is the lookup of the lengths (`withLookup_lookupOf`), and the other tables keep theirs
(`withLookup_other`). -/
theorem lookupBuilt : Obligations.LookupBuilt := by
  intro s t hl ha ht h
  have ht' : t.toNat < 6 := Nat.lt_succ_of_le ht
  have hlen : (s.lens t.toNat).length = s.alpha := lens_length _
  have h258 : (s.lens t.toNat).length ≤ 258 := hlen ▸ alpha_le ha
  have hchecks : checkHufBuildDecode t s.toEngine = .ok () s.toEngine := by
    rw [checkHufBuildDecode_eq ha]
    exact requireOk_true (decide_eq_true ⟨ht, h⟩)
  refine ⟨s.begun.withLookup t.toNat ht' (s.lens t.toNat), completes_of rfl hl hchecks (buildDecode_run ht' ha),
    withLookup_lookupOf ht' (lens_ne_nil _) h258 h, fun t' k htk => ?_, fun t' k htt => ?_⟩
  · by_cases htt : t' = t.toNat
    · subst htt
      have hk : (s.lens t.toNat).length ≤ k := hlen ▸ htk.resolve_left fun hne => hne rfl
      refine (cell_set_same ht' k).trans ?_
      rw [List.getD_eq_getElem?_getD, permRow_other hk, ← List.getD_eq_getElem?_getD, ← cell_eq_getD ht']
      rfl
    · exact (withLookup_other ht' htt).perm k
  · have hsame : SameLookup t' s.begun (s.begun.withLookup t.toNat ht' (s.lens t.toNat)) := withLookup_other ht' htt
    exact ⟨hsame.minLen, hsame.maxLen, hsame.base k, hsame.limit k⟩

end Sys2Proof.Machine
end

section
/-! SUPPORT. Decoding a symbol with the lookup of one table (rules R237, R238, R239): the code read so far lies past the codes of its
length, and one more bit is read, or among them, and its offset names the symbol. -/

namespace Sys2Proof.Machine

variable {lens : List Nat} {e : Engine} {t n code : Nat}

/-! ### What the lookup answers -/

/-- The lookup of table `t` and the lengths it was derived from (rules R235, R236). -/
structure Engine.Looks (t : Nat) (lens : List Nat) (e : Engine) : Prop where
  table : t < 6
  lookup : e.LookupOf t lens
  nonempty : lens ≠ []
  count : lens.length ≤ 258
  lens : LensOk 23 lens

theorem Engine.Looks.consume (h : e.Looks t lens) (n : Nat) : (e.consume n).Looks t lens :=
  { h with lookup := h.lookup.congr ⟨rfl, rfl, fun _ => rfl, fun _ => rfl, fun _ => rfl⟩ }

/-- The code read so far is none of its length or of a shorter one (rule R237). -/
def PastCodes (lens : List Nat) (n code : Nat) : Prop := maxOf lens < n ∨ firstCode lens n + lens.count n ≤ code

/-- LIMIT is at least the code read so far exactly when the code is one of its length (rule R235). -/
theorem Engine.Looks.limit_lt (h : e.Looks t lens) (hn : minOf lens ≤ n) (h23 : n < 24) :
    (code : Int) > (e.huf.limit[t]'h.table)[n].toInt ↔ PastCodes lens n code := by
  have ht := h.table
  have hcell := cell_eq_getElem e.huf.limit ht h23
  have hmin := minOf_eq_foldr h.nonempty h.lens
  have hmax := maxOf_eq_greatest lens
  unfold PastCodes
  by_cases hx : maxOf lens < n
  · obtain ⟨_, hlimit⟩ := h.lookup.outside n (by omega) (.inr (hmax ▸ hx))
    have hneg : (e.huf.limit[t])[n] = -1 := BitVec.eq_of_toNat_eq (hcell.symm.trans hlimit)
    have hint : (-1 : BitVec 32).toInt = -1 := rfl
    rw [hneg, hint]
    exact ⟨fun _ => .inl hx, fun _ => by omega⟩
  · obtain ⟨_, hlimit⟩ := h.lookup.inside n (hmin ▸ hn) (hmax ▸ by omega)
    have hlimit : cell e.huf.limit t n + 1 = firstCode lens n + lens.count n := hlimit
    have hlt := firstCode_add_count_lt h.count h.lens (n := n) (by omega)
    rw [BitVec.toInt_eq_toNat_of_lt (by omega), ← hcell]
    omega

/-- A code past those of its length needs one more bit (rule R237). -/
theorem Engine.Looks.resolve_past (h : e.Looks t lens) (hn : minOf lens ≤ n) (h23 : n < 24) (hp : PastCodes lens n code) (left : Nat) :
    resolveCode t (left + 1) n code e = (readBits 1 >>= fun b => resolveCode t left (n + 1) (code <<< 1 ||| b)) e := by
  rw [resolveCode, get_bind_run, bind_ok (tableGet2_run h.table h23), if_pos ((h.limit_lt hn h23).mpr hp)]

/-- After 23 bits there is none (rules R237, R239). -/
theorem Engine.Looks.resolve_past_end (h : e.Looks t lens) (hn : minOf lens ≤ n) (h23 : n < 24) (hp : PastCodes lens n code) :
    resolveCode t 0 n code e = .error (.raised .invalidHuffmanTables) e := by
  rw [resolveCode, get_bind_run, bind_ok (tableGet2_run h.table h23), if_pos ((h.limit_lt hn h23).mpr hp), raise_run]

/-- A code of its length gives the symbol whose place among the symbols of that length is its offset (rule R237). -/
theorem Engine.Looks.resolve_code (h : e.Looks t lens) {v : Nat} (hv : lens[v]? = some n)
    (hcode : code = firstCode lens n + (lens.take v).count n) (left : Nat) : resolveCode t left n code e = .ok v e := by
  have ht := h.table
  obtain ⟨hlt, hget⟩ := List.getElem?_eq_some_iff.mp hv
  have hmem : n ∈ lens := List.mem_of_getElem? hv
  have hn23 : n < 24 := Nat.lt_succ_of_le (h.lens n hmem).2
  have hmin := minOf_le_of_mem hmem
  have hmax := le_maxOf_of_mem hmem
  have hcount := count_take_lt hv
  have hnot : ¬ PastCodes lens n code := by
    unfold PastCodes
    omega
  obtain ⟨hbase, _⟩ := h.lookup.inside n (minOf_eq_foldr h.nonempty h.lens ▸ hmin) (maxOf_eq_greatest lens ▸ hmax)
  have hbase : cell e.huf.base t n + (lens.countP fun m => m < n) = firstCode lens n := hbase
  rw [cell_eq_getElem _ ht hn23] at hbase
  have hrank : code - (e.huf.base[t])[n].toNat = permRank lens v := by
    have hn : lens.getD v 0 = n := by rw [List.getD_eq_getElem _ _ hlt, hget]
    rw [permRank_eq hlt, hn]
    omega
  have hrank258 : permRank lens v < 258 := (permRank_lt hlt).trans_le h.count
  have hperm := h.lookup.perm v hlt
  rw [cell_eq_getElem _ ht hrank258] at hperm
  cases left <;>
  · rw [resolveCode, get_bind_run, bind_ok (tableGet2_run ht hn23), if_neg (mt (h.limit_lt hmin hn23).mp hnot),
      bind_ok (tableGet2_run ht hn23), if_neg (by omega), hrank, bind_ok (tableGet2_run ht hrank258), pure_run, hperm]

/-- Every code from the first of its length to the last belongs to a symbol. -/
theorem exists_symbol_of_code (hfirst : firstCode lens n ≤ code) (hlt : code < firstCode lens n + lens.count n) :
    ∃ v, lens[v]? = some n ∧ code = firstCode lens n + (lens.take v).count n := by
  have hi : code - firstCode lens n < (symsOfLen lens n).length := by
    rw [symsOfLen_length]
    omega
  obtain ⟨hv, hplace⟩ := symsOfLen_getElem?.mp (List.getElem?_eq_getElem hi)
  exact ⟨_, hv, by omega⟩

theorem decodeSym_eq (h : e.Looks t lens) :
    decodeSym t e = (readBits (minOf lens) >>= fun code => resolveCode t (23 - minOf lens) (minOf lens) code) e := by
  have hmin : (e.huf.minLen[t]'h.table).toNat = minOf lens := by
    have := h.lookup.minLen
    rw [← minOf_eq_foldr h.nonempty h.lens] at this
    simpa [h.table] using this
  rw [decodeSym, get_bind_run, bind_ok (tableGet_run h.table), hmin]
  rfl

/-! ### The bits of a canonical code (rule R238) -/

theorem shiftLeft_or_bit (c : Nat) (b : Bool) : c <<< 1 ||| b.toNat = 2 * c + b.toNat := by
  rw [← Nat.shiftLeft_add_eq_or_of_lt (by cases b <;> decide), Nat.shiftLeft_eq, pow_one, mul_comm]

/-- One more bit of a number. -/
theorem div_two_pow_succ (c d : Nat) : 2 * (c / 2 ^ (d + 1)) + (c.testBit d).toNat = c / 2 ^ d := by
  rw [Nat.toNat_testBit, pow_succ, ← Nat.div_div_eq_div_mul]
  exact Nat.div_add_mod _ 2

theorem Engine.Looks.resolve_canonical {v d : Nat} {rest : List Bool} (h : e.Looks t lens) (hok : e.bits.ReaderOk)
    (hv : v < lens.length) (hn : minOf lens ≤ n) (hlen : lens.getD v 0 = n + d)
    (hbits : e.inBits = bitsOf d (canonicalCode lens v) ++ rest) :
    resolveCode t (23 - n) n (canonicalCode lens v / 2 ^ d) e = .ok v (e.consume d) := by
  induction d generalizing n e with
  | zero =>
    have hget : lens[v]? = some n := (getElem?_eq_some_getD hv).trans (congrArg some hlen)
    rw [pow_zero, Nat.div_one, consume_zero hok]
    exact h.resolve_code hget (by rw [canonicalCode_eq hv, hlen, Nat.add_zero]) _
  | succ d ih =>
    have h23 := (getD_lensOk h.lens hv).2
    have hpast : PastCodes lens n (canonicalCode lens v / 2 ^ (d + 1)) := by
      have hle := le_canonicalCode_div hv (n := n) (by omega)
      rw [show lens.getD v 0 - n = d + 1 by omega] at hle
      exact .inr hle
    have hbits : e.inBits = (canonicalCode lens v).testBit d :: (bitsOf d (canonicalCode lens v) ++ rest) := hbits
    have hnext : (e.consume 1).inBits = bitsOf d (canonicalCode lens v) ++ rest := by
      rw [consume_inBits hok (by simp [hbits]), hbits]
      rfl
    rw [show 23 - n = 23 - (n + 1) + 1 by omega, h.resolve_past hn (by omega) hpast, bind_ok (readBits_one hok hbits),
      shiftLeft_or_bit, div_two_pow_succ, ih (h.consume 1) (consume_readerOk hok (by simp [hbits])) (by omega) (by omega) hnext,
      consume_consume hok (by simp [hbits]; omega), Nat.add_comm]

theorem decodeSym_canonical {v : Nat} {rest : List Bool} (h : e.Looks t lens) (hok : e.bits.ReaderOk) (hv : v < lens.length)
    (hk : kraft 23 lens ≤ 2 ^ 23) (hbits : e.inBits = bitsOf (lens.getD v 0) (canonicalCode lens v) ++ rest) :
    decodeSym t e = .ok v (e.consume (lens.getD v 0)) := by
  have h23 := (getD_lensOk h.lens hv).2
  obtain ⟨d, hd⟩ := Nat.exists_eq_add_of_le (minOf_le_of_mem (List.mem_of_getElem? (getElem?_eq_some_getD hv)))
  have hcode := canonicalCode_lt_two_pow h.lens hk hv
  have hlen : lens.getD v 0 ≤ e.inBits.length := by simp [hbits]
  rw [hd, bitsOf_add, List.append_assoc] at hbits
  have htake : bitsVal (e.inBits.take (minOf lens)) = canonicalCode lens v / 2 ^ d := by
    rw [hbits, List.take_left' (bitsOf_length _ _), bitsVal_bitsOf, Nat.shiftRight_eq_div_pow]
    refine Nat.mod_eq_of_lt (Nat.div_lt_of_lt_mul ?_)
    rwa [← pow_add, Nat.add_comm, ← hd]
  have hnext : (e.consume (minOf lens)).inBits = bitsOf d (canonicalCode lens v) ++ rest := by
    rw [consume_inBits hok (by omega), hbits, List.drop_left' (bitsOf_length _ _)]
  rw [decodeSym_eq h, bind_ok (readBits_run (by omega) hok (by omega)), htake,
    (h.consume _).resolve_canonical (consume_readerOk hok (by omega)) hv le_rfl hd hnext, consume_consume hok (by omega), ← hd]

/-! ### Bits at or above the codes of the table (rule R239) -/

theorem pastCodes_of_kraft_le {d x : Nat} (h : LensOk 23 lens) (h23 : n + d = 23) (hx : x < 2 ^ d)
    (hval : kraft 23 lens ≤ code * 2 ^ d + x) : PastCodes lens n code := by
  have hle := firstCode_le_kraft h (n := n) (by omega)
  rw [show 23 - n = d by omega] at hle
  have hmul : (firstCode lens n + lens.count n) * 2 ^ d < (code + 1) * 2 ^ d := by
    rw [Nat.succ_mul]
    omega
  exact .inr (Nat.le_of_lt_succ (Nat.lt_of_mul_lt_mul_right hmul))

theorem Engine.Looks.resolve_above {d : Nat} {bs rest : List Bool} (h : e.Looks t lens) (hok : e.bits.ReaderOk) (hn : minOf lens ≤ n)
    (h23 : n + d = 23) (hlen : bs.length = d) (hbits : e.inBits = bs ++ rest) (hval : kraft 23 lens ≤ code * 2 ^ d + bitsVal bs) :
    resolveCode t d n code e = .error (.raised .invalidHuffmanTables) (e.consume d) := by
  have hpast := pastCodes_of_kraft_le h.lens h23 (hlen ▸ bitsVal_lt bs) hval
  induction d generalizing n e code bs with
  | zero => rw [h.resolve_past_end hn (by omega) hpast, consume_zero hok]
  | succ d ih =>
    cases bs with
    | nil => simp at hlen
    | cons b bs =>
      have hlen : bs.length = d := Nat.succ_injective hlen
      have hnext : (e.consume 1).inBits = bs ++ rest := by
        rw [consume_inBits hok (by simp [hbits]), hbits]
        rfl
      have hval : kraft 23 lens ≤ (2 * code + b.toNat) * 2 ^ d + bitsVal bs := by
        rw [bitsVal_cons, hlen, pow_succ] at hval
        linarith
      have hpast' := pastCodes_of_kraft_le (n := n + 1) h.lens (by omega) (hlen ▸ bitsVal_lt bs) hval
      rw [h.resolve_past hn (by omega) hpast, bind_ok (readBits_one hok hbits), shiftLeft_or_bit,
        ih (h.consume 1) (consume_readerOk hok (by simp [hbits])) (by omega) (by omega) hlen hnext hval hpast',
        consume_consume hok (by simp [hbits]; omega), Nat.add_comm]

theorem decodeSym_above (h : e.Looks t lens) (hok : e.bits.ReaderOk) (hlen : 23 ≤ e.inBits.length)
    (hval : kraft 23 lens ≤ bitsVal (e.inBits.take 23)) :
    decodeSym t e = .error (.raised .invalidHuffmanTables) (e.consume 23) := by
  have hmin : minOf lens ≤ 23 := minOf_le fun x hx => (h.lens x hx).2
  have hsplit := bitsVal_take_add e.inBits (minOf lens) (23 - minOf lens) (by omega)
  rw [Nat.add_sub_cancel' hmin] at hsplit
  rw [decodeSym_eq h, bind_ok (readBits_run (by omega) hok (by omega)),
    (h.consume _).resolve_above (consume_readerOk hok (by omega)) le_rfl (by omega) (by simp; omega)
      ((consume_inBits hok (by omega)).trans (List.take_append_drop (23 - minOf lens) _).symm) (hsplit ▸ hval),
    consume_consume hok (by omega), Nat.add_sub_cancel' hmin]

/-! ### Any lengths (rule R239 item 1) -/

/-- How decoding a symbol of any lengths ends: with a symbol whose length is the number of bits read, or with an error or a hold. -/
def Engine.DecodesWithin (lens : List Nat) (n : Nat) (e : Engine) (r : EStateM.Result Stop Engine Nat) : Prop :=
  (∃ v d, r = .ok v (e.consume d) ∧ lens[v]? = some (n + d) ∧ d ≤ e.inBits.length) ∨
    ∃ k e', r = .error k e' ∧ (k = .raised .invalidHuffmanTables ∨ k = .raised .insufficientData ∨ k = .hold .input)

theorem Engine.DecodesWithin.consume {d : Nat} {r : EStateM.Result Stop Engine Nat} (hok : e.bits.ReaderOk) (hd : d ≤ e.inBits.length)
    (h : (e.consume d).DecodesWithin lens (n + d) r) : e.DecodesWithin lens n r := by
  refine h.imp_left fun ⟨v, d', hr, hv, hd'⟩ => ?_
  rw [consume_inBits hok hd, List.length_drop] at hd'
  exact ⟨v, d + d', by rw [hr, consume_consume hok (by omega)], by rw [hv, Nat.add_assoc], by omega⟩

/-- A read that finds the input too short ends within the rule. -/
theorem decodesWithin_short (eoi : Bool) (e' : Engine) :
    e.DecodesWithin lens n (.error (if eoi then .raised .insufficientData else .hold .input) e') := by
  cases eoi
  exacts [.inr ⟨_, _, rfl, .inr (.inr rfl)⟩, .inr ⟨_, _, rfl, .inr (.inl rfl)⟩]

/-- A code past those of its length, extended by a bit, is not below the first code of the next length. -/
theorem PastCodes.firstCode_succ_le (hp : PastCodes lens n code) (hfirst : firstCode lens n ≤ code) (b : Bool) :
    firstCode lens (n + 1) ≤ 2 * code + b.toNat := by
  have hle : firstCode lens n + lens.count n ≤ code := by
    refine hp.elim (fun hx => ?_) id
    rwa [List.count_eq_zero.mpr fun hmem => (le_maxOf_of_mem hmem).not_gt hx]
  rw [firstCode_succ]
  omega

theorem Engine.Looks.resolve_not_past (h : e.Looks t lens) (hok : e.bits.ReaderOk) (hp : ¬ PastCodes lens n code)
    (hfirst : firstCode lens n ≤ code) (left : Nat) : e.DecodesWithin lens n (resolveCode t left n code e) := by
  obtain ⟨_, hlt⟩ := not_or.mp hp
  obtain ⟨v, hv, hcode⟩ := exists_symbol_of_code hfirst (Nat.lt_of_not_le hlt)
  exact .inl ⟨v, 0, by rw [consume_zero hok]; exact h.resolve_code hv hcode left, hv, Nat.zero_le _⟩

theorem Engine.Looks.resolve_within {left : Nat} (h : e.Looks t lens) (hok : e.bits.ReaderOk) (hn : minOf lens ≤ n) (h23 : n + left = 23)
    (hfirst : firstCode lens n ≤ code) : e.DecodesWithin lens n (resolveCode t left n code e) := by
  induction left generalizing n e code with
  | zero =>
    by_cases hp : PastCodes lens n code
    · exact .inr ⟨_, _, h.resolve_past_end hn (by omega) hp, .inl rfl⟩
    · exact h.resolve_not_past hok hp hfirst 0
  | succ left ih =>
    by_cases hp : PastCodes lens n code
    · rw [h.resolve_past hn (by omega) hp]
      cases hin : e.inBits with
      | nil =>
        rw [bind_error (readBits_one_empty hok hin)]
        exact decodesWithin_short _ _
      | cons b rest =>
        have hlen : 1 ≤ e.inBits.length := by simp [hin]
        rw [bind_ok (readBits_one hok hin), shiftLeft_or_bit]
        exact Engine.DecodesWithin.consume hok hlen
          (ih (h.consume 1) (consume_readerOk hok hlen) (by omega) (by omega) (hp.firstCode_succ_le hfirst b))
    · exact h.resolve_not_past hok hp hfirst (left + 1)

theorem decodeSym_within (h : e.Looks t lens) (hok : e.bits.ReaderOk) : e.DecodesWithin lens 0 (decodeSym t e) := by
  have hmin : minOf lens ≤ 23 := minOf_le fun x hx => (h.lens x hx).2
  have hzero : firstCode lens (minOf lens) = 0 := firstCode_eq_zero fun _ => minOf_le_of_mem
  rw [decodeSym_eq h]
  rcases readBits_cases (n := minOf lens) (by omega) hok with ⟨hlen, hread⟩ | ⟨_, hread⟩
  · rw [bind_ok hread]
    refine Engine.DecodesWithin.consume hok hlen ?_
    rw [Nat.zero_add]
    exact (h.consume _).resolve_within (consume_readerOk hok hlen) le_rfl (by omega) (hzero ▸ Nat.zero_le _)
  · rw [bind_error hread]
    exact decodesWithin_short _ _

/-! ### The statements -/

/-- HUF_DECODE_SYM decodes a symbol with the table of the current group (rule R238). -/
theorem hufDecodeSym_eq {g : Nat} {u : BitVec 3} (hg : e.huf.symCount.toNat / 50 = g) (hlt : g < e.huf.nSelectors.toNat)
    (hu : e.huf.selectors.read g = some u) :
    hufDecodeSym e = (do
      let s ← decodeSym u.toNat
      modHuf fun h => { h with symCount := BitVec.ofNat 20 (h.symCount.toNat + 1) }
      pure s : Cmd Nat) e := by
  have hsel : selectorGet g e = .ok u e := storeGet_run hu
  rw [hufDecodeSym, get_bind_run, raiseWhen_false_bind (decide_eq_false (by simpa [Config.groupSize, hg] using hlt))]
  simp only [Config.groupSize, hg]
  rw [bind_ok hsel]

/-- Settles O29: the code of a symbol lies past the codes of every shorter length (`resolve_canonical`), and so do bits at or above the
Kraft sum for every length (`resolve_above`). -/
theorem decodeInvertsCodes : Obligations.DecodeInvertsCodes := by
  intro s lens hl hok g
  refine ⟨fun hg => ?_, fun u hlt hu hu6 hlook h2 h258 h hk => ?_⟩
  · refine raises_of (body := cmdHufDecodeSym) rfl hl (noChecks_run _) (bind_error ?_)
    exact raiseWhen_true_bind (decide_eq_true hg) _ _
  · have hlooks : s.begun.Looks u.toNat lens :=
      ⟨hu6, hlook.congr ⟨rfl, rfl, fun _ => rfl, fun _ => rfl, fun _ => rfl⟩, List.ne_nil_of_length_pos (by omega), h258, h⟩
    have hsym : hufDecodeSym s.begun = _ := hufDecodeSym_eq (g := g) rfl hlt hu
    refine ⟨fun v hv rest hbits => ?_, fun hlen hval => ?_⟩
    · refine completes_of (body := cmdHufDecodeSym) rfl hl (noChecks_run _) (bind_ok (a := v) (hsym.trans ?_))
      exact bind_ok (decodeSym_canonical hlooks hok hv hk hbits)
    · refine raises_of (body := cmdHufDecodeSym) rfl hl (noChecks_run _) (bind_error (hsym.trans ?_))
      exact bind_error (decodeSym_above hlooks hok hlen hval)

/-- Settles O30: the code read so far is never below the first code of its length (`resolve_within`), so that no element before PERM is
looked up. -/
theorem decodeStaysInTable : Obligations.DecodeStaysInTable := by
  intro e t lens hok ht hlook h2 h258 h
  have hlooks : e.Looks t lens := ⟨ht, hlook, List.ne_nil_of_length_pos (by omega), h258, h⟩
  rcases decodeSym_within hlooks hok with ⟨v, d, hr, hv, hd⟩ | ⟨k, e', hr, hk⟩
  · obtain ⟨hlt, hget⟩ := List.getElem?_eq_some_iff.mp hv
    have hlen : lens.getD v 0 = d := by rw [List.getD_eq_getElem _ _ hlt, hget, Nat.zero_add]
    rw [hr]
    exact ⟨hlt, by rw [hlen], hlen.symm ▸ hd⟩
  · rw [hr]
    exact hk

end Sys2Proof.Machine
end

section
/-! SUPPORT. What HUF_WRITE_TABLES, HUF_ENCODE_DATA and HUF_ENCODE_SYM write (rules R229 to R232). Writing bits changes neither the tables
nor the stream, so each piece writes what the tables and the stream at the start of the command say. -/

namespace Sys2Proof.Machine

variable {α : Type} {e e₀ : Engine} {as bs : List Bool} {c : Cmd Unit}

/-! ### Pieces that write what the tables say -/

/-- From an engine with the tables and the stream of `e₀`, the piece writes the bits `bs` and does nothing else, with room for them. -/
def Cmd.EmitsOn (e₀ : Engine) (bs : List Bool) (c : Cmd Unit) : Prop :=
  ∀ e : Engine, e.huf = e₀.huf → e.mtf = e₀.mtf → e.bits.WriterOk → e.HasRoom bs.length → c e = .ok () (e.append bs)

theorem Cmd.Emits.on (h : Cmd.Emits bs c) : Cmd.EmitsOn e₀ bs c := fun _ _ _ hok hroom => h.run hok hroom

theorem Cmd.EmitsOn.congr {c' : Cmd Unit} (h : Cmd.EmitsOn e₀ bs c)
    (heq : ∀ e : Engine, e.huf = e₀.huf → e.mtf = e₀.mtf → c' e = c e) : Cmd.EmitsOn e₀ bs c' :=
  fun e hhuf hmtf hok hroom => (heq e hhuf hmtf).trans (h e hhuf hmtf hok hroom)

theorem emitsOn_bind {x y : Cmd Unit} (hx : Cmd.EmitsOn e₀ as x) (hy : Cmd.EmitsOn e₀ bs y) :
    Cmd.EmitsOn e₀ (as ++ bs) (do x; y) := by
  intro e hhuf hmtf hok hroom
  rw [List.length_append] at hroom
  obtain ⟨hfirst, hrest⟩ := hasRoom_append hroom
  rw [bind_ok (hx e hhuf hmtf hok hfirst), hy (e.append as) hhuf hmtf (append_writerOk _) hrest, append_append]

theorem emitsOn_forEach {xs : List α} {c : α → Cmd Unit} {f : α → List Bool} (h : ∀ x ∈ xs, Cmd.EmitsOn e₀ (f x) (c x)) :
    Cmd.EmitsOn e₀ (xs.flatMap f) (forEach xs c) := by
  induction xs with
  | nil => exact emits_pure.on
  | cons x xs ih =>
    rw [List.flatMap_cons]
    exact emitsOn_bind (h x (by simp)) (ih fun y hy => h y (by simp [hy]))

/-! ### Codes (rules R231, R232) -/

/-- `WriteBits(c[31:24], c[23:0])` writes the bits of the packed code. -/
theorem emits_writeCode {w : Word} (h : w.toNat / 2 ^ 24 ≤ 24) : Cmd.Emits (codeBits w.toNat) (writeCode w) := by
  have hemits := emits_writeBits h (w.toNat % 2 ^ 24)
  rw [← codeBits_pack h (Nat.mod_lt _ (Nat.two_pow_pos 24)), Nat.div_add_mod'] at hemits
  rwa [writeCode, codeLen, Nat.shiftRight_eq_div_pow]

theorem sels_getD {g : Nat} (h : g < e.huf.nSelectors.toNat) : e.sels.getD g 0 = ((e.huf.selectors.read g).getD 0).toNat := by
  simp [Engine.sels, List.getD_eq_getElem?_getD, h]

theorem symbols_getD {i : Nat} (h : i < e.mtf.len.toNat) : e.symbols.getD i 0 = ((e.mtf.stream.read i).getD 0).toNat := by
  simp [Engine.symbols, List.getD_eq_getElem?_getD, h]

theorem codeOfSymbol_run {i : Nat} (hi : i < e₀.mtf.len.toNat) (hlen : e₀.mtf.len.toNat ≤ e₀.huf.nSelectors.toNat * 50)
    (hfill : e₀.StreamFilled) (hsel : e₀.SelectorsOk 6) (hsym : ∀ x ∈ e₀.symbols, x < 258) :
    ∃ w : Word, w.toNat = e₀.codeAt i ∧
      ∀ e : Engine, e.huf = e₀.huf → e.mtf = e₀.mtf → codeOfSymbol i e = .ok w e := by
  have hg : i / 50 < e₀.huf.nSelectors.toNat := by omega
  obtain ⟨t, ht, ht6⟩ := hsel _ hg
  obtain ⟨x, hx⟩ := hfill i hi
  have hxval : e₀.symbols.getD i 0 = x.toNat := by rw [symbols_getD hi, hx, Option.getD_some]
  have hx258 : x.toNat < 258 := by
    refine hsym _ (List.mem_map.mpr ⟨i, List.mem_range.mpr hi, ?_⟩)
    rw [hx, Option.getD_some]
  refine ⟨e₀.huf.code[t.toNat][x.toNat], ?_, fun e hhuf hmtf => ?_⟩
  · rw [Engine.codeAt, sels_getD hg, ht, Option.getD_some, hxval, cell_eq_getElem _ ht6 hx258]
  · have hget : selectorGet (i / 50) e = .ok t e := storeGet_run (by rw [hhuf]; exact ht)
    have hread : mtfStreamGet i e = .ok x e := storeGet_run (by rw [hmtf]; exact hx)
    rw [codeOfSymbol, bind_ok hget, bind_ok hread, get_bind_run, tableGet2_run ht6 hx258]
    simp only [hhuf]

/-! ### Selectors (rule R229) -/

theorem selectorPosition_of_mem {list : List Nat} {sel : Nat} (h : sel ∈ list) : selectorPosition list sel = pure (list.idxOf sel) := by
  have hfind : list.findIdx? (fun x => decide (x = sel)) = some (list.idxOf sel) :=
    List.findIdx?_eq_some_iff_findIdx_eq.mpr ⟨List.idxOf_lt_length_iff.mpr h, rfl⟩
  rw [selectorPosition, hfind]

theorem listToFront_idxOf {list : List Nat} {v : Nat} (h : v ∈ list) :
    listToFront list (list.idxOf v) = v :: list.eraseIdx (list.idxOf v) := by
  rw [listToFront_eq (List.idxOf_lt_length_iff.mpr h), List.getElem_idxOf]

theorem emitsOn_writeSelectors {gs list : List Nat} (h : ∀ g ∈ gs, ∃ t, e₀.huf.selectors.read g = some t ∧ t.toNat ∈ list) :
    Cmd.EmitsOn e₀ ((frontPositions list (gs.map fun g => ((e₀.huf.selectors.read g).getD 0).toNat)).flatMap unaryBits)
      (writeSelectors gs list) := by
  induction gs generalizing list with
  | nil => exact emits_pure.on
  | cons g gs ih =>
    obtain ⟨t, ht, hmem⟩ := h g List.mem_cons_self
    have hperm := listToFront_perm (List.idxOf_lt_length_iff.mpr hmem)
    have hrest := ih (list := listToFront list (list.idxOf t.toNat)) fun g' hg' => by
      obtain ⟨t', ht', hmem'⟩ := h g' (List.mem_cons_of_mem _ hg')
      exact ⟨t', ht', hperm.mem_iff.mpr hmem'⟩
    rw [listToFront_idxOf hmem] at hrest
    rw [List.map_cons, ht, Option.getD_some, frontPositions, List.flatMap_cons]
    refine (emitsOn_bind (emits_writeUnary (list.idxOf t.toNat)).on hrest).congr fun e hhuf hmtf => ?_
    have hget : selectorGet g e = .ok t e := storeGet_run (by rw [hhuf]; exact ht)
    rw [writeSelectors, bind_ok hget, selectorPosition_of_mem hmem, pure_bind_run, listToFront_idxOf hmem]

/-! ### Lengths (rule R229) -/

theorem emits_writeDeltas (lens : List Nat) (cur : Nat) : Cmd.Emits (deltaBits cur lens) (writeDeltas lens cur) := by
  induction lens generalizing cur with
  | nil => exact emits_pure
  | cons n lens ih =>
    have hup := emits_repeatCmd (emits_writeBits (n := 2) (by norm_num) 2) (n - cur)
    have hdown := emits_repeatCmd (emits_writeBits (n := 2) (by norm_num) 3) (cur - n)
    have hend := emits_writeBits (n := 1) (by norm_num) 0
    have h := emits_bind hup (emits_bind hdown (emits_bind hend (ih n)))
    rw [← List.append_assoc] at h
    exact h

theorem emitsOn_writeTables (ha : e₀.AlphaOk) (hn : e₀.huf.nGroups.toNat ≤ 6) (hsel : e₀.SelectorsOk e₀.huf.nGroups.toNat) :
    Cmd.EmitsOn e₀ e₀.tableBits writeTables := by
  have hselectors : Cmd.EmitsOn e₀ _
      (writeSelectors (List.range e₀.huf.nSelectors.toNat) (List.range e₀.huf.nGroups.toNat)) :=
    emitsOn_writeSelectors fun g hg => by
      obtain ⟨t, ht, hlt⟩ := hsel g (List.mem_range.mp hg)
      exact ⟨t, ht, List.mem_range.mpr hlt⟩
  have hlens : Cmd.EmitsOn e₀ _ (forEach (List.range e₀.huf.nGroups.toNat) fun t => do
      let lens ← lenRow t (alphaOf e₀.mtf)
      writeBits 5 (lens.headD 0)
      writeDeltas lens (lens.headD 0)) :=
    emitsOn_forEach fun t ht => by
      refine ((emits_bind (emits_writeBits (n := 5) (by norm_num) ((e₀.lens t).headD 0))
        (emits_writeDeltas (e₀.lens t) ((e₀.lens t).headD 0))).on).congr fun e hhuf hmtf => ?_
      have hrow : lenRow t (alphaOf e₀.mtf) e = .ok (e₀.lens t) e := by
        have ht6 : t < 6 := (List.mem_range.mp ht).trans_le hn
        have hrun : lenRow t (alphaOf e.mtf) e = .ok (e.lens t) e := lenRow_run ht6 (by rw [Engine.AlphaOk, hmtf]; exact ha)
        have hlens : e.lens t = e₀.lens t := by simp only [Engine.lens, Engine.alpha, hhuf, hmtf]
        rwa [hmtf, hlens] at hrun
      rw [bind_ok hrow]
  have h := emitsOn_bind (emits_writeBits (n := 3) (by norm_num) e₀.huf.nGroups.toNat).on
    (emitsOn_bind (emits_writeBits (n := 15) (by norm_num) e₀.huf.nSelectors.toNat).on (emitsOn_bind hselectors hlens))
  rw [← List.append_assoc, ← List.append_assoc] at h
  refine h.congr fun e hhuf hmtf => ?_
  rw [writeTables, get_bind_run, hhuf, hmtf]

/-! ### The statement -/

/-- Settles O25: each piece writes what the tables and the stream say (`emitsOn_writeTables`, `codeOfSymbol_run`, `emits_writeCode`). -/
theorem tablesAndDataWritten : Obligations.TablesAndDataWritten := by
  intro s hl ha hok
  refine ⟨fun h2 h6 h1 h18001 hsel hlens hroom => ?_, fun hlen hfill hsel hsym hcode => ?_, fun t ht => ?_⟩
  · have hchecks : checkHufWriteTables s.toEngine = .ok () s.toEngine := by
      rw [checkHufWriteTables_eq ha]
      exact requireOk_true (decide_eq_true ⟨h2, h6, h1, h18001, hlens⟩)
    exact completes_of rfl hl hchecks (bind_ok (emitsOn_writeTables (e₀ := s.begun) ha h6 hsel s.begun rfl rfl hok hroom))
  · intro bits hroom
    have hrun := fun i (hi : i ∈ List.range s.mtf.len.toNat) =>
      codeOfSymbol_run (e₀ := s.begun) (List.mem_range.mp hi) hlen hfill hsel hsym
    have hchecks : encodeChecks s.toEngine = .ok () s.toEngine := by
      refine (requireOk_true_bind (decide_eq_true hlen) _).trans (forEach_pure fun i hi => ?_)
      obtain ⟨w, hw, hget⟩ := hrun i hi
      have hpos := (hcode i (List.mem_range.mp hi)).1
      have hw : w.toNat / 2 ^ 24 = s.codeAt i / 2 ^ 24 := congrArg (· / 2 ^ 24) hw
      refine (bind_ok (hget s.toEngine rfl rfl)).trans (requireOk_true (decide_eq_true ?_))
      rw [codeLen, Nat.shiftRight_eq_div_pow, hw]
      omega
    have hwrite : Cmd.EmitsOn s.begun bits (forEach (List.range s.mtf.len.toNat) writeSymbol) :=
      emitsOn_forEach fun i hi => by
        obtain ⟨w, hw, hget⟩ := hrun i hi
        have hw : w.toNat = s.codeAt i := hw
        rw [← hw]
        refine (emits_writeCode ?_).on.congr fun e hhuf hmtf => bind_ok (hget e hhuf hmtf)
        rw [hw]
        exact (hcode i (List.mem_range.mp hi)).2
    exact completes_of rfl hl hchecks (bind_ok (hwrite s.begun rfl rfl hok hroom))
  · intro c hs h1 h24 hroom
    have ht6 : t.toNat < 6 := Nat.lt_succ_of_le ht
    have hs258 : s.host.arg.toNat % 512 < 258 := hs.trans_le (alpha_le ha)
    have hc : s.huf.code[t.toNat][s.host.arg.toNat % 512].toNat = c := (cell_eq_getElem _ ht6 hs258).symm
    have hchecks : checkHufEncodeSym t s.toEngine = .ok () s.toEngine := by
      rw [checkHufEncodeSym_eq ha]
      exact requireOk_true (decide_eq_true ⟨ht, hs, Nat.ne_of_gt h1⟩)
    have hemits := emits_writeCode (w := s.huf.code[t.toNat][s.host.arg.toNat % 512]) (by rw [hc]; exact h24)
    rw [hc] at hemits
    exact completes_of rfl hl hchecks ((bind_ok (tableGet2_run ht6 hs258)).trans
      (hemits.run (e := s.begun) hok (by rw [codeBits, bitsOf_length]; exact hroom)))

end Sys2Proof.Machine
end

section
/-! SUPPORT. The seed of the tables (rule R222): the alphabet is cut into one band per table, and the rows of LEN are written one after the
other. -/

namespace Sys2Proof.Machine

variable {e : Engine}

/-! ### Rows of a table written one after the other -/

section
variable {w n k t v : Nat} {tbl : Table6 (BitVec w) n}

/-- An element outside a table is 0. -/
theorem cell_eq_zero (tbl : Table6 (BitVec w) n) {t v : Nat} (h : ¬ (t < 6 ∧ v < n)) : cell tbl t v = 0 := by
  by_cases ht : t < 6
  · have hv : ¬ v < n := fun hv => h ⟨ht, hv⟩
    simp [cell, List.getD_eq_getElem?_getD, ht, hv]
  · simp [cell, List.getD_eq_getElem?_getD, ht]

theorem cell_lt (tbl : Table6 (BitVec w) n) (t v : Nat) : cell tbl t v < 2 ^ w := BitVec.isLt _

theorem cell_withRow (ht : k < 6) {xs : List Nat} (hxs : xs.length ≤ n) :
    cell (withRow tbl k xs) t v = if t = k ∧ v < xs.length then xs.getD v 0 % 2 ^ w else cell tbl t v := by
  by_cases hin : t < 6 ∧ v < n
  · rw [cell_eq_getElem _ hin.1 hin.2, cell_eq_getElem _ hin.1 hin.2]
    by_cases hrow : t = k ∧ v < xs.length <;> simp [withRow, hrow]
  · rw [if_neg (by omega), cell_eq_zero _ (by omega), cell_eq_zero _ (by omega)]

/-- A table with the first elements of its first `k` rows replaced. -/
def withRows (tbl : Table6 (BitVec w) n) (k : Nat) (xs : Nat → List Nat) : Table6 (BitVec w) n :=
  (List.range k).foldl (fun m t => withRow m t (xs t)) tbl

theorem withRows_succ (tbl : Table6 (BitVec w) n) (k : Nat) (xs : Nat → List Nat) :
    withRows tbl (k + 1) xs = withRow (withRows tbl k xs) k (xs k) := by
  simp [withRows, List.range_succ]

theorem cell_withRows {xs : Nat → List Nat} (hk : k ≤ 6) (hxs : ∀ t, (xs t).length ≤ n) :
    cell (withRows tbl k xs) t v = if t < k ∧ v < (xs t).length then (xs t).getD v 0 % 2 ^ w else cell tbl t v := by
  induction k with
  | zero => rfl
  | succ k ih =>
    rw [withRows_succ, cell_withRow (by omega) (hxs k), ih (by omega)]
    by_cases hin : t = k
    · subst hin
      simp
    · simp [hin, show t < k + 1 ↔ t < k by omega]

end

/-! ### The bands (rule R222) -/

/-- A band takes symbols until their frequencies reach the target, or none are left. -/
theorem takeBand_spec (target : Nat) (fs : List Nat) (c a : Nat) :
    ∃ k ≤ fs.length, takeBand target fs c a = (c + k, a + (fs.take k).sum) ∧
      (k = fs.length ∨ target ≤ a + (fs.take k).sum) ∧ ∀ j < k, a + (fs.take j).sum < target := by
  induction fs generalizing c a with
  | nil => exact ⟨0, le_rfl, rfl, .inl rfl, fun j hj => absurd hj (Nat.not_lt_zero j)⟩
  | cons f fs ih =>
    rw [takeBand]
    by_cases hlt : a < target
    · obtain ⟨k, hk, hband, hend, hbelow⟩ := ih (c + 1) (a + f)
      have hsum : ∀ j, ((f :: fs).take (j + 1)).sum = f + (fs.take j).sum := fun j => by simp
      refine ⟨k + 1, Nat.succ_le_succ hk, ?_, ?_, fun j hj => ?_⟩
      · rw [if_pos hlt, hband, hsum]
        congr 1 <;> omega
      · rw [hsum, List.length_cons]
        omega
      · cases j with
        | zero => simpa using hlt
        | succ j =>
          have := hbelow j (by omega)
          rw [hsum]
          omega
    · exact ⟨0, Nat.zero_le _, if_neg hlt, .inr (Nat.le_of_not_lt hlt), fun j hj => absurd hj (Nat.not_lt_zero j)⟩

/-- The engine with other lengths. -/
def Engine.withLen (m : Table6 (BitVec 5) 258) (e : Engine) : Engine := { e with huf.len := m }

/-- What the frequencies left after the first `gs` symbols aim at for one of the `left` tables left. -/
def seedTarget (freqs : List Nat) (total left gs : Nat) : Nat := (total - (freqs.take gs).sum) / left

/-- Where the band of table `t` begins (rule R222). -/
def seedCut (freqs : List Nat) (total nG : Nat) : Nat → Nat
  | 0 => 0
  | t + 1 =>
    let gs := seedCut freqs total nG t
    gs + (takeBand (seedTarget freqs total (nG - t) gs) (freqs.drop gs) 0 0).1

section
variable {freqs : List Nat} {total nG : Nat}

/-- The band of table `t`, from its cut to the next. -/
theorem seedCut_spec (t : Nat) (hle : seedCut freqs total nG t ≤ freqs.length) :
    let gs := seedCut freqs total nG t
    let target := seedTarget freqs total (nG - t) gs
    ∃ k, seedCut freqs total nG (t + 1) = gs + k ∧ gs + k ≤ freqs.length ∧
      takeBand target (freqs.drop gs) 0 0 = (k, ((freqs.drop gs).take k).sum) ∧
      (gs + k = freqs.length ∨ target ≤ ((freqs.drop gs).take k).sum) ∧ ∀ j < k, ((freqs.drop gs).take j).sum < target := by
  intro gs target
  obtain ⟨k, hk, hband, hend, hbelow⟩ := takeBand_spec target (freqs.drop gs) 0 0
  simp only [Nat.zero_add, List.length_drop] at hk hband hend hbelow
  refine ⟨k, ?_, by omega, hband, hend.imp_left (by omega), hbelow⟩
  rw [seedCut, hband]

theorem seedCut_le (t : Nat) : seedCut freqs total nG t ≤ freqs.length := by
  induction t with
  | zero => exact Nat.zero_le _
  | succ t ih =>
    obtain ⟨k, hcut, hk, _⟩ := seedCut_spec t ih
    rwa [hcut]

/-- The row of LEN that the seed gives table `t`. -/
def seedRow (freqs : List Nat) (total nG t : Nat) : List Nat :=
  seedLens freqs.length (seedCut freqs total nG t) (seedCut freqs total nG (t + 1) - seedCut freqs total nG t)

theorem seedTables_run {k : Nat} (t : Nat) (ht : t + k ≤ 6) :
    seedTables freqs nG (List.range' t k) (total - (freqs.take (seedCut freqs total nG t)).sum) (seedCut freqs total nG t)
        (e.withLen (withRows e.huf.len t (seedRow freqs total nG))) =
      .ok () (e.withLen (withRows e.huf.len (t + k) (seedRow freqs total nG))) := by
  induction k generalizing t with
  | zero => rfl
  | succ k ih =>
    obtain ⟨j, hcut, _, hband, _⟩ := seedCut_spec (freqs := freqs) (total := total) (nG := nG) t (seedCut_le t)
    have hrow : seedLens freqs.length (seedCut freqs total nG t) j = seedRow freqs total nG t := by
      rw [seedRow, hcut, Nat.add_sub_cancel_left]
    have hrest : total - (freqs.take (seedCut freqs total nG t)).sum - ((freqs.drop (seedCut freqs total nG t)).take j).sum =
        total - (freqs.take (seedCut freqs total nG (t + 1))).sum := by
      rw [hcut, List.take_add, List.sum_append, Nat.sub_sub]
    have hband' : takeBand ((total - (freqs.take (seedCut freqs total nG t)).sum) / (nG - t))
        (freqs.drop (seedCut freqs total nG t)) 0 0 = _ := hband
    rw [List.range'_succ, seedTables]
    simp only [hband']
    have hset := setLenRow_run (e := e.withLen (withRows e.huf.len t (seedRow freqs total nG))) (t := t) (by omega)
      (seedRow freqs total nG t)
    rw [hrow, bind_ok hset, hrest, ← hcut]
    have hih := ih (t + 1) (by omega)
    rw [withRows_succ, Nat.add_right_comm] at hih
    exact hih

theorem seedRow_length (t : Nat) : (seedRow freqs total nG t).length = freqs.length := by simp [seedRow, seedLens]

theorem seedRow_getD {t v : Nat} (hv : v < freqs.length) :
    (seedRow freqs total nG t).getD v 0 =
      if seedCut freqs total nG t ≤ v ∧ v < seedCut freqs total nG (t + 1) then 0 else 15 := by
  obtain ⟨j, hcut, _⟩ := seedCut_spec (freqs := freqs) (total := total) (nG := nG) t (seedCut_le t)
  simp [seedRow, seedLens, List.getD_eq_getElem?_getD, hv, hcut]

end

/-! ### HUF_SEED -/

/-- MTF_FREQ[0 .. ALPHA−1]. -/
def Engine.freqs (e : Engine) : List Nat := (List.range e.alpha).map fun v => (e.mtf.freq.toList.getD v 0).toNat

theorem freqs_length : e.freqs.length = e.alpha := by simp [Engine.freqs]

/-- The frequencies of the symbols from `a` on. -/
theorem freqs_drop_take {a k : Nat} (h : a + k ≤ e.alpha) :
    (e.freqs.drop a).take k = (List.range k).map fun i => (e.mtf.freq.toList.getD (a + i) 0).toNat := by
  refine List.ext_getElem (by rw [List.length_take, List.length_drop, freqs_length]; simp; omega) fun i h₁ h₂ => ?_
  simp [Engine.freqs]

theorem mtfFreqs_run (ha : e.AlphaOk) : mtfFreqs e = .ok e.freqs e := by
  have hn : alphaOf e.mtf ≤ 258 := alpha_le ha
  rw [mtfFreqs, get_bind_run]
  simp only [hn, if_true]
  rw [take_eq_map_range _ 0 (by simpa using hn), List.map_map]
  rfl

theorem seed_run (ha : e.AlphaOk) (hn : e.huf.nGroups.toNat ≤ 6) : ∃ e', seed e = .ok () e' ∧ SeedResult e e' := by
  let nG := e.huf.nGroups.toNat
  let row := seedRow e.freqs e.mtf.len.toNat nG
  let cut := seedCut e.freqs e.mtf.len.toNat nG
  have hrun := seedTables_run (e := e) (freqs := e.freqs) (total := e.mtf.len.toNat) (nG := nG) (k := nG) 0 (by omega)
  rw [Nat.zero_add, ← List.range_eq_range'] at hrun
  have hrow : ∀ t, (row t).length = e.alpha := fun t => (seedRow_length t).trans freqs_length
  have hcell : ∀ t v, cell (withRows e.huf.len nG row) t v = _ := fun t v =>
    cell_withRows hn fun t => (hrow t).trans_le (alpha_le ha)
  refine ⟨e.withLen (withRows e.huf.len nG row), (bind_ok (mtfFreqs_run ha)).trans hrun, cut, _, rfl, rfl, fun t ht => ?_,
    fun t v htv => by rw [hcell, hrow, if_neg (by omega)]⟩
  obtain ⟨k, hcut, hk, _, hend, hbelow⟩ := seedCut_spec (freqs := e.freqs) (total := e.mtf.len.toNat) (nG := nG) t (seedCut_le t)
  have hcut : cut (t + 1) = cut t + k := hcut
  rw [freqs_length] at hk hend
  have hk : cut t + k ≤ e.alpha := hk
  have hsum : ∀ j ≤ k, ((e.freqs.drop (cut t)).take j).sum =
      ((List.range j).map fun i => (e.mtf.freq.toList.getD (cut t + i) 0).toNat).sum := fun j hj =>
    congrArg List.sum (freqs_drop_take (by omega))
  have hfirst : (e.freqs.take (cut t)).sum = ((List.range (cut t)).map fun i => (e.mtf.freq.toList.getD (0 + i) 0).toNat).sum :=
    congrArg List.sum (freqs_drop_take (a := 0) (by omega))
  have htarget : seedTarget e.freqs e.mtf.len.toNat (nG - t) (cut t) = (e.mtf.len.toNat -
      ((List.range (cut t)).map fun i => (e.mtf.freq.toList.getD (0 + i) 0).toNat).sum) / (nG - t) := by rw [seedTarget, hfirst]
  dsimp only
  rw [Nat.sub_zero, ← htarget, hcut, Nat.add_sub_cancel_left, ← hsum k le_rfl]
  refine ⟨Nat.le_add_right _ _, hk, hend, fun c hc hlt => ?_, fun v hv => ?_⟩
  · rw [← hsum (c - cut t) (by omega)]
    exact hbelow _ (by omega)
  · rw [hcell, hrow, if_pos ⟨ht, hv⟩, seedRow_getD (freqs_length.symm ▸ hv), ← hcut]
    split_ifs <;> rfl

/-- Settles O22: each band ends where its frequencies reach the target (`takeBand_spec`), and the rows of LEN are written one after the
other (`seedTables_run`). -/
theorem seedCutsBands : Obligations.SeedCutsBands := by
  intro s hl h2 h6 hm ha
  obtain ⟨e, hrun, hres⟩ := seed_run (e := s.begun) ha h6
  have hm0 : s.mtf.len.toNat ≠ 0 := fun h => hm (BitVec.eq_of_toNat_eq h)
  exact ⟨e, completes_of (body := cmdHufSeed) rfl hl (requireOk_true (decide_eq_true ⟨h2, h6, hm0⟩)) hrun, hres⟩

end Sys2Proof.Machine
end

section
/-! SUPPORT. The selection passes (rules R223 to R226): every group chooses a table from the lengths the pass starts with, and only then are
the counts and the lengths of the tables replaced. -/

namespace Sys2Proof.Machine

variable {e : Engine}

/-! ### The first table of least cost -/

theorem leastIndex_spec {xs : List Nat} (h : xs ≠ []) :
    ∃ hlt : leastIndex xs < xs.length, xs[leastIndex xs] = minOf xs ∧
      ∀ i (hi : i < leastIndex xs), minOf xs < xs[i] := by
  have hlt : leastIndex xs < xs.length := List.findIdx_lt_length_of_exists ⟨minOf xs, minOf_mem h, by simp⟩
  have hmin := List.findIdx_getElem (w := hlt)
  refine ⟨hlt, of_decide_eq_true hmin, fun i hi => ?_⟩
  refine lt_of_le_of_ne (minOf_le_of_mem (List.getElem_mem _)) fun heq => ?_
  simpa [heq] using List.not_of_lt_findIdx hi

/-- The table that group `g` chooses (rule R224). -/
def Engine.choice (e : Engine) (g : Nat) : Nat := leastIndex ((List.range e.huf.nGroups.toNat).map (e.cost g))

theorem choice_spec (hn : 2 ≤ e.huf.nGroups.toNat) (g : Nat) :
    e.choice g < e.huf.nGroups.toNat ∧ ∀ t < e.huf.nGroups.toNat,
      e.cost g (e.choice g) ≤ e.cost g t ∧ (t < e.choice g → e.cost g (e.choice g) < e.cost g t) := by
  have hne : (List.range e.huf.nGroups.toNat).map (e.cost g) ≠ [] := fun h => by
    have := congrArg List.length h
    simp at this
    omega
  obtain ⟨hlt, hmin, hbelow⟩ := leastIndex_spec hne
  rw [List.getElem_map, List.getElem_range] at hmin
  have hmin : e.cost g (e.choice g) = _ := hmin
  rw [List.length_map, List.length_range] at hlt
  refine ⟨hlt, fun t ht => ⟨?_, fun hbefore => ?_⟩⟩
  · rw [hmin]
    exact minOf_le_of_mem (List.mem_map.mpr ⟨t, List.mem_range.mpr ht, rfl⟩)
  · have := hbelow t hbefore
    rwa [List.getElem_map, List.getElem_range, ← hmin] at this

/-! ### The symbols and the cost of a group -/

theorem group_eq (g : Nat) : e.group g =
    (List.range (min 50 (e.mtf.len.toNat - 50 * g))).map fun i => ((e.mtf.stream.read (50 * g + i)).getD 0).toNat := by
  refine List.ext_getElem (by simp [Engine.group, symbols_length]) fun i h₁ h₂ => ?_
  simp [Engine.group, Engine.symbols]

theorem groupSyms_run (hfill : e.StreamFilled) (g : Nat) : groupSyms g e = .ok (e.group g) e := by
  have hread : collect ((List.range (min 50 (e.mtf.len.toNat - 50 * g))).map (50 * g + ·)) mtfStreamGet e =
      .ok (((List.range (min 50 (e.mtf.len.toNat - 50 * g))).map (50 * g + ·)).map fun i => (e.mtf.stream.read i).getD 0) e :=
    collect_pure fun i hi => by
      obtain ⟨k, hk, rfl⟩ := List.mem_map.mp hi
      rw [List.mem_range] at hk
      obtain ⟨x, hx⟩ := hfill (50 * g + k) (by omega)
      rw [hx]
      exact storeGet_run hx
  rw [groupSyms, get_bind_run, bind_ok hread, pure_run, group_eq, List.map_map, List.map_map]
  rfl

theorem groupCost_run {t : Nat} (ht : t < 6) {grp : List Nat} (hgrp : ∀ x ∈ grp, x < 258) :
    groupCost grp t e = .ok (grp.map (cell e.huf.len t)).sum e := by
  have hread : collect grp (fun s => tableGet2 .len e.huf.len t s) e = .ok (grp.map fun s => BitVec.ofNat 5 (cell e.huf.len t s)) e :=
    collect_pure fun s hs => by
      rw [tableGet2_run ht (hgrp s hs), cell_eq_getElem _ ht (hgrp s hs), BitVec.ofNat_toNat, BitVec.setWidth_eq]
  rw [groupCost, get_bind_run, bind_ok hread, pure_run, List.map_map]
  congr 3
  funext s
  simpa using Nat.mod_eq_of_lt (cell_lt e.huf.len t s)

theorem group_subset (g : Nat) : e.group g ⊆ e.symbols :=
  ((List.take_sublist _ _).trans (List.drop_sublist _ _)).subset

/-! ### Counting -/

theorem cell_withCell {w n t s u v : Nat} {tbl : Table6 (BitVec w) n} (ht : t < 6) (hs : s < n) (x : Nat) :
    cell (withCell tbl t s x) u v = if u = t ∧ v = s then x % 2 ^ w else cell tbl u v := by
  by_cases hin : u < 6 ∧ v < n
  · rw [cell_eq_getElem _ hin.1 hin.2, cell_eq_getElem _ hin.1 hin.2]
    by_cases hcell : u = t ∧ v = s <;> simp [withCell, hcell]
  · rw [if_neg (by omega), cell_eq_zero _ hin, cell_eq_zero _ hin]

/-- The counts with one more in row `t` for each symbol of a list. -/
def bumped (tbl : Table6 (BitVec 20) 258) (t : Nat) (xs : List Nat) : Table6 (BitVec 20) 258 :=
  xs.foldl (fun m s => withCell m t s (cell m t s + 1)) tbl

/-- Counts that have been taken: each is the one before plus the number given for it, modulo its 20 bits. -/
def CountsUp (tbl tbl' : Table6 (BitVec 20) 258) (more : Nat → Nat → Nat) : Prop :=
  ∀ u v, cell tbl' u v = (cell tbl u v + more u v) % 2 ^ 20

theorem CountsUp.trans {tbl₁ tbl₂ tbl₃ : Table6 (BitVec 20) 258} {more more' : Nat → Nat → Nat} (h : CountsUp tbl₁ tbl₂ more)
    (h' : CountsUp tbl₂ tbl₃ more') : CountsUp tbl₁ tbl₃ fun u v => more u v + more' u v := fun u v => by
  rw [h', h, Nat.mod_add_mod, Nat.add_assoc]

theorem CountsUp.rfl {tbl : Table6 (BitVec 20) 258} : CountsUp tbl tbl fun _ _ => 0 := fun u v =>
  (Nat.mod_eq_of_lt (cell_lt tbl u v)).symm

theorem countsUp_bumped {t : Nat} (ht : t < 6) {xs : List Nat} (hxs : ∀ x ∈ xs, x < 258) (tbl : Table6 (BitVec 20) 258) :
    CountsUp tbl (bumped tbl t xs) fun u v => if u = t then xs.count v else 0 := by
  induction xs generalizing tbl with
  | nil =>
    exact fun u v => (CountsUp.rfl u v).trans (by simp [bumped])
  | cons x xs ih =>
    have hone : CountsUp tbl (withCell tbl t x (cell tbl t x + 1)) fun u v => if u = t ∧ v = x then 1 else 0 := fun u v => by
      rw [cell_withCell ht (hxs x List.mem_cons_self)]
      by_cases hin : u = t ∧ v = x
      · simp [hin]
      · simpa [hin] using CountsUp.rfl u v
    intro u v
    rw [bumped, List.foldl_cons]
    refine (hone.trans (ih (fun y hy => hxs y (List.mem_cons_of_mem _ hy)) _) u v).trans ?_
    by_cases hu : u = t <;> by_cases hv : x = v <;> simp [hu, hv, eq_comm, Nat.add_comm]

/-- The engine with other selectors and counts. -/
def Engine.withChoices (sel : Store (BitVec 3)) (rf : Table6 (BitVec 20) 258) (e : Engine) : Engine :=
  { e with huf.selectors := sel, huf.rfreq := rf }

theorem forEach_rfreqBump {sel : Store (BitVec 3)} {t : Nat} (ht : t < 6) {xs : List Nat} (hxs : ∀ x ∈ xs, x < 258)
    (rf : Table6 (BitVec 20) 258) :
    forEach xs (rfreqBump t) (e.withChoices sel rf) = .ok () (e.withChoices sel (bumped rf t xs)) := by
  induction xs generalizing rf with
  | nil => rfl
  | cons x xs ih =>
    have hx := hxs x List.mem_cons_self
    have hone : rfreqBump t x (e.withChoices sel rf) = .ok () (e.withChoices sel (withCell rf t x (cell rf t x + 1))) := by
      rw [rfreqBump, get_bind_run, bind_ok (tableGet2_run ht hx), ← cell_eq_getElem _ ht hx, bind_ok (tableSet2_run ht hx), modHuf_run]
      rfl
    rw [forEach_cons, bind_ok hone, ih fun y hy => hxs y (List.mem_cons_of_mem _ hy)]
    rfl

/-! ### The loop over the groups -/

/-- The selectors after the groups of a list have written theirs. -/
def Engine.selectorsFor (e : Engine) (gs : List Nat) (sel : Store (BitVec 3)) : Store (BitVec 3) :=
  gs.foldl (fun sel g => sel.write g (BitVec.ofNat 3 (e.choice g))) sel

/-- The counts after the groups of a list have been counted under their tables. -/
def Engine.countsFor (e : Engine) (gs : List Nat) (rf : Table6 (BitVec 20) 258) : Table6 (BitVec 20) 258 :=
  gs.foldl (fun rf g => bumped rf (e.choice g) (e.group g)) rf

/-- How often symbol `v` stands in the groups of a list that have chosen table `t`. -/
def Engine.countIn (e : Engine) (gs : List Nat) (t v : Nat) : Nat :=
  ((gs.filter fun g => e.choice g = t).map fun g => (e.group g).count v).sum

theorem read_selectorsFor (gs : List Nat) (sel : Store (BitVec 3)) (i : Nat) :
    (e.selectorsFor gs sel).read i = if i ∈ gs then some (BitVec.ofNat 3 (e.choice i)) else sel.read i := by
  induction gs generalizing sel with
  | nil => simp [Engine.selectorsFor]
  | cons g gs ih =>
    rw [Engine.selectorsFor, List.foldl_cons]
    refine (ih _).trans ?_
    rw [Store.read_write]
    by_cases hg : i = g <;> simp [hg]

section
variable (hn : 2 ≤ e.huf.nGroups.toNat) (hn6 : e.huf.nGroups.toNat ≤ 6) (hsym : ∀ x ∈ e.symbols, x < 258)
include hn hn6 hsym

theorem countsUp_countsFor (gs : List Nat) (rf : Table6 (BitVec 20) 258) : CountsUp rf (e.countsFor gs rf) (e.countIn gs) := by
  induction gs generalizing rf with
  | nil => exact CountsUp.rfl
  | cons g gs ih =>
    have hchoice : e.choice g < 6 := (choice_spec hn g).1.trans_le hn6
    intro u v
    rw [Engine.countsFor, List.foldl_cons]
    refine ((countsUp_bumped hchoice (fun x hx => hsym x (group_subset g hx)) rf).trans (ih _) u v).trans ?_
    by_cases hu : e.choice g = u
    · simp [Engine.countIn, hu]
    · simp [Engine.countIn, hu, Ne.symm hu]

theorem selectGroups_run (hfill : e.StreamFilled) {gs : List Nat} (hgs : ∀ g ∈ gs, g < selectorsSize) (total : Nat)
    (sel : Store (BitVec 3)) (rf : Table6 (BitVec 20) 258) :
    selectGroups e.huf.nGroups.toNat gs total (e.withChoices sel rf) =
      .ok (total + (gs.map fun g => e.cost g (e.choice g)).sum)
        (e.withChoices (e.selectorsFor gs sel) (e.countsFor gs rf)) := by
  induction gs generalizing total sel rf with
  | nil => rfl
  | cons g gs ih =>
    have hchoice := (choice_spec hn g).1
    have hgrp : ∀ x ∈ e.group g, x < 258 := fun x hx => hsym x (group_subset g hx)
    have hsyms : groupSyms g (e.withChoices sel rf) = .ok (e.group g) (e.withChoices sel rf) :=
      groupSyms_run (e := e.withChoices sel rf) hfill g
    have hcosts : collect (List.range e.huf.nGroups.toNat) (groupCost (e.group g)) (e.withChoices sel rf) =
        .ok ((List.range e.huf.nGroups.toNat).map (e.cost g)) (e.withChoices sel rf) :=
      collect_pure fun t ht => groupCost_run ((List.mem_range.mp ht).trans_le hn6) hgrp
    have hset : selectorSet g (e.choice g) (e.withChoices sel rf) =
        .ok () (e.withChoices (sel.write g (BitVec.ofNat 3 (e.choice g))) rf) := by
      rw [selectorSet, get_bind_run, bind_ok (storeSet_run (hgs g List.mem_cons_self)), modHuf_run]
      rfl
    have hcost : ((List.range e.huf.nGroups.toNat).map (e.cost g)).getD (e.choice g) 0 = e.cost g (e.choice g) := by
      simp [List.getD_eq_getElem?_getD, hchoice]
    rw [selectGroups, bind_ok hsyms, bind_ok hcosts]
    refine (bind_ok hset).trans ((bind_ok (forEach_rfreqBump (hchoice.trans_le hn6) hgrp rf)).trans ?_)
    refine (congrArg (fun c => selectGroups _ gs (total + c) _) hcost).trans ?_
    rw [ih fun g' hg' => hgs g' (List.mem_cons_of_mem _ hg'), List.map_cons, List.sum_cons, Nat.add_assoc]
    rfl

end

/-! ### The counts fit -/

theorem sum_count_group (n v : Nat) :
    ((List.range n).map fun g => (e.group g).count v).sum = (e.symbols.take (50 * n)).count v := by
  induction n with
  | zero => simp
  | succ n ih =>
    rw [List.range_succ, List.map_append, List.sum_append, ih, Nat.mul_succ, List.take_add, List.count_append]
    simp [Engine.group]

theorem countIn_lt (n t v : Nat) : e.countIn (List.range n) t v < 2 ^ 20 := by
  calc e.countIn (List.range n) t v
      ≤ ((List.range n).map fun g => (e.group g).count v).sum := (List.filter_sublist.map _).sum_le_sum fun _ _ => Nat.zero_le _
    _ = (e.symbols.take (50 * n)).count v := sum_count_group n v
    _ ≤ (e.symbols.take (50 * n)).length := List.count_le_length
    _ ≤ e.mtf.len.toNat := (List.length_take_le' _ _).trans symbols_length.le
    _ < 2 ^ 20 := BitVec.isLt _

/-! ### The pass -/

theorem setRfreqRow_run {t : Nat} (ht : t < 6) (xs : List Nat) :
    setRfreqRow t xs e = .ok () { e with huf.rfreq := withRow e.huf.rfreq t xs } := by
  rw [setRfreqRow, get_bind_run, bind_ok (tableGet_run ht), bind_ok (tableSet_run ht), set_rowWrite ht, modHuf_run]

theorem forEach_setRfreqRow {k : Nat} (hk : k ≤ 6) (xs : List Nat) :
    forEach (List.range k) (fun t => setRfreqRow t xs) e =
      .ok () (e.withChoices e.huf.selectors (withRows e.huf.rfreq k fun _ => xs)) := by
  obtain ⟨e', hrun, rfl⟩ := forEach_ind (xs := List.range k) (c := fun t => setRfreqRow t xs)
    (fun j e' => e' = e.withChoices e.huf.selectors (withRows e.huf.rfreq j fun _ => xs))
    (fun j hj e' he' => by
      rw [List.length_range] at hj
      subst he'
      rw [List.getElem_range, setRfreqRow_run (by omega), withRows_succ]
      exact ⟨_, rfl, rfl⟩) rfl
  rwa [List.length_range] at hrun

theorem forEach_reallocate {n : Nat} (hn : n ≤ 258) {k : Nat} (hk : k ≤ 6) :
    forEach (List.range k) (reallocate n) e =
      .ok () (e.withLen (withRows e.huf.len k fun t => allocate ((List.range n).map (cell e.huf.rfreq t)))) := by
  obtain ⟨e', hrun, rfl⟩ := forEach_ind (xs := List.range k) (c := reallocate n)
    (fun j e' => e' = e.withLen (withRows e.huf.len j fun t => allocate ((List.range n).map (cell e.huf.rfreq t))))
    (fun j hj e' he' => by
      rw [List.length_range] at hj
      subst he'
      rw [List.getElem_range, reallocate, bind_ok (rfreqRow_run (by omega) hn), setLenRow_run (by omega), withRows_succ]
      exact ⟨_, rfl, rfl⟩) rfl
  rwa [List.length_range] at hrun

/-- Lengths in range fit the 5 bits of an element of LEN. -/
theorem LensOk.getD_mod {limit : Nat} {xs : List Nat} (h : LensOk limit xs) (hlimit : limit < 32) (v : Nat) :
    xs.getD v 0 % 2 ^ 5 = xs.getD v 0 := by
  refine Nat.mod_eq_of_lt ?_
  by_cases hv : v < xs.length
  · rw [List.getD_eq_getElem _ _ hv]
    exact (h _ (List.getElem_mem hv)).2.trans_lt hlimit
  · rw [List.getD_eq_default _ _ (Nat.le_of_not_lt hv)]
    exact Nat.two_pow_pos 5

section
variable (e)

/-- RFREQ after a selection pass. -/
def Engine.passCounts : Table6 (BitVec 20) 258 :=
  e.countsFor (List.range e.huf.nSelectors.toNat) (withRows e.huf.rfreq e.huf.nGroups.toNat fun _ => List.replicate e.alpha 0)

/-- LEN after a selection pass. -/
def Engine.passLens : Table6 (BitVec 5) 258 :=
  withRows e.huf.len e.huf.nGroups.toNat fun t => allocate ((List.range e.alpha).map (cell e.passCounts t))

/-- SELECTORS after a selection pass. -/
def Engine.passSelectors : Store (BitVec 3) := e.selectorsFor (List.range e.huf.nSelectors.toNat) e.huf.selectors

/-- The sum of the costs of a selection pass. -/
def Engine.passCost : Nat := ((List.range e.huf.nSelectors.toNat).map fun g => e.cost g (e.choice g)).sum

/-- The engine after a selection pass (rule R224). -/
def Engine.passed : Engine := (e.withChoices e.passSelectors e.passCounts).withLen e.passLens

end

section
variable (h : e.PassOk)
include h

theorem selectPass_run : selectPass e = .ok e.passCost e.passed := by
  obtain ⟨⟨hn, hn6⟩, _, _, hsel, ha, hfill, hsym⟩ := h
  have hgroups := selectGroups_run hn hn6 (fun x hx => (hsym x hx).trans_le (alpha_le ha)) hfill
    (gs := List.range e.huf.nSelectors.toNat) (fun g hg => (List.mem_range.mp hg).trans_le hsel) 0 e.huf.selectors
    (withRows e.huf.rfreq e.huf.nGroups.toNat fun _ => List.replicate e.alpha 0)
  rw [Nat.zero_add] at hgroups
  rw [selectPass, get_bind_run]
  exact (bind_ok (forEach_setRfreqRow hn6 _)).trans ((bind_ok hgroups).trans (bind_ok (forEach_reallocate (alpha_le ha) hn6)))

/-- No group outside the alphabet or the tables is counted. -/
theorem countIn_eq_zero {t v : Nat} (hout : e.huf.nGroups.toNat ≤ t ∨ e.alpha ≤ v) (gs : List Nat) : e.countIn gs t v = 0 := by
  obtain ⟨⟨hn, _⟩, _, _, _, _, _, hsym⟩ := h
  rw [Engine.countIn, List.sum_eq_zero_iff]
  intro x hx
  obtain ⟨g, hg, rfl⟩ := List.mem_map.mp hx
  have hchoice : e.choice g = t := of_decide_eq_true (List.mem_filter.mp hg).2
  have hlt := (choice_spec hn g).1
  refine List.count_eq_zero_of_not_mem fun hv => ?_
  have := hsym v (group_subset g hv)
  omega

theorem cell_passCounts (t v : Nat) : cell e.passCounts t v =
    if t < e.huf.nGroups.toNat ∧ v < e.alpha then e.countIn (List.range e.huf.nSelectors.toNat) t v else cell e.huf.rfreq t v := by
  obtain ⟨⟨hn, hn6⟩, _, _, _, ha, _, hsym⟩ := id h
  have h258 := alpha_le ha
  rw [Engine.passCounts, countsUp_countsFor hn hn6 (fun x hx => (hsym x hx).trans_le h258),
    cell_withRows hn6 (by simpa using h258), List.length_replicate]
  by_cases hin : t < e.huf.nGroups.toNat ∧ v < e.alpha
  · rw [if_pos hin, if_pos hin]
    simpa [hin.2] using Nat.mod_eq_of_lt (countIn_lt (e := e) _ t v)
  · rw [if_neg hin, if_neg hin, countIn_eq_zero h (by omega)]
    exact Nat.mod_eq_of_lt (cell_lt e.huf.rfreq t v)

theorem cell_passLens (t v : Nat) : cell e.passLens t v =
    if t < e.huf.nGroups.toNat ∧ v < e.alpha then (allocate ((List.range e.alpha).map (cell e.passCounts t))).getD v 0
    else cell e.huf.len t v := by
  obtain ⟨⟨hn, hn6⟩, _, _, _, ha, _⟩ := h
  have h258 := alpha_le ha
  have hlen : ∀ t, (allocate ((List.range e.alpha).map (cell e.passCounts t))).length = e.alpha := fun t => by
    rw [allocate_length, List.length_map, List.length_range]
  have hok : LensOk 20 (allocate ((List.range e.alpha).map (cell e.passCounts t))) :=
    (allocatorGivesACode _ (by simp [Engine.alpha]) (by simpa using h258)).2.1
  rw [Engine.passLens, cell_withRows hn6 fun t => (hlen t).trans_le h258, hlen, LensOk.getD_mod hok (by norm_num)]

theorem passed_result : PassResult e e.passCost e.passed := by
  have hn := h.1.1
  refine ⟨e.choice, e.passSelectors, e.passCounts, e.passLens, rfl, rfl, fun g hg => ?_, fun g hg => ?_, fun t ht v hv => ?_,
    fun t v hout => ?_⟩
  · refine ⟨(choice_spec hn g).1, ?_, (choice_spec hn g).2⟩
    rw [Engine.passSelectors, read_selectorsFor, if_pos (List.mem_range.mpr hg)]
  · rw [Engine.passSelectors, read_selectorsFor, if_neg (by simpa using hg)]
  · rw [cell_passCounts h, cell_passLens h, if_pos ⟨ht, hv⟩, if_pos ⟨ht, hv⟩]
    exact ⟨rfl, rfl⟩
  · rw [cell_passCounts h, cell_passLens h, if_neg (by omega), if_neg (by omega)]
    exact ⟨rfl, rfl⟩

/-- A pass ends with its result, and another pass can follow. -/
theorem selectPass_spec : ∃ total e', selectPass e = .ok total e' ∧ PassResult e total e' ∧ e'.PassOk :=
  ⟨e.passCost, e.passed, selectPass_run h, passed_result h, h⟩

end

/-- Settles O23: a pass is the loop over the groups between two rewrites of the tables (`selectPass_run`), the counts stay below 2^20
(`countIn_lt`), and neither the seed nor a pass changes what the checks speak of. -/
theorem selectionPasses : Obligations.SelectionPasses := by
  intro s hl hok
  have hbegun : s.begun.PassOk := hok
  obtain ⟨⟨hn, hn6⟩, hm, hlen, _, ha, _⟩ := hok
  have hchecks : selectChecks s.toEngine = .ok () s.toEngine := requireOk_true (decide_eq_true ⟨hn, hn6, hlen, hm⟩)
  obtain ⟨e₀, hseed, hres⟩ := seed_run (e := s.begun) ha hn6
  have h₀ : e₀.PassOk := by
    obtain ⟨_, _, rfl, _⟩ := hres
    exact hbegun
  obtain ⟨c, e, hrun, hpass, _⟩ := selectPass_spec hbegun
  obtain ⟨c₁, e₁, hrun₁, hpass₁, h₁⟩ := selectPass_spec h₀
  obtain ⟨c₂, e₂, hrun₂, hpass₂, h₂⟩ := selectPass_spec h₁
  obtain ⟨c₃, e₃, hrun₃, hpass₃, h₃⟩ := selectPass_spec h₂
  obtain ⟨c₄, e₄, hrun₄, hpass₄, _⟩ := selectPass_spec h₃
  have hpasses : selectPasses 4 0 e₀ = .ok c₄ e₄ := by
    simp only [selectPasses]
    rw [bind_ok hrun₁, bind_ok hrun₂, bind_ok hrun₃, bind_ok hrun₄, pure_run]
  have hseeded : seedAndSelect s.begun = .ok c₄ e₄ := (bind_ok hseed).trans hpasses
  refine ⟨⟨e, c, completes_of (body := cmdHufSelectPass) rfl hl hchecks (bind_ok hrun), hpass⟩,
    e₀, c₁, e₁, c₂, e₂, c₃, e₃, c₄, e₄, hres, hpass₁, hpass₂, hpass₃, hpass₄, ?_⟩
  exact completes_of (body := cmdHufOptimize) rfl hl hchecks (bind_ok hseeded)

end Sys2Proof.Machine
end

section
/-! SUPPORT. How `ReadTables()` proceeds (rule R233): which bits of the input its loops take, what they write meanwhile, and what remains to
be done. The bits come in an order fixed by the tables; the state of the reader between them plays no part. -/

namespace Sys2Proof.Machine

variable {α β : Type} {e : Engine} {as bs : List Bool} {f g : HufUnit → HufUnit}

/-! ### Pieces that take bits of the input -/

/-- The engine with its Huffman unit changed. -/
def Engine.withHuf (f : HufUnit → HufUnit) (e : Engine) : Engine := { e with huf := f e.huf }

/-- Where the bits `bs` come next in the input, the piece `c` takes them, changes the Huffman unit by `f` and goes on as `c'`. -/
def Cmd.Takes (bs : List Bool) (f : HufUnit → HufUnit) (c c' : Cmd α) : Prop :=
  ∀ (e : Engine) (rest : List Bool), e.bits.ReaderOk → e.inBits = bs ++ rest →
    c e = c' ((e.consume bs.length).withHuf f)

section
variable {c c₁ c₂ : Cmd α}

theorem Cmd.Takes.refl : Cmd.Takes [] id c c := fun _ _ hok _ => congrArg c (consume_zero hok).symm

theorem Cmd.Takes.trans (h₁ : Cmd.Takes as f c c₁) (h₂ : Cmd.Takes bs g c₁ c₂) : Cmd.Takes (as ++ bs) (g ∘ f) c c₂ := by
  intro e rest hok hin
  have hlen : as.length + bs.length ≤ e.inBits.length := by
    rw [hin, List.length_append, List.length_append]
    omega
  have hfirst : as.length ≤ e.inBits.length := by omega
  have hdrop : ((e.consume as.length).withHuf f).inBits = bs ++ rest :=
    (consume_inBits hok hfirst).trans (by rw [hin, List.append_assoc, List.drop_left])
  rw [h₁ e (bs ++ rest) hok (by rw [hin, List.append_assoc]),
    h₂ ((e.consume as.length).withHuf f) rest (consume_readerOk hok hfirst) hdrop, List.length_append, ← consume_consume hok hlen]
  rfl

theorem Cmd.Takes.bind (h : Cmd.Takes as f c c₁) (k : α → Cmd β) : Cmd.Takes as f (c >>= k) (c₁ >>= k) := fun e rest hok hin => by
  rw [bind_run, bind_run, h e rest hok hin]

/-- A piece that yields a value, and the rest with that value. -/
theorem Cmd.Takes.seq {x : α} {k : α → Cmd β} {d : Cmd β} (h : Cmd.Takes as f c (pure x)) (hk : Cmd.Takes bs g (k x) d) :
    Cmd.Takes (as ++ bs) (g ∘ f) (c >>= k) d :=
  (h.bind k).trans hk

/-- A piece that yields nothing, and the rest. -/
theorem Cmd.Takes.andThen {c : Cmd Unit} {d d' : Cmd β} (h : Cmd.Takes as f c (pure ())) (hd : Cmd.Takes bs g d d') :
    Cmd.Takes (as ++ bs) (g ∘ f) (do c; d) d' :=
  h.seq hd

/-- A piece that raises, and what would have come after it. -/
theorem Cmd.Takes.raise_bind {err : ErrorKind} (h : Cmd.Takes as f c (Cmd.raise err)) (k : α → Cmd β) :
    Cmd.Takes as f (c >>= k) (Cmd.raise err) :=
  h.bind k

end

theorem takes_raiseWhen_false {p : Bool} (h : p = false) (err : ErrorKind) : Cmd.Takes [] id (raiseWhen p err) (pure ()) := by
  subst h
  exact Cmd.Takes.refl

theorem takes_raiseWhen_true {p : Bool} (h : p = true) (err : ErrorKind) : Cmd.Takes [] id (raiseWhen p err) (Cmd.raise err) := by
  subst h
  exact Cmd.Takes.refl

theorem takes_modHuf (f : HufUnit → HufUnit) : Cmd.Takes [] f (modHuf f) (pure ()) := fun e _ hok _ => by
  rw [List.length_nil, consume_zero hok]
  rfl

theorem takes_readBits {n v : Nat} (hn : n ≤ 24) (hv : v < 2 ^ n) : Cmd.Takes (bitsOf n v) id (readBits n) (pure v) := by
  intro e rest hok hin
  have hlen := bitsOf_length n v
  rw [readBits_run hn hok (by rw [hin, List.length_append]; omega), hin, List.take_left' hlen, bitsVal_bitsOf, Nat.mod_eq_of_lt hv,
    hlen]
  rfl

theorem takes_readBit (b : Bool) : Cmd.Takes [b] id (readBits 1) (pure b.toNat) := fun _ _ hok hin => readBits_one hok hin

theorem takes_readUnary {m c : Nat} (hc : c < m) : Cmd.Takes (unaryBits c) id (readUnary m) (pure c) := by
  intro e rest hok hin
  have hlen : (unaryBits c).length = c + 1 := by simp [unaryBits]
  rw [readUnary_run hok hc (rest := rest) (by rw [hin, unaryBits, List.append_assoc]; rfl), hlen]
  rfl

theorem takes_readUnary_over (m : Nat) : Cmd.Takes (List.replicate m true) id (readUnary m) (Cmd.raise .invalidHuffmanTables) := by
  intro e rest hok hin
  rw [readUnary_over hok hin, List.length_replicate]
  rfl

/-! ### Selectors -/

/-- SELECTORS with a list of values written from element `i` on. -/
def HufUnit.withSels (i : Nat) (vs : List Nat) (h : HufUnit) : HufUnit :=
  { h with selectors := h.selectors.writeList i (vs.map (BitVec.ofNat 3)) }

theorem takes_selectorSet {i v : Nat} (hi : i < selectorsSize) : Cmd.Takes [] (HufUnit.withSels i [v]) (selectorSet i v) (pure ()) := by
  intro e _ hok _
  rw [selectorSet, get_bind_run, bind_ok (storeSet_run hi), List.length_nil, consume_zero hok]
  rfl

theorem frontValues_cons {list : List Nat} {j : Nat} (hj : j < list.length) (js : List Nat) :
    frontValues list (j :: js) = list.getD j 0 :: frontValues (listToFront list j) js := by
  rw [frontValues, listToFront_eq hj, List.getD_eq_getElem _ _ hj]

/-- The selectors at the positions `js`, and those still to come. -/
theorem takes_readSelectors {nG k i : Nat} {js list : List Nat} (hjs : ∀ j ∈ js, j < nG) (hlist : list.length = nG)
    (hsize : i + js.length + k ≤ selectorsSize) :
    Cmd.Takes (js.flatMap unaryBits) (HufUnit.withSels i (frontValues list js)) (readSelectors nG (List.range' i (js.length + k)) list)
      (readSelectors nG (List.range' (i + js.length) k) (js.foldl listToFront list)) := by
  induction js generalizing i list with
  | nil =>
    rw [List.length_nil, Nat.zero_add]
    exact Cmd.Takes.refl
  | cons j js ih =>
    rw [List.length_cons] at hsize
    have hj : j < list.length := hlist ▸ hjs j List.mem_cons_self
    have hrest := ih (i := i + 1) (list := listToFront list j) (fun j' hj' => hjs j' (List.mem_cons_of_mem _ hj'))
      (by rw [listToFront_length, hlist]) (by omega)
    have hset := takes_selectorSet (i := i) (v := list.getD j 0) (by omega)
    rw [frontValues_cons hj, List.flatMap_cons, List.length_cons, Nat.add_right_comm, List.range'_succ, ← Nat.add_assoc,
      Nat.add_right_comm i]
    exact (takes_readUnary (hlist ▸ hj)).seq
      (k := fun j => do
        selectorSet i (list.getD j 0)
        readSelectors nG (List.range' (i + 1) (js.length + k)) (listToFront list j))
      (hset.andThen hrest)

/-! ### The delta code -/

section
variable {cur fuel : Nat}

theorem takes_inRange (h : 1 ≤ cur ∧ cur ≤ 23) :
    Cmd.Takes [] id (raiseWhen (cur < 1 ∨ cur > Config.maxDecLen) .invalidHuffmanTables) (pure ()) :=
  takes_raiseWhen_false (decide_eq_false (by simp only [Config.maxDecLen]; omega)) _

theorem takes_readDelta_step (h : 1 ≤ cur ∧ cur ≤ 23) (d : Bool) :
    Cmd.Takes [true, d] id (readDelta (fuel + 1) cur) (readDelta fuel (stepTo cur d)) := by
  rw [readDelta]
  refine (takes_inRange h).andThen (bs := [true, d]) (g := id) ((takes_readBit true).seq (bs := [d]) (g := id) ?_)
  have hdown := (takes_readBit d).bind fun down => readDelta fuel (if down = 0 then cur + 1 else cur - 1)
  cases d <;> exact hdown

theorem takes_readDelta_end (h : 1 ≤ cur ∧ cur ≤ 23) : Cmd.Takes [false] id (readDelta fuel cur) (pure cur) := by
  cases fuel with
  | zero =>
    rw [readDelta]
    exact (takes_inRange h).andThen (bs := [false]) (g := id) ((takes_readBit false).bind _)
  | succ fuel =>
    rw [readDelta]
    exact (takes_inRange h).andThen (bs := [false]) (g := id) ((takes_readBit false).bind _)

theorem takes_readDelta_out (h : ¬ (1 ≤ cur ∧ cur ≤ 23)) :
    Cmd.Takes [] id (readDelta fuel cur) (Cmd.raise .invalidHuffmanTables) := by
  have hout : decide (cur < 1 ∨ cur > Config.maxDecLen) = true := decide_eq_true (by simp only [Config.maxDecLen]; omega)
  cases fuel <;> exact (takes_raiseWhen_true hout _).raise_bind _

/-- The steps of one symbol. -/
theorem takes_readDelta {ds : List Bool} (hfuel : ds.length ≤ fuel) (h : StepsOk cur ds) :
    Cmd.Takes (ds.flatMap (fun d => [true, d]) ++ [false]) id (readDelta fuel cur) (pure (ds.foldl stepTo cur)) := by
  induction ds generalizing cur fuel with
  | nil => exact takes_readDelta_end h
  | cons d ds ih =>
    obtain ⟨fuel, rfl⟩ := Nat.exists_eq_succ_of_ne_zero (Nat.ne_of_gt (Nat.zero_lt_of_lt hfuel))
    exact (takes_readDelta_step h.1 d).trans (ih (Nat.le_of_succ_le_succ hfuel) h.2)

/-- The steps of one symbol that take its length out of the range. -/
theorem takes_readDelta_leave {ds : List Bool} (hfuel : ds.length ≤ fuel) (h : StepsLeave cur ds) :
    Cmd.Takes (ds.flatMap fun d => [true, d]) id (readDelta fuel cur) (Cmd.raise .invalidHuffmanTables) := by
  induction ds generalizing cur fuel with
  | nil => exact takes_readDelta_out h
  | cons d ds ih =>
    obtain ⟨fuel, rfl⟩ := Nat.exists_eq_succ_of_ne_zero (Nat.ne_of_gt (Nat.zero_lt_of_lt hfuel))
    exact (takes_readDelta_step h.1 d).trans (ih (Nat.le_of_succ_le_succ hfuel) h.2)

end

/-- There is fuel for the steps that stand in the input. -/
theorem steps_le_bitsAvailable {ds rest : List Bool} (h : e.inBits = (ds.flatMap fun d => [true, d]) ++ rest) :
    ds.length ≤ bitsAvailable e := by
  have hlen := congrArg List.length h
  rw [inBits_length, List.length_append, List.length_flatMap] at hlen
  simp only [List.length_cons, List.length_nil, List.map_const', List.sum_replicate, smul_eq_mul] at hlen
  rw [bitsAvailable]
  omega

/-! ### The lengths of one table -/

section
variable {w n t : Nat} {tbl : Table6 (BitVec w) n}

@[simp] theorem withRow_nil : withRow tbl t [] = tbl := by
  ext i hi j hj : 2
  simp [withRow]

theorem withRow_append (xs : List Nat) (x : Nat) :
    withRow tbl t (xs ++ [x]) = withCell (withRow tbl t xs) t xs.length x := by
  ext i hi j hj : 2
  by_cases hit : i = t
  · rcases Nat.lt_trichotomy j xs.length with hjx | hjx | hjx
    · simp [withRow, withCell, hit, hjx, hjx.ne, hjx.not_gt, Nat.lt_succ_of_lt hjx]
    · simp [withRow, withCell, hit, hjx]
    · simp [withRow, withCell, hit, hjx.ne', hjx.not_ge, hjx.not_gt]
  · simp [withRow, withCell, hit]

end

section
variable {n t cur : Nat} {steps : List (List Bool)} {ds : List Bool}

theorem steppedLens_append (cur : Nat) (steps : List (List Bool)) (ds : List Bool) :
    steppedLens cur (steps ++ [ds]) = steppedLens cur steps ++ [ds.foldl stepTo ((steppedLens cur steps).getLastD cur)] := by
  induction steps generalizing cur with
  | nil => rfl
  | cons d steps ih => rw [List.cons_append, steppedLens, ih, steppedLens, List.getLastD_cons]; rfl

theorem tableStepsOk_append :
    TableStepsOk cur (steps ++ [ds]) ↔ TableStepsOk cur steps ∧ StepsOk ((steppedLens cur steps).getLastD cur) ds := by
  induction steps generalizing cur with
  | nil => simp [TableStepsOk, steppedLens]
  | cons d steps ih => rw [List.cons_append, TableStepsOk, ih, TableStepsOk, steppedLens, List.getLastD_cons, and_assoc]

@[simp] theorem steppedLens_length (cur : Nat) (steps : List (List Bool)) : (steppedLens cur steps).length = steps.length := by
  induction steps generalizing cur with
  | nil => rfl
  | cons d steps ih => rw [steppedLens, List.length_cons, ih, List.length_cons]

theorem stepsOk_last (h : StepsOk cur ds) : 1 ≤ ds.foldl stepTo cur ∧ ds.foldl stepTo cur ≤ 23 := by
  induction ds generalizing cur with
  | nil => exact h
  | cons d ds ih => exact ih h.2

theorem lensOk_steppedLens (h : TableStepsOk cur steps) : LensOk 23 (steppedLens cur steps) := by
  induction steps generalizing cur with
  | nil => exact List.forall_mem_nil _
  | cons d steps ih => exact List.forall_mem_cons.mpr ⟨stepsOk_last h.1, ih h.2⟩

/-- LEN with the first elements of row `t` replaced. -/
def HufUnit.withLenRow (t : Nat) (xs : List Nat) (h : HufUnit) : HufUnit := { h with len := withRow h.len t xs }

/-- The length of one symbol. -/
theorem takes_readLens_cons {s : Nat} {ss : List Nat} (ht : t < 6) (hs : s < 258) (h : StepsOk cur ds) :
    Cmd.Takes (ds.flatMap (fun d => [true, d]) ++ [false])
      (fun h => { h with len := withCell h.len t s (ds.foldl stepTo cur) }) (readLens t (s :: ss) cur)
      (readLens t ss (ds.foldl stepTo cur)) := by
  intro e rest hok hin
  have hfuel : ds.length ≤ bitsAvailable e := steps_le_bitsAvailable (hin.trans (List.append_assoc _ _ _))
  have hdelta := takes_readDelta hfuel h e rest hok hin
  rw [readLens, get_bind_run, bind_ok hdelta, get_bind_run, bind_ok (tableSet2_run ht hs)]
  rfl

/-- The steps of one symbol that take its length out of the range. -/
theorem takes_readLens_leave {s : Nat} {ss : List Nat} (h : StepsLeave cur ds) :
    Cmd.Takes (ds.flatMap fun d => [true, d]) id (readLens t (s :: ss) cur) (Cmd.raise .invalidHuffmanTables) := by
  intro e rest hok hin
  have hdelta := takes_readDelta_leave (steps_le_bitsAvailable hin) h e rest hok hin
  rw [readLens, get_bind_run]
  exact bind_error hdelta

/-- The lengths of the first symbols of a table, and those still to come. -/
theorem takes_readLens (ht : t < 6) (hn : n ≤ 258) (hsteps : steps.length ≤ n) (h : TableStepsOk cur steps) :
    Cmd.Takes (stepBits steps) (HufUnit.withLenRow t (steppedLens cur steps)) (readLens t (List.range n) cur)
      (readLens t (List.range' steps.length (n - steps.length)) ((steppedLens cur steps).getLastD cur)) := by
  induction steps using List.reverseRecOn with
  | nil =>
    have hid : HufUnit.withLenRow t (steppedLens cur []) = id := by
      funext h
      simp [HufUnit.withLenRow, steppedLens]
    rw [hid, List.range_eq_range']
    exact Cmd.Takes.refl
  | append_singleton steps ds ih =>
    rw [List.length_append, List.length_singleton] at hsteps
    obtain ⟨hok, hds⟩ := tableStepsOk_append.mp h
    have hone := takes_readLens_cons (ss := List.range' (steps.length + 1) (n - (steps.length + 1))) ht
      (show steps.length < 258 by omega) hds
    rw [← List.range'_succ, show n - (steps.length + 1) + 1 = n - steps.length by omega] at hone
    have hbits : stepBits (steps ++ [ds]) = stepBits steps ++ (ds.flatMap (fun d => [true, d]) ++ [false]) := by simp [stepBits]
    have hwrite : HufUnit.withLenRow t (steppedLens cur (steps ++ [ds])) =
        (fun h => { h with len := withCell h.len t steps.length (ds.foldl stepTo ((steppedLens cur steps).getLastD cur)) }) ∘
          HufUnit.withLenRow t (steppedLens cur steps) := by
      funext h
      simp [HufUnit.withLenRow, steppedLens_append, withRow_append]
    rw [hbits, hwrite, List.length_append, List.length_singleton, steppedLens_append, List.getLastD_concat]
    exact (ih (by omega) hok).trans hone

end

/-! ### The tables -/

/-- The lengths of table `t` as the rules read them (rule R233). -/
def readTable (n t : Nat) : Cmd Unit := do
  let cur ← readBits 5
  readLens t (List.range n) cur

/-- The last lines of `ReadTables()` (rule R233). -/
def finishTables (nG : Nat) : Cmd Unit := do
  forEach (List.range nG) buildDecode
  modHuf fun h => { h with symCount := 0, decEob := false }

/-- The lines of `ReadTables()` behind its two counts (rule R233). -/
def readCounted (n nG nS : Nat) : Cmd Unit := do
  modHuf fun h => { h with nGroups := BitVec.ofNat 3 nG, nSelectors := BitVec.ofNat 15 nS }
  readSelectors nG (List.range nS) (List.range nG)
  forEach (List.range nG) (readTable n)
  finishTables nG

/-- `ReadTables()` behind the check of the map (rule R233). -/
def readTablesFor (n : Nat) : Cmd Unit := do
  let nG ← readBits 3
  raiseWhen (nG < 2 ∨ nG > 6) .invalidHuffmanTables
  let nS ← readBits 15
  raiseWhen (nS < 1 ∨ nS > Config.maxSelectors) .invalidHuffmanTables
  readCounted n nG nS

theorem readTables_run (h : e.mtf.nInUse ≠ 0) : readTables e = readTablesFor e.alpha e := by
  have hmap : ¬ e.mtf.nInUse.toNat = 0 := fun h0 => h (BitVec.eq_of_toNat_eq h0)
  rw [readTables, get_bind_run, raiseWhen_false_bind (decide_eq_false hmap)]
  rfl

section
variable {n nG nS : Nat}

/-- The count of the tables, and what comes behind it. -/
theorem takes_groupCount (h8 : nG < 8) : Cmd.Takes (bitsOf 3 nG) id (readTablesFor n) (do
    raiseWhen (nG < 2 ∨ nG > 6) .invalidHuffmanTables
    let nS ← readBits 15
    raiseWhen (nS < 1 ∨ nS > Config.maxSelectors) .invalidHuffmanTables
    readCounted n nG nS) :=
  (takes_readBits (by norm_num) h8).bind _

theorem takes_groupCount_out (h8 : nG < 8) (h : ¬ (2 ≤ nG ∧ nG ≤ 6)) :
    Cmd.Takes (bitsOf 3 nG) id (readTablesFor n) (Cmd.raise .invalidHuffmanTables) := by
  have hout := takes_raiseWhen_true (p := nG < 2 ∨ nG > 6) (decide_eq_true (by omega)) .invalidHuffmanTables
  have h := (takes_groupCount (n := n) h8).trans (hout.raise_bind _)
  rwa [List.append_nil] at h

section
variable (h2 : 2 ≤ nG) (h6 : nG ≤ 6) (hS : nS < 2 ^ 15)
include h2 h6 hS

/-- Both counts, and what comes behind them. -/
theorem takes_selectorCount : Cmd.Takes (bitsOf 3 nG ++ bitsOf 15 nS) id (readTablesFor n) (do
    raiseWhen (nS < 1 ∨ nS > Config.maxSelectors) .invalidHuffmanTables
    readCounted n nG nS) := by
  have hin := takes_raiseWhen_false (p := nG < 2 ∨ nG > 6) (decide_eq_false (by omega)) .invalidHuffmanTables
  exact (takes_groupCount (by omega)).trans (hin.andThen ((takes_readBits (by norm_num) hS).bind fun nS => do
    raiseWhen (nS < 1 ∨ nS > Config.maxSelectors) .invalidHuffmanTables
    readCounted n nG nS))

theorem takes_selectorCount_out (h : ¬ (1 ≤ nS ∧ nS ≤ 18001)) :
    Cmd.Takes (bitsOf 3 nG ++ bitsOf 15 nS) id (readTablesFor n) (Cmd.raise .invalidHuffmanTables) := by
  have hout := takes_raiseWhen_true (p := nS < 1 ∨ nS > Config.maxSelectors)
    (decide_eq_true (by simp only [Config.maxSelectors]; omega)) .invalidHuffmanTables
  have h := (takes_selectorCount (n := n) h2 h6 hS).trans (hout.raise_bind _)
  rwa [List.append_nil] at h

theorem takes_counts (h : 1 ≤ nS ∧ nS ≤ 18001) :
    Cmd.Takes (bitsOf 3 nG ++ bitsOf 15 nS) id (readTablesFor n) (readCounted n nG nS) := by
  have hin := takes_raiseWhen_false (p := nS < 1 ∨ nS > Config.maxSelectors)
    (decide_eq_false (by simp only [Config.maxSelectors]; omega)) .invalidHuffmanTables
  have h := (takes_selectorCount (n := n) h2 h6 hS).trans (hin.andThen Cmd.Takes.refl)
  rwa [List.append_nil] at h

end

end

/-! ### The tables read so far -/

section
variable {n nG t : Nat} {tables : List (Nat × List (List Bool))}

/-- The lengths of table `t` that its start and steps stand for. -/
def tableLens (tables : List (Nat × List (List Bool))) (t : Nat) : List Nat :=
  steppedLens (tables.getD t (0, [])).1 (tables.getD t (0, [])).2

/-- LEN with the first elements of its first `k` rows replaced. -/
def HufUnit.withLenRows (k : Nat) (xs : Nat → List Nat) (h : HufUnit) : HufUnit := { h with len := withRows h.len k xs }

/-- The first of the tables still to come. -/
theorem forEach_from {a b : Nat} (h : a < b) (c : Nat → Cmd Unit) :
    forEach (List.range' a (b - a)) c = (do c a; forEach (List.range' (a + 1) (b - (a + 1))) c) := by
  rw [← forEach_cons, ← List.range'_succ, show b - (a + 1) + 1 = b - a by omega]

/-- The start and the first steps of one table, and those still to come. -/
theorem takes_readTable (ht : t < 6) (hn : n ≤ 258) {start : Nat} {steps : List (List Bool)} (hstart : start < 32)
    (hsteps : steps.length ≤ n) (h : TableStepsOk start steps) :
    Cmd.Takes (tableStepBits (start, steps)) (HufUnit.withLenRow t (steppedLens start steps)) (readTable n t)
      (readLens t (List.range' steps.length (n - steps.length)) ((steppedLens start steps).getLastD start)) :=
  (takes_readBits (by norm_num) hstart).seq (takes_readLens ht hn hsteps h)

/-- The first tables, and those still to come. -/
theorem takes_readTables {k : Nat} (hn : n ≤ 258) (h6 : nG ≤ 6) (hlen : tables.length ≤ nG)
    (h : ∀ q ∈ tables, q.1 < 32 ∧ q.2.length = n ∧ TableStepsOk q.1 q.2) (hk : k ≤ tables.length) :
    Cmd.Takes ((tables.take k).flatMap tableStepBits) (HufUnit.withLenRows k (tableLens tables)) (forEach (List.range nG) (readTable n))
      (forEach (List.range' k (nG - k)) (readTable n)) := by
  induction k with
  | zero =>
    rw [List.range_eq_range']
    exact Cmd.Takes.refl
  | succ k ih =>
    obtain ⟨hstart, hsteps, hok⟩ := h tables[k] (List.getElem_mem hk)
    have htable := takes_readTable (t := k) (by omega) hn hstart hsteps.le hok
    rw [hsteps, Nat.sub_self] at htable
    have hwrite : HufUnit.withLenRows (k + 1) (tableLens tables) =
        HufUnit.withLenRow k (steppedLens tables[k].1 tables[k].2) ∘ HufUnit.withLenRows k (tableLens tables) := by
      funext h
      simp only [HufUnit.withLenRows, HufUnit.withLenRow, withRows_succ, Function.comp_apply, tableLens, List.getD_eq_getElem _ _ hk]
    rw [List.take_succ_eq_append_getElem hk, List.flatMap_append, List.flatMap_singleton, hwrite]
    exact (ih (Nat.le_of_succ_le hk)).trans (forEach_from (show k < nG by omega) (readTable n) ▸ htable.bind _)

end

end Sys2Proof.Machine
end

section
/-! SUPPORT. HUF_READ_TABLES (rules R233, R234, R273): every refusal ends a run that has gone on as the one that succeeds. -/

namespace Sys2Proof.Machine

variable {e : Engine} {s : State} {bs : List Bool} {f g : HufUnit → HufUnit} {n nG nS : Nat} {js : List Nat}
  {tables : List (Nat × List (List Bool))}

/-! ### The selectors as a list -/

theorem frontValues_length (list js : List Nat) : (frontValues list js).length = js.length := by
  induction js generalizing list with
  | nil => rfl
  | cons j js ih => rw [frontValues, List.length_cons, ih, List.length_cons]

theorem mem_of_mem_frontValues {list : List Nat} {v : Nat} (h : ∀ j ∈ js, j < list.length) (hv : v ∈ frontValues list js) :
    v ∈ list := by
  induction js generalizing list with
  | nil => exact absurd hv List.not_mem_nil
  | cons j js ih =>
    have hj : j < list.length := h j List.mem_cons_self
    rw [frontValues_cons hj] at hv
    rcases List.mem_cons.mp hv with rfl | hv
    · rw [List.getD_eq_getElem _ _ hj]
      exact List.getElem_mem hj
    · have hrest := ih (fun j' hj' => by rw [listToFront_length]; exact h j' (List.mem_cons_of_mem _ hj')) hv
      exact (listToFront_perm hj).mem_iff.mp hrest

/-- SELECTORS with the values at the positions `js` written from element 0 on. -/
def selsPlaced (nG : Nat) (js : List Nat) (sel : Store (BitVec 3)) : Store (BitVec 3) :=
  sel.writeList 0 ((frontValues (List.range nG) js).map (BitVec.ofNat 3))

theorem selsRead_selsPlaced (sel : Store (BitVec 3)) : SelsRead nG js sel (selsPlaced nG js sel) := by
  have hread : ∀ g, (selsPlaced nG js sel).read g = _ := fun g => Store.read_writeList _ _ _ g
  rw [List.length_map, frontValues_length, Nat.zero_add] at hread
  constructor
  · intro g hg
    have hg' : g < (frontValues (List.range nG) js).length := (frontValues_length _ _).symm ▸ hg
    rw [hread, if_pos ⟨Nat.zero_le g, hg⟩]
    simp [List.getD_eq_getElem?_getD, hg']
  · intro g hg
    rw [hread, if_neg (by omega)]

/-! ### Stages of the run -/

/-- The counts of the tables and selectors written. -/
def HufUnit.withCounts (nG nS : Nat) (h : HufUnit) : HufUnit := { h with nGroups := BitVec.ofNat 3 nG, nSelectors := BitVec.ofNat 15 nS }

/-- The counts, the selectors and the lengths of some tables written. -/
def HufUnit.withTables (nG nS : Nat) (js : List Nat) (tables : List (Nat × List (List Bool))) : HufUnit → HufUnit :=
  HufUnit.withLenRows tables.length (tableLens tables) ∘ HufUnit.withSels 0 (frontValues (List.range nG) js) ∘ HufUnit.withCounts nG nS

section
variable (h2 : 2 ≤ nG) (h6 : nG ≤ 6) (hS : 1 ≤ nS ∧ nS ≤ 18001)
include h2 h6 hS

/-- The counts and some selectors, and what comes behind them. -/
theorem takes_selectors (hjs : ∀ j ∈ js, j < nG) (hlen : js.length ≤ nS) :
    Cmd.Takes (bitsOf 3 nG ++ bitsOf 15 nS ++ js.flatMap unaryBits)
      (HufUnit.withSels 0 (frontValues (List.range nG) js) ∘ HufUnit.withCounts nG nS) (readTablesFor n) (do
        readSelectors nG (List.range' js.length (nS - js.length)) (js.foldl listToFront (List.range nG))
        forEach (List.range nG) (readTable n)
        finishTables nG) := by
  have hsels := takes_readSelectors (i := 0) (k := nS - js.length) hjs List.length_range (by simp only [selectorsSize]; omega)
  rw [Nat.add_sub_cancel' hlen, ← List.range_eq_range', Nat.zero_add] at hsels
  exact (takes_counts h2 h6 (by omega) hS).trans ((takes_modHuf (HufUnit.withCounts nG nS)).andThen (hsels.bind _))

/-- A selector of as many one-bits as there are tables. -/
theorem takes_selectors_over (hjs : ∀ j ∈ js, j < nG) (hlen : js.length < nS) :
    Cmd.Takes (bitsOf 3 nG ++ bitsOf 15 nS ++ js.flatMap unaryBits ++ List.replicate nG true)
      (HufUnit.withSels 0 (frontValues (List.range nG) js) ∘ HufUnit.withCounts nG nS) (readTablesFor n)
      (Cmd.raise .invalidHuffmanTables) := by
  have hmore : nS - js.length = nS - (js.length + 1) + 1 := by omega
  have hover : Cmd.Takes (List.replicate nG true) id
      (readSelectors nG (List.range' js.length (nS - js.length)) (js.foldl listToFront (List.range nG)))
      (Cmd.raise .invalidHuffmanTables) := by
    rw [hmore, List.range'_succ, readSelectors]
    exact (takes_readUnary_over nG).raise_bind _
  exact (takes_selectors h2 h6 hS hjs hlen.le).trans (hover.raise_bind _)

variable (hjs : ∀ j ∈ js, j < nG) (hlen : js.length = nS) (hn : n ≤ 258) (hle : tables.length ≤ nG)
  (hok : ∀ q ∈ tables, q.1 < 32 ∧ q.2.length = n ∧ TableStepsOk q.1 q.2)
include hjs hlen hn hle hok

/-- The counts, the selectors and some tables, and what comes behind them. -/
theorem takes_tables :
    Cmd.Takes (bitsOf 3 nG ++ bitsOf 15 nS ++ js.flatMap unaryBits ++ tables.flatMap tableStepBits)
      (HufUnit.withTables nG nS js tables) (readTablesFor n) (do
        forEach (List.range' tables.length (nG - tables.length)) (readTable n)
        finishTables nG) := by
  have hsels := takes_selectors (n := n) h2 h6 hS hjs hlen.le
  rw [hlen, Nat.sub_self] at hsels
  have htables := takes_readTables hn h6 hle hok le_rfl
  rw [List.take_length] at htables
  exact hsels.trans (htables.bind _)

/-- A length of the delta code that leaves the range. -/
theorem takes_tables_leave (hlt : tables.length < nG) {start : Nat} {passed : List (List Bool)} {steps : List Bool}
    (hstart : start < 32) (hpassed : passed.length < n) (hpok : TableStepsOk start passed)
    (hleave : StepsLeave ((steppedLens start passed).getLastD start) steps) :
    Cmd.Takes (bitsOf 3 nG ++ bitsOf 15 nS ++ js.flatMap unaryBits ++ tables.flatMap tableStepBits ++
        tableStepBits (start, passed) ++ steps.flatMap fun d => [true, d])
      (HufUnit.withLenRow tables.length (steppedLens start passed) ∘ HufUnit.withTables nG nS js tables) (readTablesFor n)
      (Cmd.raise .invalidHuffmanTables) := by
  have htable := takes_readTable (t := tables.length) (by omega) hn hstart hpassed.le hpok
  rw [show n - passed.length = n - (passed.length + 1) + 1 by omega, List.range'_succ] at htable
  have hraise := htable.trans (takes_readLens_leave hleave)
  have htotal := takes_tables h2 h6 hS hjs hlen hn hle hok
  rw [forEach_from hlt] at htotal
  rw [List.append_assoc _ (tableStepBits _)]
  exact htotal.trans ((hraise.raise_bind _).raise_bind _)

end

theorem tableLens_spec (hok : ∀ q ∈ tables, q.1 < 32 ∧ q.2.length = n ∧ TableStepsOk q.1 q.2) {t : Nat} (ht : t < tables.length) :
    (tableLens tables t).length = n ∧ LensOk 23 (tableLens tables t) := by
  obtain ⟨_, hsteps, hsok⟩ := hok _ (List.getElem_mem ht)
  rw [tableLens, List.getD_eq_getElem _ _ ht]
  exact ⟨(steppedLens_length _ _).trans hsteps, lensOk_steppedLens hsok⟩

/-- LEN after some whole tables. -/
theorem cell_tablesPlaced {tbl : Table6 (BitVec 5) 258} (hn : n ≤ 258) (hk : tables.length ≤ 6)
    (hok : ∀ q ∈ tables, q.1 < 32 ∧ q.2.length = n ∧ TableStepsOk q.1 q.2) (t v : Nat) :
    cell (withRows tbl tables.length (tableLens tables)) t v =
      if t < tables.length ∧ v < n then (tableLens tables t).getD v 0 else cell tbl t v := by
  have hle : ∀ t, (tableLens tables t).length ≤ 258 := fun t => by
    by_cases ht : t < tables.length
    · exact (tableLens_spec hok ht).1.trans_le hn
    · rw [tableLens, List.getD_eq_default _ _ (Nat.le_of_not_lt ht)]
      exact Nat.zero_le _
  rw [cell_withRows hk hle]
  by_cases ht : t < tables.length
  · obtain ⟨hlen, hlens⟩ := tableLens_spec hok ht
    rw [hlen, LensOk.getD_mod hlens (by norm_num)]
  · rw [if_neg fun h => ht h.1, if_neg fun h => ht h.1]

/-- LEN after some whole tables and the first lengths of one more. -/
theorem cell_lensPlaced {tbl : Table6 (BitVec 5) 258} {start : Nat} {passed : List (List Bool)} (hn : n ≤ 258) (hk : tables.length ≤ 6)
    (hk' : tables.length < 6) (hok : ∀ q ∈ tables, q.1 < 32 ∧ q.2.length = n ∧ TableStepsOk q.1 q.2) (hpassed : passed.length ≤ n)
    (hpok : TableStepsOk start passed) (t v : Nat) :
    cell (withRow (withRows tbl tables.length (tableLens tables)) tables.length (steppedLens start passed)) t v =
      if t < tables.length ∧ v < n then (tableLens tables t).getD v 0
      else if t = tables.length ∧ v < passed.length then (steppedLens start passed).getD v 0
      else cell tbl t v := by
  rw [cell_withRow hk' (by simp; omega), cell_tablesPlaced hn hk hok, steppedLens_length,
    LensOk.getD_mod (lensOk_steppedLens hpok) (by norm_num)]
  by_cases ht : t = tables.length <;> simp [ht]

/-! ### HUF_READ_TABLES raises -/

theorem refused_of_takes (hl : s.Live) (hr : s.bits.ReaderOk) (hne : s.mtf.nInUse ≠ 0) {rest : List Bool} (hin : s.inBits = bs ++ rest)
    (h : Cmd.Takes bs f (readTablesFor s.alpha) (Cmd.raise .invalidHuffmanTables)) :
    Raises .hufReadTables s .invalidHuffmanTables ((s.begun.consume bs.length).withHuf f) :=
  raises_of (body := cmdHufReadTables) rfl hl (noChecks_run _)
    (bind_error ((readTables_run (e := s.begun) hne).trans (h s.begun rest hr hin)))

/-- Settles O27: each refusal is a `Cmd.Takes` from `ReadTables()` to the raise. -/
theorem tablesRefused : Obligations.TablesRefused := by
  intro s hl hr
  constructor
  · intro hzero
    have hmap : s.begun.mtf.nInUse.toNat = 0 := congrArg BitVec.toNat hzero
    exact raises_of (body := cmdHufReadTables) rfl hl (noChecks_run _) (bind_error (raiseWhen_true_bind (decide_eq_true hmap) _ _))
  intro hne nG nS rest hG8 hS15
  refine ⟨fun hG hin => ?_, fun hG hS hin => ?_, fun hG hS hin => ?_, fun hG hS js hjs => ⟨?_, ?_⟩⟩
  · exact refused_of_takes hl hr hne hin (takes_groupCount_out hG8 hG)
  · exact refused_of_takes hl hr hne hin (takes_selectorCount_out hG.1 hG.2 hS15 hS)
  · have hlen : (bitsOf 3 nG ++ bitsOf 15 nS ++ List.replicate nG true).length = 18 + nG := by
      rw [List.length_append, List.length_append, bitsOf_length, bitsOf_length, List.length_replicate]
    rw [← hlen]
    exact refused_of_takes hl hr hne hin (takes_selectors_over (js := []) hG.1 hG.2 hS (List.forall_mem_nil _) hS.1)
  · intro hlen bits hin
    exact ⟨selsPlaced nG js s.huf.selectors, selsRead_selsPlaced _,
      refused_of_takes hl hr hne hin (takes_selectors_over hG.1 hG.2 hS hjs hlen)⟩
  · intro hlen ha tables start passed steps hlt hok hstart hpassed hpok hleave bits hin
    exact ⟨selsPlaced nG js s.huf.selectors,
      withRow (withRows s.huf.len tables.length (tableLens tables)) tables.length (steppedLens start passed), selsRead_selsPlaced _,
      cell_lensPlaced (alpha_le ha) (hlt.le.trans hG.2) (hlt.trans_le hG.2) hok hpassed.le hpok,
      refused_of_takes hl hr hne hin
        (takes_tables_leave hG.1 hG.2 hS hjs hlen (alpha_le ha) hlt.le hok hlt hstart hpassed hpok hleave)⟩

/-! ### HUF_READ_TABLES ends -/

/-- Nothing but the lookup tables differs. -/
def Engine.SameButLookup (e e' : Engine) : Prop :=
  ∃ minLen maxLen base limit perm, e' =
    { e with huf.minLen := minLen, huf.maxLen := maxLen, huf.base := base, huf.limit := limit, huf.perm := perm }

theorem Engine.SameButLookup.refl : e.SameButLookup e := ⟨_, _, _, _, _, rfl⟩

theorem Engine.SameButLookup.withLookup {e₁ : Engine} (h : e.SameButLookup e₁) {t : Nat} (ht : t < 6) (lens : List Nat) :
    e.SameButLookup (e₁.withLookup t ht lens) := by
  obtain ⟨_, _, _, _, _, rfl⟩ := h
  exact ⟨_, _, _, _, _, rfl⟩

theorem Engine.SameButLookup.alphaOk {e₁ : Engine} (h : e.SameButLookup e₁) (ha : e.AlphaOk) : e₁.AlphaOk := by
  obtain ⟨_, _, _, _, _, rfl⟩ := h
  exact ha

theorem Engine.SameButLookup.lens {e₁ : Engine} (h : e.SameButLookup e₁) (t : Nat) : e₁.lens t = e.lens t := by
  obtain ⟨_, _, _, _, _, rfl⟩ := h
  rfl

/-- The lookups of the tables are built one after the other, each from the lengths at the start. -/
theorem forEach_buildDecode (ha : e.AlphaOk) (h6 : nG ≤ 6) (hok : ∀ t < nG, LensOk 23 (e.lens t)) :
    ∃ e', forEach (List.range nG) buildDecode e = .ok () e' ∧ e.SameButLookup e' ∧ ∀ t < nG, e'.LookupOf t (e.lens t) := by
  have hloop := forEach_ind (e := e) (xs := List.range nG) (c := buildDecode)
    (fun k e' => e.SameButLookup e' ∧ ∀ t < k, e'.LookupOf t (e.lens t))
    (fun k hk e₁ h₁ => by
      rw [List.length_range] at hk
      obtain ⟨hsame, hbuilt⟩ := h₁
      have hk6 : k < 6 := hk.trans_le h6
      rw [List.getElem_range, buildDecode_run hk6 (hsame.alphaOk ha), hsame.lens]
      refine ⟨e₁.withLookup k hk6 (e.lens k), rfl, hsame.withLookup hk6 _, fun t ht => ?_⟩
      rcases Nat.lt_succ_iff_lt_or_eq.mp ht with hlt | rfl
      · exact (hbuilt t hlt).congr (withLookup_other hk6 hlt.ne)
      · exact withLookup_lookupOf hk6 (lens_ne_nil t) ((lens_length t).trans_le (alpha_le ha)) (hok t hk))
    ⟨.refl, fun t ht => absurd ht (Nat.not_lt_zero t)⟩
  rwa [List.length_range] at hloop

/-- The engine with its symbol count at the start. -/
def Engine.atFirstSymbol (e : Engine) : Engine := { e with huf.symCount := 0, huf.decEob := false }

theorem finishTables_run (ha : e.AlphaOk) (h6 : nG ≤ 6) (hok : ∀ t < nG, LensOk 23 (e.lens t)) :
    ∃ e', finishTables nG e = .ok () e'.atFirstSymbol ∧ e.SameButLookup e' ∧ ∀ t < nG, e'.LookupOf t (e.lens t) := by
  obtain ⟨e', hrun, hsame, hbuilt⟩ := forEach_buildDecode ha h6 hok
  exact ⟨e', bind_ok hrun, hsame, hbuilt⟩

/-- The selectors that the positions stand for, read back. -/
theorem sels_of_selsRead {before : Store (BitVec 3)} (h6 : nG ≤ 6) (hjs : ∀ j ∈ js, j < nG) (hn : e.huf.nSelectors.toNat = js.length)
    (h : SelsRead nG js before e.huf.selectors) : e.sels = frontValues (List.range nG) js := by
  refine List.ext_getElem (by simp [Engine.sels, hn, frontValues_length]) fun g h₁ h₂ => ?_
  have hg : g < js.length := by rwa [frontValues_length] at h₂
  have hmem := mem_of_mem_frontValues (list := List.range nG) (by rwa [List.length_range]) (List.getElem_mem h₂)
  rw [List.mem_range] at hmem
  simp only [Engine.sels, List.getElem_map, List.getElem_range, h.1 g hg, List.getD_eq_getElem _ _ h₂, Option.getD_some,
    BitVec.toNat_ofNat]
  omega

theorem lens_eq_of_cells {t : Nat} {lens : List Nat} (hlen : lens.length = e.alpha)
    (h : ∀ v < e.alpha, cell e.huf.len t v = lens.getD v 0) : e.lens t = lens := by
  refine List.ext_getElem ((lens_length t).trans hlen.symm) fun v h₁ h₂ => ?_
  rw [← List.getD_eq_getElem lens 0 h₂, ← h v (hlen ▸ h₂)]
  simp [Engine.lens]

/-- Settles O26: `ReadTables()` takes the bits of every table (`takes_tables`), and the lookups are built from the lengths read
(`forEach_buildDecode`). -/
theorem tablesRead : Obligations.TablesRead := by
  intro s nG js tables rest hl hr ha hne h2 h6 hjs1 hjs18001 hjs htables hok bits lens hin
  have hn := alpha_le ha
  let e₁ := (s.begun.consume bits.length).withHuf (HufUnit.withTables nG js.length js tables)
  have htaken : readTablesFor s.alpha s.begun = finishTables nG e₁ := by
    have h := takes_tables h2 h6 ⟨hjs1, hjs18001⟩ hjs rfl hn htables.le hok
    rw [show nG - tables.length = 0 by omega] at h
    exact h s.begun rest hr hin
  have hcell : ∀ t v, cell e₁.huf.len t v =
      if t < nG ∧ v < s.alpha then (lens t).getD v 0 else cell s.huf.len t v := by
    rw [← htables]
    exact cell_tablesPlaced hn (htables.le.trans h6) hok
  have hlens : ∀ t < nG, e₁.lens t = lens t ∧ LensOk 23 (lens t) := fun t ht => by
    obtain ⟨hlen, hlensok⟩ := tableLens_spec hok (htables.symm ▸ ht)
    exact ⟨lens_eq_of_cells hlen fun v hv => (hcell t v).trans (if_pos ⟨ht, hv⟩), hlensok⟩
  obtain ⟨e₂, hrun, hsame, hlookup⟩ :=
    finishTables_run (e := e₁) (nG := nG) ha h6 fun t ht => (hlens t ht).1 ▸ (hlens t ht).2
  have hread := (readTables_run (e := s.begun) hne).trans (htaken.trans hrun)
  have hnG : (BitVec.ofNat 3 nG).toNat = nG := by
    rw [BitVec.toNat_ofNat]
    omega
  have hnS : (BitVec.ofNat 15 js.length).toNat = js.length := by
    rw [BitVec.toNat_ofNat]
    omega
  obtain ⟨minLen, maxLen, base, limit, perm, rfl⟩ := hsame
  refine ⟨Engine.atFirstSymbol { e₁ with
    huf.minLen := minLen, huf.maxLen := maxLen, huf.base := base, huf.limit := limit, huf.perm := perm },
    completes_of (body := cmdHufReadTables) rfl hl (noChecks_run _) ((bind_ok hread).trans (congrArg (fun v => setResult v _) hnG)),
    rfl, rfl, hnG, hnS, sels_of_selsRead h6 hjs hnS (selsRead_selsPlaced s.huf.selectors), fun t ht => ⟨(hlens t ht).1, ?_⟩,
    fun t v hout => (hcell t v).trans (if_neg (by omega)), rfl, rfl⟩
  exact ((hlens t ht).1 ▸ hlookup t ht).congr ⟨rfl, rfl, fun _ => rfl, fun _ => rfl, fun _ => rfl⟩

end Sys2Proof.Machine
end

section
/-! SUPPORT. The CRC bit loop as a linear map on words (rules R250, R251), the combination of block CRCs (rule R256), and the seven CRC
commands (rules R252 to R259). -/

namespace Sys2Proof.Machine

variable {e : Engine}

/-! ### The bit loop -/

/-- One pass is linear: both the shift and the choice of the polynomial are (rule R251). -/
theorem crcShift_xor (c d : Word) : crcShift (c ^^^ d) = crcShift c ^^^ crcShift d := by
  simp only [crcShift, BitVec.getLsbD_xor, BitVec.shiftLeft_xor_distrib]
  cases c.getLsbD 31 <;> cases d.getLsbD 31
  case true.true =>
    calc c <<< 1 ^^^ d <<< 1 = (c <<< 1 ^^^ d <<< 1) ^^^ (crcPoly ^^^ crcPoly) := by rw [BitVec.xor_self, BitVec.xor_zero]
      _ = (c <<< 1 ^^^ crcPoly) ^^^ (d <<< 1 ^^^ crcPoly) := by ac_rfl
  case false.false => rfl
  case true.false =>
    change (c <<< 1 ^^^ d <<< 1) ^^^ crcPoly = (c <<< 1 ^^^ crcPoly) ^^^ d <<< 1
    ac_rfl
  case false.true => exact BitVec.xor_assoc _ _ _

theorem crcShifts_xor (n : Nat) (c d : Word) : crcShifts n (c ^^^ d) = crcShifts n c ^^^ crcShifts n d := by
  induction n generalizing c d with
  | zero => rfl
  | succ n ih => rw [crcShifts, crcShift_xor, ih]; rfl

/-- As long as no set bit reaches the top, the loop only shifts. -/
theorem crcShifts_eq_shiftLeft (n : Nat) (c : Word) (h : ∀ i, 32 ≤ i + n → c.getLsbD i = false) : crcShifts n c = c <<< n := by
  induction n generalizing c with
  | zero => exact (BitVec.shiftLeft_zero c).symm
  | succ n ih =>
    have htop : crcShift c = c <<< 1 := if_neg (by simp only [h 31 (by omega), Bool.false_eq_true, not_false_iff])
    rw [crcShifts, htop, ih, ← BitVec.shiftLeft_add, Nat.add_comm 1 n]
    intro i hi
    simp only [BitVec.getLsbD_shiftLeft, h (i - 1) (by omega), Bool.and_false]

/-- A word is its low 24 bits and its top byte. -/
theorem word_eq_low_xor_top (c : Word) : c = (c <<< 8) >>> 8 ^^^ (((c >>> 24).setWidth 8 : Byte).setWidth 32 <<< 24) := by
  refine BitVec.eq_of_getLsbD_eq fun i hi => ?_
  simp only [BitVec.getLsbD_xor, BitVec.getLsbD_ushiftRight, BitVec.getLsbD_shiftLeft, BitVec.getLsbD_setWidth, Nat.add_sub_cancel_left]
  by_cases h : i < 24
  · simp [h, show 8 + i < 32 by omega]
  · simp [h, hi, show ¬ 8 + i < 32 by omega, show i - 24 < 32 by omega, show i - 24 < 8 by omega, show 24 + (i - 24) = i by omega]

/-- Over the low 24 bits the loop only shifts. -/
theorem crcShifts_low (c : Word) : crcShifts 8 ((c <<< 8) >>> 8) = c <<< 8 := by
  rw [crcShifts_eq_shiftLeft]
  · refine BitVec.eq_of_getLsbD_eq fun i hi => ?_
    simp only [BitVec.getLsbD_ushiftRight, BitVec.getLsbD_shiftLeft, Nat.add_sub_cancel_left]
    simp [show 8 + (i - 8) < 32 by omega]
  · intro i hi
    simp [show ¬ 8 + i < 32 by omega]

theorem crcUpdate_zero (b : Byte) : crcUpdate 0 b = crcShifts 8 (b.setWidth 32 <<< 24) := congrArg (crcShifts 8) BitVec.zero_xor

/-- The step of a table-driven CRC: the table's entry `x` is `crcUpdate 0 x` (rule R251). -/
theorem crcUpdate_eq_tableStep (c : Word) (b : Byte) :
    crcUpdate c b = (c <<< 8) ^^^ crcUpdate 0 ((c >>> 24).setWidth 8 ^^^ b) := by
  conv_lhs => rw [crcUpdate, word_eq_low_xor_top c, BitVec.xor_assoc, crcShifts_xor, crcShifts_low]
  rw [crcUpdate_zero, BitVec.setWidth_xor, BitVec.shiftLeft_xor_distrib]

/-! ### The combined CRC -/

/-- A rotation, bit by bit. -/
theorem getLsbD_rotateLeft_word (x : Word) (n i : Nat) (hi : i < 32) :
    (x.rotateLeft n).getLsbD i = x.getLsbD ((i + 32 - n % 32) % 32) := by
  rw [BitVec.getLsbD_rotateLeft]
  by_cases h : i < n % 32
  · rw [show (i + 32 - n % 32) % 32 = 32 - n % 32 + i by omega]
    simp [h]
  · rw [show (i + 32 - n % 32) % 32 = i - n % 32 by omega]
    simp [h, hi]

theorem rotateLeft_xor (x y : Word) (n : Nat) : (x ^^^ y).rotateLeft n = x.rotateLeft n ^^^ y.rotateLeft n := by
  refine BitVec.eq_of_getLsbD_eq fun i hi => ?_
  simp only [getLsbD_rotateLeft_word _ _ i hi, BitVec.getLsbD_xor]

theorem rotateLeft_rotateLeft (x : Word) (m n : Nat) : (x.rotateLeft m).rotateLeft n = x.rotateLeft (m + n) := by
  refine BitVec.eq_of_getLsbD_eq fun i hi => ?_
  rw [getLsbD_rotateLeft_word _ _ i hi, getLsbD_rotateLeft_word _ _ _ (Nat.mod_lt _ (by norm_num)), getLsbD_rotateLeft_word _ _ i hi]
  congr 1
  omega

theorem rotateLeft_zero (x : Word) : x.rotateLeft 0 = x := by
  refine BitVec.eq_of_getLsbD_eq fun i hi => ?_
  rw [getLsbD_rotateLeft_word _ _ i hi]
  congr 1
  omega

theorem zero_rotateLeft (n : Nat) : (0 : Word).rotateLeft n = 0 := by
  simp [BitVec.rotateLeft_def]

/-- The block CRCs, each rotated once for every block after it (rule R256). -/
def rotatedCrcs (cs : List Word) : List Word := cs.zipIdx.map fun q => q.1.rotateLeft ((cs.length - 1 - q.2) % 32)

theorem rotatedCrcs_cons (c : Word) (cs : List Word) : rotatedCrcs (c :: cs) = c.rotateLeft cs.length :: rotatedCrcs cs := by
  simp only [rotatedCrcs, List.zipIdx_cons', List.map_cons, List.map_map, BitVec.rotateLeft_mod_eq_rotateLeft]
  congr 1
  refine List.map_congr_left fun q _ => ?_
  simp only [Function.comp_apply, Prod.map_fst, Prod.map_snd, id, List.length_cons]
  congr 1
  omega

/-- Combining block CRCs rotates what was there before them once for each of them (rule R256). -/
theorem foldl_combined_stream (cs : List Word) (e : Engine) :
    (cs.foldl (fun e c => e.combined c) e).crc.stream = (rotatedCrcs cs).foldl (· ^^^ ·) (e.crc.stream.rotateLeft cs.length) := by
  induction cs generalizing e with
  | nil => exact (rotateLeft_zero _).symm
  | cons c cs ih =>
    rw [List.foldl_cons, ih, rotatedCrcs_cons, List.foldl_cons, Engine.combined_crc_stream, rotateLeft_xor, rotateLeft_rotateLeft,
      Nat.add_comm, List.length_cons]

/-- Settles O32: the loop is linear and only shifts the low 24 bits (`crcUpdate_eq_tableStep`); the combined CRC is
`foldl_combined_stream` from a register that is 0. -/
theorem crcLaws : Obligations.CrcLaws := by
  refine ⟨crcUpdate_eq_tableStep, by decide +kernel, fun cs e h0 => ?_⟩
  rw [foldl_combined_stream, h0, zero_rotateLeft]
  rfl

/-! ### The commands -/

/-- A byte is fed to the block CRC (rule R251). -/
theorem feedBlockCrc_run (b : Byte) : feedBlockCrc b e = .ok () (e.fedCrc b) := rfl

/-- `rotl1` is the rotation by one (rule R256). -/
theorem combineCrc_run (v : Word) : combineCrc v e = .ok () (e.combined v) := rfl

/-- CRC_COMBINE reports the register it has just combined (rule R256). -/
theorem cmdCrcCombine_run :
    cmdCrcCombine e = .ok () ((e.combined e.host.arg).withResult (e.crc.stream.rotateLeft 1 ^^^ e.host.arg).toNat) :=
  (readArg_bind_run _).trans (bind_ok (combineCrc_run e.host.arg))

/-- Settles O31: no command of the unit has a check, and each body is a write of one register, or of RESULT, or of both. -/
theorem crcCommands : Obligations.CrcCommands := by
  intro s hl
  refine ⟨?_, ?_, ?_, ?_, ?_, ?_, ?_, ?_⟩
  · exact completes_of (body := cmdCrcInit) rfl hl (noChecks_run _) (modCrc_run _)
  · exact completes_of (body := cmdCrcUpdate) rfl hl (noChecks_run _) (feedBlockCrc_run (s.host.arg.setWidth 8))
  · exact completes_of (body := cmdCrcFinal) rfl hl (noChecks_run _) (get_bind_run _)
  · exact completes_of rfl hl (noChecks_run _) cmdCrcCombine_run
  · exact completes_of (body := cmdCrcStreamInit) rfl hl (noChecks_run _) (modCrc_run _)
  · exact completes_of (body := cmdCrcReadStream) rfl hl (noChecks_run _) (get_bind_run _)
  · exact completes_of (body := cmdCrcReadStored 0) rfl hl (noChecks_run _) (get_bind_run _)
  · exact completes_of (body := cmdCrcReadStored 1) rfl hl (noChecks_run _) (get_bind_run _)

end Sys2Proof.Machine
end

section
/-! SUPPORT. The de-randomiser (rules R274, R285, R286): the counter runs down the entries of the table in turn, so the hops at which the
low bit is inverted are the ends of those entries. -/

namespace Sys2Proof.Machine

variable {e : Engine} {i j : Nat}

/-! ### The table -/

/-- The sum of the first `j` entries, the table read round and round (rule R274). -/
def hopSum (j : Nat) : Nat := ((List.range j).map fun m => randEntry (m % 512)).sum

theorem hopSum_succ (j : Nat) : hopSum (j + 1) = hopSum j + randEntry (j % 512) := by
  simp [hopSum, List.range_succ]

/-- The size, the sum and the range of the table (rule R285). -/
theorem randTable_facts : randTable.length = 512 ∧ randTable.sum = 278212 ∧ ∀ x ∈ randTable, 50 ≤ x ∧ x ≤ 999 := by
  decide +kernel

theorem randEntry_range (j : Nat) : 50 ≤ randEntry (j % 512) ∧ randEntry (j % 512) ≤ 999 := by
  obtain ⟨hlen, -, hrange⟩ := randTable_facts
  have hj : j % 512 < randTable.length := (Nat.mod_lt j (by norm_num)).trans_eq hlen.symm
  rw [randEntry, List.getD_eq_getElem _ _ hj]
  exact hrange _ (List.getElem_mem hj)

theorem hopSum_mono : Monotone hopSum := monotone_nat_of_le_succ fun j => hopSum_succ j ▸ Nat.le_add_right _ _

/-! ### The counter -/

/-- Hop `i` inverts the low bit (rule R286). -/
def FlipsAt (i : Nat) : Prop := ∃ j, i + 2 = hopSum j + randEntry (j % 512)

/-- The counter before hop `i`, which runs down entry `j` of the table: what is left of the entry reaches to its end. -/
structure Engine.CountsDown (i j : Nat) (e : Engine) : Prop where
  flag : e.block.randFlag = true
  reach : i + e.randLoad = hopSum (j + 1)
  pos : 1 ≤ e.randLoad
  le : e.randLoad ≤ randEntry (j % 512)
  next : e.block.randTpos.toNat = (if e.block.randNtogo.toNat = 0 then j else j + 1) % 512

theorem countsDown_start (hf : e.block.randFlag = true) (hn : e.block.randNtogo = 0) (ht : e.block.randTpos = 0) :
    e.CountsDown 0 0 := by
  have hload : e.randLoad = randEntry 0 := by simp [Engine.randLoad, hn, ht]
  have hpos : 1 ≤ randEntry 0 := le_trans (by norm_num) (randEntry_range 0).1
  exact ⟨hf, by rw [hload, hopSum_succ]; rfl, hpos.trans_eq hload.symm, hload.le, by simp [hn, ht]⟩

/-- The counter inverts the low bit exactly where its entry has one more hop to go (rule R286). -/
theorem Engine.CountsDown.flips_iff (h : e.CountsDown i j) : FlipsAt i ↔ e.randLoad = 2 := by
  obtain ⟨-, hreach, hpos, hle, -⟩ := h
  have hj := hopSum_succ j
  constructor
  · rintro ⟨k, hk⟩
    rw [← hopSum_succ] at hk
    rcases lt_trichotomy k j with hlt | rfl | hgt
    · have := hopSum_mono (show k + 1 ≤ j from hlt)
      omega
    · omega
    · have hmono := hopSum_mono (show j + 2 ≤ k + 1 by omega)
      have hlong := randEntry_range (j + 1)
      rw [hopSum_succ (j + 1)] at hmono
      omega
  · intro h2
    exact ⟨j, by omega⟩

/-- The counter after a hop: one less of the same entry, or the next entry. -/
theorem Engine.CountsDown.fetched (h : e.CountsDown i j) : ∃ j', e.fetched.CountsDown (i + 1) j' := by
  obtain ⟨hflag, hreach, hpos, hle, hnext⟩ := h
  have hmax := (randEntry_range j).2
  have hfetched : e.fetched.block.randFlag = true ∧ e.fetched.block.randNtogo.toNat = e.randLoad - 1 ∧
      e.fetched.block.randTpos.toNat = (j + 1) % 512 := by
    rw [Engine.fetched, if_pos hflag]
    refine ⟨hflag, (BitVec.toNat_ofNat ..).trans (Nat.mod_eq_of_lt (by omega)), ?_⟩
    by_cases h0 : e.block.randNtogo.toNat = 0
    · rw [if_pos h0] at hnext ⊢
      rw [hnext, BitVec.toNat_ofNat]
      omega
    · rw [if_neg h0] at hnext ⊢
      exact hnext
  obtain ⟨hflag', hntogo, htpos⟩ := hfetched
  by_cases h1 : e.randLoad = 1
  · have hzero : e.fetched.block.randNtogo.toNat = 0 := by omega
    have hload : e.fetched.randLoad = randEntry ((j + 1) % 512) := by rw [Engine.randLoad, if_pos hzero, htpos]
    have hlong := (randEntry_range (j + 1)).1
    refine ⟨j + 1, hflag', ?_, by omega, hload.le, by rw [if_pos hzero]; exact htpos⟩
    rw [hopSum_succ, hload]
    omega
  · have hne : e.fetched.block.randNtogo.toNat ≠ 0 := by omega
    have hload : e.fetched.randLoad = e.randLoad - 1 := by rw [Engine.randLoad, if_neg hne, hntogo]
    exact ⟨j, hflag', by omega, by omega, by omega, by rw [if_neg hne]; exact htpos⟩

/-! ### Fetching the walk -/

/-- One byte of the walk fetched, de-randomised or not. -/
theorem fetchByte_of_walks {b : Byte} {bs : List Byte} (hw : e.Walks (b :: bs)) :
    fetchByte e = .ok e.fetchedByte e.fetched ∧ e.bwt.curEntry.setWidth 8 = b ∧ e.fetched.Walks bs := by
  obtain ⟨hhops, hb, x, hx, hrest⟩ := hw
  have hbwt : e.fetched.bwt = { e.bwt with curEntry := x, hopsLeft := BitVec.ofNat 20 bs.length } := by
    rw [Engine.fetched]
    split <;> simp [Engine.hopped, hx, hhops]
  exact ⟨fetchByte_run hx, hb, walks_congr hrest hbwt⟩

theorem Engine.CountsDown.fetchedByte {b : Byte} (h : e.CountsDown i j) (hb : e.bwt.curEntry.setWidth 8 = b) :
    (FlipsAt i → e.fetchedByte = b ^^^ 1) ∧ (¬ FlipsAt i → e.fetchedByte = b) := by
  rw [h.flips_iff, Engine.fetchedByte, hb]
  exact ⟨fun h2 => if_pos ⟨h.flag, h2⟩, fun h2 => if_neg fun hc => h2 hc.2⟩

/-- The walk fetched from hop `i` on. -/
theorem collect_fetchByte {bs : List Byte} (hw : e.Walks bs) (h : e.CountsDown i j) :
    ∃ out e', collect bs (fun _ => fetchByte) e = .ok out e' ∧ out.length = bs.length ∧
      ∀ n < bs.length, (FlipsAt (i + n) → out.getD n 0 = bs.getD n 0 ^^^ 1) ∧ (¬ FlipsAt (i + n) → out.getD n 0 = bs.getD n 0) := by
  induction bs generalizing e i j with
  | nil => exact ⟨[], e, rfl, rfl, fun n hn => absurd hn (Nat.not_lt_zero n)⟩
  | cons b bs ih =>
    obtain ⟨hfetch, hb, hrest⟩ := fetchByte_of_walks hw
    obtain ⟨j', hnext⟩ := h.fetched
    obtain ⟨out, e', hrun, hlen, hbytes⟩ := ih hrest hnext
    refine ⟨e.fetchedByte :: out, e', ?_, by rw [List.length_cons, hlen, List.length_cons], fun n hn => ?_⟩
    · rw [collect_cons, bind_ok hfetch, bind_ok hrun]
      rfl
    · cases n with
      | zero => exact h.fetchedByte hb
      | succ n =>
        rw [← Nat.add_assoc, Nat.add_right_comm]
        exact hbytes n (Nat.lt_of_succ_lt_succ hn)

/-- Settles O35: the counter runs down the entries of the table in turn (`CountsDown`), and a hop inverts the low bit exactly where its
entry has one more hop to go (`CountsDown.flips_iff`). -/
theorem derandomFlips : Obligations.DerandomFlips := by
  refine ⟨randTable_facts, fun bs e hf hn ht hw => ?_⟩
  obtain ⟨out, e', hrun, hlen, hbytes⟩ := collect_fetchByte hw (countsDown_start hf hn ht)
  refine ⟨out, e', hrun, hlen, fun i hi => ?_⟩
  have hi := hbytes i hi
  rw [Nat.zero_add] at hi
  exact hi

end Sys2Proof.Machine
end

section
/-! SUPPORT. The frame of the block and stream commands and of CORE_RESET (rules R260 to R300, R306). -/

namespace Sys2Proof.Machine

/-- Settles O59: every command keeps what its rule does not write (`exec_framed`). -/
theorem frameBlockAndStream : Obligations.FrameBlockAndStream :=
  ⟨fun _ => exec_framed _, exec_framed _, exec_framed _, fun _ => exec_framed _, exec_framed _, exec_framed _, fun _ => exec_framed _,
    exec_framed _, exec_framed _, fun _ => exec_framed _, exec_framed _, exec_framed _, exec_framed _⟩

end Sys2Proof.Machine
end

section
/-! SUPPORT. The block of one byte (rules R122 to R127): its symbol map, the lengths and codes of its two tables, and the parts of its
bits. -/

namespace Sys2Proof.Machine

variable {e : Engine}

/-! ### The symbol map that holds one byte -/

/-- The map with `v` alone present (rule R123). -/
def onlyByte (v : Byte) : Vector Bool 256 := Vector.ofFn fun i => decide (i.val = v.toNat)

theorem byteGet_onlyByte (v : Byte) : byteGet (onlyByte v) v = true := by simp [byteGet, onlyByte]

/-- A map that was clear, with one byte set. -/
theorem byteSet_clear {p : Vector Bool 256} (h : ∀ b ∈ p.toList, b = false) (v : Byte) : byteSet p v true = onlyByte v := by
  refine Vector.ext fun i hi => ?_
  have hclear : p[i] = false := h _ (by simp)
  simp [byteSet, onlyByte, Vector.getElem_set, hclear, eq_comm (a := i)]

theorem presentValues_onlyByte (v : Byte) : presentValues (onlyByte v) = [v.toNat] := by
  have hfilter : presentValues (onlyByte v) = (List.range 256).filter fun u => u = v.toNat := by
    refine List.filter_congr fun u hu => ?_
    simp [onlyByte, List.mem_range.mp hu]
  rw [hfilter, List.filter_eq, List.count_eq_one_of_mem List.nodup_range (List.mem_range.mpr v.isLt)]
  rfl

/-! ### The map read back (rule R203) -/

/-- The 16 ranges of a map. -/
def mapRanges (p : Vector Bool 256) : List (List Bool) := (List.range 16).map (rangeOf p)

theorem flatten_chunks {α : Type} (l : List α) (m n : Nat) :
    ((List.range n).map fun i => (l.drop (m * i)).take m).flatten = l.take (m * n) := by
  induction n with
  | zero => simp
  | succ n ih => rw [List.range_succ, List.map_append, List.flatten_append, ih, Nat.mul_succ, List.take_add]; simp

theorem mapRanges_flatten (p : Vector Bool 256) : (mapRanges p).flatten = p.toList :=
  (flatten_chunks p.toList 16 16).trans (List.take_of_length_le (by simp))

theorem mapRanges_length {p : Vector Bool 256} : ∀ r ∈ mapRanges p, r.length = 16 := by
  intro r hr
  obtain ⟨i, hi, rfl⟩ := List.mem_map.mp hr
  have := List.mem_range.mp hi
  simp [rangeOf]
  omega

/-- Each range with its range bit. -/
theorem zip_rangeBits (p : Vector Bool 256) :
    ((mapRanges p).map fun r => r.any id).zip (mapRanges p) = (mapRanges p).map fun r => (r.any id, r) := by
  conv_lhs => rw [← List.map_id (mapRanges p), List.map_map]
  exact List.zip_map' ..

theorem mapBits_eq (p : Vector Bool 256) : mapBits p = ((mapRanges p).map fun r => r.any id) ++
    (((mapRanges p).map fun r => r.any id).zip (mapRanges p)).flatMap rangeInput := by
  rw [zip_rangeBits, List.flatMap_map]
  exact congrArg (_ ++ ·) (flatMap_if (mapRanges p) fun r => r.any id).symm

/-- A range stands for itself: without a range bit it is clear. -/
theorem rangeValues_self {r : List Bool} (h : r.length = 16) : rangeValues (r.any id, r) = r := by
  rw [rangeValues]
  split
  · rfl
  · next hany => exact (List.eq_replicate_iff.mpr ⟨h, by simpa using hany⟩).symm

/-- MTF_READ_MAP reads the map that MTF_WRITE_MAP writes (rules R202, R203). -/
theorem mtfReadMap_mapBits {p : Vector Bool 256} {rest : List Bool} (hok : e.bits.ReaderOk) (h : e.inBits = mapBits p ++ rest) :
    mtfReadMap e = .ok () ((e.consume (mapBits p).length).withPresence p) := by
  have hlen : (mapRanges p).length = 16 := by simp [mapRanges]
  rw [mapBits_eq] at h ⊢
  obtain ⟨p', hrun, hp'⟩ := mtfReadMap_run hok (by simpa using hlen) hlen mapRanges_length h
  have hback : p'.toList = p.toList := by
    rw [hp', zip_rangeBits, List.flatMap_map, ← mapRanges_flatten p, List.flatten_eq_flatMap]
    exact List.flatMap_congr fun r hr => rangeValues_self (mapRanges_length r hr)
  rw [hrun, Vector.toList_inj.mp hback]

/-- The range of a byte is the one with its high digit. -/
theorem rangeOf_onlyByte_any (v : Byte) {i : Nat} (hi : i < 16) : (rangeOf (onlyByte v) i).any id = decide (i = v.toNat / 16) := by
  have hv := v.isLt
  rw [Bool.eq_iff_iff, List.any_eq_true, decide_eq_true_iff]
  constructor
  · rintro ⟨b, hb, hbt⟩
    obtain ⟨j, hj, rfl⟩ := List.mem_iff_getElem.mp hb
    simp [rangeOf, onlyByte] at hj hbt
    omega
  · intro h
    refine ⟨true, List.mem_iff_getElem.mpr ⟨v.toNat % 16, ?_, ?_⟩, rfl⟩
    · simp [rangeOf]
      omega
    · simp [rangeOf, onlyByte]
      omega

/-- The map of one byte takes 32 bits: the 16 range bits, and the one range. -/
theorem mapBits_onlyByte_length (v : Byte) : (mapBits (onlyByte v)).length = 32 := by
  have hv := v.isLt
  have hmem : v.toNat / 16 ∈ List.range 16 := List.mem_range.mpr (by omega)
  have hfilter : (List.range 16).filter ((fun r => r.any id) ∘ rangeOf (onlyByte v)) = [v.toNat / 16] :=
    (List.filter_congr fun i hi => rangeOf_onlyByte_any v (List.mem_range.mp hi)).trans
      (by rw [List.filter_eq, List.count_eq_one_of_mem List.nodup_range hmem]; rfl)
  have hone : (mapRanges (onlyByte v)).filter (fun r => r.any id) = [rangeOf (onlyByte v) (v.toNat / 16)] := by
    rw [mapRanges, List.filter_map, hfilter, List.map_singleton]
  have hlen : (rangeOf (onlyByte v) (v.toNat / 16)).length = 16 := by
    simp [rangeOf]
    omega
  show (_ ++ ((mapRanges (onlyByte v)).filter (fun r => r.any id)).flatten).length = 32
  rw [hone]
  simp [hlen]

/-! ### The two tables -/

/-- The lengths of RUNA, the byte's unused symbol and END_OF_BLOCK. -/
def oneByteLens : List Nat := [2, 2, 1]

theorem oneByteLens_ok : LensOk 20 oneByteLens := by decide

theorem oneByteLens_kraft : kraft 20 oneByteLens ≤ 2 ^ 20 ∧ kraft 23 oneByteLens ≤ 2 ^ 23 := by decide

/-- The codes of RUNA and END_OF_BLOCK are `10` and `0` (rule R227). -/
theorem oneByteLens_codes : canonicalCode oneByteLens 0 = 2 ∧ canonicalCode oneByteLens 2 = 0 := by decide

/-! ### The bits of the block -/

/-- The fields before the symbol map (rule R122). -/
def headerBits (crc : Word) (flag : Bool) (start : BitVec 24) : List Bool := bitsOf 32 crc.toNat ++ [flag] ++ bitsOf 24 start.toNat

/-- The counts, the selector and the two tables (rules R124 to R126). -/
def oneByteTables : List Bool :=
  bitsOf 3 2 ++ bitsOf 15 1 ++ unaryBits 0 ++ (List.replicate 2 (bitsOf 5 2 ++ deltaBits 2 oneByteLens)).flatten

theorem oneByteBlock_eq (v : Byte) (crc : Word) : oneByteBlock v crc =
    headerBits crc false 0 ++ (mapBits (onlyByte v) ++ (oneByteTables ++ ([true, false] ++ [false]))) := by
  simp [oneByteBlock, headerBits, oneByteTables, onlyByte, oneByteLens]

end Sys2Proof.Machine
end

section
/-! SUPPORT. BLK_DEC_START on the block of one byte (rules R260, R270, R271): how far the input has been read, what each part of the block
leaves, and the walk that yields the byte. -/

namespace Sys2Proof.Machine

variable {e e₀ e' : Engine} {done bs todo : List Bool}

/-! ### How far the input has been read -/

/-- Of the input that `e₀` had at hand, the bits `done` have been read, and the bits `todo` have not. -/
structure Engine.ReadTo (e₀ : Engine) (done todo : List Bool) (e : Engine) : Prop where
  startOk : e₀.bits.ReaderOk
  whole : e₀.inBits = done ++ todo
  bits : e.bits = (e₀.consume done.length).bits
  inFifo : e.host.inFifo = (e₀.consume done.length).host.inFifo

theorem readTo_start (hok : e.bits.ReaderOk) (h : e.inBits = todo) : e.ReadTo [] todo e :=
  ⟨hok, h, by rw [List.length_nil, consume_zero hok], by rw [List.length_nil, consume_zero hok]⟩

theorem Engine.ReadTo.done_le (h : e₀.ReadTo done todo e) : done.length ≤ e₀.inBits.length := by
  rw [h.whole, List.length_append]
  exact Nat.le_add_right _ _

theorem Engine.ReadTo.ok (h : e₀.ReadTo done todo e) : e.bits.ReaderOk := h.bits ▸ consume_readerOk h.startOk h.done_le

theorem Engine.ReadTo.inBits (h : e₀.ReadTo done todo e) : e.inBits = todo := by
  have hrest := consume_inBits h.startOk h.done_le
  rw [h.whole, List.drop_left] at hrest
  rw [← hrest, Engine.inBits, Engine.inBits, h.bits, h.inFifo]

/-- Only the bit engine and the input FIFO matter. -/
theorem Engine.ReadTo.congr (h : e₀.ReadTo done todo e) (hb : e'.bits = e.bits := by rfl)
    (hi : e'.host.inFifo = e.host.inFifo := by rfl) : e₀.ReadTo done todo e' := ⟨h.startOk, h.whole, hb.trans h.bits, hi.trans h.inFifo⟩

theorem Engine.ReadTo.consume (h : e₀.ReadTo done (bs ++ todo) e) : e₀.ReadTo (done ++ bs) todo (e.consume bs.length) := by
  have hwhole : e₀.inBits = done ++ bs ++ todo := by rw [h.whole, List.append_assoc]
  have hsum : (e₀.consume done.length).consume bs.length = e₀.consume (done ++ bs).length := by
    rw [List.length_append]
    exact consume_consume h.startOk (by rw [hwhole, List.length_append, List.length_append]; omega)
  refine ⟨h.startOk, hwhole, ?_, ?_⟩ <;> rw [← hsum] <;> simp only [Engine.consume, Engine.inBits, h.bits, h.inFifo]

theorem Engine.ReadTo.readBits {n v : Nat} (hn : n ≤ 24) (hv : v < 2 ^ n) (h : e₀.ReadTo done (bitsOf n v ++ todo) e) :
    readBits n e = .ok v (e.consume n) := by
  have hrun := takes_readBits hn hv e todo h.ok h.inBits
  rwa [bitsOf_length] at hrun

theorem Engine.ReadTo.readFlag {b : Bool} (h : e₀.ReadTo done ([b] ++ todo) e) : Machine.readBits 1 e = .ok b.toNat (e.consume 1) :=
  readBits_one h.ok h.inBits

theorem Engine.ReadTo.read32 {w : Word} (h : e₀.ReadTo done (bitsOf 32 w.toNat ++ todo) e) :
    read32 e = .ok w.toNat (e.consume 32) := by
  have htake : e.inBits.take 32 = bitsOf 32 w.toNat := by rw [h.inBits, List.take_left' (bitsOf_length ..)]
  rw [read32_run h.ok (by rw [h.inBits, List.length_append, bitsOf_length]; omega), htake, bitsVal_bitsOf, Nat.mod_eq_of_lt w.isLt]

/-! ### The header fields -/

/-- The engine with the header fields of a block (rule R270). -/
def Engine.withHeader (crc : Word) (flag : Bool) (start : BitVec 24) (e : Engine) : Engine :=
  { e with crc.storedBlock := crc, block.randFlag := flag, bwt.startPtr := start }

theorem readBlockHeader_run {crc : Word} {flag : Bool} {start : BitVec 24} (hok : e.bits.ReaderOk)
    (h : e.inBits = headerBits crc flag start ++ todo) :
    readBlockHeader e = .ok () ((e.consume (headerBits crc flag start).length).withHeader crc flag start) := by
  have h₁ := readTo_start hok h
  rw [headerBits, List.append_assoc, List.append_assoc] at h₁
  have h₂ : e.ReadTo _ _ (e.consume 32) := bitsOf_length 32 _ ▸ h₁.consume
  have h₃ : e.ReadTo _ _ ((e.consume 32).consume 1) := h₂.consume
  have hrun : readBlockHeader e = .ok () ((((e.consume 32).consume 1).consume 24).withHeader (BitVec.ofNat 32 crc.toNat)
      (flag.toNat = 1) (BitVec.ofNat 24 start.toNat)) :=
    (bind_ok h₁.read32).trans <| (modCrc_bind_run ..).trans <| (bind_ok (h₂.congr).readFlag).trans <|
      (modBlock_bind_run ..).trans <| bind_ok ((h₃.congr).readBits (n := 24) le_rfl start.isLt)
  have hlen : 57 ≤ e.inBits.length := by simp [h, headerBits]
  have hflag : decide (flag.toNat = 1) = flag := by cases flag <;> rfl
  rw [hrun, consume_consume hok (by omega), consume_consume hok (by omega), hflag]
  simp [headerBits]

/-! ### The tables -/

/-- The bits of the counts, the selectors by their positions, and the tables by their steps (rules R124 to R126). -/
def tableSectionBits (nG : Nat) (js : List Nat) (tables : List (Nat × List (List Bool))) : List Bool :=
  bitsOf 3 nG ++ bitsOf 15 js.length ++ js.flatMap unaryBits ++ tables.flatMap tableStepBits

/-- `ReadTables()` changes the Huffman unit alone, besides the bits it takes (rule R233). -/
theorem readTables_ok {nG : Nat} {js : List Nat} {tables : List (Nat × List (List Bool))} (hok : e.bits.ReaderOk) (ha : e.AlphaOk)
    (hne : e.mtf.nInUse ≠ 0) (h2 : 2 ≤ nG) (h6 : nG ≤ 6) (hjs1 : 1 ≤ js.length) (hjs18001 : js.length ≤ 18001) (hjs : ∀ j ∈ js, j < nG)
    (htables : tables.length = nG) (hsteps : ∀ q ∈ tables, q.1 < 32 ∧ q.2.length = e.alpha ∧ TableStepsOk q.1 q.2)
    (hin : e.inBits = tableSectionBits nG js tables ++ todo) :
    ∃ huf : HufUnit, readTables e = .ok () { e.consume (tableSectionBits nG js tables).length with huf := huf } ∧
      huf.nSelectors.toNat = js.length ∧ SelsRead nG js e.huf.selectors huf.selectors ∧ huf.symCount = 0 ∧
      ∀ t < nG, Engine.Looks t (tableLens tables t) { e with huf := huf } := by
  have hn := alpha_le ha
  let e₁ := (e.consume (tableSectionBits nG js tables).length).withHuf (HufUnit.withTables nG js.length js tables)
  have htaken : readTablesFor e.alpha e = finishTables nG e₁ := by
    have h := takes_tables h2 h6 ⟨hjs1, hjs18001⟩ hjs rfl hn htables.le hsteps
    rw [show nG - tables.length = 0 by omega] at h
    exact h e todo hok hin
  have hlens : ∀ t < nG, e₁.lens t = tableLens tables t := fun t ht => by
    refine lens_eq_of_cells (tableLens_spec hsteps (htables.symm ▸ ht)).1 fun v hv => ?_
    exact (cell_tablesPlaced hn (htables.le.trans h6) hsteps t v).trans (if_pos ⟨htables.symm ▸ ht, hv⟩)
  have hlensOk : ∀ t < nG, LensOk 23 (e₁.lens t) := fun t ht => hlens t ht ▸ (tableLens_spec hsteps (htables.symm ▸ ht)).2
  obtain ⟨e₂, hrun, ⟨_, _, _, _, _, rfl⟩, hlookup⟩ := finishTables_run (e := e₁) (nG := nG) ha h6 hlensOk
  refine ⟨_, (readTables_run hne).trans (htaken.trans hrun), (BitVec.toNat_ofNat ..).trans (Nat.mod_eq_of_lt (by omega)),
    selsRead_selsPlaced _, rfl, fun t ht => ?_⟩
  have hlook := hlookup t ht
  obtain ⟨hlen, hrange⟩ := tableLens_spec hsteps (htables.symm ▸ ht : t < tables.length)
  rw [hlens t ht] at hlook
  exact ⟨ht.trans_le h6, hlook.congr ⟨rfl, rfl, fun _ => rfl, fun _ => rfl, fun _ => rfl⟩,
    List.ne_nil_of_length_eq_add_one hlen, hlen.trans_le hn, hrange⟩

/-! ### The symbols -/

/-- The code of a symbol, decoded with the table of its group (rule R238). -/
theorem hufDecodeSym_code {g v : Nat} {u : BitVec 3} {lens : List Nat} (hg : e.huf.symCount.toNat / 50 = g)
    (hlt : g < e.huf.nSelectors.toNat) (hu : e.huf.selectors.read g = some u) (hlooks : e.Looks u.toNat lens)
    (hk : kraft 23 lens ≤ 2 ^ 23) (hok : e.bits.ReaderOk) (hv : v < lens.length)
    (hbits : e.inBits = bitsOf (lens.getD v 0) (canonicalCode lens v) ++ todo) :
    hufDecodeSym e = .ok v { e.consume (lens.getD v 0) with huf.symCount := BitVec.ofNat 20 (e.huf.symCount.toNat + 1) } :=
  (hufDecodeSym_eq hg hlt hu).trans (bind_ok (decodeSym_canonical hlooks hok hv hk hbits))

theorem Engine.Looks.congr {t : Nat} {lens : List Nat} (h : e.Looks t lens) (hs : SameLookup t e e') : e'.Looks t lens :=
  { h with lookup := h.lookup.congr hs }

/-- The decoder before the symbols of a block of one byte: the lookup of its tables, and nothing decoded yet. -/
structure Engine.AwaitsByte (v : Byte) (e : Engine) : Prop where
  looks : e.Looks 0 oneByteLens
  selector : e.huf.selectors.read 0 = some 0
  count : e.huf.nSelectors.toNat = 1
  first : e.huf.symCount = 0
  decodes : e.Decodes e.block.k [v] []
  k : e.KOk

/-- RUNA and END_OF_BLOCK leave the one byte in BWT_ARR (rules R198, R271). -/
theorem decodeSymbols_byte {v : Byte} (h : e.AwaitsByte v) (hr : e₀.ReadTo done ([true, false] ++ ([false] ++ todo)) e) :
    ∃ e', decodeSymbols 50 e = .ok () e' ∧ e₀.ReadTo (done ++ [true, false] ++ [false]) todo e' ∧ e'.BwtFilled ∧ e'.bwtBytes = [v] ∧
      e'.block = e.block ∧ e'.crc = e.crc ∧ e'.bwt.startPtr = e.bwt.startPtr ∧ e'.mtf.nInUse = e.mtf.nInUse ∧ e'.huf.decEob = true := by
  obtain ⟨hlooks, hsel, hcount, hfirst, hdec, hk⟩ := h
  obtain ⟨hcode0, hcode2⟩ := oneByteLens_codes
  have hrunA := hufDecodeSym_code (g := 0) (v := 0) (by rw [hfirst]; rfl) (by omega) hsel hlooks oneByteLens_kraft.2 hr.ok (by decide)
    (by rw [hcode0]; exact hr.inBits)
  have hr₁ : e₀.ReadTo (done ++ [true, false]) ([false] ++ todo) (e.consume 2) := hr.consume
  have hlen : e.bwt.len.toNat = 0 := hdec.len
  have hn : e.mtf.nInUse.toNat = 1 := hdec.count
  let e₁ : Engine := { e.consume 2 with huf.symCount := BitVec.ofNat 20 (e.huf.symCount.toNat + 1) }
  have hfirst₁ : e₁.huf.symCount.toNat = 1 := by simp [e₁, hfirst]
  have hacc : e₁.mtf.runAcc = 0 := hdec.runAcc
  have hw : e₁.mtf.runW = 1 := hdec.runW
  let e₂ : Engine := e₁.withRun (BitVec.ofNat 20 1) (BitVec.ofNat 20 2)
  have hdigit : mtfDecSym 0 e₁ = .ok false e₂ := by
    have hroom : e₁.bwt.len.toNat = 0 ∧ 1 ≤ e₁.block.k.toNat := ⟨hlen, hk.1⟩
    refine (mtfDecSym_digit (Nat.zero_le 1) (by rw [hacc, hw]; simp; omega)).trans ?_
    simp only [hacc, hw]
    rfl
  have hrunEob : hufDecodeSym e₂ = .ok 2 { e₂.consume 1 with huf.symCount := BitVec.ofNat 20 (e₂.huf.symCount.toNat + 1) } :=
    hufDecodeSym_code (e := e₂) (g := 0) (v := 2) (lens := oneByteLens) (by rw [show e₂.huf.symCount.toNat = 1 from hfirst₁])
      (hcount.symm ▸ Nat.one_pos) hsel (hlooks.congr ⟨rfl, rfl, fun _ => rfl, fun _ => rfl, fun _ => rfl⟩) oneByteLens_kraft.2 hr₁.ok
      (by decide) (by rw [hcode2]; exact hr₁.inBits)
  let e₃ : Engine := { e₂.consume 1 with huf.symCount := BitVec.ofNat 20 (e₂.huf.symCount.toNat + 1) }
  have hr₂ : e₀.ReadTo (done ++ [true, false] ++ [false]) todo e₃ := hr₁.consume.congr
  have hpending : e₃.bwt.len.toNat + e₃.mtf.runAcc.toNat ≤ 900000 := (congrArg (· + 1) hlen).trans_le (by decide)
  have heob : mtfDecSym 2 e₃ = .ok true { e₃.runApplied with huf.decEob := true } :=
    mtfDecSym_eob le_rfl (congrArg (· + 1) hn).symm hpending
  have hbytes : e₃.runApplied.bwtBytes = [v] := (runApplied_bwtBytes hpending).trans
    (congrArg₂ (fun bs b => bs ++ List.replicate 1 b) hdec.bytes (hdec.front (List.cons_ne_nil v [])))
  obtain ⟨a, w, m, l, hframe⟩ := runApplied_frame (e := e₃)
  refine ⟨{ e₃.runApplied with huf.decEob := true }, ?_, ?_, runApplied_filled hpending hdec.filled, hbytes, ?_, ?_, ?_, ?_, rfl⟩
  · have hlast : decodeSymbols 49 e₂ = .ok () { e₃.runApplied with huf.decEob := true } :=
      (bind_ok hrunEob).trans (bind_ok heob)
    exact (bind_ok hrunA).trans ((bind_ok hdigit).trans hlast)
  · exact hr₂.congr (by rw [hframe]) (by rw [hframe])
  all_goals rw [hframe]; rfl

/-! ### The whole block -/

/-- The two tables of the block, as the steps that write them. -/
def oneByteSteps : List (Nat × List (List Bool)) := List.replicate 2 (2, [[], [], [true]])

theorem oneByteSteps_bits : tableSectionBits 2 [0] oneByteSteps = oneByteTables := by decide

theorem oneByteSteps_lens : ∀ t < 2, tableLens oneByteSteps t = oneByteLens := by decide

theorem oneByteSteps_ok : ∀ q ∈ oneByteSteps, q.1 < 32 ∧ q.2.length = 3 ∧ TableStepsOk q.1 q.2 := by
  intro q hq
  rw [List.eq_of_mem_replicate hq]
  simp [TableStepsOk, StepsOk, stepTo]

/-- `MtfReadMap()` changes PRESENCE alone, besides the bits it takes. -/
theorem mtfReadMap_readTo {p : Vector Bool 256} (hr : e₀.ReadTo done (mapBits p ++ todo) e) :
    ∃ e', mtfReadMap e = .ok () e' ∧ e₀.ReadTo (done ++ mapBits p) todo e' ∧ e'.block.presence = p ∧
      e'.block.k = e.block.k ∧ e'.block.randFlag = e.block.randFlag ∧ e'.crc = e.crc ∧ e'.bwt = e.bwt :=
  ⟨_, mtfReadMap_mapBits hr.ok hr.inBits, hr.consume.congr, rfl, rfl, rfl, rfl, rfl⟩

/-- The decoder after MTF_INIT with the one byte present (rules R190, R192). -/
theorem decodes_onlyByte {v : Byte} (h : e.block.presence = onlyByte v) : (e.mtfStarted true).Decodes e.block.k [v] [] := by
  have hdec := decodes_start (onlyByte v) h
  rwa [presentValues_onlyByte, List.map_singleton, BitVec.ofNat_toNat, BitVec.setWidth_eq] at hdec

/-- `ReadTables()` on the tables of the block leaves the decoder before its symbols. -/
theorem readTables_oneByte {v : Byte} (hr : e₀.ReadTo done (oneByteTables ++ todo) e) (hk : e.KOk)
    (hdec : e.Decodes e.block.k [v] []) :
    ∃ huf, readTables e = .ok () { e.consume oneByteTables.length with huf := huf } ∧
      Engine.AwaitsByte v { e.consume oneByteTables.length with huf := huf } := by
  have hn : e.mtf.nInUse.toNat = 1 := hdec.count
  have halpha : e.alpha = 3 := congrArg (· + 2) hn
  obtain ⟨huf, hrun, hcount, hsel, hfirst, hlooks⟩ := readTables_ok (nG := 2) (js := [0]) (tables := oneByteSteps) (todo := todo) hr.ok
    (hn.trans_le (by decide)) (fun h0 => absurd (h0 ▸ hn) (by decide)) (by decide) (by decide) (by decide) (by decide) (by decide) rfl
    (halpha ▸ oneByteSteps_ok) (oneByteSteps_bits ▸ hr.inBits)
  rw [oneByteSteps_bits] at hrun
  have hlook := oneByteSteps_lens 0 (by decide) ▸ hlooks 0 (by decide)
  exact ⟨huf, hrun, hlook.congr ⟨rfl, rfl, fun _ => rfl, fun _ => rfl, fun _ => rfl⟩, hsel.1 0 Nat.one_pos, hcount, hfirst,
    ⟨rfl, hn, hdec.small, hdec.order, hdec.runAcc, hdec.runW, hdec.filled, hdec.bytes⟩, hk⟩

/-- The walk of one byte, set up (rules R178, R184). -/
theorem bwtInvSetup_byte {v : Byte} (hf : e.BwtFilled) (hb : e.bwtBytes = [v]) (hs : e.bwt.startPtr = 0) :
    ∃ m c cur, bwtInvSetup e = .ok 1 { e with bwt.merged := m, bwt.charBase := c, bwt.curEntry := cur, bwt.hopsLeft := 1 } ∧
      Engine.Walks [v] { e with bwt.merged := m, bwt.charBase := c, bwt.curEntry := cur, bwt.hopsLeft := 1 } := by
  have hlen : e.bwt.len.toNat = 1 := by rw [← bwtBytes_length, hb]; rfl
  have hlast : bwtLast [v] = [v] := rfl
  obtain ⟨m, c, hrun, hm, -, -⟩ := bwtInvSetup_run hf (by omega) (by rw [hs, hlen]; decide)
  have hone : e.bwt.len = 1 := BitVec.eq_of_toNat_eq hlen
  rw [hb, hs, hlen, hone] at hrun
  refine ⟨m, c, _, hrun, ?_⟩
  rw [hb, hlen] at hm
  exact walks_of_merged (b := [v]) (by rw [List.length_singleton]; norm_num) (by rw [hlast]; exact hm) 1 0 0 _ rfl Nat.one_pos rfl rfl
    (by rw [hlast]; rfl) rfl

/-- `BlkDecStart()` on the block of one byte (rule R271). -/
theorem blkDecStart_oneByte {v : Byte} {crc : Word} (hok : e.bits.ReaderOk) (hk : e.KOk) (hin : e.inBits = oneByteBlock v crc ++ todo) :
    ∃ e', blkDecStart e = .ok 1 e' ∧ e.ReadTo (oneByteBlock v crc) todo e' ∧ e'.crc.storedBlock = crc ∧ e'.block.randFlag = false ∧
      e'.bwt.startPtr = 0 ∧ e'.bwt.len = 1 ∧ e'.bwtBytes = [v] ∧ e'.Walks [v] ∧ e'.block.rlLast = 0 ∧ e'.block.rlCnt = 0 ∧
      e'.block.rlRep = 0 ∧ e'.block.randNtogo = 0 ∧ e'.block.randTpos = 0 ∧ e'.crc.block = 0xFFFFFFFF ∧ e'.block.k = e.block.k ∧
      e'.mtf.nInUse = 1 ∧ e'.huf.decEob = true := by
  have hparts : oneByteBlock v crc ++ todo =
      headerBits crc false 0 ++ (mapBits (onlyByte v) ++ (oneByteTables ++ ([true, false] ++ ([false] ++ todo)))) := by
    simp [oneByteBlock_eq]
  have h₀ := readTo_start hok (hin.trans hparts)
  have hheader := readBlockHeader_run hok h₀.inBits
  let e₁ := (e.consume (headerBits crc false 0).length).withHeader crc false 0
  have h₁ : e.ReadTo _ _ e₁ := h₀.consume.congr
  obtain ⟨e₂, hmap, h₂, hpresence₂, hk₂, hflag₂, hcrc₂, hbwt₂⟩ := mtfReadMap_readTo h₁
  have h₃ : e.ReadTo _ _ (e₂.mtfStarted true) := h₂.congr
  have hdec : (e₂.mtfStarted true).Decodes e₂.block.k [v] [] := decodes_onlyByte hpresence₂
  have hk₂' : e₂.KOk := by rwa [Engine.KOk, hk₂]
  obtain ⟨huf, htables, hawaits⟩ := readTables_oneByte h₃ hk₂' hdec
  obtain ⟨e₅, hsyms, h₅, hfilled, hbytes, hblock, hcrc, hstart, hn, heob⟩ := decodeSymbols_byte hawaits
    ((h₃.consume (bs := oneByteTables)).congr)
  have hblock₅ : e₅.block = e₂.block := hblock
  have hstored : e₅.crc.storedBlock = crc := congrArg CrcUnit.storedBlock ((hcrc : e₅.crc = e₂.crc).trans hcrc₂)
  have hstart₅ : e₅.bwt.startPtr = 0 := hstart.trans (congrArg BwtUnit.startPtr hbwt₂)
  have hn₅ : e₅.mtf.nInUse = 1 := hn.trans (BitVec.eq_of_toNat_eq hdec.count)
  have hlen₅ : e₅.bwt.len = 1 := BitVec.eq_of_toNat_eq (by rw [← bwtBytes_length, hbytes]; rfl)
  obtain ⟨m, c, cur, hsetup, hwalks⟩ := bwtInvSetup_byte hfilled hbytes hstart₅
  have hgroups : ((e₂.mtfStarted true).consume oneByteTables.length |>.withHuf fun _ => huf).huf.nSelectors.toNat * 50 = 50 :=
    congrArg (· * 50) hawaits.count
  refine ⟨_, (bind_ok hheader).trans ((bind_ok hmap).trans ((bind_ok (mtfInit_run true)).trans ((bind_ok htables).trans
    ((get_bind_run ..).trans ((bind_ok (hgroups ▸ hsyms)).trans (bind_ok hsetup)))))), ?_, hstored,
    (congrArg BlockUnit.randFlag hblock₅).trans hflag₂, hstart₅, hlen₅, hbytes, hwalks, rfl, rfl, rfl, rfl, rfl, rfl,
    (congrArg BlockUnit.k hblock₅).trans hk₂, hn₅, heob⟩
  have hdone : [] ++ headerBits crc false 0 ++ mapBits (onlyByte v) ++ oneByteTables ++ [true, false] ++ [false] = oneByteBlock v crc := by
    simp [oneByteBlock_eq]
  exact hdone ▸ h₅.congr

/-! ### The command -/

/-- The engine in which BLK_DEC_START reads the block: BLOCK_K is its operand, or kept for 0 (rule R270). -/
def Engine.keepOrSetK (k : BitVec 4) (e : Engine) : Engine := { e with block.k := if k = 0 then e.block.k else k }

theorem doWhen_setK (k : BitVec 4) : doWhen (0 < k.toNat) (modBlock fun b => { b with k := k }) e = .ok () (e.keepOrSetK k) := by
  by_cases h0 : k = 0
  · rw [doWhen_false (by rw [h0]; decide), Engine.keepOrSetK, if_pos h0]
    rfl
  · have hpos : 0 < k.toNat := Nat.pos_of_ne_zero fun hz => h0 (BitVec.eq_of_toNat_eq hz)
    rw [doWhen_true (by simpa using hpos), Engine.keepOrSetK, if_neg h0]
    rfl

theorem keepOrSetK_ok {k : BitVec 4} (h : e.KOk) (hk : k.toNat ≤ 9) : (e.keepOrSetK k).KOk := by
  show 1 ≤ (if k = 0 then e.block.k else k).toNat ∧ (if k = 0 then e.block.k else k).toNat ≤ 9
  split
  · exact h
  · next h0 => exact ⟨Nat.pos_of_ne_zero fun hz => h0 (BitVec.eq_of_toNat_eq hz), hk⟩

/-- Settles O34: the parts of the block are read one after the other, each where the one before it ended. -/
theorem blockStartReadsAByte : Obligations.BlockStartReadsAByte := by
  intro s k v crc rest hl hok hk hk9 hin
  obtain ⟨e, hrun, hread, hfields⟩ := blkDecStart_oneByte (e := s.begun.keepOrSetK k) (todo := rest) hok (keepOrSetK_ok hk hk9) hin
  exact ⟨e, completes_of rfl hl (requireOk_true (decide_eq_true hk9)) ((bind_ok (doWhen_setK k)).trans (bind_ok hrun)), hread.bits,
    hread.inFifo, hfields⟩

end Sys2Proof.Machine
end

section
/-! SUPPORT. BLK_ENC_CLOSE of a block of one byte (rules R263, R264): how far the output has been written, and what each part of the block
leaves for the next. -/

namespace Sys2Proof.Machine

variable {e e₀ e' : Engine} {done bs todo : List Bool} {v : Byte} {α : Type}

/-! ### How far the output has been written -/

/-- The bits `done` have been appended to the output of `e₀`, which has room for the bits `todo` after them. -/
structure Engine.WroteTo (e₀ : Engine) (done todo : List Bool) (e : Engine) : Prop where
  startOk : e₀.bits.WriterOk
  room : e₀.HasRoom (done.length + todo.length)
  bits : e.bits = (e₀.append done).bits
  outFifo : e.host.outFifo = (e₀.append done).host.outFifo
  outDepth : e.outDepth = e₀.outDepth

theorem wroteTo_start (hok : e.bits.WriterOk) (h : e.HasRoom todo.length) : e.WroteTo [] todo e :=
  ⟨hok, by simpa using h, by rw [append_nil hok], by rw [append_nil hok], rfl⟩

/-- Only the bit engine and the output FIFO matter. -/
theorem Engine.WroteTo.congr (h : e₀.WroteTo done todo e) (hb : e'.bits = e.bits := by rfl)
    (ho : e'.host.outFifo = e.host.outFifo := by rfl) (hd : e'.outDepth = e.outDepth := by rfl) : e₀.WroteTo done todo e' :=
  ⟨h.startOk, h.room, hb.trans h.bits, ho.trans h.outFifo, hd.trans h.outDepth⟩

theorem Engine.WroteTo.ok (h : e₀.WroteTo done todo e) : e.bits.WriterOk := h.bits ▸ append_writerOk done

theorem Engine.WroteTo.hasRoom (h : e₀.WroteTo done (bs ++ todo) e) : e.HasRoom bs.length := by
  have hroom := (hasRoom_append h.room).2
  rw [Engine.HasRoom, ← h.outFifo, ← h.bits, append_outDepth, ← h.outDepth, List.length_append] at hroom
  rw [Engine.HasRoom]
  omega

theorem Engine.WroteTo.append (h : e₀.WroteTo done (bs ++ todo) e) : e₀.WroteTo (done ++ bs) todo (e.append bs) := by
  have hroom : e₀.HasRoom ((done ++ bs).length + todo.length) := by
    rw [List.length_append, Nat.add_assoc, ← List.length_append]
    exact h.room
  refine ⟨h.startOk, hroom, ?_, ?_, h.outDepth⟩ <;> rw [← append_append] <;>
    simp only [Engine.append, Engine.wrBits, h.bits, h.outFifo]

/-- A piece that writes bits, where there is room for them. -/
theorem Engine.WroteTo.emits {c : Cmd Unit} (h : e₀.WroteTo done (bs ++ todo) e) (hc : Cmd.Emits bs c) : c e = .ok () (e.append bs) :=
  hc.run h.ok h.hasRoom

/-! ### What a piece leaves alone -/

theorem same_of_run {W : List Reg} {c : Cmd α} {a : α} (hw : Writes W c) (h : c e = .ok a e') (r : Reg) (hr : r ∉ W) : r.same e e' :=
  hw.ok e a e' h r hr

/-- The registers of the bit engine make up the bit engine. -/
theorem bits_of_same (h1 : Reg.rdAcc.same e e') (h2 : Reg.rdCnt.same e e') (h3 : Reg.wrAcc.same e e') (h4 : Reg.wrCnt.same e e') :
    e'.bits = e.bits := by
  simp only [Reg.same] at h1 h2 h3 h4
  generalize e.bits = b at *
  generalize e'.bits = b' at *
  cases b
  cases b'
  simp_all

/-- The registers that `Engine.WroteTo` speaks of. -/
def outputRegs : List Reg := [.rdAcc, .rdCnt, .wrAcc, .wrCnt, .outFifo, .outDepth]

/-- A piece that writes none of those registers. -/
theorem Engine.WroteTo.run {W : List Reg} {c : Cmd α} {a : α} (h : e₀.WroteTo done todo e) (hw : Writes W c) (hrun : c e = .ok a e')
    (hW : ∀ r ∈ outputRegs, r ∉ W) : e₀.WroteTo done todo e' := by
  have hsame : ∀ r ∈ outputRegs, r.same e e' := fun r hr => same_of_run hw hrun r (hW r hr)
  exact h.congr (bits_of_same (hsame .rdAcc (by decide)) (hsame .rdCnt (by decide)) (hsame .wrAcc (by decide))
    (hsame .wrCnt (by decide))) (hsame .outFifo (by decide)).symm (hsame .outDepth (by decide)).symm

/-! ### The pending run, and the transform -/

/-- The block holds the one byte `v`, and its map `v` alone. -/
structure Engine.HoldsByte (v : Byte) (e : Engine) : Prop where
  filled : e.BlockFilled
  bytes : e.blockBytes = [v]
  presence : e.block.presence = onlyByte v

theorem Engine.HoldsByte.len (h : e.HoldsByte v) : e.block.len.toNat = 1 := by rw [← blockBytes_length, h.bytes]; rfl

/-- `FlushRun()` of a run of one byte in an empty block (rule R161). -/
theorem runFlushed_holdsByte (hlen : e.block.len = 0) (hrun : e.block.runLen = 1) (hclear : ∀ p ∈ e.block.presence.toList, p = false) :
    e.runFlushed.HoldsByte e.block.runCh := by
  have hbytes : runBytes e.block.runCh e.block.runLen.toNat = [e.block.runCh] := by rw [hrun]; rfl
  have hempty : e.block.len.toNat = 0 := by rw [hlen]; rfl
  have hfits : e.block.len.toNat + (runBytes e.block.runCh e.block.runLen.toNat).length ≤ 900001 := by
    rw [hbytes, hempty, List.length_singleton]
    decide
  have hnone : e.blockBytes = [] := List.eq_nil_of_length_eq_zero (blockBytes_length.trans hempty)
  refine ⟨storeBlock_filled hfits fun i hi => absurd hi (by omega), ?_, ?_⟩
  · rw [runFlushed_blockBytes hfits, Taken.flushed, Engine.taken, hnone]
    exact hbytes
  · show (e.storeBlock _).block.presence = _
    rw [hbytes]
    exact byteSet_clear hclear _

/-- BWT_FORWARD of one byte (rule R177): it is its own transform, from position 0. -/
theorem bwtForward_byte (h : e.HoldsByte v) :
    ∃ e', bwtForward e = .ok 0 e' ∧ e'.BwtFilled ∧ e'.bwtBytes = [v] ∧ e'.block.presence = onlyByte v := by
  have hn : e.block.len.toNat ≤ 900000 := h.len.trans_le (by decide)
  have hrun := bwtForward_run h.filled hn
  have hbytes := forwarded_bwtBytes (e := e)
  rw [h.bytes] at hrun hbytes
  exact ⟨_, hrun, forwarded_bwtFilled, hbytes, h.presence⟩

/-- The marker and the fields before the symbol map (rules R121, R122). -/
theorem emits_writeBlockHeader (crc : Word) :
    Cmd.Emits (bitsOf 48 Config.blockMagic ++ headerBits crc false 0) (writeBlockHeader crc.toNat 0) := by
  have h := emits_bind (emits_write48 Config.blockMagic) (emits_bind (emits_write32 crc.toNat)
    (emits_bind (emits_writeBits (n := 1) (by norm_num) 0) (emits_writeBits (n := 24) (by norm_num) 0)))
  rwa [← List.append_assoc (bitsOf 32 _)] at h

/-! ### The symbols -/

/-- The stream of a block of one byte: RUNA and END_OF_BLOCK. -/
structure Engine.ByteStream (e : Engine) : Prop where
  nInUse : e.mtf.nInUse.toNat = 1
  filled : e.StreamFilled
  symbols : e.symbols = [0, 2]

theorem Engine.ByteStream.len (h : e.ByteStream) : e.mtf.len.toNat = 2 := by rw [← symbols_length, h.symbols]; rfl

theorem encodes_onlyByte (h : e.block.presence = onlyByte v) : (e.mtfStarted false).Encodes (onlyByte v) [] [v] 0 := by
  have henc := encodes_start (onlyByte v) h
  rwa [presentValues_onlyByte, List.map_singleton, BitVec.ofNat_toNat, BitVec.setWidth_eq] at henc

/-- Writing bits does not touch the encoder. -/
theorem Engine.Encodes.append {p : Vector Bool 256} {syms : List Nat} {l : List Byte} {z : Nat} (h : e.Encodes p syms l z)
    (bs : List Bool) : (e.append bs).Encodes p syms l z :=
  ⟨⟨h.ok.count, h.ok.list, h.ok.rank, h.ok.value⟩, h.presence, h.filled, h.symbols, h.order, h.zeros⟩

/-- The byte of BWT_ARR. -/
theorem bwtArrGet_byte (hf : e.BwtFilled) (hb : e.bwtBytes = [v]) : e.bwt.len = 1 ∧ bwtArrGet 0 e = .ok v e := by
  have hlen : e.bwt.len.toNat = 1 := by rw [← bwtBytes_length, hb]; rfl
  obtain ⟨x, hx⟩ := hf 0 (by omega)
  have hget : e.bwtBytes = [x] := by simp [Engine.bwtBytes, hlen, hx]
  obtain rfl : x = v := List.singleton_inj.mp (hget.symm.trans hb)
  exact ⟨BitVec.eq_of_toNat_eq hlen, bwtArrGet_run hx⟩

/-- The MTF steps of BLK_ENC_CLOSE: the symbol map is written, and the byte becomes a run of one (rules R196, R197, R202). -/
theorem encodeSymbols_byte (hf : e.BwtFilled) (hb : e.bwtBytes = [v]) (hp : e.block.presence = onlyByte v)
    (hw : e₀.WroteTo done (mapBits (onlyByte v) ++ todo) e) :
    ∃ e', encodeSymbols e = .ok () e' ∧ e₀.WroteTo (done ++ mapBits (onlyByte v)) todo e' ∧ e'.ByteStream := by
  obtain ⟨hlen, hget⟩ := bwtArrGet_byte (e := (e.mtfStarted false).append (mapBits (onlyByte v))) hf hb
  have henc := encodes_onlyByte hp
  have hw₁ : e₀.WroteTo done (mapBits (onlyByte v) ++ todo) (e.mtfStarted false) := hw.congr
  have hmap := mtfWriteMap_run hw₁.ok (henc.presence.symm ▸ hw₁.hasRoom)
  rw [henc.presence] at hmap
  obtain ⟨j, e₃, hj, hbyte, hcase⟩ := (henc.append (mapBits (onlyByte v))).byte (byteGet_onlyByte v) (by decide)
  obtain rfl : j = 0 := by
    have := (List.getElem?_eq_some_iff.mp hj).1
    simpa using this
  have henc₃ : e₃.Encodes (onlyByte v) [] [v] 1 := hcase
  obtain ⟨e₄, hend, hfilled, hsymbols⟩ := henc₃.finish (by decide)
  have hn : e₄.mtf.nInUse.toNat = 1 := (congrArg BitVec.toNat (same_of_run writes_mtfEncEnd hend .nInUse (by decide)).symm).trans
    henc₃.count
  refine ⟨e₄, (bind_ok (mtfInit_run false)).trans ((bind_ok hmap).trans ((get_bind_run ..).trans ?_)),
    (hw₁.append.run (writes_mtfEncByte v) hbyte (by decide)).run writes_mtfEncEnd hend (by decide), hn, hfilled, hsymbols⟩
  rw [hlen]
  exact (bind_ok (bind_ok ((bind_ok hget).trans hbyte))).trans hend

/-! ### The selection of tables -/

/-- The stream of a block of one byte, to be coded with one selector for two tables. -/
structure Engine.ByteCoding (e : Engine) : Prop extends e.ByteStream where
  nGroups : e.huf.nGroups.toNat = 2
  nSelectors : e.huf.nSelectors.toNat = 1

theorem Engine.ByteCoding.alpha (h : e.ByteCoding) : e.alpha = 3 := congrArg (· + 2) h.nInUse

theorem Engine.ByteCoding.alphaOk (h : e.ByteCoding) : e.AlphaOk := h.nInUse.trans_le (by decide)

theorem Engine.ByteCoding.group (h : e.ByteCoding) : e.group 0 = [0, 2] := by rw [Engine.group, h.symbols]; rfl

theorem Engine.ByteCoding.passOk (h : e.ByteCoding) : e.PassOk := by
  have hlen := h.len
  have hn := h.nGroups
  have hs := h.nSelectors
  have ha := h.alpha
  refine ⟨by omega, by omega, by omega, by omega, h.alphaOk, h.filled, fun x hx => ?_⟩
  rw [h.symbols] at hx
  simp at hx
  omega

/-- HUF_SET_GROUPS for a stream of two symbols (rules R220, R221). -/
theorem hufSetGroups_byte (h : e.ByteStream) : ∃ e', hufSetGroups e = .ok () e' ∧ e'.ByteCoding := by
  have hne : decide (e.mtf.len.toNat ≠ 0) = true := by rw [h.len]; rfl
  refine ⟨_, (bind_ok (requireOk_true hne)), ⟨h.nInUse, h.filled, h.symbols⟩, ?_, ?_⟩
  · show (BitVec.ofNat 3 (tableCount e.mtf.len.toNat)).toNat = 2
    rw [h.len]; rfl
  · show (BitVec.ofNat 15 ((e.mtf.len.toNat + 49) / 50)).toNat = 1
    rw [h.len]; rfl

/-- Whatever table the one group chooses, both get the lengths of the block (rules R210, R224). -/
theorem allocate_byteCounts : allocate [1, 0, 1] = oneByteLens ∧ allocate [0, 0, 0] = oneByteLens := by decide +kernel

/-- The Huffman state after a pass: both tables have the lengths of the block. -/
structure Engine.BytePassed (e : Engine) : Prop extends e.ByteCoding where
  lens : ∀ t < 2, e.lens t = oneByteLens

/-- Under a table with the lengths of the block, its group costs three bits. -/
theorem byteCoding_cost {t : Nat} (h : e.ByteCoding) (hlens : e.lens t = oneByteLens) : e.cost 0 t = 3 := by
  have hcell : ∀ v < 3, cell e.huf.len t v = oneByteLens.getD v 0 := fun v hv => by
    have hv : v < e.alpha := h.alpha.symm ▸ hv
    simp [← hlens, Engine.lens, List.getD_eq_getElem?_getD, hv]
  rw [Engine.cost, h.group, List.map_cons, List.map_singleton, hcell 0 (by decide), hcell 2 (by decide)]
  rfl

/-- A pass leaves both tables with the lengths of the block. -/
theorem byteCoding_pass {c : Nat} (h : e.ByteCoding) (hpass : PassResult e c e') : e'.BytePassed := by
  obtain ⟨choice, sel, rf, ln, rfl, -, -, -, htables, -⟩ := hpass
  rw [h.nGroups, h.nSelectors, h.alpha] at htables
  refine ⟨⟨⟨h.nInUse, h.filled, h.symbols⟩, h.nGroups, h.nSelectors⟩, fun t ht => ?_⟩
  have hcounts : (List.range 3).map (cell rf t) = if choice 0 = t then [1, 0, 1] else [0, 0, 0] := by
    have hcell : ∀ v < 3, cell rf t v = if choice 0 = t then [0, 2].count v else 0 := fun v hv => by
      rw [(htables t ht v hv).1, ← h.group]
      split <;> simp [*]
    rw [List.map_congr_left fun v hv => hcell v (List.mem_range.mp hv)]
    split <;> rfl
  have hlens : allocate ((List.range 3).map (cell rf t)) = oneByteLens := by
    rw [hcounts]
    split
    · exact allocate_byteCounts.1
    · exact allocate_byteCounts.2
  refine lens_eq_of_cells h.alpha.symm fun v hv => ?_
  rw [← hlens]
  exact (htables t ht v (h.alpha ▸ hv)).2

/-- After a pass both tables cost the same, and the next pass chooses table 0 for the group. -/
theorem bytePassed_pass {c : Nat} (h : e.BytePassed) (hpass : PassResult e c e') : e'.huf.selectors.read 0 = some 0 := by
  obtain ⟨choice, sel, rf, ln, rfl, -, hchoice, -⟩ := hpass
  rw [h.nGroups, h.nSelectors] at hchoice
  obtain ⟨hlt, hsel, hleast⟩ := hchoice 0 Nat.one_pos
  have hcost : ∀ t < 2, e.cost 0 t = 3 := fun t ht => byteCoding_cost h.toByteCoding (h.lens t ht)
  have hfirst : ¬ 0 < choice 0 := fun hpos => by
    have := (hleast 0 Nat.two_pos).2 hpos
    rw [hcost _ hlt, hcost 0 Nat.two_pos] at this
    exact lt_irrefl _ this
  rw [Nat.eq_zero_of_not_pos hfirst] at hsel
  exact hsel

/-- HUF_OPTIMIZE (rule R226): its four passes. -/
theorem hufOptimize_byte (h : e.ByteCoding) : ∃ c e', hufOptimize e = .ok c e' ∧ e'.BytePassed ∧ e'.huf.selectors.read 0 = some 0 := by
  have hok := h.passOk
  obtain ⟨⟨hn, hn6⟩, hm, hlen, _, ha, _⟩ := hok
  obtain ⟨e₀, hseed, _, m, rfl, -⟩ := seed_run (e := e) ha hn6
  have h₀ : Engine.ByteCoding { e with huf.len := m } := ⟨⟨h.nInUse, h.filled, h.symbols⟩, h.nGroups, h.nSelectors⟩
  obtain ⟨c₁, e₁, hrun₁, hpass₁, hok₁⟩ := selectPass_spec h₀.passOk
  obtain ⟨c₂, e₂, hrun₂, hpass₂, hok₂⟩ := selectPass_spec hok₁
  obtain ⟨c₃, e₃, hrun₃, hpass₃, hok₃⟩ := selectPass_spec hok₂
  obtain ⟨c₄, e₄, hrun₄, hpass₄, -⟩ := selectPass_spec hok₃
  have h₁ := byteCoding_pass h₀ hpass₁
  have h₂ := byteCoding_pass h₁.toByteCoding hpass₂
  have h₃ := byteCoding_pass h₂.toByteCoding hpass₃
  have hpasses : selectPasses 4 0 _ = .ok c₄ e₄ := (bind_ok hrun₁).trans ((bind_ok hrun₂).trans ((bind_ok hrun₃).trans (bind_ok hrun₄)))
  exact ⟨c₄, e₄, (requireOk_true_bind (decide_eq_true ⟨hn, hn6, hlen, hm⟩) _).trans ((bind_ok hseed).trans hpasses),
    byteCoding_pass h₃.toByteCoding hpass₄, bytePassed_pass h₃ hpass₄⟩

/-! ### The tables and the coded symbols -/

/-- Everything is ready to be written: table 0 is chosen, and its codes are in CODE. -/
structure Engine.ByteReady (e : Engine) : Prop extends e.BytePassed where
  selector : e.huf.selectors.read 0 = some 0
  runA : cell e.huf.code 0 0 = 2 * 2 ^ 24 + 2
  eob : cell e.huf.code 0 2 = 1 * 2 ^ 24 + 0

/-- The codes of both tables (rule R227). -/
theorem assignCodes_byte (h : e.BytePassed) (hsel : e.huf.selectors.read 0 = some 0) :
    ∃ e', forEach (List.range e.huf.nGroups.toNat) assignCodes e = .ok () e' ∧ e'.ByteReady := by
  have hcell : ∀ v < 3, ∀ row row' : Vector Word 258, cell ((e.huf.code.set 0 (codedRow (e.lens 0) row)).set 1 row') 0 v =
      oneByteLens.getD v 0 * 2 ^ 24 + canonicalCode oneByteLens v := fun v hv row row' => by
    rw [cell_set_other (by decide) (by decide), cell_set_same (by decide), h.lens 0 Nat.two_pos]
    exact codedRow_get (by decide) oneByteLens_ok oneByteLens_kraft.1 hv
  rw [h.nGroups]
  have hfirst := assignCodes_run (e := e) (t := 0) (by decide) h.alphaOk
  refine ⟨_, (bind_ok hfirst).trans (bind_ok (assignCodes_run (t := 1) (by decide) h.alphaOk)), ⟨⟨⟨h.nInUse, h.filled, h.symbols⟩,
    h.nGroups, h.nSelectors⟩, h.lens⟩, hsel, (hcell 0 (by decide) _ _).trans ?_, (hcell 2 (by decide) _ _).trans ?_⟩
  · rw [oneByteLens_codes.1]; rfl
  · rw [oneByteLens_codes.2]; rfl

theorem Engine.ByteReady.sels (h : e.ByteReady) : e.sels = [0] := by
  rw [Engine.sels, h.nSelectors]
  simp [h.selector]

theorem Engine.ByteReady.selectorsOk {n : Nat} (h : e.ByteReady) (hn : 0 < n) : e.SelectorsOk n := fun g hg => by
  obtain rfl : g = 0 := by
    have := h.nSelectors
    omega
  exact ⟨0, h.selector, hn⟩

theorem Engine.ByteReady.tableBits (h : e.ByteReady) : e.tableBits = oneByteTables := by
  rw [Engine.tableBits, h.nGroups, h.nSelectors, h.sels]
  simp only [List.range_succ, List.range_zero, List.nil_append, List.cons_append, List.flatMap_cons, List.flatMap_nil,
    h.lens 0 Nat.two_pos, h.lens 1 Nat.one_lt_two]
  rfl

theorem writeTables_byte (h : e.ByteReady) (hw : e₀.WroteTo done (oneByteTables ++ todo) e) :
    writeTables e = .ok () (e.append oneByteTables) := by
  have hemits := emitsOn_writeTables h.alphaOk (h.nGroups.trans_le (by decide)) (h.selectorsOk (by rw [h.nGroups]; decide))
  rw [h.tableBits] at hemits
  exact hemits e rfl rfl hw.ok hw.hasRoom

theorem Engine.ByteReady.codeAt (h : e.ByteReady) : e.codeAt 0 = 2 * 2 ^ 24 + 2 ∧ e.codeAt 1 = 1 * 2 ^ 24 + 0 := by
  rw [Engine.codeAt, Engine.codeAt, h.sels, h.symbols]
  exact ⟨h.runA, h.eob⟩

/-- One symbol of the stream: its code is there, and its bits are written (rule R231). -/
theorem writeSymbol_byte {i l c : Nat} (h : e.ByteReady) (hi : i < 2) (hcode : e.codeAt i = l * 2 ^ 24 + c) (hpos : l ≠ 0) (hl : l ≤ 24)
    (hc : c < 2 ^ 24) : requireCode i e = .ok () e ∧ Cmd.EmitsOn e (bitsOf l c) (writeSymbol i) := by
  have hlen : e.mtf.len.toNat ≤ e.huf.nSelectors.toNat * 50 := by
    rw [h.len, h.nSelectors]
    decide
  have hsym : ∀ x ∈ e.symbols, x < 258 := by
    rw [h.symbols]
    decide
  obtain ⟨w, hw, hget⟩ := codeOfSymbol_run (h.len.symm ▸ hi) hlen h.filled (h.selectorsOk (by decide)) hsym
  have hdiv : w.toNat / 2 ^ 24 = l := by omega
  have hemits := emits_writeCode (w := w) (hdiv.trans_le hl)
  rw [hw, hcode, codeBits_pack hl hc] at hemits
  refine ⟨(bind_ok (hget e rfl rfl)).trans (requireOk_true (decide_eq_true ?_)), hemits.on.congr fun e hhuf hmtf =>
    bind_ok (hget e hhuf hmtf)⟩
  rwa [codeLen, Nat.shiftRight_eq_div_pow, hdiv]

/-- HUF_ENCODE_DATA of RUNA and END_OF_BLOCK (rule R231). -/
theorem hufEncodeData_byte (h : e.ByteReady) (hw : e₀.WroteTo done ([true, false] ++ [false] ++ todo) e) :
    hufEncodeData e = .ok () (e.append ([true, false] ++ [false])) := by
  obtain ⟨hcheck₀, hwrite₀⟩ := writeSymbol_byte h (i := 0) (by decide) h.codeAt.1 (by decide) (by decide) (by decide)
  obtain ⟨hcheck₁, hwrite₁⟩ := writeSymbol_byte h (i := 1) (by decide) h.codeAt.2 (by decide) (by decide) (by decide)
  have hfits : decide (e.mtf.len.toNat ≤ e.huf.nSelectors.toNat * 50) = true := by
    rw [h.len, h.nSelectors]
    rfl
  have hchecks : encodeChecks e = .ok () e := by
    refine (requireOk_true_bind hfits _).trans ?_
    rw [h.len]
    exact (bind_ok hcheck₀).trans (bind_ok hcheck₁)
  refine (bind_ok hchecks).trans ((get_bind_run ..).trans ?_)
  rw [h.len]
  exact emitsOn_bind hwrite₀ (emitsOn_bind hwrite₁ emits_pure.on) e rfl rfl hw.ok hw.hasRoom

/-- The Huffman steps of BLK_ENC_CLOSE (rule R264). -/
theorem encodeHuffman_byte (h : e.ByteStream) (hw : e₀.WroteTo done (oneByteTables ++ ([true, false] ++ [false] ++ todo)) e) :
    ∃ e', encodeHuffman e = .ok () e' ∧ e₀.WroteTo (done ++ oneByteTables ++ ([true, false] ++ [false])) todo e' := by
  obtain ⟨e₁, hgroups, h₁⟩ := hufSetGroups_byte h
  have hw₁ := hw.run writes_hufSetGroups hgroups (by decide)
  obtain ⟨c, e₂, hoptimize, h₂, hsel⟩ := hufOptimize_byte h₁
  have hw₂ := hw₁.run writes_hufOptimize hoptimize (by decide)
  obtain ⟨e₃, hcodes, h₃⟩ := assignCodes_byte h₂ hsel
  have hw₃ := hw₂.run (rel_forEach (composes_frame _) writes_assignCodes) hcodes (by decide)
  have hw₄ := hw₃.append
  have h₄ : (e₃.append oneByteTables).ByteReady :=
    ⟨⟨⟨⟨h₃.nInUse, h₃.filled, h₃.symbols⟩, h₃.nGroups, h₃.nSelectors⟩, h₃.lens⟩, h₃.selector, h₃.runA, h₃.eob⟩
  exact ⟨_, (bind_ok hgroups).trans ((bind_ok hoptimize).trans ((get_bind_run ..).trans ((bind_ok hcodes).trans
    ((bind_ok (writeTables_byte h₃ hw₃)).trans (hufEncodeData_byte h₄ hw₄))))), hw₄.append⟩

/-! ### The whole block -/

/-- The bits that BLK_ENC_CLOSE writes for a block of one byte. -/
def closedBits (v : Byte) (crc : Word) : List Bool := bitsOf 48 Config.blockMagic ++ oneByteBlock v crc

theorem closedBits_eq (v : Byte) (crc : Word) : closedBits v crc =
    bitsOf 48 Config.blockMagic ++ headerBits crc false 0 ++ (mapBits (onlyByte v) ++ (oneByteTables ++ ([true, false] ++ [false] ++ []))) := by
  rw [closedBits, oneByteBlock_eq, List.append_nil, List.append_assoc]

theorem closedBits_length (v : Byte) (crc : Word) : (closedBits v crc).length = 179 := by
  rw [closedBits_eq]
  simp only [List.length_append, headerBits, bitsOf_length, mapBits_onlyByte_length]
  rfl

/-- `BlkEncClose()` of a block of one byte (rule R264). -/
theorem blkEncClose_oneByte (hlen : e.block.len = 0) (hrun : e.block.runLen = 1) (hclear : ∀ p ∈ e.block.presence.toList, p = false)
    (hok : e.bits.WriterOk) (hroom : e.HasRoom (closedBits e.block.runCh (crcValue e.crc.block)).length) :
    ∃ e', blkEncClose e = .ok (crcValue e.crc.block) e' ∧
      e.WroteTo (closedBits e.block.runCh (crcValue e.crc.block)) [] e' ∧ e'.block.nonempty = false := by
  have hflush : flushRun e = .ok () e.runFlushed := flushRun_run (by rw [hlen]; decide)
  have hcrc : e.crc.block = e.runFlushed.crc.block := same_of_run writes_flushRun hflush .blockCrc (by decide)
  have hw := wroteTo_start hok hroom
  rw [closedBits_eq] at hw ⊢
  have hw₁ := hw.run writes_flushRun hflush (by decide)
  obtain ⟨e₂, hforward, hfilled, hbytes, hpresence⟩ := bwtForward_byte (runFlushed_holdsByte hlen hrun hclear)
  have hw₂ := hw₁.run writes_bwtForward hforward (by decide)
  have hheader := hw₂.emits (emits_writeBlockHeader (crcValue e.crc.block))
  obtain ⟨e₃, hsymbols, hw₃, hstream⟩ := encodeSymbols_byte (e := e₂.append _) hfilled hbytes hpresence hw₂.append
  obtain ⟨e₄, hhuffman, hw₄⟩ := encodeHuffman_byte hstream hw₃
  refine ⟨{ e₄ with block.nonempty := false }, ?_, ?_, rfl⟩
  · refine (bind_ok hflush).trans ((get_bind_run ..).trans ?_)
    rw [← hcrc]
    exact (bind_ok hforward).trans ((bind_ok hheader).trans ((bind_ok hsymbols).trans (bind_ok hhuffman)))
  · have hdone := hw₄.congr (e' := { e₄ with block.nonempty := false })
    rwa [List.nil_append, List.append_assoc, List.append_assoc] at hdone

/-! ### The commands -/

/-- BLK_ENC_CLOSE of a block that holds a byte (rule R263). -/
theorem cmdBlkEncClose_nonempty {c : Word} (hne : e.block.nonempty = true) (h : blkEncClose e = .ok c e') :
    cmdBlkEncClose e = .ok () (e'.withResult c.toNat) := by
  rw [cmdBlkEncClose, get_bind_run, if_pos hne]
  exact bind_ok h

theorem cmdBlkEncClose_empty (hne : e.block.nonempty = false) : cmdBlkEncClose e = .ok () e.noData := by
  rw [cmdBlkEncClose, get_bind_run, if_neg (by simp [hne])]
  rfl

/-- BLK_CHECK_CRC reports the CRC, and then compares it (rule R276). -/
theorem cmdBlkCheckCrc_run : cmdBlkCheckCrc e =
    raiseWhen (crcValue e.crc.block ≠ e.crc.storedBlock) .blockCrcMismatch (e.withResult (crcValue e.crc.block).toNat) := rfl

/-- Settles O33: the bits of the one-byte block are written part by part (`blkEncClose_oneByte`); the other clauses are one branch of a
body each. -/
theorem blockCommands : Obligations.BlockCommands := by
  intro s hl
  refine ⟨fun k h1 h9 => ?_, fun hempty => ?_, fun hne hlen hrun hclear hok hroom => ?_, fun hrep hhops => ?_⟩
  · exact completes_of (body := cmdBlkEncOpen k) rfl hl (requireOk_true (decide_eq_true ⟨h1, h9⟩)) rfl
  · exact completes_of rfl hl (noChecks_run _) (cmdBlkEncClose_empty hempty)
  · obtain ⟨e, hclose, hwrote, hdone⟩ := blkEncClose_oneByte (e := s.begun) hlen hrun hclear hok (by rw [closedBits_length]; exact hroom)
    exact ⟨e, completes_of rfl hl (noChecks_run _) (cmdBlkEncClose_nonempty hne hclose), hwrote.bits, hwrote.outFifo, hdone,
      (same_of_run writes_blkEncClose hclose .streamCrc (by decide)).symm⟩
  · have hcheck : checkBlkCheckCrc s.toEngine = .ok () s.toEngine :=
      requireOk_true (decide_eq_true ⟨by rw [hrep]; rfl, by rw [hhops]; rfl⟩)
    refine ⟨fun heq => ?_, fun hne => ?_⟩
    · exact completes_of rfl hl hcheck (cmdBlkCheckCrc_run.trans (raiseWhen_false (decide_eq_false (not_not_intro heq)) _))
    · exact raises_of rfl hl hcheck (cmdBlkCheckCrc_run.trans (raiseWhen_true (decide_eq_true hne) _))

end Sys2Proof.Machine
end

section
/-! SUPPORT. NOP, the two resets, and the states ERROR and CLOSED (rules R301, R305, R306, R313, R314, R340, R342). -/

namespace Sys2Proof.Machine

/-! ### When the step takes the host's action -/

/-- A held command that cannot go on leaves the turn to the host (rule R94, log entry 4). -/
theorem step_hostTurn {s : State} (h : ∀ k ∈ s.hold, s.canResume k = false) : step s = hostTurn s := by
  unfold step stepState
  split
  · next k hk => rw [if_neg (by simp [h k hk])]
  · rfl

/-- Settles O40: NOP and the resets are one branch of `exec` and of `hostAct` each; the step takes the host's reset when it is the
host's turn (`step_hostTurn`). -/
theorem systemCommands : Obligations.SystemCommands := by
  refine fun s => ⟨rfl, rfl, rfl, fun rest hscript hhold => ?_⟩
  rw [step_hostTurn hhold, hostTurn, hscript]
  rfl

/-! ### Commands in ERROR and CLOSED -/

/-- Settles O49: `runCommand` refuses in ERROR and raises in CLOSED, whatever the checks and the body of the command are. -/
theorem unusableStates : Obligations.UnusableStates := by
  refine fun s => ⟨fun i hn hr => ⟨fun herror => ?_, fun hclosed => ?_⟩, fun w x hw => ⟨fun herror => ?_, fun hclosed => ?_⟩⟩
  · exact (exec_eq_runCommand hn hr s).trans (runCommand_error herror)
  · exact (exec_eq_runCommand hn hr s).trans (runCommand_closed hclosed)
  · exact (startCommand_reserved hw).trans (runCommand_error (s := { s with host.cmd := w }) herror)
  · exact (startCommand_reserved hw).trans (runCommand_closed (s := { s with host.cmd := w }) hclosed)

end Sys2Proof.Machine
end

section
/-! SUPPORT. The stream encoder (rules R290 to R293, R300): the header is written from a byte boundary, a full block is closed and the
next one opened with the same multiplier, and the trailer is the end marker, the combined CRC and the pad. -/

namespace Sys2Proof.Machine

variable {e e' : Engine}

/-! ### Whole bytes from a byte boundary -/

theorem bitsBytes_bytesBits (bs : List Byte) : bitsBytes bs.length (bytesBits bs) = bs := by
  induction bs with
  | nil => rfl
  | cons b bs ih =>
    rw [List.length_cons, bytesBits_cons, bitsBytes_succ, List.take_left' (bitsOf_length ..), List.drop_left' (bitsOf_length ..), ih,
      bitsVal_bitsOf, Nat.mod_eq_of_lt b.isLt, BitVec.ofNat_toNat, BitVec.setWidth_eq]

/-- The writer with nothing waiting (rule R291). -/
def Engine.writerCleared (e : Engine) : Engine := { e with bits.wrAcc := 0, bits.wrCnt := 0 }

theorem writerCleared_ok : e.writerCleared.bits.WriterOk := ⟨Nat.zero_le 7, Nat.one_pos⟩

/-- Bytes written from a byte boundary go to the output FIFO as they are (rules R83, R147). -/
theorem writerCleared_append (bs : List Byte) :
    e.writerCleared.append (bytesBits bs) = { e.writerCleared with host.outFifo := e.host.outFifo ++ bs } := by
  have hwr : e.writerCleared.wrBits = [] := rfl
  rw [Engine.append, hwr, List.nil_append, bytesBits_length, Nat.mul_div_cancel_left _ (by norm_num), Nat.mul_mod_right,
    bitsBytes_bytesBits, List.drop_of_length_le (bytesBits_length bs).le]
  rfl

/-! ### STR_ENC_OPEN -/

/-- The writes of the header (rules R120, R291). -/
def writeStreamHeader (k : BitVec 4) : Cmd Unit := do
  writeBits 8 0x42
  writeBits 8 0x5A
  writeBits 8 0x68
  writeBits 8 (0x30 + k.toNat)

theorem headerBytes_length (k : Nat) : (headerBytes false k).length = 4 := rfl

theorem emits_writeStreamHeader (k : BitVec 4) :
    Cmd.Emits (bytesBits (headerBytes false k.toNat)) (writeStreamHeader k) := by
  have hbits : bytesBits (headerBytes false k.toNat) =
      bitsOf 8 0x42 ++ (bitsOf 8 0x5A ++ (bitsOf 8 0x68 ++ bitsOf 8 (0x30 + k.toNat))) := by
    have hlt : 0x30 + k.toNat < 2 ^ 8 := by omega
    simp only [headerBytes, bytesBits_append, bytesBits_cons, bytesBits_nil, BitVec.toNat_ofNat, Nat.mod_eq_of_lt hlt]
    rfl
  have h8 : ∀ v, Cmd.Emits (bitsOf 8 v) (writeBits 8 v) := emits_writeBits (by norm_num)
  exact hbits ▸ emits_bind (h8 _) (emits_bind (h8 _) (emits_bind (h8 _) (h8 _)))

theorem cmdStrEncOpen_eq (k : BitVec 4) : cmdStrEncOpen k = (do
    modBits fun r => { r with wrAcc := 0, wrCnt := 0 }
    writeStreamHeader k
    modCrc fun c => { c with stream := 0 }
    blkEncOpen k
    setPhase .encActive) := by
  simp [cmdStrEncOpen, writeStreamHeader]

/-- The body of STR_ENC_OPEN with room for the header (rule R291). -/
theorem cmdStrEncOpen_run {k : BitVec 4} (hroom : e.host.outFifo.length + 4 ≤ e.outDepth) :
    cmdStrEncOpen k e = .ok ()
      { e.opened k with
        host.outFifo := e.host.outFifo ++ headerBytes false k.toNat
        bits.wrAcc := 0
        bits.wrCnt := 0
        crc.stream := 0
        frame.phase := .encActive } := by
  have hheader := (emits_writeStreamHeader k).run (e := e.writerCleared) writerCleared_ok (by
    simpa [headerBytes_length, Engine.writerCleared] using hroom)
  rw [writerCleared_append] at hheader
  rw [cmdStrEncOpen_eq]
  exact (modBits_bind_run ..).trans (bind_ok hheader)

theorem requireQuiet_run (h : e.frame.phase = .idle ∨ e.frame.phase = .encDone ∨ e.frame.phase = .decComplete) :
    requireQuiet e = .ok () e := requireOk_true (quiet_iff.mpr h)

theorem checkStrEncOpen_run {k : BitVec 4} (h1 : 1 ≤ k.toNat) (h9 : k.toNat ≤ 9)
    (h : e.frame.phase = .idle ∨ e.frame.phase = .encDone ∨ e.frame.phase = .decComplete) : checkStrEncOpen k e = .ok () e :=
  (requireOk_true_bind (decide_eq_true ⟨h1, h9⟩) _).trans (requireQuiet_run h)

/-! ### STR_ENC_WRITE at a full block -/

theorem closeAndCombine_run {c : Word} (h : blkEncClose e = .ok c e') : closeAndCombine e = .ok () (e'.combined c) :=
  (bind_ok h).trans (combineCrc_run c)

/-- `BlkEncClose()` keeps the multiplier (rule R264). -/
theorem blkEncClose_k {c : Word} (h : blkEncClose e = .ok c e') : e'.block.k = e.block.k :=
  (same_of_run writes_blkEncClose h .blockK (by decide)).symm

/-- A block that has just been opened accepts a byte (rule R162). -/
theorem rle1Put_opened {k : BitVec 4} (h1 : 1 ≤ k.toNat) (b : Byte) : rle1Put b (e.opened k) = .ok true ((e.opened k).accept b) := by
  have hlen : (e.opened k).block.len.toNat = 0 := rfl
  refine rle1Put_accept ?_ (by omega)
  rw [Engine.Accepts, hlen, Engine.opened_block_k]
  omega

/-- The byte that finds a full block is the first of the next one (rule R292). -/
theorem nextBlockWith_run {c : Word} (hk : 1 ≤ e.block.k.toNat) (h : blkEncClose e = .ok c e') (b : Byte) :
    nextBlockWith b e = .ok () (((e'.combined c).opened e.block.k).accept b) := by
  have hopen : blkEncOpen (e'.combined c).block.k (e'.combined c) = .ok () ((e'.combined c).opened e.block.k) := by
    rw [← blkEncClose_k h]
    rfl
  exact (bind_ok (closeAndCombine_run h)).trans ((get_bind_run ..).trans ((bind_ok hopen).trans (bind_ok (rle1Put_opened hk b))))

theorem nextBlockWith_error {r : Stop} (h : blkEncClose e = .error r e') (b : Byte) : nextBlockWith b e = .error r e' :=
  bind_error (bind_error h)

/-- The body of STR_ENC_WRITE when the block refuses the byte (rule R292). -/
theorem cmdStrEncWrite_full (h : ¬ e.Accepts) : cmdStrEncWrite e = (do
    nextBlockWith (e.host.arg.setWidth 8)
    feedBlockCrc (e.host.arg.setWidth 8)
    setResult 1) e := by
  rw [cmdStrEncWrite, argByte_bind_run, bind_ok (rle1Put_refuse h)]
  rfl

/-! ### STR_ENC_FINISH -/

/-- The lines of STR_ENC_FINISH after the last block is closed (rule R293). -/
def finishStream : Cmd Unit := do
  write48 Config.endMagic
  let e ← get
  write32 e.crc.stream.toNat
  flushWriter
  setPhase .encDone
  setResult e.crc.stream.toNat

theorem finishStream_run (hok : e.bits.WriterOk) (hroom : e.host.outFifo.length + (e.bits.wrCnt.toNat + 87) / 8 ≤ e.outDepth) :
    finishStream e = .ok ()
      (Engine.withResult e.crc.stream.toNat { (e.append (trailerBits e.crc.stream)).flushed with frame.phase := .encDone }) := by
  have hlen : (trailerBits e.crc.stream).length = 80 := by simp [trailerBits]
  have hstart : e.WroteTo [] (trailerBits e.crc.stream) e := wroteTo_start hok (by rw [Engine.HasRoom, hlen]; omega)
  rw [trailerBits, ← List.append_nil (bitsOf 48 _ ++ _), List.append_assoc] at hstart
  have hmarker := hstart.emits (emits_write48 Config.endMagic)
  have hcrc := hstart.append.emits (emits_write32 e.crc.stream.toNat)
  rw [append_append, ← trailerBits] at hcrc
  have hflush : flushWriter (e.append (trailerBits e.crc.stream)) = .ok () (e.append (trailerBits e.crc.stream)).flushed := by
    refine flushWriter_run (append_writerOk _) (or_iff_not_imp_left.mpr fun hwait => ?_)
    have hpos : (e.append (trailerBits e.crc.stream)).bits.wrCnt.toNat ≠ 0 := fun h0 => hwait (BitVec.eq_of_toNat_eq h0)
    rw [append_wrCnt, hlen] at hpos
    rw [append_outFifo_length, append_outDepth, hlen]
    omega
  exact (bind_ok hmarker).trans ((get_bind_run ..).trans ((bind_ok hcrc).trans (bind_ok hflush)))

theorem cmdStrEncFinish_empty (h : e.block.nonempty = false) : cmdStrEncFinish e = finishStream e := by
  rw [cmdStrEncFinish, get_bind_run, doWhen_false h]
  rfl

theorem cmdStrEncFinish_nonempty {c : Word} (h : e.block.nonempty = true) (hclose : blkEncClose e = .ok c e') :
    cmdStrEncFinish e = finishStream (e'.combined c) := by
  rw [cmdStrEncFinish, get_bind_run, doWhen_true h]
  exact bind_ok (closeAndCombine_run hclose)

/-- Settles O36: the header is four bytes from a byte boundary (`writerCleared_append`); a refused byte goes into the block opened after the
full one (`nextBlockWith_run`), and what stops the closing stops the command; the trailer follows the last block
(`finishStream_run`). -/
theorem streamEncoderCommands : Obligations.StreamEncoderCommands := by
  intro s hl
  refine ⟨fun k h1 h9 hquiet hroom => ?_, fun hactive hk hfull => ?_, fun hactive e hlast hok hroom => ?_, ?_⟩
  · exact completes_of rfl hl (checkStrEncOpen_run h1 h9 hquiet) (cmdStrEncOpen_run (e := s.begun) hroom)
  · refine (runCommand_passed hl (requireEncoding_run hactive)).trans (congrArg (finish .strEncWrite s) ?_)
    rw [cmdStrEncWrite_full (e := s.begun) hfull]
    cases hclose : blkEncClose s.begun with
    | ok c e => exact bind_ok (nextBlockWith_run (e := s.begun) hk.1 hclose _)
    | error r e => exact bind_error (nextBlockWith_error hclose _)
  · have hbody : cmdStrEncFinish s.begun = finishStream e := by
      rcases hlast with ⟨hempty, rfl⟩ | ⟨hne, c, e₀, hclose, rfl⟩
      · exact cmdStrEncFinish_empty hempty
      · exact cmdStrEncFinish_nonempty hne hclose
    exact completes_of rfl hl (requireEncoding_run hactive) (hbody.trans (finishStream_run hok hroom))
  · exact completes_of rfl hl (noChecks_run _) rfl

end Sys2Proof.Machine
end

section
/-! SUPPORT. The stream decoder (rules R290, R294 to R299): what the header, a marker and the trailer make of the bits that come next, and
how the loop of STR_DEC_READ goes round. -/

namespace Sys2Proof.Machine

variable {e e' : Engine}

/-! ### Marker, CRC and header bytes as bits of the input -/

/-- A piece that only takes bits (`Cmd.Takes` with the Huffman unit unchanged). -/
theorem Cmd.Takes.run {α : Type} {bs rest : List Bool} {c c' : Cmd α} (h : Cmd.Takes bs id c c') (hok : e.bits.ReaderOk)
    (hin : e.inBits = bs ++ rest) : c e = c' (e.consume bs.length) := h e rest hok hin

theorem takes_read48 {m : Nat} (hm : m < 2 ^ 48) : Cmd.Takes (bitsOf 48 m) id read48 (pure m) := by
  intro e rest hok hin
  have hlen := bitsOf_length 48 m
  rw [read48_run hok (by rw [hin, List.length_append]; omega), hin, List.take_left' hlen, bitsVal_bitsOf, Nat.mod_eq_of_lt hm, hlen]
  rfl

theorem takes_read32 (w : Word) : Cmd.Takes (bitsOf 32 w.toNat) id read32 (pure w.toNat) := by
  intro e rest hok hin
  rw [(readTo_start hok hin).read32, bitsOf_length]
  rfl

theorem bytesBits_singleton (b : Byte) : bytesBits [b] = bitsOf 8 b.toNat := List.append_nil _

theorem takes_readByte (b : Byte) : Cmd.Takes (bytesBits [b]) id (readBits 8) (pure b.toNat) :=
  bytesBits_singleton b ▸ takes_readBits (by norm_num) b.isLt

theorem takes_expectByte (b : Byte) : Cmd.Takes (bytesBits [b]) id (expectByte b.toNat) (pure ()) := by
  have h := (takes_readByte b).seq (k := fun v => raiseWhen (v ≠ b.toNat) .invalidHeader)
    (takes_raiseWhen_false (decide_eq_false (not_not_intro rfl)) _)
  rwa [List.append_nil] at h

theorem takes_expectByte_other {b c : Byte} (h : b ≠ c) :
    Cmd.Takes (bytesBits [b]) id (expectByte c.toNat) (Cmd.raise .invalidHeader) := by
  have hne : b.toNat ≠ c.toNat := fun heq => h (BitVec.eq_of_toNat_eq heq)
  have h := (takes_readByte b).seq (k := fun v => raiseWhen (v ≠ c.toNat) .invalidHeader) (takes_raiseWhen_true (decide_eq_true hne) _)
  rwa [List.append_nil] at h

/-! ### The header (rule R296) -/

/-- The first bytes of a stream, which a headerless decoder does not read (rule R121). -/
def magicBytes (headerless : Bool) : List Byte := if headerless then [] else [0x42, 0x5A]

/-- What `ReadHeader()` does with the digit. -/
def takeDigit (d : Nat) : Cmd Unit := do
  raiseWhen (d < 0x31 ∨ d > 0x39) .invalidHeader
  modBlock fun b => { b with k := BitVec.ofNat 4 (d - 0x30) }
  setPhase .decBlockBoundary

/-- `ReadHeader()` after the first bytes. -/
def readVersion : Cmd Unit := do
  expectByte 0x68
  let d ← readBits 8
  takeDigit d

/-- `ReadHeader()` once HEADERLESS is known. -/
def readHeaderFor (headerless : Bool) : Cmd Unit := do
  doWhen (!headerless) expectMagic
  readVersion

theorem readHeader_eq : readHeader e = readHeaderFor e.frame.headerless e := rfl

theorem takes_magic (headerless : Bool) : Cmd.Takes (bytesBits (magicBytes headerless)) id (readHeaderFor headerless) readVersion := by
  cases headerless with
  | true => exact Cmd.Takes.refl
  | false => exact ((takes_expectByte 0x42).andThen (takes_expectByte 0x5A)).bind fun _ => readVersion

theorem takes_version (b : Byte) : Cmd.Takes (bytesBits [0x68] ++ bytesBits [b]) id readVersion (takeDigit b.toNat) :=
  (takes_expectByte 0x68).andThen ((takes_readByte b).bind takeDigit)

/-- A digit that is a multiplier (rule R296). -/
theorem takeDigit_run {k : Nat} (h1 : 1 ≤ k) (h9 : k ≤ 9) :
    takeDigit (BitVec.ofNat 8 (0x30 + k)).toNat e = .ok () { e with block.k := BitVec.ofNat 4 k, frame.phase := .decBlockBoundary } := by
  have hd : (BitVec.ofNat 8 (0x30 + k)).toNat = 0x30 + k := by
    rw [BitVec.toNat_ofNat]
    omega
  rw [hd, takeDigit, raiseWhen_false_bind (decide_eq_false (by omega)), Nat.add_sub_cancel_left]
  rfl

theorem takeDigit_bad {d : Nat} (h : d < 0x31 ∨ 0x39 < d) : takeDigit d = Cmd.raise .invalidHeader := by
  unfold takeDigit
  rw [decide_eq_true h]
  rfl

theorem headerBytes_eq (headerless : Bool) (k : Nat) :
    bytesBits (headerBytes headerless k) =
      bytesBits (magicBytes headerless) ++ (bytesBits [0x68] ++ bytesBits [BitVec.ofNat 8 (0x30 + k)]) := by
  rw [← bytesBits_append, ← bytesBits_append]
  rfl

theorem readHeader_run {k : Nat} {rest : List Bool} (h1 : 1 ≤ k) (h9 : k ≤ 9) (hok : e.bits.ReaderOk)
    (hin : e.inBits = bytesBits (headerBytes e.frame.headerless k) ++ rest) :
    readHeader e = .ok ()
      { e.consume (8 * (headerBytes e.frame.headerless k).length) with block.k := BitVec.ofNat 4 k, frame.phase := .decBlockBoundary } := by
  have htakes := (takes_magic e.frame.headerless).trans (takes_version (BitVec.ofNat 8 (0x30 + k)))
  rw [← headerBytes_eq] at htakes
  rw [readHeader_eq, htakes.run hok hin, takeDigit_run h1 h9, bytesBits_length]

/-- The ways in which a header goes wrong at the byte `bad`, after the bytes `good` (rule R296). -/
def HeaderFails (headerless : Bool) (good bad : List Byte) : Prop :=
  (headerless = false ∧ ((good = [] ∧ ∃ b, bad = [b] ∧ b ≠ 0x42) ∨ (good = [0x42] ∧ ∃ b, bad = [b] ∧ b ≠ 0x5A))) ∨
    (good = magicBytes headerless ∧ ∃ b, bad = [b] ∧ b ≠ 0x68) ∨
    (good = magicBytes headerless ++ [0x68] ∧ ∃ b : Byte, bad = [b] ∧ (b.toNat < 0x31 ∨ 0x39 < b.toNat))

theorem takes_badHeader {headerless : Bool} {good bad : List Byte} (h : HeaderFails headerless good bad) :
    Cmd.Takes (bytesBits (good ++ bad)) id (readHeaderFor headerless) (Cmd.raise .invalidHeader) := by
  rw [bytesBits_append]
  rcases h with ⟨rfl, ⟨rfl, b, rfl, hb⟩ | ⟨rfl, b, rfl, hb⟩⟩ | ⟨rfl, b, rfl, hb⟩ | ⟨rfl, b, rfl, hb⟩
  · exact ((takes_expectByte_other hb).raise_bind _).raise_bind _
  · exact ((takes_expectByte 0x42).andThen (takes_expectByte_other hb)).raise_bind _
  · exact (takes_magic headerless).trans ((takes_expectByte_other hb).raise_bind _)
  · have hdigit := (takes_magic headerless).trans (takes_version b)
    rwa [takeDigit_bad hb, ← List.append_assoc, ← bytesBits_append] at hdigit

theorem readHeader_bad {good bad : List Byte} {rest : List Bool} (h : HeaderFails e.frame.headerless good bad) (hok : e.bits.ReaderOk)
    (hin : e.inBits = bytesBits (good ++ bad) ++ rest) :
    readHeader e = .error (.raised .invalidHeader) (e.consume (8 * (good ++ bad).length)) := by
  rw [readHeader_eq, (takes_badHeader h).run hok hin, bytesBits_length]
  rfl

/-! ### A marker (rule R297) -/

/-- What `BoundaryStep()` does with the CRC it has read. -/
def checkStreamCrc (v : Nat) : Cmd Unit := do
  modCrc fun c => { c with storedStream := BitVec.ofNat 32 v }
  let e ← get
  raiseWhen (e.crc.storedStream ≠ e.crc.stream) .streamCrcMismatch
  setPhase .decComplete

/-- What `BoundaryStep()` does with the marker it has read. -/
def stepAt (m : Nat) : Cmd Unit :=
  if m = Config.blockMagic then do
    let _ ← blkDecStart
    setPhase .decBlockActive
  else if m = Config.endMagic then do
    let v ← read32
    checkStreamCrc v
  else Cmd.raise .invalidHeader

theorem takes_boundaryStep {m : Nat} (hm : m < 2 ^ 48) : Cmd.Takes (bitsOf 48 m) id boundaryStep (stepAt m) :=
  (takes_read48 hm).bind stepAt

theorem takes_trailer (v : Word) : Cmd.Takes (trailerBits v) id boundaryStep (checkStreamCrc v.toNat) := by
  have hend : stepAt Config.endMagic = (do let v ← read32; checkStreamCrc v) := by
    rw [stepAt, if_neg (by decide), if_pos rfl]
  exact (takes_boundaryStep (by decide)).trans (hend ▸ (takes_read32 v).bind checkStreamCrc)

theorem trailerBits_length (v : Word) : (trailerBits v).length = 80 := by simp [trailerBits]

theorem checkStreamCrc_match {v : Word} (h : v = e.crc.stream) :
    checkStreamCrc v.toNat e = .ok () { e with crc.storedStream := v, frame.phase := .decComplete } := by
  rw [checkStreamCrc, BitVec.ofNat_toNat, BitVec.setWidth_eq, modCrc_bind_run, get_bind_run,
    raiseWhen_false_bind (decide_eq_false (not_not_intro h))]
  rfl

theorem checkStreamCrc_mismatch {v : Word} (h : v ≠ e.crc.stream) :
    checkStreamCrc v.toNat e = .error (.raised .streamCrcMismatch) { e with crc.storedStream := v } := by
  rw [checkStreamCrc, BitVec.ofNat_toNat, BitVec.setWidth_eq, modCrc_bind_run, get_bind_run,
    raiseWhen_true_bind (decide_eq_true h)]

theorem boundaryStep_block {n : Nat} {rest : List Bool} (hok : e.bits.ReaderOk) (hin : e.inBits = bitsOf 48 Config.blockMagic ++ rest)
    (h : blkDecStart (e.consume 48) = .ok n e') : boundaryStep e = .ok () { e' with frame.phase := .decBlockActive } := by
  rw [(takes_boundaryStep (by decide)).run hok hin, bitsOf_length, stepAt, if_pos rfl, bind_ok h]
  rfl

theorem boundaryStep_bad {m : Nat} {rest : List Bool} (hm : m < 2 ^ 48) (hblock : m ≠ Config.blockMagic) (hend : m ≠ Config.endMagic)
    (hok : e.bits.ReaderOk) (hin : e.inBits = bitsOf 48 m ++ rest) :
    boundaryStep e = .error (.raised .invalidHeader) (e.consume 48) := by
  rw [(takes_boundaryStep hm).run hok hin, bitsOf_length, stepAt, if_neg hblock, if_neg hend]
  rfl

/-! ### The end of a block (rule R298) -/

theorem endBlock_match (h : crcValue e.crc.block = e.crc.storedBlock) :
    endBlock e = .ok () { e.combined (crcValue e.crc.block) with frame.phase := .decBlockBoundary } := by
  rw [endBlock, get_bind_run, raiseWhen_false_bind (decide_eq_false (not_not_intro h))]
  exact bind_ok (combineCrc_run _)

theorem endBlock_mismatch (h : crcValue e.crc.block ≠ e.crc.storedBlock) :
    endBlock e = .error (.raised .blockCrcMismatch) e := by
  rw [endBlock, get_bind_run, raiseWhen_true_bind (decide_eq_true h)]

/-! ### The loop (rule R295) -/

theorem strDecLoop_uninit (n : Nat) (h : e.frame.phase = .decUninit) :
    strDecLoop (n + 1) e = (do readHeader; strDecLoop n) e := by
  rw [strDecLoop, get_bind_run, h]

theorem strDecLoop_boundary (n : Nat) (h : e.frame.phase = .decBlockBoundary) :
    strDecLoop (n + 1) e = (do boundaryStep; strDecLoop n) e := by
  rw [strDecLoop, get_bind_run, h]

theorem strDecLoop_complete (n : Nat) (h : e.frame.phase = .decComplete) : strDecLoop (n + 1) e = .ok () e.noData := by
  rw [strDecLoop, get_bind_run, h]
  rfl

theorem strDecLoop_exhausted (n : Nat) (h : e.frame.phase = .decBlockActive) (hnext : rle1Next e = .ok none e') :
    strDecLoop (n + 1) e = (do endBlock; strDecLoop n) e' := by
  rw [strDecLoop, get_bind_run, h]
  exact bind_ok hnext

/-- At the end marker the stream ends, if its combined CRC is the stored one (rules R297, R299). -/
theorem strDecLoop_end {v : Word} {rest : List Bool} (n : Nat) (h : e.frame.phase = .decBlockBoundary) (hok : e.bits.ReaderOk)
    (hin : e.inBits = trailerBits v ++ rest) (hv : v = e.crc.stream) :
    strDecLoop (n + 2) e = .ok () { (e.consume 80).noData with crc.storedStream := v, frame.phase := .decComplete } := by
  have hstep := (takes_trailer v).run hok hin
  rw [trailerBits_length, checkStreamCrc_match (e := e.consume 80) hv] at hstep
  rw [strDecLoop_boundary _ h, bind_ok hstep]
  exact strDecLoop_complete n rfl

theorem strDecLoop_badEnd {v : Word} {rest : List Bool} (n : Nat) (h : e.frame.phase = .decBlockBoundary) (hok : e.bits.ReaderOk)
    (hin : e.inBits = trailerBits v ++ rest) (hv : v ≠ e.crc.stream) :
    strDecLoop (n + 1) e = .error (.raised .streamCrcMismatch) { e.consume 80 with crc.storedStream := v } := by
  have hstep := (takes_trailer v).run hok hin
  rw [trailerBits_length, checkStreamCrc_mismatch (e := e.consume 80) hv] at hstep
  rw [strDecLoop_boundary _ h, bind_error hstep]

/-- A header and then the end marker (rules R296, R297, R299). -/
theorem strDecLoop_header_end {k : Nat} {v : Word} {rest : List Bool} (n : Nat) (h : e.frame.phase = .decUninit)
    (hok : e.bits.ReaderOk) (h1 : 1 ≤ k) (h9 : k ≤ 9) (hv : v = e.crc.stream)
    (hin : e.inBits = bytesBits (headerBytes e.frame.headerless k) ++ trailerBits v ++ rest) :
    strDecLoop (n + 3) e = .ok ()
      { (e.consume (8 * (headerBytes e.frame.headerless k).length + 80)).noData with
        block.k := BitVec.ofNat 4 k
        crc.storedStream := v
        frame.phase := .decComplete } := by
  rw [List.append_assoc] at hin
  have hread := (readTo_start hok hin).consume
  rw [bytesBits_length] at hread
  have hlen : 8 * (headerBytes e.frame.headerless k).length + 80 ≤ e.inBits.length := by
    rw [hin, List.length_append, List.length_append, bytesBits_length, trailerBits_length]
    omega
  have hend := strDecLoop_end
    (e := { e.consume (8 * (headerBytes e.frame.headerless k).length) with block.k := BitVec.ofNat 4 k, frame.phase := .decBlockBoundary })
    n rfl hread.ok hread.inBits hv
  rw [← consume_consume hok hlen]
  exact (strDecLoop_uninit _ h).trans ((bind_ok (readHeader_run h1 h9 hok hin)).trans hend)

/-! ### The commands -/

theorem requireDecoding_of {p : Phase} (h : e.frame.phase = p) (hp : p.decoding = true) : requireDecoding e = .ok () e :=
  requireOk_true (h ▸ hp)

/-- STR_DEC_OPEN asks nothing of the reader, whose bits it discards (rule R294). -/
theorem strDecOpen_completes {s : State} (hl : s.Live)
    (h : s.frame.phase = .idle ∨ s.frame.phase = .encDone ∨ s.frame.phase = .decComplete) (headerless : BitVec 1) :
    Completes (.strDecOpen headerless) s
      { s.begun with
        bits.rdAcc := 0
        bits.rdCnt := 0
        frame.headerless := decide (headerless = 1)
        crc.stream := 0
        frame.phase := .decUninit } :=
  completes_of rfl hl (requireQuiet_run h) rfl

/-- Settles O37: the header and the markers are bits that come next in the input (`Cmd.Takes`), and the loop goes from the one to the
other. -/
theorem streamDecoderEnds : Obligations.StreamDecoderEnds := by
  intro s hl hok
  refine ⟨strDecOpen_completes hl, fun hp => ?_, fun v rest => ⟨fun hp hin => ⟨fun hv => ?_, fun hv => ?_⟩,
    fun k hp h1 h9 hv hin => ?_, fun m hp hm hblock hend hin => ?_, fun good bad hp h hin => ?_⟩⟩
  · exact completes_of rfl hl (requireDecoding_of hp rfl) (strDecLoop_complete (e := s.begun) 3 hp)
  · exact completes_of rfl hl (requireDecoding_of hp rfl) (strDecLoop_end (e := s.begun) 2 hp hok hin hv)
  · exact raises_of rfl hl (requireDecoding_of hp rfl) (strDecLoop_badEnd (e := s.begun) 3 hp hok hin hv)
  · exact completes_of rfl hl (requireDecoding_of hp rfl) (strDecLoop_header_end (e := s.begun) 1 hp hok h1 h9 hv hin)
  · exact raises_of rfl hl (requireDecoding_of hp rfl)
      ((strDecLoop_boundary (e := s.begun) 3 hp).trans (bind_error (boundaryStep_bad hm hblock hend hok hin)))
  · exact raises_of rfl hl (requireDecoding_of hp rfl)
      ((strDecLoop_uninit (e := s.begun) 3 hp).trans (bind_error (readHeader_bad h hok hin)))

/-- `Rle1Next()` changes neither the input nor the CRC unit nor STATE (rule R165). -/
theorem next_keeps {o : Option Byte} (hw : e.WalkOk) (h : e.next = (o, e')) :
    rle1Next e = .ok o e' ∧ e'.inBits = e.inBits ∧ e'.bits = e.bits ∧ e'.crc.block = e.crc.block ∧ e'.crc.stream = e.crc.stream ∧
      e'.crc.storedBlock = e.crc.storedBlock ∧ e'.frame.phase = e.frame.phase := by
  have hrun := rle1Next_run hw
  rw [h] at hrun
  have hsame : ∀ r : Reg, r ∉ nextRegs → r.same e e' := same_of_run writes_rle1Next hrun
  have hbits : e'.bits = e.bits :=
    bits_of_same (hsame .rdAcc (by decide)) (hsame .rdCnt (by decide)) (hsame .wrAcc (by decide)) (hsame .wrCnt (by decide))
  have hfifo : e'.host.inFifo = e.host.inFifo := (hsame .inFifo (by decide)).symm
  exact ⟨hrun, by rw [Engine.inBits, Engine.inBits, hbits, hfifo], hbits, (hsame .blockCrc (by decide)).symm,
    (hsame .streamCrc (by decide)).symm, (hsame .storedBcrc (by decide)).symm, (hsame .phase (by decide)).symm⟩

/-- Settles O38: the block that the marker starts yields its first byte in the next pass; at the end of a block the passes are
`EndBlock()` and then that of the trailer (`strDecLoop_end`). -/
theorem streamDecoderBlocks : Obligations.StreamDecoderBlocks := by
  intro s hl hok
  refine ⟨fun n e e' b rest hp hin hstart hwalk hnext => ?_, fun e hp hwalk hnext => ?_⟩
  · obtain ⟨hbyte, -⟩ := next_keeps (e := { e with frame.phase := .decBlockActive }) hwalk hnext
    have hstep := boundaryStep_block (e := s.begun) hok hin hstart
    exact completes_of rfl hl (requireDecoding_of hp rfl)
      ((strDecLoop_boundary (e := s.begun) 3 hp).trans ((bind_ok hstep).trans (strDecLoop_byte 2 rfl hbyte)))
  · obtain ⟨hnone, hinBits, hbits, hblock, hstream, hstored, -⟩ := next_keeps (e := s.begun) hwalk hnext
    have hloop := strDecLoop_exhausted (e := s.begun) 3 hp hnone
    have hc : crcValue e.crc.block = s.crc.block ^^^ 0xFFFFFFFF := congrArg crcValue hblock
    refine ⟨fun hne => ?_, fun heq rest hin => ?_⟩
    · exact raises_of rfl hl (requireDecoding_of hp rfl)
        (hloop.trans (bind_error (endBlock_mismatch (by rw [hc, hstored]; exact hne))))
    · have hend := endBlock_match (e := e) (by rw [hc, hstored]; exact heq)
      rw [hc] at hend
      have htrailer := strDecLoop_end (e := { e.combined (s.crc.block ^^^ 0xFFFFFFFF) with frame.phase := .decBlockBoundary }) 1 rfl
        (hbits ▸ hok) (hinBits.trans hin) (congrArg (fun w => BitVec.rotateLeft w 1 ^^^ _) hstream).symm
      exact completes_of rfl hl (requireDecoding_of hp rfl) (hloop.trans ((bind_ok hend).trans htrailer))

end Sys2Proof.Machine
end

section
/-! SUPPORT. The empty stream, encoded and decoded (rules R293, R302). -/

namespace Sys2Proof.Machine

variable {e : Engine} {s t u : State} {k : BitVec 4}

theorem live_of_phase {p : Phase} (h : s.frame.phase = p) (hp : p.live = true) : s.Live := by rwa [State.Live, h]

/-- The first command answers a next state, and the others go on from there. -/
theorem runAll_cons {i : Instr} {is : List Instr} (h : exec i s = .next t) : runAll (i :: is) s = runAll is t := by
  rw [runAll, h]

/-- The end marker and the combined CRC of no block (rule R128). -/
def emptyTrailer : List Byte := [0x17, 0x72, 0x45, 0x38, 0x50, 0x90, 0, 0, 0, 0]

theorem trailerBits_zero : trailerBits 0 = bytesBits emptyTrailer := by decide

/-- The trailer written from a byte boundary (rules R151, R293). -/
theorem emptyTrailer_outFifo : (e.writerCleared.append (trailerBits 0)).flushed.host.outFifo = e.host.outFifo ++ emptyTrailer := by
  rw [trailerBits_zero, writerCleared_append]
  exact List.append_nil _

/-- The encoder after STR_ENC_OPEN into an empty output FIFO: the block is empty, and the writer at a byte boundary (rule R291). -/
theorem strEncOpen_opens (hl : s.Live) (h1 : 1 ≤ k.toNat) (h9 : k.toNat ≤ 9)
    (hquiet : s.frame.phase = .idle ∨ s.frame.phase = .encDone ∨ s.frame.phase = .decComplete) (hout : s.host.outFifo = [])
    (hroom : 14 ≤ s.outDepth) :
    ∃ t : State, exec (.strEncOpen k) s = .next t ∧ t.frame.phase = .encActive ∧ t.host.outFifo = headerBytes false k.toNat ∧
      t.outDepth = s.outDepth ∧ t.block.nonempty = false ∧ t.crc.stream = 0 ∧ t.toEngine.writerCleared = t.toEngine := by
  obtain ⟨hopen, -⟩ := streamEncoderCommands s hl
  have hfits : s.host.outFifo.length + 4 ≤ s.outDepth := by
    rw [hout]
    exact Nat.le_trans (by decide) hroom
  exact ⟨_, hopen k h1 h9 hquiet hfits, rfl, congrArg (· ++ headerBytes false k.toNat) hout, rfl, rfl, rfl, rfl⟩

/-- STR_ENC_FINISH of a stream with no byte (rule R293). -/
theorem strEncFinish_empty (hp : s.frame.phase = .encActive) (hout : s.host.outFifo.length = 4) (hroom : 14 ≤ s.outDepth)
    (hempty : s.block.nonempty = false) (hcrc : s.crc.stream = 0) (hwriter : s.toEngine.writerCleared = s.toEngine) :
    ∃ t : State, exec .strEncFinish s = .next t ∧ t.host.outFifo = s.host.outFifo ++ emptyTrailer := by
  have hl : s.Live := live_of_phase hp rfl
  have hcnt : s.bits.wrCnt = 0 := (congrArg (fun e => e.bits.wrCnt) hwriter).symm
  have hok : s.bits.WriterOk := hwriter ▸ writerCleared_ok
  obtain ⟨-, -, hfinish, -⟩ := streamEncoderCommands s hl
  have hfits : s.begun.host.outFifo.length + (s.begun.bits.wrCnt.toNat + 87) / 8 ≤ s.begun.outDepth := by
    simp only [Engine.clearFlags_host_outFifo, Engine.clearFlags_bits, Engine.clearFlags_outDepth, hout, hcnt]
    exact hroom
  refine ⟨_, hfinish hp s.begun (.inl ⟨hempty, rfl⟩) hok hfits, ?_⟩
  have hbegun : s.begun.writerCleared = s.begun := congrArg Engine.clearFlags hwriter
  have htrailer := emptyTrailer_outFifo (e := s.begun)
  rw [hbegun, ← hcrc] at htrailer
  exact htrailer

/-- A stream of no bytes is a header and a trailer (rules R291, R293). -/
theorem encodeEmpty (hl : s.Live) (h1 : 1 ≤ k.toNat) (h9 : k.toNat ≤ 9)
    (hquiet : s.frame.phase = .idle ∨ s.frame.phase = .encDone ∨ s.frame.phase = .decComplete) (hout : s.host.outFifo = [])
    (hroom : 14 ≤ s.outDepth) :
    ∃ t : State, runAll [.strEncOpen k, .strEncFinish] s = .next t ∧ t.host.outFifo = headerBytes false k.toNat ++ emptyTrailer := by
  obtain ⟨t, hopen, hp, hheader, hdepth, hempty, hcrc, hwriter⟩ := strEncOpen_opens hl h1 h9 hquiet hout hroom
  obtain ⟨u, hfinish, htrailer⟩ := strEncFinish_empty hp (by rw [hheader]; rfl) (hdepth ▸ hroom) hempty hcrc hwriter
  exact ⟨u, (runAll_cons hopen).trans (runAll_cons hfinish), hheader ▸ htrailer⟩

/-- The decoder after STR_DEC_OPEN: it has read nothing (rule R294). -/
theorem strDecOpen_opens (hl : u.Live) (hquiet : u.frame.phase = .idle ∨ u.frame.phase = .encDone ∨ u.frame.phase = .decComplete) :
    ∃ t : State, exec (.strDecOpen 0) u = .next t ∧ t.frame.phase = .decUninit ∧ t.frame.headerless = false ∧ t.crc.stream = 0 ∧
      t.bits.rdCnt = 0 ∧ t.bits.rdAcc = 0 ∧ t.host.inFifo = u.host.inFifo ∧ t.host.err = u.host.err :=
  ⟨_, strDecOpen_completes hl hquiet 0, rfl, rfl, rfl, rfl, rfl, rfl, rfl⟩

/-- STR_DEC_READ of a stream with no byte (rules R295 to R299). -/
theorem strDecRead_empty (hp : s.frame.phase = .decUninit) (hheaderless : s.frame.headerless = false) (hcrc : s.crc.stream = 0)
    (hcnt : s.bits.rdCnt = 0) (hacc : s.bits.rdAcc = 0) (hin : s.host.inFifo = headerBytes false k.toNat ++ emptyTrailer)
    (h1 : 1 ≤ k.toNat) (h9 : k.toNat ≤ 9) :
    ∃ t : State, exec .strDecRead s = .next t ∧ t.host.nodata = true ∧ t.host.result = 0 ∧ t.host.err = s.host.err ∧
      t.host.inFifo = [] ∧ t.frame.phase = .decComplete ∧ t.block.k = k := by
  have hl : s.Live := live_of_phase hp rfl
  have hok : s.bits.ReaderOk := by simp [BitEngine.ReaderOk, hcnt, hacc]
  have hbits : s.inBits = bytesBits (headerBytes s.frame.headerless k.toNat) ++ trailerBits 0 ++ [] := by
    rw [Engine.inBits, hcnt, hin, hheaderless, bytesBits_append, ← trailerBits_zero, List.append_nil]
    rfl
  obtain ⟨-, -, hread⟩ := streamDecoderEnds s hl hok
  refine ⟨_, (hread 0 []).2.1 k.toNat hp h1 h9 hcrc.symm hbits, rfl, rfl, rfl, ?_, rfl, ?_⟩
  · rw [hheaderless, headerBytes_length]
    simp [Engine.consume, hcnt, hin, headerBytes, emptyTrailer]
  · simp

/-- The stream of no bytes decodes to no byte (rules R294 to R299, R302). -/
theorem decodeEmpty (hl : u.Live) (h1 : 1 ≤ k.toNat) (h9 : k.toNat ≤ 9)
    (hquiet : u.frame.phase = .idle ∨ u.frame.phase = .encDone ∨ u.frame.phase = .decComplete)
    (hin : u.host.inFifo = headerBytes false k.toNat ++ emptyTrailer) :
    ∃ v : State, runAll [.strDecOpen 0, .strDecRead] u = .next v ∧ v.host.nodata = true ∧ v.host.result = 0 ∧ v.host.err = u.host.err ∧
      v.host.inFifo = [] ∧ v.frame.phase = .decComplete ∧ v.block.k = k := by
  obtain ⟨t, hopen, hp, hheaderless, hcrc, hcnt, hacc, hfifo, herr⟩ := strDecOpen_opens hl hquiet
  obtain ⟨v, hread, hends⟩ := strDecRead_empty hp hheaderless hcrc hcnt hacc (hfifo.trans hin) h1 h9
  exact ⟨v, (runAll_cons hopen).trans (runAll_cons hread), herr ▸ hends⟩

/-- Settles O39: the encoder writes a header and a trailer (`encodeEmpty`), which the decoder reads in one command
(`decodeEmpty`). -/
theorem emptyStreamRoundTrip : Obligations.EmptyStreamRoundTrip := by
  intro s u k hsl hul h1 h9 hs hu hout hroom
  obtain ⟨t, hencode, hbytes⟩ := encodeEmpty hsl h1 h9 hs hout hroom
  by_cases hin : u.host.inFifo = t.host.outFifo
  · obtain ⟨v, hdecode⟩ := decodeEmpty hul h1 h9 hu (hin.trans hbytes)
    exact ⟨t, v, hencode, hbytes, fun _ => hdecode⟩
  · exact ⟨t, u, hencode, hbytes, fun h => absurd h hin⟩

end Sys2Proof.Machine
end

section
/-! SUPPORT. Where STATE can go and what can be raised (rules R290, R310, R311): of each piece of pseudocode, the states it may move to and
the error kinds it may raise, composed from those of its parts. -/

namespace Sys2Proof.Machine

variable {α β : Type} {ps : List Phase} {ks : List ErrorKind}

/-! ### The condition and its composition -/

/-- However the piece ends from `e`, STATE is as before or one of `ps`, and an error raised is UnsupportedOperation or one of `ks`. -/
structure Cmd.MovesFrom (e : Engine) (ps : List Phase) (ks : List ErrorKind) (c : Cmd α) : Prop where
  phase : (c.after e).frame.phase = e.frame.phase ∨ (c.after e).frame.phase ∈ ps
  raised : ∀ k e', c e = .error (.raised k) e' → k = .unsupportedOperation ∨ k ∈ ks

/-- So from every engine. -/
def Cmd.Moves (ps : List Phase) (ks : List ErrorKind) (c : Cmd α) : Prop := ∀ e, c.MovesFrom e ps ks

theorem Cmd.MovesFrom.of_ok {c : Cmd α} {e e' : Engine} {a : α} (h : c e = .ok a e')
    (hp : e'.frame.phase = e.frame.phase ∨ e'.frame.phase ∈ ps) : c.MovesFrom e ps ks :=
  ⟨by rwa [Cmd.after_ok h], fun k e' hk => by rw [h] at hk; cases hk⟩

theorem Cmd.MovesFrom.of_error {c : Cmd α} {e e' : Engine} {r : Stop} (h : c e = .error r e')
    (hp : e'.frame.phase = e.frame.phase ∨ e'.frame.phase ∈ ps) (hr : ∀ k, r = .raised k → k = .unsupportedOperation ∨ k ∈ ks) :
    c.MovesFrom e ps ks :=
  ⟨by rwa [Cmd.after_error h], fun k e' hk => by rw [h] at hk; cases hk; exact hr k rfl⟩

theorem Cmd.Moves.pure (a : α) : Cmd.Moves ps ks (pure a : Cmd α) := fun _ => .of_ok rfl (.inl rfl)

theorem Cmd.Moves.raise {k : ErrorKind} (h : k = .unsupportedOperation ∨ k ∈ ks) : Cmd.Moves ps ks (Cmd.raise k : Cmd α) :=
  fun _ => .of_error rfl (.inl rfl) fun _ hk => Stop.raised.inj hk ▸ h

theorem Cmd.Moves.fail (f : Fault) : Cmd.Moves ps ks (Cmd.fail f : Cmd α) := fun _ => .of_error rfl (.inl rfl) nofun

theorem Cmd.Moves.hold (w : Wait) : Cmd.Moves ps ks (throw (.hold w) : Cmd α) := fun _ => .of_error rfl (.inl rfl) nofun

theorem Cmd.Moves.bind {x : Cmd α} {f : α → Cmd β} (hx : Cmd.Moves ps ks x) (hf : ∀ a, Cmd.Moves ps ks (f a)) :
    Cmd.Moves ps ks (x >>= f) := by
  intro e
  obtain ⟨hphase, hraised⟩ := hx e
  cases h : x e with
  | error r e₁ =>
    rw [Cmd.after_error h] at hphase
    exact .of_error (bind_error h) hphase fun k hk => hraised k e₁ (hk ▸ h)
  | ok a e₁ =>
    have hrun : (x >>= f) e = f a e₁ := bind_ok h
    have hafter : (x >>= f).after e = (f a).after e₁ := by rw [Cmd.after, Cmd.after, hrun]
    obtain ⟨hphase', hraised'⟩ := hf a e₁
    rw [Cmd.after_ok h] at hphase
    refine ⟨?_, fun k e' hk => hraised' k e' (hrun ▸ hk)⟩
    rw [hafter]
    rcases hphase' with hsame | hmem
    · rwa [hsame]
    · exact .inr hmem

theorem Cmd.Moves.get_bind {f : Engine → Cmd β} (hf : ∀ e, Cmd.Moves ps ks (f e)) : Cmd.Moves ps ks (get >>= f) :=
  fun e => ⟨(hf e e).phase, (hf e e).raised⟩

theorem Cmd.Moves.ite {p : Prop} [Decidable p] {x y : Cmd α} (hx : Cmd.Moves ps ks x) (hy : Cmd.Moves ps ks y) :
    Cmd.Moves ps ks (if p then x else y) := by split <;> assumption

theorem Cmd.Moves.doWhen {b : Bool} {x : Cmd Unit} (hx : Cmd.Moves ps ks x) : Cmd.Moves ps ks (doWhen b x) := by
  cases b
  · exact .pure ()
  · exact hx

theorem Cmd.Moves.repeatCmd {c : Cmd Unit} (hc : Cmd.Moves ps ks c) (n : Nat) : Cmd.Moves ps ks (repeatCmd n c) := by
  induction n with
  | zero => exact .pure ()
  | succ n ih => exact .bind hc fun _ => ih

theorem Cmd.Moves.forEach {xs : List α} {c : α → Cmd Unit} (hc : ∀ x, Cmd.Moves ps ks (c x)) : Cmd.Moves ps ks (forEach xs c) := by
  induction xs with
  | nil => exact .pure ()
  | cons x xs ih => exact .bind (hc x) fun _ => ih

theorem Cmd.Moves.collect {xs : List α} {c : α → Cmd β} (hc : ∀ x, Cmd.Moves ps ks (c x)) : Cmd.Moves ps ks (collect xs c) := by
  induction xs with
  | nil => exact .pure _
  | cons x xs ih => exact .bind (hc x) fun _ => .bind ih fun _ => .pure _

/-! ### The primitives -/

theorem moves_requireOk (ok : Bool) : Cmd.Moves ps ks (requireOk ok) := by
  cases ok
  · exact .raise (.inl rfl)
  · exact .pure ()

theorem moves_raiseWhen {k : ErrorKind} (h : k ∈ ks) (b : Bool) : Cmd.Moves ps ks (raiseWhen b k) := by
  cases b
  · exact .pure ()
  · exact .raise (.inr h)

theorem moves_noChecks : Cmd.Moves ps ks noChecks := .pure ()

theorem moves_modBits (f : BitEngine → BitEngine) : Cmd.Moves ps ks (modBits f) := fun _ => .of_ok rfl (.inl rfl)
theorem moves_modBlock (f : BlockUnit → BlockUnit) : Cmd.Moves ps ks (modBlock f) := fun _ => .of_ok rfl (.inl rfl)
theorem moves_modBwt (f : BwtUnit → BwtUnit) : Cmd.Moves ps ks (modBwt f) := fun _ => .of_ok rfl (.inl rfl)
theorem moves_modMtf (f : MtfUnit → MtfUnit) : Cmd.Moves ps ks (modMtf f) := fun _ => .of_ok rfl (.inl rfl)
theorem moves_modHuf (f : HufUnit → HufUnit) : Cmd.Moves ps ks (modHuf f) := fun _ => .of_ok rfl (.inl rfl)
theorem moves_modCrc (f : CrcUnit → CrcUnit) : Cmd.Moves ps ks (modCrc f) := fun _ => .of_ok rfl (.inl rfl)
theorem moves_modHost (f : HostBlock → HostBlock) : Cmd.Moves ps ks (modHost f) := fun _ => .of_ok rfl (.inl rfl)

theorem moves_setHeaderless (b : Bool) : Cmd.Moves ps ks (modFrame fun f => { f with headerless := b }) := fun _ => .of_ok rfl (.inl rfl)

theorem moves_setPhase {p : Phase} (h : p ∈ ps) : Cmd.Moves ps ks (setPhase p) := fun _ => .of_ok rfl (.inr h)

theorem moves_setResult (v : Nat) : Cmd.Moves ps ks (setResult v) := moves_modHost _

theorem moves_endWithNodata : Cmd.Moves ps ks endWithNodata := .bind (moves_modHost _) fun _ => moves_setResult 0

theorem moves_resultOrNodata (b : Option Byte) : Cmd.Moves ps ks (resultOrNodata b) := by
  cases b
  · exact moves_endWithNodata
  · exact moves_setResult _

theorem moves_drawFree (n : Nat) : Cmd.Moves ps ks (drawFree n) := fun _ => .of_ok rfl (.inl rfl)

theorem moves_readArg : Cmd.Moves ps ks readArg := fun _ => .of_ok rfl (.inl rfl)
theorem moves_argLow (n : Nat) : Cmd.Moves ps ks (argLow n) := fun _ => .of_ok rfl (.inl rfl)
theorem moves_argByte : Cmd.Moves ps ks argByte := fun _ => .of_ok rfl (.inl rfl)

theorem moves_tableGet {n : Nat} (a : ArrayName) (v : Vector α n) (i : Nat) : Cmd.Moves ps ks (tableGet a v i) := by
  unfold tableGet
  split
  · exact .pure _
  · exact .fail _

theorem moves_tableSet {n : Nat} (a : ArrayName) (v : Vector α n) (i : Nat) (x : α) : Cmd.Moves ps ks (tableSet a v i x) := by
  unfold tableSet
  split
  · exact .pure _
  · exact .fail _

theorem moves_tableGet2 {n : Nat} (a : ArrayName) (v : Table6 α n) (t s : Nat) : Cmd.Moves ps ks (tableGet2 a v t s) :=
  .bind (moves_tableGet _ _ _) fun _ => moves_tableGet _ _ _

theorem moves_tableSet2 {n : Nat} (a : ArrayName) (v : Table6 α n) (t s : Nat) (x : α) : Cmd.Moves ps ks (tableSet2 a v t s x) :=
  .bind (moves_tableGet _ _ _) fun _ => .bind (moves_tableSet _ _ _ _) fun _ => moves_tableSet _ _ _ _

theorem moves_storeGet (a : ArrayName) (m : Store α) (i : Nat) : Cmd.Moves ps ks (storeGet a m i) := by
  unfold storeGet
  split
  · exact .pure _
  · exact .fail _

theorem moves_storeSet (a : ArrayName) (size : Nat) (m : Store α) (i : Nat) (x : α) : Cmd.Moves ps ks (storeSet a size m i x) :=
  .ite (.pure _) (.fail _)

/-- A piece whose value goes to RESULT. -/
theorem moves_valueResult {c : Cmd α} {g : α → Nat} (h : Cmd.Moves ps ks c) : Cmd.Moves ps ks (do let a ← c; setResult (g a)) :=
  .bind h fun _ => moves_setResult _

/-- A piece after which a register goes to RESULT. -/
theorem moves_thenResult {c : Cmd Unit} {g : Engine → Nat} (h : Cmd.Moves ps ks c) :
    Cmd.Moves ps ks (do c; let e ← get; setResult (g e)) := .bind h fun _ => .get_bind fun _ => moves_setResult _

/-! ### Elements and rows of the arrays -/

theorem moves_blkGet (i : Nat) : Cmd.Moves ps ks (blkGet i) := .get_bind fun _ => moves_storeGet _ _ _
theorem moves_bwtArrGet (i : Nat) : Cmd.Moves ps ks (bwtArrGet i) := .get_bind fun _ => moves_storeGet _ _ _
theorem moves_mergedGet (i : Nat) : Cmd.Moves ps ks (mergedGet i) := .get_bind fun _ => moves_storeGet _ _ _
theorem moves_mtfStreamGet (i : Nat) : Cmd.Moves ps ks (mtfStreamGet i) := .get_bind fun _ => moves_storeGet _ _ _
theorem moves_selectorGet (i : Nat) : Cmd.Moves ps ks (selectorGet i) := .get_bind fun _ => moves_storeGet _ _ _

theorem moves_blkSet (i : Nat) (v : Byte) : Cmd.Moves ps ks (blkSet i v) :=
  .get_bind fun _ => .bind (moves_storeSet _ _ _ _ _) fun _ => moves_modBlock _

theorem moves_bwtArrSet (i : Nat) (v : Byte) : Cmd.Moves ps ks (bwtArrSet i v) :=
  .get_bind fun _ => .bind (moves_storeSet _ _ _ _ _) fun _ => moves_modBwt _

theorem moves_mergedSet (i : Nat) (v : Word) : Cmd.Moves ps ks (mergedSet i v) :=
  .get_bind fun _ => .bind (moves_storeSet _ _ _ _ _) fun _ => moves_modBwt _

theorem moves_selectorSet (g t : Nat) : Cmd.Moves ps ks (selectorSet g t) :=
  .get_bind fun _ => .bind (moves_storeSet _ _ _ _ _) fun _ => moves_modHuf _

theorem moves_lenRow (t n : Nat) : Cmd.Moves ps ks (lenRow t n) :=
  .get_bind fun _ => .bind (moves_tableGet _ _ _) fun _ => .ite (.pure _) (.fail _)

theorem moves_rfreqRow (t n : Nat) : Cmd.Moves ps ks (rfreqRow t n) :=
  .get_bind fun _ => .bind (moves_tableGet _ _ _) fun _ => .ite (.pure _) (.fail _)

theorem moves_setLenRow (t : Nat) (xs : List Nat) : Cmd.Moves ps ks (setLenRow t xs) :=
  .get_bind fun _ => .bind (moves_tableGet _ _ _) fun _ => .bind (moves_tableSet _ _ _ _) fun _ => moves_modHuf _

theorem moves_setRfreqRow (t : Nat) (xs : List Nat) : Cmd.Moves ps ks (setRfreqRow t xs) :=
  .get_bind fun _ => .bind (moves_tableGet _ _ _) fun _ => .bind (moves_tableSet _ _ _ _) fun _ => moves_modHuf _

theorem moves_mtfFreqs : Cmd.Moves ps ks mtfFreqs := .get_bind fun _ => .ite (.pure _) (.fail _)

/-- A cell of a table set to ARG (rules R214, R240). -/
theorem moves_setCell {w n : Nat} {a : ArrayName} {v : Engine → Table6 (BitVec w) n} {i j : Nat} {x : Word → BitVec w}
    {f : Table6 (BitVec w) n → HufUnit → HufUnit} :
    Cmd.Moves ps ks (do let y ← readArg; let e ← get; let m ← tableSet2 a (v e) i j (x y); modHuf (f m)) :=
  .bind moves_readArg fun _ => .get_bind fun _ => .bind (moves_tableSet2 _ _ _ _ _) fun _ => moves_modHuf _

/-! ### Writing bits -/

theorem moves_outByte (v : Byte) : Cmd.Moves ps ks (outByte v) := .get_bind fun _ => .ite (moves_modHost _) (.hold _)

theorem moves_emitBytes (n : Nat) : Cmd.Moves ps ks (emitBytes n) := by
  induction n with
  | zero => exact .pure ()
  | succ n ih => exact .get_bind fun _ => .bind (moves_outByte _) fun _ => .bind (moves_modBits _) fun _ => ih

theorem moves_writeBits (n v : Nat) : Cmd.Moves ps ks (writeBits n v) :=
  .ite (.pure ()) (.bind (moves_modBits _) fun _ => .get_bind fun _ => moves_emitBytes _)

theorem moves_writeUnary (c : Nat) : Cmd.Moves ps ks (writeUnary c) :=
  .bind (.repeatCmd (moves_writeBits _ _) _) fun _ => moves_writeBits _ _

theorem moves_write32 (v : Nat) : Cmd.Moves ps ks (write32 v) := .bind (moves_writeBits _ _) fun _ => moves_writeBits _ _

theorem moves_write48 (v : Nat) : Cmd.Moves ps ks (write48 v) := .bind (moves_writeBits _ _) fun _ => moves_writeBits _ _

theorem moves_flushWriter : Cmd.Moves ps ks flushWriter :=
  .get_bind fun _ => .bind (.doWhen (moves_outByte _)) fun _ => moves_modBits _

theorem moves_writeFlags (bs : List Bool) : Cmd.Moves ps ks (writeFlags bs) := .forEach fun _ => moves_writeBits _ _

/-! ### The block and the transforms (spec/41_rle1.md, spec/42_bwt.md) -/

theorem moves_blkAppend (v : Byte) : Cmd.Moves ps ks (blkAppend v) := .get_bind fun _ => .bind (moves_blkSet _ _) fun _ => moves_modBlock _

theorem moves_appendRun (v : Byte) (n : Nat) : Cmd.Moves ps ks (appendRun v n) :=
  .ite (.repeatCmd (moves_blkAppend _) _) (.bind (.repeatCmd (moves_blkAppend _) _) fun _ => moves_blkAppend _)

theorem moves_flushRun : Cmd.Moves ps ks flushRun :=
  .get_bind fun _ => .ite (.pure ()) (.bind (moves_appendRun _ _) fun _ => moves_modBlock _)

theorem moves_rle1Accept (b : Byte) : Cmd.Moves ps ks (rle1Accept b) :=
  .get_bind fun _ => .ite (moves_modBlock _) (.bind moves_flushRun fun _ => moves_modBlock _)

theorem moves_rle1Put (b : Byte) : Cmd.Moves ps ks (rle1Put b) :=
  .get_bind fun _ => .ite (.pure _) (.bind (moves_rle1Accept b) fun _ => .bind (moves_modBlock _) fun _ => .pure _)

theorem moves_bwtHop : Cmd.Moves ps ks bwtHop :=
  .get_bind fun _ => .bind (moves_mergedGet _) fun _ => .bind (moves_modBwt _) fun _ => .pure _

theorem moves_randStep : Cmd.Moves ps ks randStep :=
  .get_bind fun _ => .bind (.doWhen (moves_modBlock _)) fun _ => .bind (moves_modBlock _) fun _ => .get_bind fun _ => .pure _

theorem moves_fetchByte : Cmd.Moves ps ks fetchByte :=
  .bind moves_bwtHop fun _ => .get_bind fun _ => .ite (.bind moves_randStep fun _ => .pure _) (.pure _)

theorem moves_rle1Data (b : Byte) : Cmd.Moves ps ks (rle1Data b) := .bind (moves_modBlock _) fun _ => .pure _

theorem moves_rle1Pass {go : Byte → Cmd (Option Byte)} (h : ∀ b, Cmd.Moves ps ks (go b)) : Cmd.Moves ps ks (rle1Pass go) :=
  .get_bind fun _ => .ite (.bind (moves_modBlock _) fun _ => .pure _) (.ite (.pure _) (.bind moves_fetchByte h))

theorem moves_rle1Next : Cmd.Moves ps ks rle1Next :=
  moves_rle1Pass fun b => .get_bind fun _ =>
    .ite (.bind (moves_modBlock _) fun _ => moves_rle1Pass moves_rle1Data) (moves_rle1Data b)

theorem moves_writeWrap (len : Nat) (b : List Byte) : Cmd.Moves ps ks (writeWrap len b) := by
  cases b
  · exact .pure ()
  · exact moves_blkSet _ _

theorem moves_bwtForward : Cmd.Moves ps ks bwtForward :=
  .get_bind fun _ => .bind (.collect moves_blkGet) fun _ => .bind (moves_writeWrap _ _) fun _ =>
    .bind (.forEach fun _ => moves_bwtArrSet _ _) fun _ => .bind (moves_modBwt _) fun _ => .get_bind fun _ => .pure _

theorem moves_placeMerged (i : Nat) (v : Byte) : Cmd.Moves ps ks (placeMerged i v) :=
  .get_bind fun _ => .bind (moves_mergedSet _ _) fun _ => moves_modBwt _

theorem moves_buildInverse : Cmd.Moves ps ks buildInverse :=
  .get_bind fun _ => .bind (.collect moves_bwtArrGet) fun _ => .bind (moves_modBwt _) fun _ => .forEach fun _ => moves_placeMerged _ _

theorem moves_bwtInvSetup (h : .invalidStartPointer ∈ ks) : Cmd.Moves ps ks bwtInvSetup :=
  .get_bind fun _ => .bind (moves_raiseWhen h _) fun _ => .bind moves_buildInverse fun _ => .bind (moves_mergedGet _) fun _ =>
    .bind (moves_modBwt _) fun _ => .pure _

/-! ### Symbols (spec/43_mtf_rle2.md) -/

theorem moves_mtfInit (decoding : Bool) : Cmd.Moves ps ks (mtfInit decoding) :=
  .get_bind fun _ => .bind (moves_modMtf _) fun _ => .ite (.bind (moves_modBwt _) fun _ => moves_modHuf _) (.pure ())

theorem moves_emitSym (s : Nat) : Cmd.Moves ps ks (emitSym s) :=
  .get_bind fun _ => .bind (moves_storeSet _ _ _ _ _) fun _ => .bind (moves_tableGet _ _ _) fun _ =>
    .bind (moves_tableSet _ _ _ _) fun _ => moves_modMtf _

theorem moves_flushZeros : Cmd.Moves ps ks flushZeros :=
  .get_bind fun _ => .ite (.bind (.forEach moves_emitSym) fun _ => moves_modMtf _) (.pure ())

theorem moves_findRank (r : Byte) : Cmd.Moves ps ks (findRank r) := by
  refine .get_bind fun e => ?_
  cases mtfPosition e.mtf.nInUse.toNat e.mtf.list.toList r
  · exact moves_drawFree _
  · exact .pure _

theorem moves_moveToFront (j : Nat) : Cmd.Moves ps ks (moveToFront j) :=
  .get_bind fun _ => .bind (moves_tableGet _ _ _) fun _ => .bind (moves_modMtf _) fun _ => .pure _

theorem moves_requirePresent (v : Byte) : Cmd.Moves ps ks (requirePresent v) := .get_bind fun _ => moves_requireOk _

theorem moves_encodeRank (v : Byte) : Cmd.Moves ps ks (encodeRank v) :=
  .get_bind fun _ => .bind (moves_findRank _) fun _ => .ite (moves_modMtf _)
    (.bind moves_flushZeros fun _ => .bind (moves_moveToFront _) fun _ => moves_emitSym _)

theorem moves_mtfEncByte (v : Byte) : Cmd.Moves ps ks (mtfEncByte v) := .bind (moves_requirePresent v) fun _ => moves_encodeRank v

theorem moves_mtfEncEnd : Cmd.Moves ps ks mtfEncEnd := .bind moves_flushZeros fun _ => .get_bind fun _ => moves_emitSym _

theorem moves_mtfWriteMap : Cmd.Moves ps ks mtfWriteMap :=
  .get_bind fun _ => .bind (moves_writeFlags _) fun _ => .forEach fun _ => .ite (moves_writeFlags _) (.pure ())

theorem moves_bwtAppend (v : Byte) : Cmd.Moves ps ks (bwtAppend v) := .get_bind fun _ => .bind (moves_bwtArrSet _ _) fun _ => moves_modBwt _

theorem moves_mtfFlushRun : Cmd.Moves ps ks mtfFlushRun :=
  .get_bind fun _ => .ite
    (.bind (moves_tableGet _ _ _) fun _ => .bind (.repeatCmd (moves_bwtAppend _) _) fun _ => moves_modMtf _) (.pure ())

theorem moves_mtfDecSym (h : .blockSizeExceeded ∈ ks) (s : Nat) : Cmd.Moves ps ks (mtfDecSym s) := by
  have hdigit : Cmd.Moves ps ks (mtfRunDigit s) := .get_bind fun _ => .ite (.raise (.inr h)) (moves_modMtf _)
  have hliteral : Cmd.Moves ps ks (mtfLiteral s) :=
    .get_bind fun _ => .ite (.raise (.inr h)) (.bind (moves_moveToFront _) fun _ => moves_bwtAppend _)
  exact .ite (.bind hdigit fun _ => .pure _) (.bind moves_mtfFlushRun fun _ => .get_bind fun _ =>
    .ite (.bind (moves_modHuf _) fun _ => .pure _) (.bind hliteral fun _ => .pure _))

/-! ### Tables for encoding (spec/44_huffman_alloc.md, spec/45_huffman_codec.md) -/

theorem moves_requireStream : Cmd.Moves ps ks requireStream := .get_bind fun _ => moves_requireOk _

theorem moves_setGroups : Cmd.Moves ps ks setGroups := .get_bind fun _ => moves_modHuf _

theorem moves_seedTables (freqs : List Nat) (nGroups : Nat) (ts : List Nat) (left gs : Nat) :
    Cmd.Moves ps ks (seedTables freqs nGroups ts left gs) := by
  induction ts generalizing left gs with
  | nil => exact .pure ()
  | cons t ts ih => exact .bind (moves_setLenRow _ _) fun _ => ih _ _

theorem moves_seed : Cmd.Moves ps ks seed := .bind moves_mtfFreqs fun _ => .get_bind fun _ => moves_seedTables _ _ _ _ _

theorem moves_groupSyms (g : Nat) : Cmd.Moves ps ks (groupSyms g) :=
  .get_bind fun _ => .bind (.collect moves_mtfStreamGet) fun _ => .pure _

theorem moves_groupCost (grp : List Nat) (t : Nat) : Cmd.Moves ps ks (groupCost grp t) :=
  .get_bind fun _ => .bind (.collect fun _ => moves_tableGet2 _ _ _ _) fun _ => .pure _

theorem moves_rfreqBump (t s : Nat) : Cmd.Moves ps ks (rfreqBump t s) :=
  .get_bind fun _ => .bind (moves_tableGet2 _ _ _ _) fun _ => .bind (moves_tableSet2 _ _ _ _ _) fun _ => moves_modHuf _

theorem moves_selectGroups (nGroups : Nat) (gs : List Nat) (total : Nat) : Cmd.Moves ps ks (selectGroups nGroups gs total) := by
  induction gs generalizing total with
  | nil => exact .pure _
  | cons g gs ih =>
    exact .bind (moves_groupSyms g) fun _ => .bind (.collect fun _ => moves_groupCost _ _) fun _ =>
      .bind (moves_selectorSet _ _) fun _ => .bind (.forEach fun _ => moves_rfreqBump _ _) fun _ => ih _

theorem moves_reallocate (alpha t : Nat) : Cmd.Moves ps ks (reallocate alpha t) :=
  .bind (moves_rfreqRow _ _) fun _ => moves_setLenRow _ _

theorem moves_selectPass : Cmd.Moves ps ks selectPass :=
  .get_bind fun _ => .bind (.forEach fun _ => moves_setRfreqRow _ _) fun _ => .bind (moves_selectGroups _ _ _) fun _ =>
    .bind (.forEach fun _ => moves_reallocate _ _) fun _ => .pure _

theorem moves_selectPasses (n c : Nat) : Cmd.Moves ps ks (selectPasses n c) := by
  induction n generalizing c with
  | zero => exact .pure c
  | succ n ih => exact .bind moves_selectPass fun c => ih c

theorem moves_seedAndSelect : Cmd.Moves ps ks seedAndSelect := .bind moves_seed fun _ => moves_selectPasses _ _

theorem moves_selectChecks : Cmd.Moves ps ks selectChecks := .get_bind fun _ => moves_requireOk _

theorem moves_assignCodes (t : Nat) : Cmd.Moves ps ks (assignCodes t) :=
  .get_bind fun _ => .bind (moves_lenRow _ _) fun _ => .bind (moves_tableGet _ _ _) fun _ => .bind (moves_tableSet _ _ _ _) fun _ =>
    moves_modHuf _

theorem moves_selectorPosition (list : List Nat) (sel : Nat) : Cmd.Moves ps ks (selectorPosition list sel) := by
  unfold selectorPosition
  split
  · exact .pure _
  · exact moves_drawFree _

theorem moves_writeSelectors (gs list : List Nat) : Cmd.Moves ps ks (writeSelectors gs list) := by
  induction gs generalizing list with
  | nil => exact .pure ()
  | cons g gs ih =>
    exact .bind (moves_selectorGet g) fun _ => .bind (moves_selectorPosition _ _) fun _ => .bind (moves_writeUnary _) fun _ => ih _

theorem moves_writeDeltas (lens : List Nat) (cur : Nat) : Cmd.Moves ps ks (writeDeltas lens cur) := by
  induction lens generalizing cur with
  | nil => exact .pure ()
  | cons len lens ih =>
    exact .bind (.repeatCmd (moves_writeBits _ _) _) fun _ => .bind (.repeatCmd (moves_writeBits _ _) _) fun _ =>
      .bind (moves_writeBits _ _) fun _ => ih len

theorem moves_writeTables : Cmd.Moves ps ks writeTables :=
  .get_bind fun _ => .bind (moves_writeBits _ _) fun _ => .bind (moves_writeBits _ _) fun _ => .bind (moves_writeSelectors _ _) fun _ =>
    .forEach fun _ => .bind (moves_lenRow _ _) fun _ => .bind (moves_writeBits _ _) fun _ => moves_writeDeltas _ _

theorem moves_codeOfSymbol (i : Nat) : Cmd.Moves ps ks (codeOfSymbol i) :=
  .bind (moves_selectorGet _) fun _ => .bind (moves_mtfStreamGet i) fun _ => .get_bind fun _ => moves_tableGet2 _ _ _ _

theorem moves_encodeChecks : Cmd.Moves ps ks encodeChecks :=
  .get_bind fun _ => .bind (moves_requireOk _) fun _ => .forEach fun i => .bind (moves_codeOfSymbol i) fun _ => moves_requireOk _

theorem moves_encodeCodes : Cmd.Moves ps ks encodeCodes :=
  .get_bind fun _ => .forEach fun i => .bind (moves_codeOfSymbol i) fun _ => moves_writeBits _ _

/-! ### Encoding a block and a stream -/

theorem moves_blkEncOpen (k : BitVec 4) : Cmd.Moves ps ks (blkEncOpen k) := .bind (moves_modBlock _) fun _ => moves_modCrc _

theorem moves_writeBlockHeader (crc start : Nat) : Cmd.Moves ps ks (writeBlockHeader crc start) :=
  .bind (moves_write48 _) fun _ => .bind (moves_write32 _) fun _ => .bind (moves_writeBits _ _) fun _ => moves_writeBits _ _

theorem moves_encodeSymbols : Cmd.Moves ps ks encodeSymbols :=
  .bind (moves_mtfInit false) fun _ => .bind moves_mtfWriteMap fun _ => .get_bind fun _ =>
    .bind (.forEach fun i => .bind (moves_bwtArrGet i) fun v => moves_mtfEncByte v) fun _ => moves_mtfEncEnd

theorem moves_encodeHuffman : Cmd.Moves ps ks encodeHuffman :=
  .bind (.bind moves_requireStream fun _ => moves_setGroups) fun _ => .bind (.bind moves_selectChecks fun _ => moves_seedAndSelect) fun _ =>
    .get_bind fun _ => .bind (.forEach moves_assignCodes) fun _ => .bind moves_writeTables fun _ =>
      .bind moves_encodeChecks fun _ => moves_encodeCodes

theorem moves_blkEncClose : Cmd.Moves ps ks blkEncClose :=
  .bind moves_flushRun fun _ => .get_bind fun _ => .bind moves_bwtForward fun _ => .bind (moves_writeBlockHeader _ _) fun _ =>
    .bind moves_encodeSymbols fun _ => .bind moves_encodeHuffman fun _ => .bind (moves_modBlock _) fun _ => .pure _

theorem moves_closeAndCombine : Cmd.Moves ps ks closeAndCombine := .bind moves_blkEncClose fun _ => moves_modCrc _

theorem moves_nextBlockWith (b : Byte) : Cmd.Moves ps ks (nextBlockWith b) :=
  .bind moves_closeAndCombine fun _ => .get_bind fun _ => .bind (moves_blkEncOpen _) fun _ => .bind (moves_rle1Put b) fun _ => .pure _

theorem moves_feedOrRefuse (ok : Bool) (b : Byte) : Cmd.Moves ps ks (feedOrRefuse ok b) := .ite (moves_modCrc _) (moves_modHost _)

end Sys2Proof.Machine
end

section
/-! SUPPORT. The error kinds that reading and decoding may raise (rules R141, R145, R198, R233, R237, R270, R296 to R298, R310). -/

namespace Sys2Proof.Machine

variable {ps : List Phase} {ks : List ErrorKind}

/-! ### Reading bits -/

section
variable (hdata : .insufficientData ∈ ks)
include hdata

theorem moves_inByte : Cmd.Moves ps ks inByte := by
  refine .get_bind fun e => ?_
  cases e.host.inFifo with
  | nil => exact .ite (.raise (.inr hdata)) (.hold _)
  | cons b rest => exact .bind (moves_modHost _) fun _ => .pure b

theorem moves_fillTo (n fuel : Nat) : Cmd.Moves ps ks (fillTo n fuel) := by
  induction fuel with
  | zero => exact .pure ()
  | succ fuel ih =>
    exact .get_bind fun _ => .ite (.bind (.bind (moves_inByte hdata) fun _ => moves_modBits _) fun _ => ih) (.pure ())

theorem moves_readBits (n : Nat) : Cmd.Moves ps ks (readBits n) :=
  .ite (.pure 0) (.bind (moves_fillTo hdata n n) fun _ => .get_bind fun _ => .bind (moves_modBits _) fun _ => .pure _)

theorem moves_read32 : Cmd.Moves ps ks read32 :=
  .bind (moves_readBits hdata _) fun _ => .bind (moves_readBits hdata _) fun _ => .pure _

theorem moves_read48 : Cmd.Moves ps ks read48 :=
  .bind (moves_readBits hdata _) fun _ => .bind (moves_readBits hdata _) fun _ => .pure _

theorem moves_mtfReadMap : Cmd.Moves ps ks mtfReadMap :=
  .bind (.collect fun _ => moves_readBits hdata 1) fun _ => .bind (moves_modBlock _) fun _ =>
    .forEach fun _ => .ite (.forEach fun _ => .bind (moves_readBits hdata 1) fun _ => moves_modBlock _) (.pure ())

theorem moves_readBlockHeader : Cmd.Moves ps ks readBlockHeader :=
  .bind (moves_read32 hdata) fun _ => .bind (moves_modCrc _) fun _ => .bind (moves_readBits hdata 1) fun _ =>
    .bind (moves_modBlock _) fun _ => .bind (moves_readBits hdata 24) fun _ => moves_modBwt _

end

/-! ### Tables and symbols -/

theorem moves_buildDecode (t : Nat) : Cmd.Moves ps ks (buildDecode t) :=
  .get_bind fun _ => .bind (moves_lenRow _ _) fun _ => .bind (moves_tableGet _ _ _) fun _ => .bind (moves_tableSet _ _ _ _) fun _ =>
    .bind (moves_tableSet _ _ _ _) fun _ => .bind (moves_tableSet _ _ _ _) fun _ => .bind (moves_tableSet _ _ _ _) fun _ =>
      .bind (moves_tableSet _ _ _ _) fun _ => moves_modHuf _

/-- The symbol of a code that lies in the table (rule R237). -/
theorem moves_lookup (e : Engine) (t len code : Nat) : Cmd.Moves ps ks (do
    let base ← tableGet2 .base e.huf.base t len
    if code < base.toNat then Cmd.fail (.outOfArray .perm code)
    else do
      let s ← tableGet2 .perm e.huf.perm t (code - base.toNat)
      pure s.toNat : Cmd Nat) :=
  .bind (moves_tableGet2 _ _ _ _) fun _ => .ite (.fail _) (.bind (moves_tableGet2 _ _ _ _) fun _ => .pure _)

section
variable (hdata : .insufficientData ∈ ks) (htables : .invalidHuffmanTables ∈ ks)
include hdata htables

theorem moves_readUnary (m : Nat) : Cmd.Moves ps ks (readUnary m) := by
  have hfrom : ∀ left c, Cmd.Moves ps ks (readUnaryFrom left c) := by
    intro left
    induction left with
    | zero => exact fun _ => .raise (.inr htables)
    | succ left ih => exact fun c => .bind (moves_readBits hdata 1) fun _ => .ite (.pure c) (ih (c + 1))
  exact hfrom m 0

theorem moves_readDelta (fuel cur : Nat) : Cmd.Moves ps ks (readDelta fuel cur) := by
  induction fuel generalizing cur with
  | zero => exact .bind (moves_raiseWhen htables _) fun _ => .bind (moves_readBits hdata 1) fun _ => .pure cur
  | succ fuel ih =>
    exact .bind (moves_raiseWhen htables _) fun _ => .bind (moves_readBits hdata 1) fun _ =>
      .ite (.pure cur) (.bind (moves_readBits hdata 1) fun _ => ih _)

theorem moves_readLens (t : Nat) (ss : List Nat) (cur : Nat) : Cmd.Moves ps ks (readLens t ss cur) := by
  induction ss generalizing cur with
  | nil => exact .pure ()
  | cons s ss ih =>
    exact .get_bind fun _ => .bind (moves_readDelta hdata htables _ cur) fun _ => .get_bind fun _ =>
      .bind (moves_tableSet2 _ _ _ _ _) fun _ => .bind (moves_modHuf _) fun _ => ih _

theorem moves_readSelectors (nG : Nat) (gs list : List Nat) : Cmd.Moves ps ks (readSelectors nG gs list) := by
  induction gs generalizing list with
  | nil => exact .pure ()
  | cons g gs ih => exact .bind (moves_readUnary hdata htables nG) fun _ => .bind (moves_selectorSet _ _) fun _ => ih _

theorem moves_readTables : Cmd.Moves ps ks readTables :=
  .get_bind fun _ => .bind (moves_raiseWhen htables _) fun _ => .bind (moves_readBits hdata 3) fun _ =>
    .bind (moves_raiseWhen htables _) fun _ => .bind (moves_readBits hdata 15) fun _ => .bind (moves_raiseWhen htables _) fun _ =>
      .bind (moves_modHuf _) fun _ => .bind (moves_readSelectors hdata htables _ _ _) fun _ =>
        .bind (.forEach fun _ => .bind (moves_readBits hdata 5) fun _ => moves_readLens hdata htables _ _ _) fun _ =>
          .bind (.forEach moves_buildDecode) fun _ => moves_modHuf _

theorem moves_resolveCode (t left len code : Nat) : Cmd.Moves ps ks (resolveCode t left len code) := by
  induction left generalizing len code with
  | zero =>
    unfold resolveCode
    exact .get_bind fun e => .bind (moves_tableGet2 _ _ _ _) fun _ => .ite (.raise (.inr htables)) (moves_lookup e t len code)
  | succ left ih =>
    unfold resolveCode
    exact .get_bind fun e => .bind (moves_tableGet2 _ _ _ _) fun _ =>
      .ite (.bind (moves_readBits hdata 1) fun _ => ih _ _) (moves_lookup e t len code)

theorem moves_hufDecodeSym : Cmd.Moves ps ks hufDecodeSym := by
  have hsym : ∀ t, Cmd.Moves ps ks (decodeSym t) := fun t =>
    .get_bind fun _ => .bind (moves_tableGet _ _ _) fun _ => .bind (moves_readBits hdata _) fun _ => moves_resolveCode hdata htables _ _ _ _
  exact .get_bind fun _ => .bind (moves_raiseWhen htables _) fun _ => .bind (moves_selectorGet _) fun _ => .bind (hsym _) fun _ =>
    .bind (moves_modHuf _) fun _ => .pure _

end

/-! ### A block -/

section
variable (hdata : .insufficientData ∈ ks) (htables : .invalidHuffmanTables ∈ ks) (hsize : .blockSizeExceeded ∈ ks)
  (hstart : .invalidStartPointer ∈ ks)
include hdata htables hsize

theorem moves_decodeSymbols (left : Nat) : Cmd.Moves ps ks (decodeSymbols left) := by
  induction left with
  | zero => exact .raise (.inr htables)
  | succ left ih =>
    exact .bind (moves_hufDecodeSym hdata htables) fun _ => .bind (moves_mtfDecSym hsize _) fun _ => .ite (.pure ()) ih

include hstart

theorem moves_blkDecStart : Cmd.Moves ps ks blkDecStart :=
  .bind (moves_readBlockHeader hdata) fun _ => .bind (moves_mtfReadMap hdata) fun _ => .bind (moves_mtfInit true) fun _ =>
    .bind (moves_readTables hdata htables) fun _ => .get_bind fun _ => .bind (moves_decodeSymbols hdata htables hsize _) fun _ =>
      .bind (moves_bwtInvSetup hstart) fun _ => .bind (moves_modBlock _) fun _ => .bind (moves_modCrc _) fun _ => .pure _

end

/-! ### A stream -/

/-- The states that STR_DEC_READ can move to (rules R295 to R299). -/
def readingPhases : List Phase := [.decBlockBoundary, .decBlockActive, .decComplete]

theorem moves_expectByte (v : Nat) : Cmd.Moves ps (ownErrors .strDecRead) (expectByte v) :=
  .bind (moves_readBits (by decide) 8) fun _ => moves_raiseWhen (by decide) _

theorem moves_readHeader : Cmd.Moves readingPhases (ownErrors .strDecRead) readHeader :=
  .get_bind fun _ => .bind (.doWhen (.bind (moves_expectByte _) fun _ => moves_expectByte _)) fun _ => .bind (moves_expectByte _) fun _ =>
    .bind (moves_readBits (by decide) 8) fun _ => .bind (moves_raiseWhen (by decide) _) fun _ => .bind (moves_modBlock _) fun _ =>
      moves_setPhase (by decide)

theorem moves_boundaryStep : Cmd.Moves readingPhases (ownErrors .strDecRead) boundaryStep := by
  have hblock : Cmd.Moves readingPhases (ownErrors .strDecRead) (do let _ ← blkDecStart; setPhase .decBlockActive) :=
    .bind (moves_blkDecStart (by decide) (by decide) (by decide) (by decide)) fun _ => moves_setPhase (by decide)
  have hend : Cmd.Moves readingPhases (ownErrors .strDecRead) (do let v ← read32; checkStreamCrc v) :=
    .bind (moves_read32 (by decide)) fun _ => .bind (moves_modCrc _) fun _ => .get_bind fun _ =>
      .bind (moves_raiseWhen (by decide) _) fun _ => moves_setPhase (by decide)
  exact .bind (moves_read48 (by decide)) fun _ => .ite hblock (.ite hend (.raise (by decide)))

theorem moves_endBlock : Cmd.Moves readingPhases (ownErrors .strDecRead) endBlock :=
  .get_bind fun _ => .bind (moves_raiseWhen (by decide) _) fun _ => .bind (moves_modCrc _) fun _ => moves_setPhase (by decide)

theorem moves_strDecLoop (passes : Nat) : Cmd.Moves readingPhases (ownErrors .strDecRead) (strDecLoop passes) := by
  induction passes with
  | zero => exact .fail _
  | succ passes ih =>
    refine .get_bind fun e => ?_
    cases e.frame.phase with
    | decUninit => exact .bind moves_readHeader fun _ => ih
    | decBlockBoundary => exact .bind moves_boundaryStep fun _ => ih
    | decBlockActive =>
      refine .bind moves_rle1Next fun b => ?_
      cases b with
      | none => exact .bind moves_endBlock fun _ => ih
      | some v => exact .bind (moves_modCrc _) fun _ => moves_setResult _
    | _ => exact moves_endWithNodata

end Sys2Proof.Machine
end

section
/-! SUPPORT. The errors a command latches and the states it moves to (rules R290, R301, R310 to R312). -/

namespace Sys2Proof.Machine

variable {ps : List Phase} {ks : List ErrorKind}

/-! ### The checks raise UnsupportedOperation only -/

theorem moves_requireTable (t : BitVec 3) : Cmd.Moves ps ks (requireTable t) := moves_requireOk _

theorem moves_requireCell (t : BitVec 3) (sym : BitVec 9) : Cmd.Moves ps ks (requireCell t sym) :=
  .bind (moves_requireTable t) fun _ => moves_requireOk _

/-- A check of a cell and then of ARG (rules R214, R240). -/
theorem moves_requireCellArg (t : BitVec 3) (sym : BitVec 9) (ok : Word → Bool) :
    Cmd.Moves ps ks (do requireCell t sym; let a ← readArg; requireOk (ok a)) :=
  .bind (moves_requireCell t sym) fun _ => .bind moves_readArg fun _ => moves_requireOk _

/-- A check of one test of the engine. -/
theorem moves_requireTest (ok : Engine → Bool) : Cmd.Moves ps ks (do let e ← get; requireOk (ok e)) :=
  .get_bind fun _ => moves_requireOk _

theorem moves_requireLens (limit t : Nat) : Cmd.Moves ps ks (requireLens limit t) :=
  .get_bind fun _ => .bind (moves_lenRow _ _) fun _ => .bind (moves_requireOk _) fun _ => .pure _

theorem moves_checkHufEncodeSym (t : BitVec 3) : Cmd.Moves ps ks (checkHufEncodeSym t) :=
  .bind (moves_requireTable t) fun _ => .bind (moves_argLow 9) fun _ => .get_bind fun _ => .bind (moves_requireOk _) fun _ =>
    .bind (moves_tableGet2 _ _ _ _) fun _ => moves_requireOk _

/-- The checks of a command raise UnsupportedOperation only (rule R314). -/
theorem moves_checksOf (i : Instr) : Cmd.Moves [] [] (checksOf i) := by
  cases i with
  | brReadBits n => exact moves_requireOk _
  | bwWriteBits n => exact moves_requireOk _
  | rle1GetBlk => exact moves_requireTest _
  | bwtGet => exact moves_requireTest _
  | mtfEncByte => exact .bind moves_argByte fun v => moves_requirePresent v
  | mtfDecSym => exact .bind (moves_argLow 9) fun _ => moves_requireTest _
  | mtfGet => exact moves_requireTest _
  | hufAlloc t count => exact .bind (moves_requireTable t) fun _ => .bind (.get_bind fun _ => .pure _) fun _ => moves_requireOk _
  | hufSetFreq t sym => exact moves_requireCellArg t sym _
  | hufSetGroups => exact moves_requireStream
  | hufSeed => exact moves_requireTest _
  | hufSelectPass => exact moves_selectChecks
  | hufOptimize => exact moves_selectChecks
  | hufAssignCodes t => exact .bind (moves_requireTable t) fun _ => .bind (moves_requireLens _ _) fun _ => moves_requireOk _
  | hufWriteTables =>
    exact .get_bind fun _ => .bind (moves_requireOk _) fun _ => .forEach fun _ => .bind (moves_requireLens _ _) fun _ => .pure ()
  | hufEncodeData => exact moves_encodeChecks
  | hufBuildDecode t => exact .bind (moves_requireTable t) fun _ => .bind (moves_requireLens _ _) fun _ => .pure ()
  | hufEncodeSym t => exact moves_checkHufEncodeSym t
  | hufSetLen t sym => exact moves_requireCellArg t sym _
  | hufGetLen t sym => exact moves_requireCell t sym
  | hufGetCode t sym => exact moves_requireCell t sym
  | hufGetSel => exact moves_requireTest _
  | blkEncOpen k => exact moves_requireOk _
  | blkDecStart k => exact moves_requireOk _
  | blkCheckCrc => exact moves_requireTest _
  | strEncOpen k => exact .bind (moves_requireOk _) fun _ => moves_requireTest _
  | strEncWrite => exact moves_requireTest _
  | strEncFinish => exact moves_requireTest _
  | strDecOpen headerless => exact moves_requireTest _
  | strDecRead => exact moves_requireTest _
  | _ => exact moves_noChecks

/-! ### The bodies -/

theorem moves_cmdRle1Put : Cmd.Moves ps ks cmdRle1Put :=
  .bind moves_argByte fun b => .bind (moves_rle1Put b) fun _ => .bind (moves_setResult _) fun _ => .ite (.pure ()) (moves_modHost _)

theorem moves_cmdBwtInvNext : Cmd.Moves ps ks cmdBwtInvNext :=
  .get_bind fun _ => .ite moves_endWithNodata (moves_valueResult moves_bwtHop)

theorem moves_cmdHufAlloc (t : BitVec 3) (count : BitVec 9) : Cmd.Moves ps ks (cmdHufAlloc t count) :=
  .bind (.get_bind fun _ => .pure _) fun _ => .bind (moves_rfreqRow _ _) fun _ => .bind (moves_setLenRow _ _) fun _ => moves_setResult _

theorem moves_cmdCrcInit : Cmd.Moves ps ks cmdCrcInit := moves_modCrc _

theorem moves_cmdCrcStreamInit : Cmd.Moves ps ks cmdCrcStreamInit := moves_modCrc _

theorem moves_cmdBlkEncWrite : Cmd.Moves ps ks cmdBlkEncWrite :=
  .bind moves_argByte fun b => .bind (moves_rle1Put b) fun _ => .bind (moves_feedOrRefuse _ b) fun _ => moves_setResult _

theorem moves_cmdBlkEncClose : Cmd.Moves ps ks cmdBlkEncClose :=
  .get_bind fun _ => .ite (moves_valueResult moves_blkEncClose) moves_endWithNodata

/-- What BLK_DEC_START can raise is what `BlkDecStart()` can (rule R270). -/
theorem moves_cmdBlkDecStart (k : BitVec 4) : Cmd.Moves ps (ownErrors (.blkDecStart k)) (cmdBlkDecStart k) :=
  .bind (.doWhen (moves_modBlock _)) fun _ => moves_valueResult
    (moves_blkDecStart (ks := [.insufficientData, .invalidHuffmanTables, .blockSizeExceeded, .invalidStartPointer])
      (by decide) (by decide) (by decide) (by decide))

theorem moves_cmdBlkDecRead : Cmd.Moves ps ks cmdBlkDecRead := by
  refine .bind moves_rle1Next fun b => ?_
  cases b with
  | none => exact moves_endWithNodata
  | some v => exact .bind (moves_modCrc _) fun _ => moves_setResult _

theorem moves_cmdStrEncOpen (h : .encActive ∈ ps) (k : BitVec 4) : Cmd.Moves ps ks (cmdStrEncOpen k) :=
  .bind (moves_modBits _) fun _ => .bind (moves_writeBits _ _) fun _ => .bind (moves_writeBits _ _) fun _ =>
    .bind (moves_writeBits _ _) fun _ => .bind (moves_writeBits _ _) fun _ => .bind (moves_modCrc _) fun _ =>
      .bind (moves_blkEncOpen k) fun _ => moves_setPhase h

theorem moves_cmdStrEncWrite : Cmd.Moves ps ks cmdStrEncWrite :=
  .bind moves_argByte fun b => .bind (moves_rle1Put b) fun _ => .bind (.doWhen (moves_nextBlockWith b)) fun _ =>
    .bind (moves_modCrc _) fun _ => moves_setResult _

theorem moves_cmdStrEncFinish (h : .encDone ∈ ps) : Cmd.Moves ps ks cmdStrEncFinish :=
  .get_bind fun _ => .bind (.doWhen moves_closeAndCombine) fun _ => .bind (moves_write48 _) fun _ => .get_bind fun _ =>
    .bind (moves_write32 _) fun _ => .bind moves_flushWriter fun _ => .bind (moves_setPhase h) fun _ => moves_setResult _

theorem moves_cmdStrDecOpen (h : .decUninit ∈ ps) (headerless : BitVec 1) : Cmd.Moves ps ks (cmdStrDecOpen headerless) :=
  .bind (moves_modBits _) fun _ => .bind (moves_setHeaderless _) fun _ => .bind (moves_modCrc _) fun _ => moves_setPhase h

/-- The states a command moves to from a state that passes its checks, but for STR_DEC_READ at the end of a stream, which moves to
none (rules R290, R299). -/
def movesTo : Instr → List Phase
  | .strEncOpen _ => [.encActive]
  | .strEncFinish => [.encDone]
  | .strDecOpen _ => [.decUninit]
  | .strDecRead => readingPhases
  | .strClose => [.closed]
  | _ => []

/-- Where the body of a command can move STATE, and what it can raise (rules R290, R310). -/
theorem moves_bodyOf (i : Instr) : Cmd.Moves (movesTo i) (ownErrors i) (bodyOf i) := by
  cases i with
  | nop => exact .pure ()
  | brReadBits n => exact moves_valueResult (moves_readBits (.head _) _)
  | brReadBool => exact moves_valueResult (moves_readBits (by decide) _)
  | brReadUnary limit => exact moves_valueResult (moves_readUnary (.head _) (.tail _ (.head _)) _)
  | brReadInt32 => exact moves_valueResult (moves_read32 (by decide))
  | bwWriteBits n => exact .bind moves_readArg fun _ => moves_writeBits _ _
  | bwWriteBool => exact .bind (moves_argLow 1) fun _ => moves_writeBits _ _
  | bwWriteUnary => exact .bind (moves_argLow 16) fun _ => moves_writeUnary _
  | bwFlush => exact moves_flushWriter
  | bwWriteInt32 => exact .bind moves_readArg fun _ => moves_write32 _
  | rle1Put => exact moves_cmdRle1Put
  | rle1Flush => exact moves_thenResult moves_flushRun
  | rle1Get => exact .bind moves_rle1Next fun b => moves_resultOrNodata b
  | rle1GetBlk => exact .bind moves_readArg fun _ => moves_valueResult (moves_blkGet _)
  | bwtForward => exact moves_valueResult moves_bwtForward
  | bwtInvSetup => exact moves_valueResult (moves_bwtInvSetup (by decide))
  | bwtInvNext => exact moves_cmdBwtInvNext
  | bwtGet => exact .bind moves_readArg fun _ => moves_valueResult (moves_bwtArrGet _)
  | bwtSetStart => exact .bind (moves_argLow 24) fun _ => moves_modBwt _
  | mtfInit decoding => exact moves_thenResult (moves_mtfInit _)
  | mtfEncByte => exact .bind moves_argByte fun _ => moves_thenResult (moves_encodeRank _)
  | mtfEncEnd => exact moves_thenResult moves_mtfEncEnd
  | mtfDecSym => exact .bind (moves_argLow 9) fun _ => moves_valueResult (moves_mtfDecSym (by decide) _)
  | mtfReadMap => exact moves_thenResult (moves_mtfReadMap (by decide))
  | mtfWriteMap => exact moves_thenResult moves_mtfWriteMap
  | mtfGet => exact .bind moves_readArg fun _ => moves_valueResult (moves_mtfStreamGet _)
  | hufAlloc t count => exact moves_cmdHufAlloc t count
  | hufSetFreq t sym => exact moves_setCell
  | hufSetGroups => exact moves_thenResult moves_setGroups
  | hufSeed => exact moves_seed
  | hufSelectPass => exact moves_valueResult moves_selectPass
  | hufOptimize => exact moves_valueResult moves_seedAndSelect
  | hufAssignCodes t => exact moves_assignCodes _
  | hufWriteTables => exact moves_thenResult moves_writeTables
  | hufEncodeData => exact moves_thenResult moves_encodeCodes
  | hufReadTables => exact moves_thenResult (moves_readTables (by decide) (by decide))
  | hufBuildDecode t => exact moves_buildDecode _
  | hufDecodeSym => exact moves_valueResult (moves_hufDecodeSym (by decide) (by decide))
  | hufEncodeSym t =>
    exact .bind (moves_argLow 9) fun _ => .get_bind fun _ => .bind (moves_tableGet2 _ _ _ _) fun _ => moves_writeBits _ _
  | hufSetLen t sym => exact moves_setCell
  | hufGetLen t sym => exact .get_bind fun _ => moves_valueResult (moves_tableGet2 _ _ _ _)
  | hufGetCode t sym => exact .get_bind fun _ => moves_valueResult (moves_tableGet2 _ _ _ _)
  | hufGetSel => exact .bind moves_readArg fun _ => moves_valueResult (moves_selectorGet _)
  | crcInit => exact moves_cmdCrcInit
  | crcUpdate => exact .bind moves_argByte fun _ => moves_modCrc _
  | crcFinal => exact .get_bind fun _ => moves_setResult _
  | crcCombine => exact .bind moves_readArg fun _ => moves_thenResult (moves_modCrc _)
  | crcStreamInit => exact moves_cmdCrcStreamInit
  | crcReadStream => exact .get_bind fun _ => moves_setResult _
  | crcReadStored which => exact .get_bind fun _ => moves_setResult _
  | blkEncOpen k => exact moves_blkEncOpen k
  | blkEncWrite => exact moves_cmdBlkEncWrite
  | blkEncClose => exact moves_cmdBlkEncClose
  | blkDecStart k => exact moves_cmdBlkDecStart k
  | blkDecRead => exact moves_cmdBlkDecRead
  | blkCheckCrc => exact .get_bind fun _ => .bind (moves_setResult _) fun _ => moves_raiseWhen (by decide) _
  | strEncOpen k => exact moves_cmdStrEncOpen (.head _) k
  | strEncWrite => exact moves_cmdStrEncWrite
  | strEncFinish => exact moves_cmdStrEncFinish (.head _)
  | strDecOpen headerless => exact moves_cmdStrDecOpen (.head _) headerless
  | strDecRead => exact moves_strDecLoop 4
  | strClose => exact moves_setPhase (.head _)
  | coreReset => exact .pure ()

end Sys2Proof.Machine
end

section
/-! SUPPORT. What a command latches and where it moves STATE, from the moves of its checks and its body, and the obligation about it
(rules R290, R301, R310 to R312). -/

namespace Sys2Proof.Machine

/-! ### The states a body moves to, where its checks pass -/

theorem of_requireOk {ok : Bool} {e e' : Engine} (h : requireOk ok e = .ok () e') : ok = true := by
  cases ok
  · cases h
  · rfl

theorem checkStrEncOpen_eq (k : BitVec 4) (e : Engine) :
    checkStrEncOpen k e = requireOk (decide (1 ≤ k.toNat ∧ k.toNat ≤ 9) && e.frame.phase.quiet) e :=
  requireOk_bind_eq fun _ => rfl

/-- Where the checks pass, the states of `movesTo` are those of the table of transitions (rules R290, R301). -/
theorem movesTo_subset_ownPhases {i : Instr} {e e₀ : Engine} (hc : checksOf i e = .ok () e₀)
    (hi : i = .strDecRead → e.frame.phase ≠ .decComplete) : movesTo i ⊆ ownPhases e.frame.phase i := by
  cases i with
  | strEncOpen k =>
    have hquiet := (Bool.and_eq_true_iff.mp (of_requireOk ((checkStrEncOpen_eq k e).symm.trans hc))).2
    simp only [movesTo, ownPhases, if_pos (quiet_iff.mp hquiet), List.Subset.refl]
  | strEncFinish =>
    have hactive : e.frame.phase = .encActive := of_decide_eq_true (of_requireOk hc)
    simp only [movesTo, ownPhases, if_pos hactive, List.Subset.refl]
  | strDecOpen headerless =>
    have hquiet : e.frame.phase.quiet = true := of_requireOk hc
    simp only [movesTo, ownPhases, if_pos (quiet_iff.mp hquiet), List.Subset.refl]
  | strDecRead =>
    have hdecoding : e.frame.phase.decoding = true := of_requireOk hc
    have hreading : e.frame.phase = .decUninit ∨ e.frame.phase = .decBlockBoundary ∨ e.frame.phase = .decBlockActive := by
      simpa [hi rfl] using decoding_iff.mp hdecoding
    simp only [movesTo, ownPhases, if_pos hreading, readingPhases, List.Subset.refl]
  | strClose => exact List.Subset.refl _
  | _ => exact List.nil_subset _

theorem Cmd.MovesFrom.mono {α : Type} {c : Cmd α} {e : Engine} {ps ps' : List Phase} {ks : List ErrorKind} (h : c.MovesFrom e ps ks)
    (hps : ps ⊆ ps') : c.MovesFrom e ps' ks :=
  ⟨h.phase.imp_right fun hmem => hps hmem, h.raised⟩

/-- The body of an accepted command moves STATE as the table of transitions says; STR_DEC_READ at the end of a stream does not move it
(rule R299). -/
theorem bodyOf_movesFrom {i : Instr} {e e₀ : Engine} (hc : checksOf i e = .ok () e₀) :
    (bodyOf i).MovesFrom e.clearFlags (ownPhases e.frame.phase i) (ownErrors i) := by
  by_cases hdone : i = .strDecRead ∧ e.frame.phase = .decComplete
  · obtain ⟨rfl, hp⟩ := hdone
    exact .of_ok (strDecLoop_complete (e := e.clearFlags) 3 hp) (.inl rfl)
  · exact (moves_bodyOf i _).mono (movesTo_subset_ownPhases hc fun hi hp => hdone ⟨hi, hp⟩)

/-! ### The error latch over a body -/

/-- ERR and ERRCODE are as given. -/
def Engine.Latched (err : Bool) (code : Option ErrorKind) (e : Engine) : Prop := e.host.err = err ∧ e.frame.errcode = code

section
variable {err : Bool} {code : Option ErrorKind}

theorem dependsOn_latched : DependsOn [.err, .errcode] (Engine.Latched err code) := by
  intro e e' h he
  have herr : e.host.err = e'.host.err := h .err (by simp)
  have hcode : e.frame.errcode = e'.frame.errcode := h .errcode (by simp)
  rwa [Engine.Latched, herr, hcode] at he

/-- No piece of a body writes ERR or ERRCODE. -/
theorem piece_keeps_latched {α : Type} {W : List Reg} {c : Cmd α} (h : Piece W c) (ho : ∃ r ∈ W, r ∈ [Reg.err, .errcode]) :
    Cmd.Keeps (Engine.Latched err code) (Engine.Latched err code) c := by
  cases h with
  | _ => exact absurd ho (by decide)

end

theorem bodyOf_latched {i : Instr} {e e₀ : Engine} (hc : checksOf i e = .ok () e₀) :
    Meets (fun _ => Engine.Latched e.host.err e.frame.errcode) (Engine.Latched e.host.err e.frame.errcode) (bodyOf i e.clearFlags) :=
  meets_bodyOf (by decide) (by decide) dependsOn_latched (fun _ h => h) piece_keeps_latched hc ⟨rfl, rfl⟩

/-! ### The transition of a command -/

/-- What a command may do to ERR, ERRCODE and STATE, from `a` to `b`: an error latches only if none is, and only one of the command's
kinds; STATE moves as the table of transitions says; ERR stays until CORE_RESET (rules R290, R310 to R312). -/
structure Transition (i : Instr) (a b : Engine) : Prop where
  latch : b.frame.errcode = a.frame.errcode ∨ (i = .coreReset ∧ b.frame.errcode = none) ∨
    (a.frame.errcode = none ∧ b.host.err = true ∧ b.frame.phase = .error ∧ i ≠ .nop ∧ i ≠ .coreReset ∧
      ∃ k, b.frame.errcode = some k ∧ (k = .unsupportedOperation ∨ k ∈ ownErrors i))
  phase : b.frame.phase = a.frame.phase ∨ (b.frame.phase = .error ∧ i ≠ .nop ∧ i ≠ .coreReset) ∨
    b.frame.phase ∈ ownPhases a.frame.phase i
  err : a.host.err = true → i ≠ .coreReset → b.host.err = true

section
variable {i : Instr} {a b : Engine}

/-- With no error raised, only STATE can move. -/
theorem Transition.of_latched (h : b.Latched a.host.err a.frame.errcode)
    (hp : b.frame.phase = a.frame.phase ∨ b.frame.phase ∈ ownPhases a.frame.phase i) : Transition i a b :=
  ⟨.inl h.2, hp.imp_right .inr, fun herr _ => h.1.trans herr⟩

/-- An error raised sets ERR and STATE, and ERRCODE if none is latched (rules R311, R312). -/
theorem Transition.of_raiseError {k : ErrorKind} (hn : i ≠ .nop) (hr : i ≠ .coreReset)
    (h : b.Latched a.host.err a.frame.errcode) (hk : k = .unsupportedOperation ∨ k ∈ ownErrors i) :
    Transition i a (b.raiseError k) := by
  refine ⟨?_, .inr (.inl ⟨rfl, hn, hr⟩), fun _ _ => rfl⟩
  cases hcode : a.frame.errcode with
  | none => exact .inr (.inr ⟨rfl, rfl, rfl, hn, hr, k, by rw [Engine.raiseError_frame_errcode, h.2, hcode]; rfl, hk⟩)
  | some k' => exact .inl (by rw [Engine.raiseError_frame_errcode, h.2, hcode]; rfl)

/-- However a computation of a command ends, from an engine with the error latch and STATE of the machine. -/
theorem transition_of_finish {s t : State} {e : Engine} {c : Cmd Unit} (hn : i ≠ .nop) (hr : i ≠ .coreReset)
    (he : e.frame.phase = s.frame.phase) (hm : c.MovesFrom e (ownPhases s.frame.phase i) (ownErrors i))
    (hx : Meets (fun _ => Engine.Latched s.host.err s.frame.errcode) (Engine.Latched s.host.err s.frame.errcode) (c e))
    (h : finish i s (c e) = .next t) : Transition i s.toEngine t.toEngine := by
  obtain ⟨hphase, hraised⟩ := hm
  rw [he] at hphase
  cases hce : c e with
  | ok u e' =>
    rw [hce] at h hx
    cases h
    exact .of_latched hx (Cmd.after_ok hce ▸ hphase)
  | error r e' =>
    rw [hce] at h hx
    cases r with
    | raised k =>
      cases h
      exact .of_raiseError hn hr hx (hraised k e' hce)
    | hold w =>
      cases h
      exact .of_latched hx (Cmd.after_error hce ▸ hphase)
    | fault f => cases h

/-- Every command but NOP and CORE_RESET (rules R301, R313, R314). -/
theorem transition_of_runCommand {s t : State} (hn : i ≠ .nop) (hr : i ≠ .coreReset)
    (h : runCommand i (checksOf i) (bodyOf i) s = .next t) : Transition i s.toEngine t.toEngine := by
  rcases runCommand_cases i (checksOf i) (bodyOf i) s with ⟨-, h'⟩ | ⟨-, h'⟩ | ⟨-, r, e₀, hc, h'⟩ | ⟨-, e₀, hc, h'⟩ <;> rw [h'] at h
  · cases h
    exact .of_latched ⟨rfl, rfl⟩ (.inl rfl)
  · cases h
    exact .of_raiseError hn hr ⟨rfl, rfl⟩ (.inl rfl)
  · have hkind : ∀ k, r = .raised k → k = .unsupportedOperation ∨ k ∈ ownErrors i := fun k hk =>
      .inl (((moves_checksOf i _).raised k e₀ (hk ▸ hc)).resolve_right List.not_mem_nil)
    exact transition_of_finish (c := throw r) (e := s.toEngine) hn hr rfl (.of_error rfl (.inl rfl) hkind)
      (meets_stop ⟨rfl, rfl⟩) h
  · exact transition_of_finish (e := s.begun) hn hr rfl (bodyOf_movesFrom hc) (bodyOf_latched hc) h

/-- Every command, in every state. -/
theorem transition_of_exec {s t : State} (h : exec i s = .next t) : Transition i s.toEngine t.toEngine := by
  by_cases hn : i = .nop
  · subst hn
    cases h
    exact .of_latched ⟨rfl, rfl⟩ (.inl rfl)
  by_cases hr : i = .coreReset
  · subst hr
    cases h
    exact ⟨.inr (.inl ⟨rfl, rfl⟩), .inr (.inr (List.mem_singleton.mpr rfl)), fun _ hne => absurd rfl hne⟩
  · exact transition_of_runCommand hn hr (exec_eq_runCommand hn hr s ▸ h)

end

/-- Settles O51: the checks raise UnsupportedOperation only, no piece of a body writes the error latch, and each body moves STATE and
raises as the pieces it is composed of do. -/
theorem errorsAndTransitions : Obligations.ErrorsAndTransitions := by
  unfold Obligations.ErrorsAndTransitions
  intro i s t h
  obtain ⟨hlatch, hphase, herr⟩ := transition_of_exec h
  exact ⟨hlatch, hphase, herr⟩

end Sys2Proof.Machine
end
